-- ==== Sys2Proof/Word.lean ====
section
/-!
DEFINITION. Word.lean: the widths the spec fixes (00_scope.md R7, R8, R10, R11) and the record an arena slot holds
(10_state.md R31). Every integer of the block is unsigned (R11).
-/
namespace Sys2Proof

/-- One byte of IN or OUT, and the width of a command (R10, R90). -/
abbrev Byte := BitVec 8

/-- A symbol: a byte value 0 to 255 (R14). -/
abbrev Symbol := BitVec 8

/-- The 64-bit operand registers and the data of the register port (R10, R21, R28). -/
abbrev Reg := BitVec 64

/-- An occurrence counter of FREQ, 64 bits (R10, R30). -/
abbrev Counter := BitVec 64

/-- A node weight, 72 bits (R10, R31). -/
abbrev Weight := BitVec 72

/-- A node index, 9 bits (R10, R31). -/
abbrev NodeIdx := BitVec 9

/-- A bit sequence, first bit first (R11). `false` is the bit 0, `true` the bit 1. -/
abbrev BitSeq := List Bool

/-- What a valid slot of NODE holds beside its valid bit (R31). A slot whose valid bit is 0 holds no such record
(State.node lists `none` there). -/
structure Node where
  leaf   : Bool
  weight : Weight
  left   : NodeIdx
  right  : NodeIdx
deriving DecidableEq, Repr, Inhabited

end Sys2Proof
end

