-- ==== Sys2Proof/Config.lean ====
section
/-!
DEFINITION. Config.lean: what an implementation of the block fixes (00_scope.md R9) and the FREE VALUES, the values the
spec calls unspecified (10_state.md R42, 20_memory.md R75, 60_exceptions.md R214, 93_implementation_defined.md U11 to U16).

The parameters are data (log entry 1): the machine carries them in its state, no step changes them, and a statement about
every state is a statement about every choice of them.

A free value is an opaque constant WITHOUT A BODY, applied to a plain counter or to an epoch and an index, so that no
proof can learn anything about it (log entry 3).
-/
namespace Sys2Proof

/-- The open parameters IN_CAP, OUT_CAP, BIT_CAP and MAGIC (R9, decisions D3 and D4). -/
structure Params where
  inCap  : Nat
  outCap : Nat
  bitCap : Nat
  magic  : Vector Byte 4
deriving DecidableEq, Repr

/-- The parameters the reset state carries: the default tag `48 55 46 31` (R9) and the largest capacities the 64-bit
length registers can count (log entry 2, DESIGN CHOICE). -/
def Params.standard : Params where
  inCap  := 2 ^ 64 - 1
  outCap := 2 ^ 64 - 1
  bitCap := 2 ^ 64 - 1
  magic  := #v[0x48, 0x55, 0x46, 0x31]

/-- What cell `index` of IN holds while nothing has written it since its contents last became unspecified (epoch). -/
opaque Config.freeIn : (epoch index : Nat) → Byte
/-- What cell `index` of OUT holds while nothing has written it in this epoch. -/
opaque Config.freeOut : (epoch index : Nat) → Byte
/-- What cell `index` of BIT holds while nothing has written it in this epoch. -/
opaque Config.freeBit : (epoch index : Nat) → Bool
/-- The fields a command would read from an arena slot whose valid bit is 0 (R42). -/
opaque Config.freeNode : (index : Nat) → Node
/-- The bits a command would read from a code slot whose valid bit is 0 (R42). -/
opaque Config.freeCode : (index : Nat) → BitSeq

/-- Operand register number `reg` after a fault (R214). -/
opaque Config.faultReg : (count reg : Nat) → Reg
/-- The fields ROOT, RV and NEXT after a fault (R214). -/
opaque Config.faultTree : (count : Nat) → NodeIdx × Bool × NodeIdx
/-- FREQ after a fault (R214). -/
opaque Config.faultFreq : (count index : Nat) → Counter
/-- NODE after a fault (R214). -/
opaque Config.faultNode : (count index : Nat) → Option Node
/-- HEAP with HSZ after a fault (R214). -/
opaque Config.faultHeap : (count : Nat) → List NodeIdx
/-- CODE after a fault (R214). -/
opaque Config.faultCode : (count index : Nat) → Option BitSeq
/-- ORDER with NENT after a fault (R214). -/
opaque Config.faultOrder : (count : Nat) → List Symbol

/-- What an unspecified host read of a register returns (R27). -/
opaque Config.readReg : (count : Nat) → Reg
/-- What an unspecified host read of a byte element returns (R61, R75). -/
opaque Config.readByte : (count : Nat) → Byte
/-- What an unspecified host read of BIT returns (R61, R75). -/
opaque Config.readBit : (count : Nat) → Bool
/-- What an unspecified host read of FREQ returns (R61). -/
opaque Config.readCounter : (count : Nat) → Counter
/-- What an unspecified host read of HEAP returns (R32, R61). -/
opaque Config.readIdx : (count : Nat) → NodeIdx
/-- The fields other than `valid` that an unspecified host read of NODE returns (R61, R75). -/
opaque Config.readNode : (count : Nat) → Node
/-- The bits an unspecified host read of CODE returns (R61, R75). -/
opaque Config.readCode : (count : Nat) → BitSeq
/-- A `valid` bit an unspecified host read returns (R61). -/
opaque Config.readValid : (count : Nat) → Bool

end Sys2Proof
end

