-- ==== Sys2Proof/Syntax.lean ====
section
/-!
DEFINITION. Syntax.lean: the seventeen commands of spec/opcode_table.json (30_encoding.md R92), one constructor a row.
No command carries an operand: every operand is an implicit register or space (R91).
-/
namespace Sys2Proof

/-- The commands, in the order of the opcode map (R92). -/
inductive Instr where
  /-- R115. -/
  | nop
  /-- R116. -/
  | sreset
  /-- R133. -/
  | pack
  /-- R134. -/
  | unpack
  /-- R141. -/
  | tser
  /-- R142. -/
  | tdes
  /-- R157. -/
  | tinit
  /-- R158. -/
  | tmerge
  /-- R159. -/
  | tbuild
  /-- R162. -/
  | genc
  /-- R180. -/
  | fcnt
  /-- R181. -/
  | bgen
  /-- R183. -/
  | bdec
  /-- R184. -/
  | encode
  /-- R185. -/
  | decode
  /-- R201. -/
  | compress
  /-- R202. -/
  | decompress
deriving DecidableEq, Repr

end Sys2Proof
end

