-- ==== Sys2Proof/WellFormed.lean ====
section
/-!
DEFINITION. WellFormed.lean: the checks on instructions and on parameters. A command has no field (30_encoding.md R91), so
no instruction term is ill formed. The parameters have the constraints of 00_scope.md R9, and the bound 2^64 that
40_common_and_control.md R112 (f) relies on for OUT_CAP and BIT_CAP (log entry 2).
-/
namespace Sys2Proof

/-- Every command term is well formed: there is no immediate, no register number and no field to check (R91). -/
def Instr.wf : Instr → Bool
  | _ => true

/-- `1 ≤ IN_CAP < 2^64` (R9). -/
def Params.inCapOk (p : Params) : Bool := decide (1 ≤ p.inCap ∧ p.inCap < 2 ^ 64)

/-- `OUT_CAP ≥ 15` (R9), and below 2^64 so that OLEN + 1 does not wrap (R112 (f)). -/
def Params.outCapOk (p : Params) : Bool := decide (15 ≤ p.outCap ∧ p.outCap < 2 ^ 64)

/-- `BIT_CAP ≥ 8` (R9), and below 2^64 so that BLEN + 1 does not wrap (R112 (f)). -/
def Params.bitCapOk (p : Params) : Bool := decide (8 ≤ p.bitCap ∧ p.bitCap < 2 ^ 64)

/-- The parameters meet R9. -/
def Params.wf (p : Params) : Bool := p.inCapOk && p.outCapOk && p.bitCapOk

end Sys2Proof
end

