-- ==== Sys2Proof/Decode.lean ====
section
/-!
DEFINITION. Decode.lean: the one format C8 (30_encoding.md R90), the opcode map (R92), the decoder, total on every byte and
rejecting by name (R93), and after it the encoder.
-/
namespace Sys2Proof

/-- Why a command is rejected. -/
inductive Reject where
  /-- There is no byte to decode. -/
  | noByte
  /-- The byte is none of the seventeen opcodes (R93). -/
  | illegalCmd (c : Byte)
deriving DecidableEq, Repr

/-- One row of the opcode map: the fields `grp` (bits 7:4) and `fn` (bits 3:0) and the command they select (R90, R92). -/
structure OpcodeRow where
  grp   : BitVec 4
  fn    : BitVec 4
  instr : Instr
deriving DecidableEq, Repr

/-- The opcode map (R92), row by row. -/
def opcodeMap : List OpcodeRow :=
  [⟨0, 0, .nop⟩, ⟨0, 1, .sreset⟩,
   ⟨1, 0, .pack⟩, ⟨1, 1, .unpack⟩,
   ⟨2, 0, .tser⟩, ⟨2, 1, .tdes⟩] ++
  [⟨3, 0, .tinit⟩, ⟨3, 1, .tmerge⟩, ⟨3, 2, .tbuild⟩, ⟨3, 3, .genc⟩] ++
  [⟨4, 0, .fcnt⟩, ⟨4, 1, .bgen⟩, ⟨4, 2, .bdec⟩, ⟨4, 3, .encode⟩, ⟨4, 4, .decode⟩,
   ⟨5, 0, .compress⟩, ⟨5, 1, .decompress⟩]

/-- Bits 7:4 of a command (R90). -/
def grpField (c : Byte) : BitVec 4 := c.extractLsb' 4 4

/-- Bits 3:0 of a command (R90). -/
def fnField (c : Byte) : BitVec 4 := c.extractLsb' 0 4

/-- The decoder: `grp` and `fn` looked up together in the opcode map; every other byte is illegal (R90, R93). -/
def decode (c : Byte) : Except Reject Instr :=
  match opcodeMap.find? (fun r => r.grp = grpField c ∧ r.fn = fnField c) with
  | some r => .ok r.instr
  | none => .error (.illegalCmd c)

/-- Decoding the first command of a list of bytes, with the bytes that follow it. All commands have the length of one
byte (R90). -/
def decodeBytes : List Byte → Except Reject (Instr × List Byte)
  | [] => .error .noByte
  | c :: rest => (decode c).map (fun i => (i, rest))

/-- The opcode byte `grp ++ fn` of each command, from the opcode map (R90, R92). -/
def encode (i : Instr) : Byte :=
  match i with
  | .nop        => 0x0#4 ++ 0x0#4
  | .sreset     => 0x0#4 ++ 0x1#4
  | .pack       => 0x1#4 ++ 0x0#4
  | .unpack     => 0x1#4 ++ 0x1#4
  | .tser       => 0x2#4 ++ 0x0#4
  | .tdes       => 0x2#4 ++ 0x1#4
  | .tinit      => 0x3#4 ++ 0x0#4
  | .tmerge     => 0x3#4 ++ 0x1#4
  | .tbuild     => 0x3#4 ++ 0x2#4
  | .genc       => 0x3#4 ++ 0x3#4
  | .fcnt       => 0x4#4 ++ 0x0#4
  | .bgen       => 0x4#4 ++ 0x1#4
  | .bdec       => 0x4#4 ++ 0x2#4
  | .encode     => 0x4#4 ++ 0x3#4
  | .decode     => 0x4#4 ++ 0x4#4
  | .compress   => 0x5#4 ++ 0x0#4
  | .decompress => 0x5#4 ++ 0x1#4

/-- The byte that a table word `w` of `nbits` bits stands for: the bits above `nbits` are 0. -/
def tableByte (nbits w : Nat) : Byte := BitVec.ofNat 8 (w % 2 ^ nbits)

/-- What the decoder reads from a word numbered as spec/opcode_table.json numbers it. Every row has 8 bits. -/
def decodeTableWord (nbits w : Nat) : Option Instr :=
  if nbits ≤ 8 then (decode (tableByte nbits w)).toOption else none

end Sys2Proof
end

