-- ==== Sys2Proof/Machine/Bits.lean ====
section
/-!
DEFINITION. Machine/Bits.lean: bit order, byte order and the two functions of the bit packer (00_scope.md R11, R12;
20_memory.md R62; 41_bit_packer.md R130, R131).
-/
namespace Sys2Proof.Machine

open Sys2Proof

/-- `ceil8(n)`: the number of bytes that hold n bits (R12, R112 (d)). -/
def ceil8 (n : Nat) : Nat := (n + 7) / 8

/-- The pad count of n bits, `(8 − n mod 8) mod 8` (R112 (c), R130). -/
def padCount (n : Nat) : Nat := (8 - n % 8) % 8

/-- `bits8(x)`: the bits of a byte, bit 7 first (R12). -/
def bits8 (x : Byte) : BitSeq :=
  [x.getLsbD 7, x.getLsbD 6, x.getLsbD 5, x.getLsbD 4, x.getLsbD 3, x.getLsbD 2, x.getLsbD 1, x.getLsbD 0]

/-- The number a bit sequence writes, its first bit the most significant. -/
def bitsVal (l : BitSeq) : Nat := l.foldl (fun acc b => 2 * acc + b.toNat) 0

/-- `byte(l)`: the byte whose bits, bit 7 first, are the eight bits of l (R12). -/
def byteOf (l : BitSeq) : Byte := BitVec.ofNat 8 (bitsVal l)

/-- `pack(bits)`, its bytes (R130): trailing zero bits up to a multiple of 8, then one byte per eight bits. -/
def packBytes (bits : BitSeq) : List Byte :=
  let n := bits.length
  let p := padCount n
  let ext := bits ++ List.replicate p false
  (List.range ((n + p) / 8)).map fun k => byteOf ((ext.drop (8 * k)).take 8)

/-- How many bits `unpack` keeps of m bytes: `max(0, 8*m - p)` (R112 (e), R131). Subtraction of naturals stops at 0. -/
def keptBits (m p : Nat) : Nat := 8 * m - p

/-- `unpack(bytes, pad_count)` (R131). -/
def unpackBits (bytes : List Byte) (p : Nat) : BitSeq :=
  (bytes.flatMap bits8).take (keptBits bytes.length p)

/-- `be(v, n)`: the n bytes of v, the most significant first (R11, R12). -/
def be (v n : Nat) : List Byte := (List.range n).map fun k => BitVec.ofNat 8 (v / 256 ^ (n - 1 - k))

/-- `unbe(l)`: the number a byte list writes, its first byte the most significant (R12). -/
def unbe (l : List Byte) : Nat := l.foldl (fun acc x => 256 * acc + x.toNat) 0

end Sys2Proof.Machine
end

