-- ==== Sys2Proof/Machine/State.lean ====
section
/-!
DEFINITION. Machine/State.lean: the state of the block (10_state.md R20 to R40), plain data, and its reset value (R42).

Beside what the spec names, State holds four fields of the MODEL'S OWN: the parameters (log entry 1), the counter of the
free values (log entry 3), the host's pending accesses (log entry 4) and what the host port last returned (log entry 5).
-/
namespace Sys2Proof.Machine

open Sys2Proof

/-- The five fault causes a command can raise (60_exceptions.md R211). They are taken by fault entry (R214), a NEXT state. -/
inductive Cause where
  /-- Raised by DECOMPRESS (R212). -/
  | formatError
  /-- Raised by BDEC and TDES (R213). -/
  | corruptStream
  /-- Raised by the command cycle for an undefined opcode (R215). -/
  | illegalCmd
  /-- Raised at the end of OUT or BIT (R216). -/
  | capacity
  /-- Raised by the operand checks, GENC and BGEN (R217). -/
  | precond
deriving DecidableEq, Repr

/-- What stops the MODEL. No command of the block stops it in a state that meets the invariants of R41. -/
inductive Fault where
  /-- Raised by GENC (and by ENCODE and COMPRESS through it) when the walk passes 255 levels without meeting a leaf, which
  only a NODE space that breaks R41 can cause. The spec says such a code cannot arise and has no fault for it (U3, R143).
  Safe: the model stops where the spec gives no effect (log entry 6). -/
  | treeTooDeep
deriving DecidableEq, Repr

/-- What the model refuses. -/
inductive Refusal where
  /-- Raised by an arm of exec whose instruction has no meaning yet. No arm does. Safe. -/
  | notModelled (mnemonic : String)
deriving DecidableEq, Repr

/-- The cells of a buffer: pairs of index and element, the indices strictly rising, an index not listed holding no known
value. `epoch` counts how often the contents as a whole became unspecified, and names the free values that unlisted cells
read as (log entry 3). -/
structure Mem (α : Type) where
  cells : List (Nat × α)
  epoch : Nat
deriving DecidableEq, Repr

/-- The eight spaces (20_memory.md R60), in the order of their ids. -/
inductive Space where
  | inp | out | bit | freq | node | heap | code | order
deriving DecidableEq, Repr

/-- An element of a space, as the host port carries it; the constructor names the space (R60, R61). A NODE element is the
record valid, leaf, weight, left, right (R31). A CODE element is the record valid, len, bits (R34), where `len` is the
length of `bits`. -/
inductive Elem where
  | inp (x : Byte)
  | out (x : Byte)
  | bit (b : Bool)
  | freq (v : Counter)
  | node (valid : Bool) (n : Node)
  | heap (n : NodeIdx)
  | code (valid : Bool) (bits : BitSeq)
  | order (s : Symbol)
deriving DecidableEq, Repr

/-- One access of the host to the block (R20, R28, R61, 70_reset_and_hazards.md R240). A write of register 0x02 is a
command (R26). -/
inductive HostAccess where
  /-- A write of `v` to register number `n`. -/
  | writeReg (n : BitVec 8) (v : Reg)
  /-- A read of register number `n`. -/
  | readReg (n : BitVec 8)
  /-- HostWrite of the element `e` at `index` of its space. -/
  | writeSpace (index : Nat) (e : Elem)
  /-- HostRead of the element at `index` of `space`. -/
  | readSpace (space : Space) (index : Nat)
  /-- The reset input becomes active. -/
  | rst
deriving DecidableEq, Repr

/-- What the host port returns for a read. -/
inductive PortData where
  | reg (v : Reg)
  | elem (e : Elem)
deriving DecidableEq, Repr

/-- The state of the block. -/
structure State where
  /-- STATUS.BUSY, bit 0 of register 0x00 (R24). -/
  busy  : Bool
  /-- STATUS.FAULT, bit 1 of register 0x00 (R24). -/
  fault : Bool
  /-- ERR, register 0x01 (R25). -/
  err   : BitVec 8
  /-- ILEN, register 0x10 (R21, R36). -/
  ilen  : Reg
  /-- IOFF, register 0x11 (R21, R36). -/
  ioff  : Reg
  /-- OLEN, register 0x12 (R21, R37). -/
  olen  : Reg
  /-- BLEN, register 0x13 (R21, R38). -/
  blen  : Reg
  /-- LEN, register 0x14 (R21, R39). -/
  len   : Reg
  /-- PAD, register 0x15 (R21, R39). -/
  pad   : BitVec 8
  /-- ROOT, bits 8:0 of TREE, register 0x18 (R33). -/
  root  : NodeIdx
  /-- RV, bit 9 of TREE (R33). -/
  rv    : Bool
  /-- NEXT, bits 18:10 of TREE (R33). -/
  next  : NodeIdx
  /-- The space IN (R36). -/
  inp   : Mem Byte
  /-- The space OUT (R37). -/
  out   : Mem Byte
  /-- The space BIT (R38). -/
  bit   : Mem Bool
  /-- The space FREQ (R30). -/
  freq  : Vector Counter 256
  /-- The space NODE (R31). `none` is a slot whose valid bit is 0. -/
  node  : Vector (Option Node) 511
  /-- `HEAP[0..HSZ)` (R32). Its length is HSZ, register 0x17. The slots from HSZ on are not part of the structure. -/
  heap  : List NodeIdx
  /-- The space CODE (R34). `none` is a slot whose valid bit is 0. The length of the bits is the field `len`. -/
  code  : Vector (Option BitSeq) 256
  /-- `ORDER[0..NENT)` (R35). Its length is NENT, register 0x16. -/
  order : List Symbol
  /-- MODEL'S OWN: the open parameters (R9), which no step changes. -/
  params : Params
  /-- MODEL'S OWN: how many free values have been taken (log entry 3). -/
  fresh : Nat
  /-- MODEL'S OWN: the host's accesses still to come, the next one first (log entry 4). -/
  script : List HostAccess
  /-- MODEL'S OWN: what the host port returned for the last read, if there was one (log entry 5). -/
  port  : Option PortData
deriving DecidableEq, Repr

/-- The state after a hardware reset (R42): every length and counter 0, NEXT = 256, no valid node, no valid code, nothing
known of the contents of IN, OUT and BIT. No access of the host is pending. -/
def State.reset : State where
  busy := false
  fault := false
  err := 0
  ilen := 0
  ioff := 0
  olen := 0
  blen := 0
  len := 0
  pad := 0
  root := 0
  rv := false
  next := 256
  inp := { cells := [], epoch := 0 }
  out := { cells := [], epoch := 0 }
  bit := { cells := [], epoch := 0 }
  freq := Vector.replicate 256 0
  node := Vector.replicate 511 none
  heap := []
  code := Vector.replicate 256 none
  order := []
  params := Params.standard
  fresh := 0
  script := []
  port := none

end Sys2Proof.Machine
end

