-- ==== Sys2Proof/Machine/Flags.lean ====
section
/-!
DEFINITION. Machine/Flags.lean: the registers that are views of State (10_state.md R21, R24, R33) and the one flag a
command computes, RV (43_tree_builder.md R163). There are no condition codes (R23).
-/
namespace Sys2Proof.Machine

open Sys2Proof

/-- STATUS as the host reads it: bit 0 BUSY, bit 1 FAULT, bits 7:2 zero (R24). -/
def State.statusWord (s : State) : BitVec 8 := 0#6 ++ BitVec.ofBool s.fault ++ BitVec.ofBool s.busy

/-- TREE as the host reads it: bits 8:0 ROOT, bit 9 RV, bits 18:10 NEXT (R21, R33). -/
def State.treeWord (s : State) : BitVec 19 := s.next ++ BitVec.ofBool s.rv ++ s.root

/-- HSZ, the number of nodes in the heap (R21, R32). -/
def State.hsz (s : State) : BitVec 9 := BitVec.ofNat 9 s.heap.length

/-- NENT, the number of entries in the code table (R21, R35). -/
def State.nent (s : State) : BitVec 9 := BitVec.ofNat 9 s.order.length

/-- The cause codes of ERR (60_exceptions.md R211). -/
def Cause.errCode : Cause → BitVec 8
  | .formatError => 1
  | .corruptStream => 2
  | .illegalCmd => 3
  | .capacity => 4
  | .precond => 5

/-- `set_root` (R163): RV and ROOT show whether one node remains, and which. -/
def setRoot (s : State) : State :=
  match s.heap with
  | [r] => { s with rv := true, root := r }
  | _ => { s with rv := false, root := 0 }

end Sys2Proof.Machine
end

