-- ==== Sys2Proof/Machine/Ops.lean ====
section
/-!
DEFINITION. Machine/Ops.lean: the cells of a buffer; the four buffer primitives (20_memory.md R70 to R73); reading a slot
that may be invalid; FAULT ENTRY (60_exceptions.md R214) and RECOVERY from it (R220, 70_reset_and_hazards.md R240) as one
operation each; and the command cycle every defined command runs in (40_common_and_control.md R110).
-/
namespace Sys2Proof.Machine

open Sys2Proof

/-! ### The cells of a buffer -/

/-- The value listed for an index. -/
def cellGet {α : Type} : List (Nat × α) → Nat → Option α
  | [], _ => none
  | (k, v) :: rest, i => if i = k then some v else cellGet rest i

/-- The list with `v` at index `i`, in rising order. -/
def cellSet {α : Type} : List (Nat × α) → Nat → α → List (Nat × α)
  | [], i, v => [(i, v)]
  | (k, w) :: rest, i, v =>
    if i < k then (i, v) :: (k, w) :: rest
    else if i = k then (i, v) :: rest
    else (k, w) :: cellSet rest i v

/-- The value known of cell `i`. -/
def Mem.get? {α : Type} (m : Mem α) (i : Nat) : Option α := cellGet m.cells i

/-- Cell `i` takes the value `v`. -/
def Mem.set {α : Type} (m : Mem α) (i : Nat) (v : α) : Mem α := { m with cells := cellSet m.cells i v }

/-- All contents become unspecified. -/
def Mem.forget {α : Type} (m : Mem α) : Mem α := { cells := [], epoch := m.epoch + 1 }

/-- The cells of a buffer whose length a command sets to 0 from `len`. Where that lowers the length, the elements beyond the
new length, here all of them, become unspecified; a length that was 0 is not lowered and the cells stay (R75). -/
def Mem.restart {α : Type} (m : Mem α) (len : Reg) : Mem α := if len = 0 then m else m.forget

/-- The canonical form: the indices strictly rise. An unlisted cell has no known value, so no entry can equal what an
unlisted cell holds. -/
def Mem.wf {α : Type} (m : Mem α) : Bool := decide ((m.cells.map Prod.fst).Pairwise (· < ·))

/-! ### What a command can end in -/

/-- How a command's pseudocode ends early: it raises a fault of the spec, or the model itself stops. -/
inductive Stop where
  | raise (c : Cause)
  | stuck (f : Fault)
deriving DecidableEq, Repr

/-- The effect of a command's pseudocode: a next state or an early end (00_scope.md R13). -/
abbrev Run := Except Stop State

/-- `raise c` (R12, R210). -/
def raise {α : Type} (c : Cause) : Except Stop α := .error (.raise c)

/-! ### The buffer primitives -/

/-- `IN[i]`. A cell nothing has written reads as its free value (R42, R75). -/
def State.inRead (s : State) (i : Nat) : Byte := (s.inp.get? i).getD (Config.freeIn s.inp.epoch i)

/-- `OUT[i]`. No command reads it (R60). -/
def State.outRead (s : State) (i : Nat) : Byte := (s.out.get? i).getD (Config.freeOut s.out.epoch i)

/-- `BIT[i]`. -/
def State.bitRead (s : State) (i : Nat) : Bool := (s.bit.get? i).getD (Config.freeBit s.bit.epoch i)

/-- `OUT[OLEN] <- x; OLEN <- OLEN + 1`. -/
def putOut (x : Byte) (s : State) : State := { s with out := s.out.set s.olen.toNat x, olen := s.olen + 1 }

/-- `OutAppend(x)` (R71). -/
def outAppend (x : Byte) (s : State) : Run :=
  if s.params.outCap ≤ s.olen.toNat then raise .capacity else .ok (putOut x s)

/-- `OutAppendAll(l)` (R71). -/
def outAppendAll : List Byte → State → Run
  | [], s => .ok s
  | x :: rest, s => do
    let s ← outAppend x s
    outAppendAll rest s

/-- `repeat n times: OutAppend(x)`. -/
def outAppendTimes (x : Byte) : Nat → State → Run
  | 0, s => .ok s
  | n + 1, s => do
    let s ← outAppend x s
    outAppendTimes x n s

/-- `BIT[BLEN] <- b; BLEN <- BLEN + 1`. -/
def putBit (b : Bool) (s : State) : State := { s with bit := s.bit.set s.blen.toNat b, blen := s.blen + 1 }

/-- `BitAppend(b)` (R72). -/
def bitAppend (b : Bool) (s : State) : Run :=
  if s.params.bitCap ≤ s.blen.toNat then raise .capacity else .ok (putBit b s)

/-- `BitAppend` of each bit of a sequence in order. -/
def bitAppendAll : BitSeq → State → Run
  | [], s => .ok s
  | b :: rest, s => do
    let s ← bitAppend b s
    bitAppendAll rest s

/-- `OLEN <- 0` in a command (R37, R75, log entry 12). -/
def restartOut (s : State) : State := { s with olen := 0, out := s.out.restart s.olen }

/-- `BLEN <- 0` in a command (R75, log entry 12). -/
def restartBit (s : State) : State := { s with blen := 0, bit := s.bit.restart s.blen }

/-! ### The scalar registers a command writes -/

/-- `IOFF <- v`. -/
def setIoff (v : Reg) (s : State) : State := { s with ioff := v }

/-- `LEN <- v`. -/
def setLen (v : Reg) (s : State) : State := { s with len := v }

/-- `PAD <- v`. -/
def setPad (v : BitVec 8) (s : State) : State := { s with pad := v }

/-- All of FREQ takes the counters f. -/
def setFreq (f : Vector Counter 256) (s : State) : State := { s with freq := f }

/-! ### Slots that may be invalid -/

/-- The record of slot `n` of NODE, if its valid bit is 1. -/
def State.slot (s : State) (n : Nat) : Option Node := (s.node[n]?).join

/-- The record fields of `NODE[n]`. Those of an invalid slot are free (R42), and no command's result depends on one in a
state that meets R41. -/
def State.nodeRead (s : State) (n : NodeIdx) : Node := (s.slot n.toNat).getD (Config.freeNode n.toNat)

/-- The entry of symbol `c` in the code table, if its valid bit is 1. -/
def State.codeAt (s : State) (c : Symbol) : Option BitSeq := s.code[c.toNat]

/-- The bits of `CODE[c]`. Those of an invalid slot are free (R42). -/
def State.codeRead (s : State) (c : Symbol) : BitSeq := (s.codeAt c).getD (Config.freeCode c.toNat)

/-- `CODE[c] <- (valid 1, len(bits), bits)`. -/
def setCode (c : Symbol) (bits : BitSeq) (s : State) : State := { s with code := s.code.set c.toNat (some bits) }

/-- `for all s: CODE[s].valid <- 0` and `NENT <- 0`. -/
def clearTable (s : State) : State := { s with code := Vector.replicate 256 none, order := [] }

/-- `ORDER[NENT] <- c` and `NENT <- NENT + 1`. -/
def pushOrder (c : Symbol) (s : State) : State := { s with order := s.order ++ [c] }

/-- `FREQ[c]`. -/
def State.freqAt (s : State) (c : Symbol) : Counter := s.freq[c.toNat]

/-! ### Fault entry and recovery -/

/-- All state other than STATUS and ERR becomes unspecified (R214): every operand register, IN, OUT, BIT, FREQ, the tree
and the table take free values. -/
def unspecifyData (s : State) : State :=
  { s with
    ilen := Config.faultReg s.fresh 0x10
    ioff := Config.faultReg s.fresh 0x11
    olen := Config.faultReg s.fresh 0x12
    blen := Config.faultReg s.fresh 0x13
    len := Config.faultReg s.fresh 0x14
    pad := (Config.faultReg s.fresh 0x15).setWidth 8
    root := (Config.faultTree s.fresh).1
    rv := (Config.faultTree s.fresh).2.1
    next := (Config.faultTree s.fresh).2.2
    inp := s.inp.forget
    out := s.out.forget
    bit := s.bit.forget
    freq := Vector.ofFn fun i => Config.faultFreq s.fresh i.val
    node := Vector.ofFn fun i => Config.faultNode s.fresh i.val
    heap := Config.faultHeap s.fresh
    code := Vector.ofFn fun i => Config.faultCode s.fresh i.val
    order := Config.faultOrder s.fresh
    fresh := s.fresh + 1 }

/-- FAULT ENTRY with cause c (R214): `ERR <- code(c); STATUS.FAULT <- 1; STATUS.BUSY <- 0`. For ILLEGAL_CMD nothing else
changes; for every other cause all state other than STATUS and ERR becomes unspecified. There is no saved return address,
no mode change and no handler in the block. -/
def faultEntry (c : Cause) (s : State) : State :=
  match c with
  | .illegalCmd => { s with err := c.errCode, fault := true, busy := false }
  | _ => { unspecifyData s with err := c.errCode, fault := true, busy := false }

/-- RECOVERY: every piece of state takes its reset value (R42, R116, R220, R240). The contents of IN, OUT and BIT become
unspecified, and the model's own fields stay. -/
def resetFrom (s : State) : State :=
  { State.reset with
    inp := s.inp.forget
    out := s.out.forget
    bit := s.bit.forget
    params := s.params
    fresh := s.fresh + 1
    script := s.script
    port := s.port }

/-! ### The command cycle -/

/-- The command cycle for a defined command other than SRESET (R110): ignored while busy (R243), refused with no state
change while faulted (R220), else its pseudocode is run to its end and a raised fault is entered with. A command is one
indivisible step, so BUSY is never seen as 1 (R24, R110). -/
def commandCycle (run : State → Run) (s : State) : Host.Outcome State Fault Refusal :=
  if s.busy then .next s
  else if s.fault then .next s
  else
    match run s with
    | .ok t => .next t
    | .error (.raise c) => .next (faultEntry c s)
    | .error (.stuck f) => .fault f

/-- The command cycle for SRESET, the one command accepted while FAULT is 1 (R110, R116, R220). -/
def resetCycle (s : State) : Host.Outcome State Fault Refusal :=
  if s.busy then .next s else .next (resetFrom s)

/-- The command cycle for a byte that is no opcode: ILLEGAL_CMD before anything else is looked at, unless the block is busy
or faulted (R93, R110, R215, R219, R220). -/
def illegalCycle (s : State) : Host.Outcome State Fault Refusal :=
  if s.busy then .next s
  else if s.fault then .next s
  else .next (faultEntry .illegalCmd s)

end Sys2Proof.Machine
end

