-- ==== Sys2Proof/Machine/Operands.lean ====
section
/-!
DEFINITION. Machine/Operands.lean: the implicit operands of the commands (30_encoding.md R91) and the three operand checks
(40_common_and_control.md R114).
-/
namespace Sys2Proof.Machine

open Sys2Proof

/-- `IN[a..b)`, read byte by byte with InRead (R70). -/
def State.inSlice (s : State) (a b : Nat) : List Byte := (List.range' a (b - a)).map s.inRead

/-- `IN[0..ILEN)`, the operand `data` of `encode` and `compress` and `blob` of `decompress` (R91). -/
def State.inData (s : State) : List Byte := s.inSlice 0 s.ilen.toNat

/-- `IN[IOFF..ILEN)`, the operand `bytes` of `unpack` and `packedPayload` of `decode` (R91). -/
def State.inRest (s : State) : List Byte := s.inSlice s.ioff.toNat s.ilen.toNat

/-- `BIT[0..BLEN)`, the operand `bits` of `pack` (R91). -/
def State.bitData (s : State) : BitSeq := (List.range s.blen.toNat).map s.bitRead

/-- `OUT[0..OLEN)`, the result of the commands that append (R91). -/
def State.outData (s : State) : List Byte := (List.range s.olen.toNat).map s.outRead

/-- `CheckLen`: `if ILEN > IN_CAP then raise PRECOND` (R114). -/
def checkLen (s : State) : Run := if s.params.inCap < s.ilen.toNat then raise .precond else .ok s

/-- `CheckIn`: `CheckLen; if IOFF > ILEN then raise PRECOND` (R114). -/
def checkIn (s : State) : Run := do
  let s ← checkLen s
  if s.ilen.toNat < s.ioff.toNat then raise .precond else .ok s

/-- `CheckBit`: `if BLEN > BIT_CAP then raise PRECOND` (R114). -/
def checkBit (s : State) : Run := if s.params.bitCap < s.blen.toNat then raise .precond else .ok s

end Sys2Proof.Machine
end

