-- ==== Sys2Proof/Machine/Codec.lean ====
section
/-!
DEFINITION. Machine/Codec.lean: the code table codec (42_code_table_codec.md R141, R142).
-/
namespace Sys2Proof.Machine

open Sys2Proof

/-- The bytes of one entry of a serialised table: symbol, code length, the code packed (R140). -/
def entryBytes (c : Symbol) (bits : BitSeq) : List Byte := c :: BitVec.ofNat 8 bits.length :: packBytes bits

/-- The entries of TSER, in the order given (R141). -/
def tserEntries : List Symbol → State → Run
  | [], s => .ok s
  | c :: rest, s => do
    let s ← outAppendAll (entryBytes c (s.codeRead c)) s
    tserEntries rest s

/-- The pseudocode of TSER (R141). -/
def runTser (s : State) : Run := do
  let s ← outAppendAll (be s.order.length 2) s
  tserEntries s.order s

/-- `next()` of TDES: the byte at IOFF, and IOFF moves past it (R142). -/
def tdesNext (s : State) : Except Stop (Byte × State) :=
  if s.ilen.toNat ≤ s.ioff.toNat then raise .corruptStream
  else .ok (s.inRead s.ioff.toNat, setIoff (s.ioff + 1) s)

/-- `raw`: the bits of the next n bytes (R142). -/
def tdesRaw : Nat → State → Except Stop (BitSeq × State)
  | 0, s => .ok ([], s)
  | n + 1, s => do
    let (x, s) ← tdesNext s
    let (rest, s) ← tdesRaw n s
    .ok (bits8 x ++ rest, s)

/-- The table takes the entry `c → bits`: a symbol seen before keeps its place in ORDER and takes the new code
(R142, corner case (c)). -/
def putEntry (c : Symbol) (bits : BitSeq) (s : State) : State :=
  setCode c bits (if (s.codeAt c).isNone then pushOrder c s else s)

/-- One entry of TDES (R142). -/
def tdesEntry (s : State) : Run := do
  let (c, s) ← tdesNext s
  let (len, s) ← tdesNext s
  let (raw, s) ← tdesRaw (ceil8 len.toNat) s
  .ok (putEntry c (raw.take len.toNat) s)

/-- `repeat N times` of TDES (R142). -/
def tdesEntries : Nat → State → Run
  | 0, s => .ok s
  | n + 1, s => do
    let s ← tdesEntry s
    tdesEntries n s

/-- The pseudocode of TDES (R142). -/
def runTdes (s : State) : Run := do
  let s ← checkIn s
  let (hi, s) ← tdesNext (clearTable s)
  let (lo, s) ← tdesNext s
  tdesEntries (unbe [hi, lo]) s

/-- TSER (R141). -/
def execTser (s : State) : Host.Outcome State Fault Refusal := commandCycle runTser s

/-- TDES (R142). -/
def execTdes (s : State) : Host.Outcome State Fault Refusal := commandCycle runTdes s

end Sys2Proof.Machine
end

