-- ==== Sys2Proof/Machine/Packer.lean ====
section
/-!
DEFINITION. Machine/Packer.lean: the bit packer and unpacker (41_bit_packer.md R133, R134).
-/
namespace Sys2Proof.Machine

open Sys2Proof

/-- The pseudocode of PACK (R133). CAPACITY is raised where a byte would be appended beyond OUT_CAP (log entry 7). -/
def runPack (s : State) : Run := do
  let s ← checkBit s
  let bits := s.bitData
  let s ← outAppendAll (packBytes bits) s
  .ok (setPad (BitVec.ofNat 8 (padCount bits.length)) s)

/-- The loop of UNPACK, from bit `i` on for `n` more bits: bit `7 - (i mod 8)` of `IN[off + i div 8]` is appended. -/
def unpackLoop (off : Nat) : (n i : Nat) → State → Run
  | 0, _, s => .ok s
  | n + 1, i, s => do
    let s ← bitAppend ((s.inRead (off + i / 8)).getLsbD (7 - i % 8)) s
    unpackLoop off n (i + 1) s

/-- The pseudocode of UNPACK (R134). -/
def runUnpack (s : State) : Run := do
  let s ← checkIn s
  let keep := keptBits (s.ilen.toNat - s.ioff.toNat) s.pad.toNat
  if s.params.bitCap < keep then raise .capacity
  else do
    let s ← unpackLoop s.ioff.toNat keep 0 (restartBit s)
    .ok (setIoff s.ilen s)

/-- PACK (R133). -/
def execPack (s : State) : Host.Outcome State Fault Refusal := commandCycle runPack s

/-- UNPACK (R134). -/
def execUnpack (s : State) : Host.Outcome State Fault Refusal := commandCycle runUnpack s

end Sys2Proof.Machine
end

