-- ==== Sys2Proof/Machine/Heap.lean ====
section
/-!
DEFINITION. Machine/Heap.lean: the binary min-heap in an array (43_tree_builder.md R153 to R155), over any order `lt` of the
indices it holds, and the priority order of the block (R152).
-/
namespace Sys2Proof.Machine

open Sys2Proof

/-- `key(a) < key(b)`: the lower weight first, at equal weights the lower index (R152). -/
def keyLt (s : State) (a b : NodeIdx) : Bool :=
  decide ((s.nodeRead a).weight < (s.nodeRead b).weight
    ∨ ((s.nodeRead a).weight = (s.nodeRead b).weight ∧ a < b))

/-- Slots i and j of the heap change places. -/
def heapSwap (h : List NodeIdx) (i j : Nat) : List NodeIdx :=
  match h[i]?, h[j]? with
  | some a, some b => (h.set i b).set j a
  | _, _ => h

/-- `key(HEAP[i]) < key(HEAP[j])`, false where one of the slots is not part of the heap. -/
def slotLt (lt : NodeIdx → NodeIdx → Bool) (h : List NodeIdx) (i j : Nat) : Bool :=
  match h[i]?, h[j]? with
  | some a, some b => lt a b
  | _, _ => false

/-- The loop of heap_push from slot i on (R154). `i` rounds of it are enough, since the parent of slot i > 0 is below i. -/
def siftUp (lt : NodeIdx → NodeIdx → Bool) : (rounds i : Nat) → List NodeIdx → List NodeIdx
  | 0, _, h => h
  | n + 1, i, h =>
    if 0 < i then
      let p := (i - 1) / 2
      if slotLt lt h i p then siftUp lt n p (heapSwap h i p) else h
    else h

/-- `heap_push(n)` on the array (R154). -/
def heapPush (lt : NodeIdx → NodeIdx → Bool) (h : List NodeIdx) (n : NodeIdx) : List NodeIdx :=
  siftUp lt h.length h.length (h ++ [n])

/-- The slot of least key among slot i and its children (R155). -/
def leastChild (lt : NodeIdx → NodeIdx → Bool) (h : List NodeIdx) (i : Nat) : Nat :=
  let l := 2 * i + 1
  let r := 2 * i + 2
  let m := if slotLt lt h l i then l else i
  if slotLt lt h r m then r else m

/-- The loop of heap_pop from slot i on (R155). Each round moves to a child, so as many rounds as the heap has slots are
enough. -/
def siftDown (lt : NodeIdx → NodeIdx → Bool) : (rounds i : Nat) → List NodeIdx → List NodeIdx
  | 0, _, h => h
  | n + 1, i, h =>
    let m := leastChild lt h i
    if m = i then h else siftDown lt n m (heapSwap h i m)

/-- `heap_pop()` on the array: the node removed and the heap left (R155). An empty heap has none to remove. -/
def heapPop (lt : NodeIdx → NodeIdx → Bool) : List NodeIdx → Option (NodeIdx × List NodeIdx)
  | [] => none
  | n :: rest =>
    match rest.getLast? with
    | none => some (n, [])
    | some z => some (n, siftDown lt rest.length 0 (z :: rest.dropLast))

end Sys2Proof.Machine
end

