-- ==== Sys2Proof/Machine/Tree.lean ====
section
/-!
DEFINITION. Machine/Tree.lean: the tree builder and the tree walker (43_tree_builder.md R150 to R163).
-/
namespace Sys2Proof.Machine

open Sys2Proof

/-- `NODE[n] <- (valid 1, ...)`. -/
def setNode (n : NodeIdx) (nd : Node) (s : State) : State :=
  { s with node := s.node.setIfInBounds n.toNat (some nd) }

/-- `heap_push(n)`, under the keys the arena holds (R154). -/
def pushNode (n : NodeIdx) (s : State) : State := { s with heap := heapPush (keyLt s) s.heap n }

/-- The leaf record of a symbol that occurs v times (R157). -/
def leafNode (v : Counter) : Node := { leaf := true, weight := v.setWidth 72, left := 0, right := 0 }

/-- One round of TINIT: a present symbol gets its leaf and enters the heap (R157). -/
def tinitSymbol (s : State) (c : Symbol) : State :=
  if 0 < s.freqAt c then pushNode (c.setWidth 9) (setNode (c.setWidth 9) (leafNode (s.freqAt c)) s) else s

/-- The symbols 0 to 255 in ascending order. -/
def allSymbols : List Symbol := (List.range 256).map (BitVec.ofNat 8)

/-- `for n in 0 .. 510: NODE[n].valid <- 0; HSZ <- 0; NEXT <- 256` (R157). -/
def clearTree (s : State) : State := { s with node := Vector.replicate 511 none, heap := [], next := 256 }

/-- The effect of TINIT (R157). -/
def tinit (s : State) : State := setRoot (allSymbols.foldl tinitSymbol (clearTree s))

/-- The node TMERGE makes of the two it removed: the first is the left child, the second the right (R158). -/
def mergedNode (s : State) (a b : NodeIdx) : Node :=
  { leaf := false, weight := (s.nodeRead a).weight + (s.nodeRead b).weight, left := a, right := b }

/-- The heap becomes h, and `NEXT <- NEXT + 1`. -/
def takeNext (h : List NodeIdx) (s : State) : State := { s with heap := h, next := s.next + 1 }

/-- The state after a and b left the heap and h remains: their combination takes the slot NEXT and enters the heap
(R158). -/
def combine (s : State) (a b : NodeIdx) (h : List NodeIdx) : State :=
  setRoot (pushNode s.next (takeNext h (setNode s.next (mergedNode s a b) s)))

/-- The effect of TMERGE (R158). With fewer than two nodes in the heap no state changes. -/
def tmerge (s : State) : State :=
  match heapPop (keyLt s) s.heap with
  | none => s
  | some (a, h) =>
    match heapPop (keyLt s) h with
    | none => s
    | some (b, h') => combine s a b h'

/-- `while HSZ >= 2: TMERGE`, at most n rounds (R159). -/
def mergeLoop : (rounds : Nat) → State → State
  | 0, s => s
  | n + 1, s => if 2 ≤ s.heap.length then mergeLoop n (tmerge s) else s

/-- The effect of TBUILD (R159). Each TMERGE of the loop takes one node from the heap, so HSZ rounds are enough. -/
def tbuild (s : State) : State := mergeLoop (tinit s).heap.length (tinit s)

/-- `walk(n, prefix)` (R160): the leaves met, in the order they are met, each with its code. `depth` is how many more levels
a code can grow by; a walk that needs more gives `none`. -/
def walk (s : State) : (depth : Nat) → NodeIdx → BitSeq → Option (List (Symbol × BitSeq))
  | 0, n, pre => if (s.nodeRead n).leaf then some [(n.setWidth 8, pre)] else none
  | d + 1, n, pre =>
    if (s.nodeRead n).leaf then some [(n.setWidth 8, pre)]
    else
      match walk s d (s.nodeRead n).left (pre ++ [false]), walk s d (s.nodeRead n).right (pre ++ [true]) with
      | some l, some r => some (l ++ r)
      | _, _ => none

/-- `record(s, c)` (R160). -/
def recordCode (s : State) (e : Symbol × BitSeq) : State := pushOrder e.1 (setCode e.1 e.2 s)

/-- The entries GENC records for the root r: the code "0" where the root is a leaf (R161), else the codes of the walk
(R160). A code has at most 255 bits (R8). -/
def rootCodes (s : State) (r : NodeIdx) : Option (List (Symbol × BitSeq)) :=
  if (s.nodeRead r).leaf then some [(r.setWidth 8, [false])] else walk s 255 r []

/-- The pseudocode of TINIT (R157). -/
def runTinit (s : State) : Run := .ok (tinit s)

/-- The pseudocode of TMERGE (R158). -/
def runTmerge (s : State) : Run := .ok (tmerge s)

/-- The pseudocode of TBUILD (R159). -/
def runTbuild (s : State) : Run := .ok (tbuild s)

/-- The pseudocode of GENC (R162). A walk deeper than a code can be is stuck: the spec says it cannot arise and gives it no
fault (U3, log entry 6). -/
def runGenc (s : State) : Run :=
  match s.heap with
  | [] => .ok (clearTable s)
  | [r] =>
    match rootCodes s r with
    | some entries => .ok (entries.foldl recordCode (clearTable s))
    | none => .error (.stuck .treeTooDeep)
  | _ :: _ :: _ => raise .precond

/-- TINIT (R157). -/
def execTinit (s : State) : Host.Outcome State Fault Refusal := commandCycle runTinit s

/-- TMERGE (R158). -/
def execTmerge (s : State) : Host.Outcome State Fault Refusal := commandCycle runTmerge s

/-- TBUILD (R159). -/
def execTbuild (s : State) : Host.Outcome State Fault Refusal := commandCycle runTbuild s

/-- GENC (R162). -/
def execGenc (s : State) : Host.Outcome State Fault Refusal := commandCycle runGenc s

end Sys2Proof.Machine
end

