-- ==== Sys2Proof/Machine/Pipeline.lean ====
section
/-!
DEFINITION. Machine/Pipeline.lean: the encode/decode control pipeline (44_pipeline.md R180 to R185).
-/
namespace Sys2Proof.Machine

open Sys2Proof

/-- `FREQ[c] <- FREQ[c] + 1` (R180). -/
def countByte (f : Vector Counter 256) (c : Byte) : Vector Counter 256 := f.set c.toNat (f[c.toNat] + 1)

/-- The pseudocode of FCNT (R180). -/
def runFcnt (s : State) : Run := do
  let s ← checkLen s
  .ok (setFreq (s.inData.foldl countByte (Vector.replicate 256 0)) s)

/-- The loop of BGEN over the input bytes (R181). -/
def bgenLoop : List Byte → State → Run
  | [], s => .ok s
  | c :: rest, s =>
    match s.codeAt c with
    | none => raise .precond
    | some bits => do
      let s ← bitAppendAll bits s
      bgenLoop rest s

/-- The pseudocode of BGEN (R181). -/
def runBgen (s : State) : Run := do
  let s ← checkLen s
  bgenLoop s.inData (restartBit s)

/-- `match(cand)` (R182): of the entries whose code is cand, the last in ORDER. -/
def matchCode (s : State) (cand : BitSeq) : Option Symbol :=
  s.order.foldl (fun hit c => if s.codeAt c = some cand then some c else hit) none

/-- The matching loop of BDEC (R183), over the bits of BIT not yet read: `need` more symbols are to be emitted and `cand` is
the running candidate. -/
def bdecLoop : (bits : BitSeq) → (need : Nat) → (cand : BitSeq) → State → Run
  | [], need, _, s => if need = 0 then .ok s else raise .corruptStream
  | b :: bits, need, cand, s =>
    if need = 0 then .ok s
    else
      match matchCode s (cand ++ [b]) with
      | some c => do
        let s ← outAppend c s
        bdecLoop bits (need - 1) [] s
      | none => bdecLoop bits need (cand ++ [b]) s

/-- The pseudocode of BDEC (R183). -/
def runBdec (s : State) : Run :=
  match s.order with
  | [] => .ok s
  | [c] => outAppendTimes c s.len.toNat s
  | _ :: _ :: _ => do
    let s ← checkBit s
    bdecLoop s.bitData s.len.toNat [] s

/-- The pseudocode of ENCODE (R184). -/
def runEncode (s : State) : Run := do
  let s ← checkLen s
  let s := restartOut (setLen s.ilen s)
  let s ← runFcnt s
  let s ← runTbuild s
  let s ← runGenc s
  let s ← runBgen s
  runPack s

/-- The pseudocode of DECODE (R185). -/
def runDecode (s : State) : Run := do
  let s ← checkIn s
  let s := restartOut s
  let s ← if 2 ≤ s.order.length then runUnpack s else .ok s
  runBdec s

/-- FCNT (R180). -/
def execFcnt (s : State) : Host.Outcome State Fault Refusal := commandCycle runFcnt s

/-- BGEN (R181). -/
def execBgen (s : State) : Host.Outcome State Fault Refusal := commandCycle runBgen s

/-- BDEC (R183). -/
def execBdec (s : State) : Host.Outcome State Fault Refusal := commandCycle runBdec s

/-- ENCODE (R184). -/
def execEncode (s : State) : Host.Outcome State Fault Refusal := commandCycle runEncode s

/-- DECODE (R185). -/
def execDecode (s : State) : Host.Outcome State Fault Refusal := commandCycle runDecode s

end Sys2Proof.Machine
end

