-- ==== Sys2Proof/Machine/Container.lean ====
section
/-!
DEFINITION. Machine/Container.lean: the container format (45_container.md R200 to R202).
-/
namespace Sys2Proof.Machine

open Sys2Proof

/-- The thirteen header bytes: tag, length, pad count (R200, R201). -/
def headerBytes (magic : Vector Byte 4) (len pad : Nat) : List Byte :=
  magic.toList ++ be len 8 ++ [BitVec.ofNat 8 pad]

/-- The pseudocode of COMPRESS (R201). -/
def runCompress (s : State) : Run := do
  let s ← checkLen s
  let s ← runFcnt (setLen s.ilen s)
  let s ← runTbuild s
  let s ← runGenc s
  let s ← runBgen s
  let s ← outAppendAll (headerBytes s.params.magic s.len.toNat (padCount s.blen.toNat)) (restartOut s)
  let s ← runTser s
  runPack s

/-- LEN, PAD and IOFF from the header of a blob in IN (R202). -/
def readHeader (s : State) : State :=
  setIoff 13 (setPad (s.inRead 12) (setLen (BitVec.ofNat 64 (unbe (s.inSlice 4 12))) s))

/-- The pseudocode of DECOMPRESS (R202). -/
def runDecompress (s : State) : Run := do
  let s ← checkLen s
  if s.ilen.toNat < 13 then raise .formatError
  else if s.inSlice 0 4 ≠ s.params.magic.toList then raise .formatError
  else do
    let s ← runTdes (readHeader s)
    runDecode s

/-- COMPRESS (R201). -/
def execCompress (s : State) : Host.Outcome State Fault Refusal := commandCycle runCompress s

/-- DECOMPRESS (R202). -/
def execDecompress (s : State) : Host.Outcome State Fault Refusal := commandCycle runDecompress s

end Sys2Proof.Machine
end

