-- ==== Sys2Proof/Machine/Control.lean ====
section
/-!
DEFINITION. Machine/Control.lean: the control commands (40_common_and_control.md R115, R116).
-/
namespace Sys2Proof.Machine

open Sys2Proof

/-- NOP: nothing (R115). -/
def runNop (s : State) : Run := .ok s

/-- NOP (R115). -/
def execNop (s : State) : Host.Outcome State Fault Refusal := commandCycle runNop s

/-- SRESET: every piece of state takes its reset value, in the faulted state too (R116). -/
def execSreset (s : State) : Host.Outcome State Fault Refusal := resetCycle s

end Sys2Proof.Machine
end

