-- ==== Sys2Proof/Machine/Dispatch.lean ====
section
/-!
DEFINITION. Machine/Dispatch.lean: one arm per command.
-/
namespace Sys2Proof.Machine

open Sys2Proof

def exec (i : Instr) (s : State) : Host.Outcome State Fault Refusal :=
  match i with
  | .nop => Sys2Proof.Machine.execNop s
  | .sreset => Sys2Proof.Machine.execSreset s
  | .pack => Sys2Proof.Machine.execPack s
  | .unpack => Sys2Proof.Machine.execUnpack s
  | .tser => Sys2Proof.Machine.execTser s
  | .tdes => Sys2Proof.Machine.execTdes s
  | .tinit => Sys2Proof.Machine.execTinit s
  | .tmerge => Sys2Proof.Machine.execTmerge s
  | .tbuild => Sys2Proof.Machine.execTbuild s
  | .genc => Sys2Proof.Machine.execGenc s
  | .fcnt => Sys2Proof.Machine.execFcnt s
  | .bgen => Sys2Proof.Machine.execBgen s
  | .bdec => Sys2Proof.Machine.execBdec s
  | .encode => Sys2Proof.Machine.execEncode s
  | .decode => Sys2Proof.Machine.execDecode s
  | .compress => Sys2Proof.Machine.execCompress s
  | .decompress => Sys2Proof.Machine.execDecompress s

end Sys2Proof.Machine
end

