-- ==== Sys2Proof/Machine/HostPort.lean ====
section
/-!
DEFINITION. Machine/HostPort.lean: the accesses of the host (10_state.md R21, R24 to R28; 20_memory.md R60, R61, R75;
70_reset_and_hazards.md R240, R243). An unspecified read returns a free value (log entry 3).
-/
namespace Sys2Proof.Machine

open Sys2Proof

/-- The command byte a write to CMD hands over: bits 7:0 of the data (R26). -/
def commandByte (v : Reg) : Byte := v.setWidth 8

/-- The command cycle (R110): the byte is decoded and its command run, or ILLEGAL_CMD is raised. -/
def runCommand (c : Byte) (s : State) : Host.Outcome State Fault Refusal :=
  match decode c with
  | .ok i => exec i s
  | .error _ => illegalCycle s

/-- A host write of an operand register while the block is idle (R21, R27): the low bits of the stated width are kept, and
a write to a read-only or an unassigned number is ignored. -/
def writeOperand (n : BitVec 8) (v : Reg) (s : State) : State :=
  if n = 0x10 then { s with ilen := v }
  else if n = 0x11 then { s with ioff := v }
  else if n = 0x12 then { s with olen := v }
  else if n = 0x13 then { s with blen := v }
  else if n = 0x14 then { s with len := v }
  else if n = 0x15 then { s with pad := v.setWidth 8 }
  else s

/-- A host write of a register other than CMD (R27, R243). -/
def hostWriteReg (n : BitVec 8) (v : Reg) (s : State) : State :=
  if s.busy then s else if s.fault then s else writeOperand n v s

/-- The value a host read of register n returns while the block is idle and not faulted, zero-extended (R21, R26, R27). -/
def operandValue (n : BitVec 8) (s : State) : Reg :=
  if n = 0x00 then s.statusWord.setWidth 64
  else if n = 0x01 then s.err.setWidth 64
  else if n = 0x10 then s.ilen
  else if n = 0x11 then s.ioff
  else if n = 0x12 then s.olen
  else if n = 0x13 then s.blen
  else if n = 0x14 then s.len
  else if n = 0x15 then s.pad.setWidth 64
  else if n = 0x16 then s.nent.setWidth 64
  else if n = 0x17 then s.hsz.setWidth 64
  else if n = 0x18 then s.treeWord.setWidth 64
  else 0

/-- The value a host read of register n returns, `none` where it is unspecified: while busy everything but STATUS (R243),
while faulted everything but STATUS and ERR (R27). -/
def regValue (n : BitVec 8) (s : State) : Option Reg :=
  if s.busy then (if n = 0x00 then some (operandValue n s) else none)
  else if s.fault then (if n = 0x00 ∨ n = 0x01 then some (operandValue n s) else none)
  else some (operandValue n s)

/-- A host read of register n. -/
def hostReadReg (n : BitVec 8) (s : State) : State :=
  match regValue n s with
  | some v => { s with port := some (.reg v) }
  | none => { s with port := some (.reg (Config.readReg s.fresh)), fresh := s.fresh + 1 }

/-- HostWrite of an element while the block is idle (R60, R61): IN, BIT and FREQ are host-RW, a write to another space or
beyond a space's range is ignored. -/
def writeElem (i : Nat) (e : Elem) (s : State) : State :=
  match e with
  | .inp x => if i < s.params.inCap then { s with inp := s.inp.set i x } else s
  | .bit b => if i < s.params.bitCap then { s with bit := s.bit.set i b } else s
  | .freq v => { s with freq := s.freq.setIfInBounds i v }
  | .out _ => s
  | .node _ _ => s
  | .heap _ => s
  | .code _ _ => s
  | .order _ => s

/-- HostWrite (R61, R27, R243). -/
def hostWriteSpace (i : Nat) (e : Elem) (s : State) : State :=
  if s.busy then s else if s.fault then s else writeElem i e s

/-- The element a HostRead returns while the block is idle, `none` where it is unspecified: outside the space's range and
outside its valid part (R61, R75). Of NODE and CODE the valid part is the slots with valid = 1, so a read of an invalid slot
is unspecified as a whole (R75, log entry 8). -/
def elemValue (sp : Space) (i : Nat) (s : State) : Option Elem :=
  match sp with
  | .inp => if i < s.ilen.toNat ∧ i < s.params.inCap then some (.inp (s.inRead i)) else none
  | .out => if i < s.olen.toNat ∧ i < s.params.outCap then some (.out (s.outRead i)) else none
  | .bit => if i < s.blen.toNat ∧ i < s.params.bitCap then some (.bit (s.bitRead i)) else none
  | .freq => s.freq[i]?.map Elem.freq
  | .node => s.node[i]?.join.map (Elem.node true)
  | .heap => s.heap[i]?.map Elem.heap
  | .code => s.code[i]?.join.map (Elem.code true)
  | .order => s.order[i]?.map Elem.order

/-- An element of a space that an unspecified HostRead returns: any value of the element's width (R42, R61). -/
def freeElem (sp : Space) (s : State) : Elem :=
  match sp with
  | .inp => .inp (Config.readByte s.fresh)
  | .out => .out (Config.readByte s.fresh)
  | .bit => .bit (Config.readBit s.fresh)
  | .freq => .freq (Config.readCounter s.fresh)
  | .node => .node (Config.readValid s.fresh) (Config.readNode s.fresh)
  | .heap => .heap (Config.readIdx s.fresh)
  | .code => .code (Config.readValid s.fresh) ((Config.readCode s.fresh).take 255)
  | .order => .order (Config.readByte s.fresh)

/-- HostRead (R61): legal only while idle and not faulted (R27, R243). A read has no side effect on the block (R64); the
model only counts the free values it may have taken. -/
def hostReadSpace (sp : Space) (i : Nat) (s : State) : State :=
  let e := if s.busy ∨ s.fault then freeElem sp s else (elemValue sp i s).getD (freeElem sp s)
  { s with port := some (.elem e), fresh := s.fresh + 1 }

/-- One access of the host (R20, R26, R61, R240). -/
def hostAccess (a : HostAccess) (s : State) : Host.Outcome State Fault Refusal :=
  match a with
  | .writeReg n v => if n = 0x02 then runCommand (commandByte v) s else .next (hostWriteReg n v s)
  | .readReg n => .next (hostReadReg n s)
  | .writeSpace i e => .next (hostWriteSpace i e s)
  | .readSpace sp i => .next (hostReadSpace sp i s)
  | .rst => .next (resetFrom s)

/-- The access that hands a table word of nbits bits to the sequencer as a command: a write of CMD (R26). -/
def fetchAccess (nbits w : Nat) : HostAccess := .writeReg 0x02 ((tableByte nbits w).setWidth 64)

end Sys2Proof.Machine
end

