-- ==== Sys2Proof/Machine/Step.lean ====
section
/-!
DEFINITION. Machine/Step.lean: one step of the block: the next access of the host (10_state.md R20, R22, log entry 4). With
no access pending the block is idle and waits.
-/
namespace Sys2Proof.Machine

open Sys2Proof

/-- One step. -/
def step (s : State) : Host.Outcome State Fault Refusal :=
  match s.script with
  | [] => .next s
  | a :: rest => hostAccess a { s with script := rest }

/-- s with the host about to write the command word `w` of `nbits` bits to CMD. -/
def State.withFetchWord (s : State) (nbits w : Nat) : State := { s with script := fetchAccess nbits w :: s.script }

end Sys2Proof.Machine
end

