-- ==== Sys2Proof/Safety.lean ====
section
/-!
DEFINITION. Safety.lean: the words claims are made in. What a block at reset looks like (10_state.md R42), when it accepts a
command (R27, 40_common_and_control.md R110), and the invariants of R41, in the order (a) to (g) of that rule, with the
canonical form of the buffers and the constraints on the parameters.
-/
namespace Sys2Proof.Machine

open Sys2Proof

/-- The block accepts a command: neither busy nor faulted (R27, R110). -/
def State.Idle (s : State) : Prop := s.busy = false ∧ s.fault = false

/-- The block is in the faulted state with cause c, and not busy (R214). -/
def State.FaultedWith (s : State) (c : Cause) : Prop := s.busy = false ∧ s.fault = true ∧ s.err = c.errCode

/-- Every piece of state has its value of R42. Nothing is known of the contents of IN, OUT and BIT. -/
structure State.AtReset (s : State) : Prop where
  status : s.statusWord = 0x00
  err : s.err = 0
  lengths : s.ilen = 0 ∧ s.ioff = 0 ∧ s.olen = 0 ∧ s.blen = 0 ∧ s.len = 0
  pad : s.pad = 0
  counts : s.nent = 0 ∧ s.hsz = 0
  tree : s.root = 0 ∧ s.rv = false ∧ s.next = 256
  freq : ∀ c, s.freqAt c = 0
  node : ∀ n, s.slot n = none
  heap : s.heap = []
  code : ∀ c, s.codeAt c = none
  order : s.order = []
  buffers : s.inp.cells = [] ∧ s.out.cells = [] ∧ s.bit.cells = []

/-! ### The invariants of R41 -/

/-- The heap property (43_tree_builder.md R153): every slot but the first has a key above its parent's. -/
def HeapOrdered (lt : NodeIdx → NodeIdx → Bool) (h : List NodeIdx) : Prop :=
  ∀ i, 0 < i → i < h.length → slotLt lt h ((i - 1) / 2) i = true

/-- Slot p holds an internal node that has n for a child. -/
def State.ParentOf (s : State) (p : Nat) (n : NodeIdx) : Prop :=
  ∃ nd, s.slot p = some nd ∧ nd.leaf = false ∧ (nd.left = n ∨ nd.right = n)

/-- How many leaves the arena holds. -/
def State.leafCount (s : State) : Nat := (List.range 256).countP fun n => (s.slot n).isSome

/-- The weight of slot n, 0 where the slot is invalid. -/
def State.slotWeight (s : State) (n : Nat) : Nat :=
  match s.slot n with
  | some nd => nd.weight.toNat
  | none => 0

/-- The tree invariants (a) to (e) of R41. -/
structure State.Forest (s : State) : Prop where
  /-- (e) NEXT is 256 to 511 (R33). -/
  nextRange : 256 ≤ s.next.toNat ∧ s.next.toNat ≤ 511
  /-- (e) The valid internal nodes are those of index 256 to NEXT - 1. -/
  internalSlots : ∀ n, 256 ≤ n → ((s.slot n).isSome = true ↔ n < s.next.toNat)
  /-- (d) A slot below 256 can only hold a leaf (R31), and its weight is the positive counter TINIT read. -/
  leafShape : ∀ n nd, n < 256 → s.slot n = some nd →
    nd.leaf = true ∧ nd.left = 0 ∧ nd.right = 0 ∧ 0 < nd.weight.toNat ∧ nd.weight.toNat < 2 ^ 64
  /-- (b), (c) A slot from 256 on can only hold an internal node (R31) with two different valid children, older than
  itself, and its weight is the sum of theirs. -/
  internalShape : ∀ n nd, 256 ≤ n → s.slot n = some nd →
    nd.leaf = false ∧ nd.left ≠ nd.right ∧ nd.left.toNat < n ∧ nd.right.toNat < n ∧
    (s.slot nd.left.toNat).isSome = true ∧ (s.slot nd.right.toNat).isSome = true ∧
    nd.weight.toNat = s.slotWeight nd.left.toNat + s.slotWeight nd.right.toNat
  /-- (a) The heap holds distinct indices. -/
  heapNodup : s.heap.Nodup
  /-- (a) The heap holds indices of valid slots. -/
  heapValid : ∀ n ∈ s.heap, (s.slot n.toNat).isSome = true
  /-- (a) The heap property. -/
  heapOrdered : HeapOrdered (keyLt s) s.heap
  /-- (b) Of the valid nodes the heap's members are those that are no node's child. -/
  roots : ∀ n : NodeIdx, (s.slot n.toNat).isSome = true → (n ∈ s.heap ↔ ∀ p, ¬ s.ParentOf p n)
  /-- (b) No node is the child of two nodes. -/
  oneParent : ∀ p q n, s.ParentOf p n → s.ParentOf q n → p = q
  /-- Every merge took one root away: HSZ plus the internal nodes are as many as the leaves (R156). -/
  count : s.heap.length + (s.next.toNat - 256) = s.leafCount
  /-- The roots together weigh what the leaves weigh, so no sum of weights wraps (R112 (b)). -/
  weights : (s.heap.map fun n => s.slotWeight n.toNat).sum = ((List.range 256).map s.slotWeight).sum

/-- (f) RV is 1 exactly when HSZ = 1, and then ROOT = HEAP[0]; when RV is 0, ROOT is 0 (R33, R41). -/
def State.RootShown (s : State) : Prop :=
  (s.rv = true ↔ s.heap.length = 1) ∧ (s.rv = true → s.heap[0]? = some s.root) ∧ (s.rv = false → s.root = 0)

/-- (g) ORDER has no repeated symbol and CODE is valid exactly for the symbols in it; a code has at most 255 bits (R34). -/
structure State.TableOk (s : State) : Prop where
  orderNodup : s.order.Nodup
  validIff : ∀ c, (s.codeAt c).isSome = true ↔ c ∈ s.order
  codeLength : ∀ c bits, s.codeAt c = some bits → bits.length ≤ 255

/-- The buffers are in canonical form and hold no cell beyond their capacity. -/
structure State.BuffersOk (s : State) : Prop where
  inp : s.inp.wf = true ∧ ∀ i x, s.inp.get? i = some x → i < s.params.inCap
  out : s.out.wf = true ∧ ∀ i x, s.out.get? i = some x → i < s.params.outCap
  bit : s.bit.wf = true ∧ ∀ i x, s.bit.get? i = some x → i < s.params.bitCap

/-- What holds of every reachable state. The tree and table invariants are those of R41, which hold unless a fault has made
the data unspecified (R214). -/
structure State.Inv (s : State) : Prop where
  params : s.params.wf = true
  idle : s.busy = false
  buffers : s.BuffersOk
  errRange : s.err.toNat ≤ 5
  errZero : s.fault = false ↔ s.err = 0
  forest : s.fault = false → s.Forest
  rootShown : s.fault = false → s.RootShown
  table : s.fault = false → s.TableOk

/-! ### Paths and codes -/

/-- The child of node n on the side of bit b: 0 the left, 1 the right (43_tree_builder.md R160). -/
def State.child (s : State) (n : NodeIdx) (b : Bool) : Option NodeIdx :=
  match s.slot n.toNat with
  | some nd => if nd.leaf then none else some (if b then nd.right else nd.left)
  | none => none

/-- The node reached from n by the turns of a path, first turn first (R160). -/
def State.follow (s : State) : NodeIdx → BitSeq → Option NodeIdx
  | n, [] => some n
  | n, b :: path =>
    match s.child n b with
    | some m => s.follow m path
    | none => none

/-- No code of the list is a prefix of another (00_scope.md R14, R164 (b)). -/
def PrefixFree (es : List (Symbol × BitSeq)) : Prop := es.Pairwise fun a b => ¬ a.2 <+: b.2 ∧ ¬ b.2 <+: a.2

/-! ### Byte layouts -/

/-- The entries of the code table in its iteration order: symbol and code (R35). -/
def State.entries (s : State) : List (Symbol × BitSeq) := s.order.map fun c => (c, s.codeRead c)

/-- A serialised code table (42_code_table_codec.md R140): the count in two bytes, then the entries. -/
def serialTable (es : List (Symbol × BitSeq)) : List Byte := be es.length 2 ++ es.flatMap fun e => entryBytes e.1 e.2

/-- A blob (45_container.md R200): the header, the serialised table, the packed payload. -/
def blobBytes (magic : Vector Byte 4) (len : Nat) (es : List (Symbol × BitSeq)) (payload : BitSeq) : List Byte :=
  headerBytes magic len (padCount payload.length) ++ serialTable es ++ packBytes payload

/-! ### Tables as lists of entries -/

/-- The symbols of a list in the order of their first occurrences, none twice (R142, corner case (c)). -/
def firstSeen (l : List Symbol) : List Symbol := l.foldl (fun acc c => if c ∈ acc then acc else acc ++ [c]) []

/-- The code of the last entry of symbol c (R142, corner case (c)). -/
def lastCode (es : List (Symbol × BitSeq)) (c : Symbol) : Option BitSeq :=
  (es.reverse.find? fun e => e.1 = c).map Prod.snd

/-- The code of symbol c in a table, the empty sequence where it has none. -/
def codeOf (es : List (Symbol × BitSeq)) (c : Symbol) : BitSeq := (lastCode es c).getD []

/-- An input encoded with a table: the code of each byte, in input order (44_pipeline.md R181). -/
def encodeBits (es : List (Symbol × BitSeq)) (data : List Byte) : BitSeq := data.flatMap (codeOf es)

/-- c is the symbol of the last entry whose code is cand (44_pipeline.md R182). -/
def MatchIn (es : List (Symbol × BitSeq)) (cand : BitSeq) (c : Symbol) : Prop :=
  ∃ pre post, es = pre ++ (c, cand) :: post ∧ ∀ e ∈ post, e.2 ≠ cand

/-- The bits w, consumed one at a time, match c at their end and nothing before it (R183). -/
def Emits (es : List (Symbol × BitSeq)) (c : Symbol) (w : BitSeq) : Prop :=
  w ≠ [] ∧ MatchIn es w c ∧ ∀ p, p ≠ [] → p <+: w → p ≠ w → ∀ d, ¬ MatchIn es p d

/-- No candidate the bits can give matches: no non-empty prefix is a code (R183). -/
def NoMatch (es : List (Symbol × BitSeq)) (bits : BitSeq) : Prop := ∀ p, p ≠ [] → p <+: bits → ∀ d, ¬ MatchIn es p d

/-- The path a parts from the path b to the left: the preorder traversal meets the leaf of a first (R160). -/
def LeftOf (a b : BitSeq) : Prop := ∃ p, p ++ [false] <+: a ∧ p ++ [true] <+: b

/-- An entry of a serialised table as it stands in IN: the code bytes may be padded with anything (R142, corner case
(a)). -/
structure RawEntry where
  sym   : Symbol
  len   : Byte
  bytes : List Byte
deriving DecidableEq, Repr

/-- The entry has as many code bytes as its length asks for (R140). -/
def RawEntry.ok (r : RawEntry) : Prop := r.bytes.length = ceil8 r.len.toNat

/-- The bytes of the entry (R140). -/
def RawEntry.serial (r : RawEntry) : List Byte := r.sym :: r.len :: r.bytes

/-- Symbol and code of the entry: the unpacked bits cut to the length (R142). -/
def RawEntry.entry (r : RawEntry) : Symbol × BitSeq := (r.sym, (r.bytes.flatMap bits8).take r.len.toNat)

/-- A serialised table of such entries (R140). -/
def rawTable (rs : List RawEntry) : List Byte := be rs.length 2 ++ rs.flatMap RawEntry.serial

/-! ### What an input gives -/

/-- How often each byte value occurs in an input (44_pipeline.md R180). -/
def countsOf (data : List Byte) : Vector Counter 256 :=
  Vector.ofFn fun c => BitVec.ofNat 64 (data.count (BitVec.ofNat 8 c.val))

/-- The present symbols, ascending (10_state.md R30). -/
def State.present (s : State) : List Symbol := allSymbols.filter fun c => 0 < s.freqAt c

/-- The entries GENC records from the tree of a block, in their order; none where GENC does not end normally (R162). -/
def State.derivedTable (s : State) : List (Symbol × BitSeq) :=
  match runGenc s with
  | .ok t => t.entries
  | .error _ => []

/-- The table TBUILD and GENC make of the counters f from the reset state. That they make the same of f from every state is
a statement of its own (43_tree_builder.md R164 (f)). -/
def tableFor (f : Vector Counter 256) : List (Symbol × BitSeq) := (tbuild (setFreq f State.reset)).derivedTable

/-- The table an input is encoded with (44_pipeline.md R184). -/
def tableOfData (data : List Byte) : List (Symbol × BitSeq) := tableFor (countsOf data)

/-! ### Who raises what -/

/-- The causes each command can raise, the table of 60_exceptions.md R211 row by row. -/
def causesOf : Instr → List Cause
  | .nop => []
  | .sreset => []
  | .pack => [.capacity, .precond]
  | .unpack => [.capacity, .precond]
  | .tser => [.capacity]
  | .tdes => [.corruptStream, .precond]
  | .tinit => []
  | .tmerge => []
  | .tbuild => []
  | .genc => [.precond]
  | .fcnt => [.precond]
  | .bgen => [.capacity, .precond]
  | .bdec => [.corruptStream, .capacity, .precond]
  | .encode => [.capacity, .precond]
  | .decode => [.corruptStream, .capacity, .precond]
  | .compress => [.capacity, .precond]
  | .decompress => [.formatError, .corruptStream, .capacity, .precond]

/-! ### What a command may write -/

/-- The fields of State, by name. -/
inductive Field where
  | busy | fault | err
  | ilen | ioff | olen | blen | len | pad
  | root | rv | next
  | inp | out | bit | freq | node | heap | code | order
  | params | fresh | script | port
deriving DecidableEq, Repr

/-- The field has the same value in both states. -/
def Field.Same (f : Field) (s t : State) : Prop :=
  match f with
  | .busy => t.busy = s.busy
  | .fault => t.fault = s.fault
  | .err => t.err = s.err
  | .ilen => t.ilen = s.ilen
  | .ioff => t.ioff = s.ioff
  | .olen => t.olen = s.olen
  | .blen => t.blen = s.blen
  | .len => t.len = s.len
  | .pad => t.pad = s.pad
  | .root => t.root = s.root
  | .rv => t.rv = s.rv
  | .next => t.next = s.next
  | .inp => t.inp = s.inp
  | .out => t.out = s.out
  | .bit => t.bit = s.bit
  | .freq => t.freq = s.freq
  | .node => t.node = s.node
  | .heap => t.heap = s.heap
  | .code => t.code = s.code
  | .order => t.order = s.order
  | .params => t.params = s.params
  | .fresh => t.fresh = s.fresh
  | .script => t.script = s.script
  | .port => t.port = s.port

/-- Every field but those listed has the same value in both states. -/
def Unchanged (but : List Field) (s t : State) : Prop := ∀ f, f ∉ but → f.Same s t

/-- The tree builder's state (10_state.md R31 to R33). -/
def treeFields : List Field := [.node, .heap, .root, .rv, .next]

/-- What each command writes when it ends without fault: the columns "written by" of 10_state.md R21 and "commands that
write" of 20_memory.md R60, and the operand lists of the commands. STATUS.BUSY, STATUS.FAULT and ERR are in none: a command
that ends normally leaves them as they were (40_common_and_control.md R110). SRESET writes everything and is left out. -/
def writtenBy : Instr → List Field
  | .nop => []
  | .sreset => []
  | .pack => [.out, .olen, .pad]
  | .unpack => [.bit, .blen, .ioff]
  | .tser => [.out, .olen]
  | .tdes => [.code, .order, .ioff]
  | .tinit => treeFields
  | .tmerge => treeFields
  | .tbuild => treeFields
  | .genc => [.code, .order]
  | .fcnt => [.freq]
  | .bgen => [.bit, .blen]
  | .bdec => [.out, .olen]
  | .encode => treeFields ++ [.freq, .code, .order, .bit, .blen, .out, .olen, .len, .pad]
  | .decode => [.bit, .blen, .ioff, .out, .olen]
  | .compress => treeFields ++ [.freq, .code, .order, .bit, .blen, .out, .olen, .len, .pad]
  | .decompress => [.len, .pad, .ioff, .code, .order, .bit, .blen, .out, .olen]

/-! ### Outcomes of commands -/

/-- The command raises the fault c: the next state is the faulted one with cause c (60_exceptions.md R210, R214). -/
def EntersFault (i : Instr) (s : State) (c : Cause) : Prop := ∃ t, exec i s = .next t ∧ t.FaultedWith c

/-- The commands of a list, one after the other (20_memory.md R67). -/
def execMany : List Instr → State → Host.Outcome State Fault Refusal
  | [], s => .next s
  | i :: rest, s =>
    match exec i s with
    | .next t => execMany rest t
    | .fault f => .fault f
    | .refused r => .refused r

/-- The entries of the table TDES makes of raw entries (42_code_table_codec.md R142). -/
def tableEntries (rs : List RawEntry) : List (Symbol × BitSeq) :=
  (firstSeen (rs.map RawEntry.sym)).map fun c => (c, codeOf (rs.map RawEntry.entry) c)

/-- What BDEC emits for n symbols asked of the bits (44_pipeline.md R183): nothing with an empty table, n times the one
symbol with a single entry, else the symbols of n code words the bits begin with. -/
def Decodes (es : List (Symbol × BitSeq)) (bits : BitSeq) (n : Nat) (out : List Symbol) : Prop :=
  match es with
  | [] => out = []
  | [e] => out = List.replicate n e.1
  | _ :: _ :: _ => out.length = n ∧ ∃ chunks rest, bits = chunks.flatten ++ rest ∧ List.Forall₂ (Emits es) out chunks

/-- The bits give the symbols out and then no further one: what is left matches nothing (44_pipeline.md R183). -/
def Exhausts (es : List (Symbol × BitSeq)) (bits : BitSeq) (out : List Symbol) : Prop :=
  ∃ chunks rest, bits = chunks.flatten ++ rest ∧ List.Forall₂ (Emits es) out chunks ∧ NoMatch es rest

/-- The bits begin with code words of the symbols out (44_pipeline.md R183). -/
def BeginsWith (es : List (Symbol × BitSeq)) (bits : BitSeq) (out : List Symbol) : Prop :=
  ∃ chunks rest, bits = chunks.flatten ++ rest ∧ List.Forall₂ (Emits es) out chunks

end Sys2Proof.Machine
end

