-- ==== Sys2Proof/Certificates/Slice0/Obligations.lean ====
section
/-!
DEFINITION. Certificates/Slice0/Obligations.lean: what is claimed of the model, one `def` each, in the order of
OBLIGATIONS.json. Every docstring says which rule of the spec the statement formalises. "Normal end" is a next state with
STATUS.FAULT 0; a fault of the block is the next state of fault entry (`EntersFault`, 60_exceptions.md R214).
-/
open Sys2Proof Sys2Proof.Machine

/-! ### Encoding and the step -/

/-- R92: the seventeen opcode bytes, bit by bit as the map writes them, decode to their commands. -/
def Obligations.OpcodeBytesDecodeToTheirCommands : Prop :=
  decode 0b00000000 = .ok .nop ∧ decode 0b00000001 = .ok .sreset ∧
  decode 0b00010000 = .ok .pack ∧ decode 0b00010001 = .ok .unpack ∧
  decode 0b00100000 = .ok .tser ∧ decode 0b00100001 = .ok .tdes ∧
  decode 0b00110000 = .ok .tinit ∧ decode 0b00110001 = .ok .tmerge ∧
  decode 0b00110010 = .ok .tbuild ∧ decode 0b00110011 = .ok .genc ∧
  decode 0b01000000 = .ok .fcnt ∧ decode 0b01000001 = .ok .bgen ∧
  decode 0b01000010 = .ok .bdec ∧ decode 0b01000011 = .ok .encode ∧
  decode 0b01000100 = .ok .decode ∧ decode 0b01010000 = .ok .compress ∧
  decode 0b01010001 = .ok .decompress

/-- R90, R92: decoding the encoding of a command gives it back, and a byte that decodes is the encoding of what it decodes
to. -/
def Obligations.EncodingAndDecodingAgree : Prop :=
  (∀ (i : Instr) (rest : List Byte), i.wf = true →
    decode (encode i) = .ok i ∧ decodeBytes (encode i :: rest) = .ok (i, rest) ∧
    decodeTableWord 8 (encode i).toNat = some i) ∧
  (∀ (c : Byte) (i : Instr), decode c = .ok i → encode i = c)

/-- R93, R215, R26: 239 of the 256 bytes are no opcode, and each of them raises ILLEGAL_CMD and changes nothing else; so does
a host write of it to CMD, whatever bits 63:8 of the data are. -/
def Obligations.OtherBytesRaiseIllegalCommand : Prop :=
  ((List.range 256).filter fun w => (decodeTableWord 8 w).isNone).length = 239 ∧
  (∀ (c : Byte) (s : State), (∀ i, encode i ≠ c) → s.Idle →
    decode c = .error (.illegalCmd c) ∧ runCommand c s = .next { s with err := 3, fault := true, busy := false }) ∧
  ∀ (v : Reg) (s : State), (∀ i, encode i ≠ v.setWidth 8) → s.Idle →
    hostAccess (.writeReg 0x02 v) s = .next { s with err := 3, fault := true, busy := false }

/-- R26, R110: where the host's next access is a write of CMD whose low byte decodes to i, the step is exec of i, after the
access has left the list of pending ones (log entry 4). -/
def Obligations.StepRunsTheDecodedCommand : Prop :=
  ∀ (s : State) (v : Reg) (rest : List HostAccess) (i : Instr),
    s.script = .writeReg 0x02 v :: rest → decode (v.setWidth 8) = .ok i →
    step s = exec i { s with script := rest }

/-- The model's own (log entry 4): with no access pending the block waits, any pending access is performed, and
`withFetchWord` makes the next step run the command it places. -/
def Obligations.StepTakesThePendingAccess : Prop :=
  (∀ s : State, s.script = [] → step s = .next s) ∧
  (∀ (s : State) (a : HostAccess) (rest : List HostAccess), s.script = a :: rest →
    step s = hostAccess a { s with script := rest }) ∧
  (∀ (s : State) (i : Instr), step (s.withFetchWord 8 (encode i).toNat) = exec i s)

/-! ### Reset, the faulted and the busy state -/

/-- R42: every piece of state has its reset value after a hardware reset and after SRESET, from every state (SRESET: from
every state in which the block is not busy, faulted or not), and in the reset state itself. -/
def Obligations.ResetGivesTheResetValues : Prop :=
  State.reset.AtReset ∧
  (∀ s : State, ∃ t, hostAccess .rst s = .next t ∧ t.AtReset ∧ t.params = s.params) ∧
  (∀ s : State, s.busy = false → ∃ t, exec .sreset s = .next t ∧ t.AtReset ∧ t.params = s.params)

/-- R220: the faulted state is left only by SRESET or the hardware reset, both give the reset state, and every other access
of the host leaves the block, with its first cause, as it is. -/
def Obligations.FaultedStateIsLeftOnlyByReset : Prop :=
  ∀ (s : State) (a : HostAccess), s.busy = false → s.fault = true →
    (a = .rst ∨ (∃ v : Reg, a = .writeReg 0x02 v ∧ v.setWidth 8 = (0x01 : Byte)) →
      ∃ t, hostAccess a s = .next t ∧ t.AtReset) ∧
    (¬ (a = .rst ∨ (∃ v : Reg, a = .writeReg 0x02 v ∧ v.setWidth 8 = (0x01 : Byte))) →
      ∃ t, hostAccess a s = .next t ∧ Unchanged [.port, .fresh] s t)

/-- R243, R24: while busy every access of the host but the hardware reset leaves the block as it is, and STATUS can be
read. -/
def Obligations.BusyBlockIgnoresTheHost : Prop :=
  (∀ (s : State) (a : HostAccess), s.busy = true → a ≠ .rst →
    ∃ t, hostAccess a s = .next t ∧ Unchanged [.port, .fresh] s t) ∧
  (∀ s : State, hostAccess (.readReg 0x00) s = .next { s with port := some (.reg (s.statusWord.setWidth 64)) })

/-- R211, R214: where a command leaves the faulted state, it is the state of fault entry with one of the causes the table
of R211 gives the command, under the code the table gives the cause. -/
def Obligations.FaultsComeFromTheCauseTable : Prop :=
  (∀ (i : Instr) (s t : State), s.Idle → exec i s = .next t → t.fault = true →
    ∃ c ∈ causesOf i, t.FaultedWith c) ∧
  (Cause.formatError.errCode = 1 ∧ Cause.corruptStream.errCode = 2 ∧ Cause.illegalCmd.errCode = 3 ∧
    Cause.capacity.errCode = 4 ∧ Cause.precond.errCode = 5)

/-- R21, R36, R60, R110: a command that ends normally changes no register, no space and no status bit but those the tables
name for it. -/
def Obligations.CommandsWriteOnlyTheirOperands : Prop :=
  ∀ (i : Instr) (s t : State), i ≠ .sreset → s.Idle → exec i s = .next t → t.fault = false →
    Unchanged (writtenBy i) s t

/-! ### Invariants -/

/-- The invariants of R41 hold at reset. -/
def Obligations.ResetMeetsTheInvariants : Prop := State.reset.Inv

/-- R41: the invariants hold after every step from a state in which they hold: commands, accesses of the host, faults and
resets. -/
def Obligations.EveryStepKeepsTheInvariants : Prop := ∀ s t : State, s.Inv → step s = .next t → t.Inv

/-- R111: from a state that meets the invariants no step stops the model: every command ends normally or with a fault of
the block. -/
def Obligations.EveryStepEndsInANextState : Prop := ∀ s : State, s.Inv → ∃ t, step s = .next t

/-! ### Control and the host port -/

/-- R115: NOP is the byte 0x00 and leaves every register and space unchanged, in the faulted state, where it is refused, as
in every other. -/
def Obligations.NopChangesNothing : Prop :=
  decode 0x00 = .ok .nop ∧ ∀ s : State, exec .nop s = .next s ∧ runCommand 0x00 s = .next s

/-- R24, R33, R21: the bits of STATUS and of TREE. -/
def Obligations.StatusAndTreeShowTheirFields : Prop :=
  ∀ s : State,
    s.statusWord.getLsbD 0 = s.busy ∧ s.statusWord.getLsbD 1 = s.fault ∧
    (∀ k, 2 ≤ k → s.statusWord.getLsbD k = false) ∧
    s.treeWord.extractLsb' 0 9 = s.root ∧ s.treeWord.getLsbD 9 = s.rv ∧ s.treeWord.extractLsb' 10 9 = s.next

/-- R21, R27: a host write while idle keeps the low bits of a writable register's width and is ignored elsewhere. -/
def Obligations.RegisterWritesKeepTheLowBits : Prop :=
  ∀ (s : State) (v : Reg), s.Idle →
    hostAccess (.writeReg 0x10 v) s = .next { s with ilen := v } ∧
    hostAccess (.writeReg 0x11 v) s = .next { s with ioff := v } ∧
    hostAccess (.writeReg 0x12 v) s = .next { s with olen := v } ∧
    hostAccess (.writeReg 0x13 v) s = .next { s with blen := v } ∧
    hostAccess (.writeReg 0x14 v) s = .next { s with len := v } ∧
    hostAccess (.writeReg 0x15 v) s = .next { s with pad := v.setWidth 8 } ∧
    (∀ n : BitVec 8, n ∉ [0x02, 0x10, 0x11, 0x12, 0x13, 0x14, 0x15] → hostAccess (.writeReg n v) s = .next s)

/-- R21, R24 to R28: what a host read returns while idle, zero-extended; CMD and unassigned numbers read 0. And while
faulted: STATUS and ERR, the cause of the fault (R25, R27, R214). -/
def Obligations.RegisterReadsReturnTheRegisters : Prop :=
  (∀ s : State, s.Idle →
    (∀ p ∈ [((0x00 : BitVec 8), s.statusWord.setWidth 64), (0x01, s.err.setWidth 64), (0x10, s.ilen), (0x11, s.ioff),
        (0x12, s.olen), (0x13, s.blen), (0x14, s.len), (0x15, s.pad.setWidth 64),
        (0x16, BitVec.ofNat 64 (s.order.length % 512)), (0x17, BitVec.ofNat 64 (s.heap.length % 512)),
        (0x18, s.treeWord.setWidth 64)],
      hostAccess (.readReg p.1) s = .next { s with port := some (.reg p.2) }) ∧
    (∀ n : BitVec 8, n ∉ [0x00, 0x01, 0x10, 0x11, 0x12, 0x13, 0x14, 0x15, 0x16, 0x17, 0x18] →
      hostAccess (.readReg n) s = .next { s with port := some (.reg 0) })) ∧
  (∀ s : State, s.busy = false → s.fault = true →
    hostAccess (.readReg 0x00) s = .next { s with port := some (.reg (s.statusWord.setWidth 64)) } ∧
    hostAccess (.readReg 0x01) s = .next { s with port := some (.reg (s.err.setWidth 64)) })

/-- R60, R61: a host write while idle reaches exactly one cell of IN, BIT or FREQ, and is ignored beyond a space's range
and in the spaces the host can only read. -/
def Obligations.SpaceWritesReachOneCell : Prop :=
  ∀ (s : State) (i : Nat), s.Idle →
    (∀ x : Byte, i < s.params.inCap → ∃ t, hostAccess (.writeSpace i (.inp x)) s = .next t ∧ Unchanged [.inp] s t ∧
      ∀ j, t.inRead j = if j = i then x else s.inRead j) ∧
    (∀ b : Bool, i < s.params.bitCap → ∃ t, hostAccess (.writeSpace i (.bit b)) s = .next t ∧ Unchanged [.bit] s t ∧
      ∀ j, t.bitRead j = if j = i then b else s.bitRead j) ∧
    (∀ v : Counter, i < 256 → ∃ t, hostAccess (.writeSpace i (.freq v)) s = .next t ∧ Unchanged [.freq] s t ∧
      ∀ c, t.freqAt c = if c.toNat = i then v else s.freqAt c) ∧
    (∀ x : Byte, s.params.inCap ≤ i → hostAccess (.writeSpace i (.inp x)) s = .next s) ∧
    (∀ b : Bool, s.params.bitCap ≤ i → hostAccess (.writeSpace i (.bit b)) s = .next s) ∧
    (∀ v : Counter, 256 ≤ i → hostAccess (.writeSpace i (.freq v)) s = .next s) ∧
    (∀ x : Byte, hostAccess (.writeSpace i (.out x)) s = .next s) ∧
    (∀ (b : Bool) (n : Node), hostAccess (.writeSpace i (.node b n)) s = .next s) ∧
    (∀ n : NodeIdx, hostAccess (.writeSpace i (.heap n)) s = .next s) ∧
    (∀ (b : Bool) (bits : BitSeq), hostAccess (.writeSpace i (.code b bits)) s = .next s) ∧
    (∀ c : Symbol, hostAccess (.writeSpace i (.order c)) s = .next s)

/-- R61, R64, R75: a host read while idle returns the element of the valid part it names, and no read changes the block. -/
def Obligations.SpaceReadsReturnTheElement : Prop :=
  (∀ (s : State) (sp : Space) (i : Nat), ∃ t, hostAccess (.readSpace sp i) s = .next t ∧
    Unchanged [.port, .fresh] s t) ∧
  (∀ (s t : State) (i : Nat), s.Idle →
    (hostAccess (.readSpace .inp i) s = .next t → i < s.ilen.toNat → i < s.params.inCap →
      t.port = some (.elem (.inp (s.inRead i)))) ∧
    (hostAccess (.readSpace .out i) s = .next t → i < s.olen.toNat → i < s.params.outCap →
      t.port = some (.elem (.out (s.outRead i)))) ∧
    (hostAccess (.readSpace .bit i) s = .next t → i < s.blen.toNat → i < s.params.bitCap →
      t.port = some (.elem (.bit (s.bitRead i)))) ∧
    (∀ c : Symbol, hostAccess (.readSpace .freq c.toNat) s = .next t → t.port = some (.elem (.freq (s.freqAt c)))) ∧
    (∀ nd, hostAccess (.readSpace .node i) s = .next t → s.slot i = some nd →
      t.port = some (.elem (.node true nd))) ∧
    (∀ n, hostAccess (.readSpace .heap i) s = .next t → s.heap[i]? = some n → t.port = some (.elem (.heap n))) ∧
    (∀ (c : Symbol) (bits : BitSeq), hostAccess (.readSpace .code c.toNat) s = .next t → s.codeAt c = some bits →
      t.port = some (.elem (.code true bits))) ∧
    (∀ c, hostAccess (.readSpace .order i) s = .next t → s.order[i]? = some c → t.port = some (.elem (.order c))))

/-! ### The buffer primitives and the bit packer -/

/-- R71, R72: OutAppend and BitAppend raise CAPACITY at the end of their space, else write the one cell at the old length
and count it; OutAppendAll is OutAppend of each byte in order. -/
def Obligations.AppendsWriteTheCellAtTheLength : Prop :=
  (∀ (s : State) (x : Byte),
    (s.params.outCap ≤ s.olen.toNat → outAppend x s = .error (.raise .capacity)) ∧
    (s.olen.toNat < s.params.outCap → ∃ t, outAppend x s = .ok t ∧ t.olen = s.olen + 1 ∧
      (∀ j, t.outRead j = if j = s.olen.toNat then x else s.outRead j) ∧ Unchanged [.out, .olen] s t)) ∧
  (∀ s : State, outAppendAll [] s = .ok s ∧
    ∀ (x : Byte) (l : List Byte), outAppendAll (x :: l) s = (outAppend x s >>= outAppendAll l)) ∧
  (∀ (s : State) (b : Bool),
    (s.params.bitCap ≤ s.blen.toNat → bitAppend b s = .error (.raise .capacity)) ∧
    (s.blen.toNat < s.params.bitCap → ∃ t, bitAppend b s = .ok t ∧ t.blen = s.blen + 1 ∧
      (∀ j, t.bitRead j = if j = s.blen.toNat then b else s.bitRead j) ∧ Unchanged [.bit, .blen] s t))

/-- R130, R11: the bytes of `pack` and its pad count. -/
def Obligations.PackPutsEachBitInItsPlace : Prop :=
  ∀ bits : BitSeq,
    (packBytes bits).length = (bits.length + 7) / 8 ∧ padCount bits.length = (8 - bits.length % 8) % 8 ∧
    padCount bits.length < 8 ∧ (bits.length + padCount bits.length) % 8 = 0 ∧
    (∀ k j, k < (bits.length + 7) / 8 → j < 8 →
      ((packBytes bits)[k]?).map (fun x => x.getLsbD (7 - j)) = some ((bits[8 * k + j]?).getD false))

/-- R131: the bits of `unpack`. -/
def Obligations.UnpackExpandsAndDropsThePad : Prop :=
  ∀ (bytes : List Byte) (p : Nat),
    (unpackBits bytes p).length = 8 * bytes.length - p ∧
    (∀ i, i < 8 * bytes.length - p →
      (unpackBits bytes p)[i]? = (bytes[i / 8]?).map fun x => x.getLsbD (7 - i % 8))

/-- R133: PACK in every idle state. It appends the packed bytes of BIT[0..BLEN) at the old OLEN, leaves every other byte of
OUT, and sets PAD. Where BLEN = 0 nothing is appended, so nothing can fail even where the host wrote OLEN > OUT_CAP: the
pseudocode's reading, the model's choice (log entry 7). -/
def Obligations.PackAppendsThePackedBits : Prop :=
  ∀ s : State, s.params.wf = true → s.Idle →
    (s.params.bitCap < s.blen.toNat → EntersFault .pack s .precond) ∧
    (s.blen.toNat ≤ s.params.bitCap → 0 < s.blen.toNat →
      s.params.outCap < s.olen.toNat + ceil8 s.blen.toNat → EntersFault .pack s .capacity) ∧
    (s.blen.toNat ≤ s.params.bitCap → (s.blen.toNat = 0 ∨ s.olen.toNat + ceil8 s.blen.toNat ≤ s.params.outCap) →
      ∃ t, exec .pack s = .next t ∧ t.olen.toNat = s.olen.toNat + ceil8 s.blen.toNat ∧
        t.outData = s.outData ++ packBytes s.bitData ∧
        (∀ a, (a < s.olen.toNat ∨ s.olen.toNat + ceil8 s.blen.toNat ≤ a) → t.outRead a = s.outRead a) ∧
        t.pad.toNat = padCount s.blen.toNat ∧ Unchanged [.out, .olen, .pad] s t)

/-- R134: UNPACK in every idle state. -/
def Obligations.UnpackReplacesTheBits : Prop :=
  ∀ s : State, s.params.wf = true → s.Idle →
    ((s.params.inCap < s.ilen.toNat ∨ s.ilen.toNat < s.ioff.toNat) → EntersFault .unpack s .precond) ∧
    (s.ilen.toNat ≤ s.params.inCap → s.ioff.toNat ≤ s.ilen.toNat →
      (s.params.bitCap < 8 * (s.ilen.toNat - s.ioff.toNat) - s.pad.toNat → EntersFault .unpack s .capacity) ∧
      (8 * (s.ilen.toNat - s.ioff.toNat) - s.pad.toNat ≤ s.params.bitCap →
        ∃ t, exec .unpack s = .next t ∧ t.bitData = unpackBits s.inRest s.pad.toNat ∧
          t.blen.toNat = 8 * (s.ilen.toNat - s.ioff.toNat) - s.pad.toNat ∧ t.ioff = s.ilen ∧
          Unchanged [.bit, .blen, .ioff] s t))

/-- R132: `unpack(pack(b)) == b`; and on the machine: UNPACK of the bytes PACK appended, with the pad count PACK left,
gives the bits back. -/
def Obligations.UnpackInvertsPack : Prop :=
  (∀ bits : BitSeq, unpackBits (packBytes bits) (padCount bits.length) = bits) ∧
  (∀ s t u : State, s.params.wf = true → s.Idle → s.olen = 0 → exec .pack s = .next t → t.fault = false →
    u.Idle → u.params = s.params → u.inRest = t.outData → u.pad = t.pad →
    u.ilen.toNat ≤ u.params.inCap → u.ioff.toNat ≤ u.ilen.toNat →
    ∃ v, exec .unpack u = .next v ∧ v.bitData = s.bitData ∧ v.blen = s.blen ∧ v.ioff = v.ilen)

/-! ### The code table codec -/

/-- R140, R141: TSER appends the serialised table in ORDER's order, or raises CAPACITY. -/
def Obligations.TserAppendsTheSerialTable : Prop :=
  ∀ s : State, s.params.wf = true → s.Idle →
    (s.params.outCap < s.olen.toNat + (serialTable s.entries).length → EntersFault .tser s .capacity) ∧
    (s.olen.toNat + (serialTable s.entries).length ≤ s.params.outCap →
      ∃ t, exec .tser s = .next t ∧ t.outData = s.outData ++ serialTable s.entries ∧
        t.olen.toNat = s.olen.toNat + (serialTable s.entries).length ∧
        (∀ a, (a < s.olen.toNat ∨ s.olen.toNat + (serialTable s.entries).length ≤ a) → t.outRead a = s.outRead a) ∧
        Unchanged [.out, .olen] s t)

/-- R142: TDES of a serialised table of any entries, their code bytes padded with anything, symbols repeated or not: each
symbol keeps the place of its first entry and takes the code of its last, and IOFF ends behind the table. A table cut short
raises CORRUPT_STREAM_ERROR, a bad length PRECOND. -/
def Obligations.TdesReadsTheSerialTable : Prop :=
  ∀ s : State, s.Idle →
    ((s.params.inCap < s.ilen.toNat ∨ s.ilen.toNat < s.ioff.toNat) → EntersFault .tdes s .precond) ∧
    (s.ilen.toNat ≤ s.params.inCap → s.ioff.toNat ≤ s.ilen.toNat →
      ∀ rs : List RawEntry, rs.length < 65536 → (∀ r ∈ rs, r.ok) →
        (∀ rest, s.inRest = rawTable rs ++ rest →
          ∃ t, exec .tdes s = .next t ∧ t.order = firstSeen (rs.map RawEntry.sym) ∧
            (∀ c, t.codeAt c = lastCode (rs.map RawEntry.entry) c) ∧
            t.ioff.toNat = s.ioff.toNat + (rawTable rs).length ∧ t.inRest = rest ∧
            Unchanged [.code, .order, .ioff] s t) ∧
        (∀ missing, missing ≠ [] → s.inRest ++ missing = rawTable rs → EntersFault .tdes s .corruptStream))

/-- R144: a table written by TSER and read by TDES comes back: the same codes, the same order, IOFF at the end. -/
def Obligations.TdesInvertsTser : Prop :=
  ∀ s t u : State, s.params.wf = true → s.Idle → s.TableOk → s.olen = 0 → exec .tser s = .next t → t.fault = false →
    u.Idle → u.ioff = 0 → u.inData = t.outData → u.ilen.toNat ≤ u.params.inCap →
    ∃ v, exec .tdes u = .next v ∧ (∀ c, v.codeAt c = s.codeAt c) ∧ v.order = s.order ∧ v.ioff = v.ilen

/-! ### The tree builder -/

/-- R152, R112 (g): the priority order is the lexicographic order of weight and index, the order of the 81-bit value
`weight ++ index`, and of two different nodes one comes before the other. -/
def Obligations.PriorityOrderIsTotal : Prop :=
  ∀ (s : State) (a b : NodeIdx),
    (keyLt s a b = true ↔ ((s.nodeRead a).weight.toNat < (s.nodeRead b).weight.toNat ∨
      ((s.nodeRead a).weight = (s.nodeRead b).weight ∧ a.toNat < b.toNat))) ∧
    (keyLt s a b = true ↔ (s.nodeRead a).weight ++ a < (s.nodeRead b).weight ++ b) ∧
    keyLt s a a = false ∧ (a ≠ b → (keyLt s a b = true ↔ keyLt s b a = false)) ∧
    (∀ c, keyLt s a b = true → keyLt s b c = true → keyLt s a c = true)

/-- R153, R154: heap_push adds the one index and keeps the heap property. -/
def Obligations.HeapPushKeepsTheHeap : Prop :=
  ∀ (s : State) (h : List NodeIdx) (n : NodeIdx), (n :: h).Nodup → HeapOrdered (keyLt s) h →
    (heapPush (keyLt s) h n).Perm (n :: h) ∧ HeapOrdered (keyLt s) (heapPush (keyLt s) h n)

/-- R153, R155: heap_pop removes HEAP[0], the node of least key, leaves exactly the others, and keeps the heap property. -/
def Obligations.HeapPopRemovesTheLeast : Prop :=
  ∀ (s : State) (h : List NodeIdx), h ≠ [] → h.Nodup → HeapOrdered (keyLt s) h →
    ∃ a h', heapPop (keyLt s) h = some (a, h') ∧ h[0]? = some a ∧ h.Perm (a :: h') ∧
      (∀ b ∈ h', keyLt s a b = true) ∧ HeapOrdered (keyLt s) h'

/-- R157, R163: TINIT in every idle state: the arena holds exactly the leaves of the present symbols, with their counters as
weights, the heap is what pushing them in ascending order makes, NEXT is 256, and RV and ROOT show whether one node is
there. -/
def Obligations.TinitInsertsTheLeaves : Prop :=
  ∀ s : State, s.Idle →
    ∃ t, exec .tinit s = .next t ∧
      (∀ c : Symbol, t.slot c.toNat =
        if 0 < s.freqAt c then some { leaf := true, weight := (s.freqAt c).setWidth 72, left := 0, right := 0 } else none) ∧
      (∀ n, 256 ≤ n → t.slot n = none) ∧
      t.heap = (s.present.map fun c => c.setWidth 9).foldl (heapPush (keyLt t)) [] ∧
      t.heap.Perm (s.present.map fun c => c.setWidth 9) ∧ HeapOrdered (keyLt t) t.heap ∧
      t.next = 256 ∧ t.RootShown ∧ Unchanged treeFields s t

/-- R158, R163: TMERGE in every idle state that meets the tree invariants: a no-op on fewer than two nodes; else the two
least nodes leave the heap, the first to become the left child of a new node of their exact weight, which takes the slot
NEXT and enters the heap. -/
def Obligations.TmergeCombinesTheTwoLeast : Prop :=
  ∀ s : State, s.Idle →
    (s.heap.length < 2 → exec .tmerge s = .next s) ∧
    (2 ≤ s.heap.length → s.Forest →
      ∃ t a b h1 h2, exec .tmerge s = .next t ∧
        heapPop (keyLt s) s.heap = some (a, h1) ∧ heapPop (keyLt s) h1 = some (b, h2) ∧
        keyLt s a b = true ∧ (∀ x ∈ h2, keyLt s b x = true) ∧
        (∃ w : Weight, t.slot s.next.toNat = some { leaf := false, weight := w, left := a, right := b } ∧
          w.toNat = s.slotWeight a.toNat + s.slotWeight b.toNat) ∧
        (∀ n, n ≠ s.next.toNat → t.slot n = s.slot n) ∧
        t.next.toNat = s.next.toNat + 1 ∧ t.heap = heapPush (keyLt t) h2 s.next ∧
        t.heap.Perm (s.next :: h2) ∧ t.RootShown ∧ Unchanged treeFields s t)

/-- R159, R96: TBUILD is TINIT followed by as many TMERGEs as there are present symbols less one, in every idle state; one
TMERGE more would change nothing. -/
def Obligations.TbuildIsTinitAndMerges : Prop :=
  ∀ s : State, s.Idle →
    ∃ t, exec .tbuild s = .next t ∧
      execMany (.tinit :: List.replicate (s.present.length - 1) .tmerge) s = .next t ∧ exec .tmerge t = .next t

/-- R156, R159: the shape of the finished tree, with k present symbols. -/
def Obligations.TbuildFinishesTheTree : Prop :=
  ∀ s : State, s.Idle →
    ∃ t, exec .tbuild s = .next t ∧ t.Forest ∧
      (∀ c : Symbol, t.slot c.toNat =
        if 0 < s.freqAt c then some { leaf := true, weight := (s.freqAt c).setWidth 72, left := 0, right := 0 } else none) ∧
      (s.present.length = 0 → t.heap = [] ∧ t.rv = false ∧ t.root = 0 ∧ t.next = 256) ∧
      (1 ≤ s.present.length → t.heap = [t.root] ∧ t.rv = true ∧ t.next.toNat = 255 + s.present.length ∧
        t.slotWeight t.root.toNat = ((List.range 256).map fun c => (s.freqAt (BitVec.ofNat 8 c)).toNat).sum) ∧
      (∀ c, s.present = [c] → t.root = c.setWidth 9) ∧
      (2 ≤ s.present.length → t.root.toNat = 254 + s.present.length)

/-- R160, R161, R162: GENC in every idle state that meets the tree invariants: PRECOND on an unfinished tree, the empty
table without a tree, the one code "0" for a single leaf, else the code of each leaf is the path from the root to it, 0 for
left and 1 for right, recorded from left to right. The tree stays. -/
def Obligations.GencRecordsThePaths : Prop :=
  ∀ s : State, s.Idle → s.Forest →
    (2 ≤ s.heap.length → EntersFault .genc s .precond) ∧
    (s.heap = [] → ∃ t, exec .genc s = .next t ∧ t.order = [] ∧ (∀ c, t.codeAt c = none) ∧
      Unchanged [.code, .order] s t) ∧
    (∀ r : NodeIdx, s.heap = [r] → r.toNat < 256 →
      ∃ t, exec .genc s = .next t ∧ t.entries = [(r.setWidth 8, [false])] ∧ t.TableOk ∧ Unchanged [.code, .order] s t) ∧
    (∀ r : NodeIdx, s.heap = [r] → 256 ≤ r.toNat →
      ∃ t, exec .genc s = .next t ∧
        (∀ (c : Symbol) (bits : BitSeq), t.codeAt c = some bits ↔ s.follow r bits = some (c.setWidth 9)) ∧
        (t.entries.Pairwise fun a b => LeftOf a.2 b.2) ∧ t.TableOk ∧ Unchanged [.code, .order] s t)

/-- R164: the table TBUILD and GENC make, with k present symbols: (a) its symbols, (b) prefix-freeness, (c) the Kraft sum,
times 2^255, (d) the code lengths, (e) the weighted length, (f) that it depends on FREQ only. Clause (e) is stated for
k ≥ 2: for k = 1 there is no internal node while the one code has length 1 (log entry 9). -/
def Obligations.GeneratedTablesArePrefixFree : Prop :=
  ∀ s : State, s.Idle →
    ∃ t u, exec .tbuild s = .next t ∧ exec .genc t = .next u ∧ u.Idle ∧
      (u.order.length = s.present.length ∧ ∀ c, (u.codeAt c).isSome = true ↔ 0 < s.freqAt c) ∧
      PrefixFree u.entries ∧
      (2 ≤ s.present.length → (u.entries.map fun e => 2 ^ (255 - e.2.length)).sum = 2 ^ 255) ∧
      (∀ e ∈ u.entries, 1 ≤ e.2.length ∧ e.2.length ≤ 255) ∧
      (2 ≤ s.present.length → ∀ e ∈ u.entries, e.2.length ≤ s.present.length - 1) ∧
      (s.present.length = 1 → ∀ e ∈ u.entries, e.2.length = 1) ∧
      (2 ≤ s.present.length → (u.entries.map fun e => (s.freqAt e.1).toNat * e.2.length).sum =
        ((List.range' 256 (t.next.toNat - 256)).map t.slotWeight).sum) ∧
      u.entries = tableFor s.freq

/-! ### The pipeline -/

/-- R180: FCNT in every idle state: PRECOND for a bad length, else FREQ counts the bytes of IN[0..ILEN), and the counters
add up to ILEN. -/
def Obligations.FcntCountsTheBytes : Prop :=
  ∀ s : State, s.Idle →
    (s.params.inCap < s.ilen.toNat → EntersFault .fcnt s .precond) ∧
    (s.ilen.toNat ≤ s.params.inCap →
      ∃ t, exec .fcnt s = .next t ∧ (∀ c, (t.freqAt c).toNat = s.inData.count c) ∧
        ((List.range 256).map fun c => (t.freqAt (BitVec.ofNat 8 c)).toNat).sum = s.ilen.toNat ∧ Unchanged [.freq] s t)

/-- R181: BGEN in every idle state whose table meets R41 (g): the codes of the input bytes in input order become BIT; the
first byte without a code raises PRECOND, unless BIT was full before it. -/
def Obligations.BgenConcatenatesTheCodes : Prop :=
  ∀ s : State, s.params.wf = true → s.Idle → s.TableOk →
    (s.params.inCap < s.ilen.toNat → EntersFault .bgen s .precond) ∧
    (s.ilen.toNat ≤ s.params.inCap →
      ((∀ c ∈ s.inData, c ∈ s.order) → (encodeBits s.entries s.inData).length ≤ s.params.bitCap →
        ∃ t, exec .bgen s = .next t ∧ t.bitData = encodeBits s.entries s.inData ∧
          t.blen.toNat = (encodeBits s.entries s.inData).length ∧ Unchanged [.bit, .blen] s t) ∧
      ((∀ c ∈ s.inData, c ∈ s.order) → s.params.bitCap < (encodeBits s.entries s.inData).length →
        EntersFault .bgen s .capacity) ∧
      (∀ (pre : List Byte) (c : Byte) (post : List Byte), s.inData = pre ++ c :: post → (∀ d ∈ pre, d ∈ s.order) →
        c ∉ s.order →
        ((encodeBits s.entries pre).length ≤ s.params.bitCap → EntersFault .bgen s .precond) ∧
        (s.params.bitCap < (encodeBits s.entries pre).length → EntersFault .bgen s .capacity)))

/-- R182: the lookup finds the last entry in ORDER with exactly the candidate's bits, and a candidate longer than 255 bits
matches nothing. -/
def Obligations.LookupFindsTheLastEntry : Prop :=
  ∀ (s : State) (cand : BitSeq), s.TableOk →
    (∀ c, matchCode s cand = some c ↔ MatchIn s.entries cand c) ∧
    (matchCode s cand = none ↔ ∀ e ∈ s.entries, e.2 ≠ cand) ∧
    (255 < cand.length → matchCode s cand = none)

/-- R183, the runs that end normally: BDEC appends what the table makes of the bits, whatever bits are left over, and
leaves BIT and the other bytes of OUT as they were. Where it appends nothing it ends normally even where the host wrote
OLEN > OUT_CAP, with a single entry and LEN = 0 too: there the pseudocode is followed against the rule's words
"LEN > OUT_CAP − OLEN", the model's choice (log entry 7). -/
def Obligations.BdecEmitsTheSymbols : Prop :=
  ∀ (s : State) (out : List Symbol), s.params.wf = true → s.Idle → s.TableOk →
    (2 ≤ s.order.length → s.blen.toNat ≤ s.params.bitCap) →
    Decodes s.entries s.bitData s.len.toNat out →
    (out = [] ∨ s.olen.toNat + out.length ≤ s.params.outCap) →
    ∃ t, exec .bdec s = .next t ∧ t.outData = s.outData ++ out ∧ t.olen.toNat = s.olen.toNat + out.length ∧
      (∀ a, (a < s.olen.toNat ∨ s.olen.toNat + out.length ≤ a) → t.outRead a = s.outRead a) ∧
      Unchanged [.out, .olen] s t

/-- R183, R213, R216, R217, R219: the faults of BDEC: CORRUPT_STREAM_ERROR where the bits run out, CAPACITY where OUT fills
first, PRECOND for a bad length. That a single entry with LEN = 0 raises nothing is the model's choice (log entry 7). -/
def Obligations.BdecFaultsWhenBitsRunOut : Prop :=
  ∀ s : State, s.params.wf = true → s.Idle → s.TableOk →
    (∀ c, s.order = [c] → 0 < s.len.toNat → s.params.outCap < s.olen.toNat + s.len.toNat →
      EntersFault .bdec s .capacity) ∧
    (2 ≤ s.order.length →
      (s.params.bitCap < s.blen.toNat → EntersFault .bdec s .precond) ∧
      (s.blen.toNat ≤ s.params.bitCap →
        (∀ out, Exhausts s.entries s.bitData out → out.length < s.len.toNat →
          (out = [] ∨ s.olen.toNat + out.length ≤ s.params.outCap) → EntersFault .bdec s .corruptStream) ∧
        (∀ out, BeginsWith s.entries s.bitData out → out.length ≤ s.len.toNat → out ≠ [] →
          s.params.outCap < s.olen.toNat + out.length → EntersFault .bdec s .capacity)))

/-- R184, R96, R113: ENCODE is FCNT, TBUILD, GENC, BGEN and PACK with LEN and OLEN set first; a fault of one of them is
ENCODE's fault. -/
def Obligations.EncodeIsItsUnitCommands : Prop :=
  ∀ s : State, s.Idle → s.ilen.toNat ≤ s.params.inCap →
    ∀ t, execMany [.fcnt, .tbuild, .genc, .bgen, .pack] (restartOut (setLen s.ilen s)) = .next t →
      (t.fault = false → exec .encode s = .next t) ∧
      (∀ c, t.FaultedWith c → EntersFault .encode s c)

/-- R184: what ENCODE gives, from the input alone: the packed payload, the table, the length and the pad count; PRECOND for
a bad length and CAPACITY where the bits or the bytes do not fit. -/
def Obligations.EncodeGivesTheEncodedInput : Prop :=
  ∀ (s : State) (es : List (Symbol × BitSeq)) (bits : BitSeq), s.params.wf = true → s.Idle →
    es = tableOfData s.inData → bits = encodeBits es s.inData →
    (s.params.inCap < s.ilen.toNat → EntersFault .encode s .precond) ∧
    (s.ilen.toNat ≤ s.params.inCap →
      (bits.length ≤ s.params.bitCap ∧ ceil8 bits.length ≤ s.params.outCap →
        ∃ t, exec .encode s = .next t ∧ t.outData = packBytes bits ∧ t.olen.toNat = ceil8 bits.length ∧
          t.entries = es ∧ t.TableOk ∧ t.bitData = bits ∧ t.len = s.ilen ∧ t.pad.toNat = padCount bits.length ∧
          (∀ c, (t.freqAt c).toNat = s.inData.count c) ∧ Unchanged (writtenBy .encode) s t) ∧
      (¬ (bits.length ≤ s.params.bitCap ∧ ceil8 bits.length ≤ s.params.outCap) → EntersFault .encode s .capacity))

/-- R185, R96, R113: DECODE is UNPACK, where the table has two entries or more, and BDEC, with OLEN set to 0 first. -/
def Obligations.DecodeIsItsUnitCommands : Prop :=
  ∀ s : State, s.Idle →
    ((s.params.inCap < s.ilen.toNat ∨ s.ilen.toNat < s.ioff.toNat) → EntersFault .decode s .precond) ∧
    (s.ilen.toNat ≤ s.params.inCap → s.ioff.toNat ≤ s.ilen.toNat →
      ∀ t, execMany ((if 2 ≤ s.order.length then [.unpack] else []) ++ [.bdec]) (restartOut s) = .next t →
        (t.fault = false → exec .decode s = .next t) ∧
        (∀ c, t.FaultedWith c → EntersFault .decode s c))

/-- R185, the runs that end normally: OUT becomes what the table makes of the payload; IOFF, BIT and BLEN change only where
the table has two entries or more. -/
def Obligations.DecodeGivesTheSymbols : Prop :=
  ∀ (s : State) (out : List Symbol), s.params.wf = true → s.Idle → s.TableOk →
    s.ilen.toNat ≤ s.params.inCap → s.ioff.toNat ≤ s.ilen.toNat →
    (2 ≤ s.order.length → 8 * (s.ilen.toNat - s.ioff.toNat) - s.pad.toNat ≤ s.params.bitCap) →
    Decodes s.entries (unpackBits s.inRest s.pad.toNat) s.len.toNat out → out.length ≤ s.params.outCap →
    ∃ t, exec .decode s = .next t ∧ t.outData = out ∧ t.olen.toNat = out.length ∧
      (2 ≤ s.order.length → t.ioff = s.ilen ∧ t.bitData = unpackBits s.inRest s.pad.toNat ∧
        Unchanged [.bit, .blen, .ioff, .out, .olen] s t) ∧
      (s.order.length < 2 → Unchanged [.out, .olen] s t)

/-- R186: DECODE of what ENCODE gave, with the table, LEN and PAD as ENCODE left them, gives the input back. -/
def Obligations.DecodeInvertsEncode : Prop :=
  ∀ s t u : State, s.params.wf = true → s.Idle → exec .encode s = .next t → t.fault = false →
    u.Idle → u.params = s.params → u.ioff = 0 → u.inData = t.outData → u.code = t.code → u.order = t.order →
    u.len = t.len → u.pad = t.pad → u.ilen.toNat ≤ u.params.inCap → s.ilen.toNat ≤ u.params.outCap →
    ∃ v, exec .decode u = .next v ∧ v.outData = s.inData ∧ v.olen = s.ilen

/-! ### The container -/

/-- R200, R201: what COMPRESS gives, from the input alone: the blob; PRECOND for a bad length and CAPACITY where the bits or
the blob do not fit. -/
def Obligations.CompressGivesTheBlob : Prop :=
  ∀ (s : State) (es : List (Symbol × BitSeq)) (bits : BitSeq) (blob : List Byte), s.params.wf = true → s.Idle →
    es = tableOfData s.inData → bits = encodeBits es s.inData →
    blob = s.params.magic.toList ++ be s.ilen.toNat 8 ++ [BitVec.ofNat 8 (padCount bits.length)] ++ serialTable es ++
      packBytes bits →
    (s.params.inCap < s.ilen.toNat → EntersFault .compress s .precond) ∧
    (s.ilen.toNat ≤ s.params.inCap →
      (bits.length ≤ s.params.bitCap ∧ blob.length ≤ s.params.outCap →
        ∃ t, exec .compress s = .next t ∧ t.outData = blob ∧ t.olen.toNat = blob.length ∧ t.entries = es ∧ t.TableOk ∧
          t.bitData = bits ∧ t.len = s.ilen ∧ t.pad.toNat = padCount bits.length ∧
          Unchanged (writtenBy .compress) s t) ∧
      (¬ (bits.length ≤ s.params.bitCap ∧ blob.length ≤ s.params.outCap) → EntersFault .compress s .capacity))

/-- R204: empty input gives the 15-byte blob, DECOMPRESS of that blob gives empty output, and DECOMPRESS of no blob at all
is a FORMAT_ERROR. -/
def Obligations.EmptyInputRoundTrips : Prop :=
  (∀ s : State, s.params.wf = true → s.Idle → s.ilen = 0 →
    ∃ t, exec .compress s = .next t ∧ t.outData = s.params.magic.toList ++ List.replicate 11 0 ∧ t.olen = 15 ∧
      t.fault = false) ∧
  (∀ u : State, u.params.wf = true → u.Idle → u.inData = u.params.magic.toList ++ List.replicate 11 0 →
    u.ilen.toNat ≤ u.params.inCap → ∃ v, exec .decompress u = .next v ∧ v.olen = 0 ∧ v.fault = false) ∧
  (∀ u : State, u.Idle → u.ilen = 0 → EntersFault .decompress u .formatError)

/-- R212, R219: FORMAT_ERROR is raised where the blob is shorter than a header or its tag differs in any byte, after the
length check and before anything else, and by DECOMPRESS only. -/
def Obligations.ForeignBlobsAreFormatErrors : Prop :=
  (∀ s : State, s.Idle →
    (s.params.inCap < s.ilen.toNat → EntersFault .decompress s .precond) ∧
    (s.ilen.toNat ≤ s.params.inCap →
      (s.ilen.toNat < 13 ∨ ∃ k : Fin 4, s.inRead k.val ≠ s.params.magic[k]) → EntersFault .decompress s .formatError)) ∧
  (∀ (i : Instr) (s : State), s.Idle → EntersFault i s .formatError → i = .decompress)

/-- R202 (b), R213: behind a good header a table cut short, even before its count, is a CORRUPT_STREAM_ERROR. -/
def Obligations.TablesCutShortAreCorrupt : Prop :=
  ∀ (s : State) (len pad : Nat) (table missing : List Byte) (rs : List RawEntry), s.Idle →
    s.ilen.toNat ≤ s.params.inCap → len < 2 ^ 64 → s.inData = headerBytes s.params.magic len pad ++ table →
    rs.length < 65536 → (∀ r ∈ rs, r.ok) → table ++ missing = rawTable rs → missing ≠ [] →
    EntersFault .decompress s .corruptStream

/-- R202, the runs that end normally: a blob with the block's tag, any table and any payload gives what the table makes of
the payload. -/
def Obligations.DecompressGivesTheSymbols : Prop :=
  ∀ (s : State) (len pad : Nat) (rs : List RawEntry) (payload : List Byte) (out : List Symbol),
    s.params.wf = true → s.Idle → s.ilen.toNat ≤ s.params.inCap → len < 2 ^ 64 → pad < 256 →
    rs.length < 65536 → (∀ r ∈ rs, r.ok) →
    s.inData = headerBytes s.params.magic len pad ++ (rawTable rs ++ payload) →
    (2 ≤ (tableEntries rs).length → 8 * payload.length - pad ≤ s.params.bitCap) →
    Decodes (tableEntries rs) (unpackBits payload pad) len out → out.length ≤ s.params.outCap →
    ∃ t, exec .decompress s = .next t ∧ t.outData = out ∧ t.olen.toNat = out.length ∧ t.entries = tableEntries rs ∧
      t.len.toNat = len ∧ t.pad.toNat = pad ∧
      (2 ≤ (tableEntries rs).length → t.ioff = s.ilen) ∧
      ((tableEntries rs).length < 2 → t.ioff.toNat = 13 + (rawTable rs).length) ∧
      Unchanged (writtenBy .decompress) s t

/-- R203: DECOMPRESS of what COMPRESS gave gives the input back. -/
def Obligations.DecompressInvertsCompress : Prop :=
  ∀ s t u : State, s.params.wf = true → s.Idle → exec .compress s = .next t → t.fault = false →
    u.Idle → u.params = s.params → u.inData = t.outData → u.ilen.toNat ≤ u.params.inCap →
    s.ilen.toNat ≤ u.params.outCap →
    ∃ v, exec .decompress u = .next v ∧ v.outData = s.inData ∧ v.olen = s.ilen

/-- R245: what COMPRESS and DECOMPRESS give depends on IN[0..ILEN) and the parameters only: two idle blocks that agree in
these end in the same way, with the same fault or the same output and table, whatever else they held. -/
def Obligations.MacrosIgnoreEarlierState : Prop :=
  ∀ (i : Instr) (s u : State), i = .compress ∨ i = .decompress → s.params.wf = true → s.Idle → u.Idle →
    u.params = s.params → u.inData = s.inData →
    ∃ t v, exec i s = .next t ∧ exec i u = .next v ∧ t.fault = v.fault ∧
      (t.fault = true → t.err = v.err) ∧
      (t.fault = false → t.outData = v.outData ∧ t.olen = v.olen ∧ t.entries = v.entries ∧ t.len = v.len ∧ t.pad = v.pad)

/-- R202 (f), 90_conflicts.md C5: a blob that COMPRESS wrote with a table of two entries or more, cut short by one byte, is a
CORRUPT_STREAM_ERROR. A foreign blob may carry surplus bytes behind its last code word (R183 (d)); what it gives when cut
short is said by DecompressFaultsBehindTheTable and DecompressGivesTheSymbols. -/
def Obligations.TruncatedPayloadIsCorrupt : Prop :=
  ∀ s t u : State, s.params.wf = true → s.Idle → exec .compress s = .next t → t.fault = false → 2 ≤ t.order.length →
    u.Idle → u.params = s.params → u.inData = t.outData.dropLast → u.ilen.toNat ≤ u.params.inCap →
    s.ilen.toNat ≤ u.params.outCap → EntersFault .decompress u .corruptStream

/-! ### Faults behind a good table, and the cells of an empty buffer -/

/-- R185, R213, R216, R219: the faults of DECODE behind its operand check, for any table and any payload: CAPACITY from
UNPACK where the kept bits do not fit BIT, else CORRUPT_STREAM_ERROR where the bits run out, CAPACITY where OUT fills
first. -/
def Obligations.DecodeFaultsOnAShortPayload : Prop :=
  ∀ s : State, s.params.wf = true → s.Idle → s.TableOk → s.ilen.toNat ≤ s.params.inCap → s.ioff.toNat ≤ s.ilen.toNat →
    (∀ c, s.order = [c] → s.params.outCap < s.len.toNat → EntersFault .decode s .capacity) ∧
    (2 ≤ s.order.length →
      (s.params.bitCap < 8 * (s.ilen.toNat - s.ioff.toNat) - s.pad.toNat → EntersFault .decode s .capacity) ∧
      (8 * (s.ilen.toNat - s.ioff.toNat) - s.pad.toNat ≤ s.params.bitCap →
        (∀ out, Exhausts s.entries (unpackBits s.inRest s.pad.toNat) out → out.length < s.len.toNat →
          out.length ≤ s.params.outCap → EntersFault .decode s .corruptStream) ∧
        (∀ out, BeginsWith s.entries (unpackBits s.inRest s.pad.toNat) out → out.length ≤ s.len.toNat →
          s.params.outCap < out.length → EntersFault .decode s .capacity)))

/-- R202, R96, R113: behind a good tag DECOMPRESS is TDES and DECODE with LEN, PAD and IOFF set from the header first; a
fault of one of them is DECOMPRESS's fault. -/
def Obligations.DecompressIsItsUnitCommands : Prop :=
  ∀ s : State, s.Idle → s.ilen.toNat ≤ s.params.inCap → 13 ≤ s.ilen.toNat →
    (∀ k : Fin 4, s.inRead k.val = s.params.magic[k]) →
    ∀ t, execMany [.tdes, .decode]
        { s with len := BitVec.ofNat 64 (unbe (s.inSlice 4 12)), pad := s.inRead 12, ioff := 13 } = .next t →
      (t.fault = false → exec .decompress s = .next t) ∧
      (∀ c, t.FaultedWith c → EntersFault .decompress s c)

/-- R202, R213, R216, R219: the faults of DECOMPRESS behind a whole table, for a blob with the block's tag, any table and any
payload, whoever wrote it: CAPACITY from UNPACK where the kept bits do not fit BIT, else CORRUPT_STREAM_ERROR where the
payload gives fewer than LEN symbols, CAPACITY where OUT fills first. -/
def Obligations.DecompressFaultsBehindTheTable : Prop :=
  ∀ (s : State) (len pad : Nat) (rs : List RawEntry) (payload : List Byte),
    s.params.wf = true → s.Idle → s.ilen.toNat ≤ s.params.inCap → len < 2 ^ 64 → pad < 256 →
    rs.length < 65536 → (∀ r ∈ rs, r.ok) →
    s.inData = headerBytes s.params.magic len pad ++ (rawTable rs ++ payload) →
    ((tableEntries rs).length = 1 → s.params.outCap < len → EntersFault .decompress s .capacity) ∧
    (2 ≤ (tableEntries rs).length →
      (s.params.bitCap < 8 * payload.length - pad → EntersFault .decompress s .capacity) ∧
      (8 * payload.length - pad ≤ s.params.bitCap →
        (∀ out, Exhausts (tableEntries rs) (unpackBits payload pad) out → out.length < len →
          out.length ≤ s.params.outCap → EntersFault .decompress s .corruptStream) ∧
        (∀ out, BeginsWith (tableEntries rs) (unpackBits payload pad) out → out.length ≤ len →
          s.params.outCap < out.length → EntersFault .decompress s .capacity)))

/-- The model's reading of R75 (log entry 12, DEDUCED), the model's choice. R75 says that a command which LOWERS a length makes
what lies beyond it unspecified, and says nothing of a command that starts BIT, or OUT, again where its length was 0 already.
In the model such a command leaves every cell beyond the new length as it was, what the host wrote there among them. -/
def Obligations.RestartsKeepTheCellsOfAnEmptyBuffer : Prop :=
  ∀ (i : Instr) (s t : State), s.params.wf = true → s.Idle → exec i s = .next t → t.fault = false →
    (i ∈ [.unpack, .bgen, .encode, .decode, .compress, .decompress] → s.blen = 0 →
      ∀ a, t.blen.toNat ≤ a → t.bitRead a = s.bitRead a) ∧
    (i ∈ [.encode, .decode, .compress, .decompress] → s.olen = 0 →
      ∀ a, t.olen.toNat ≤ a → t.outRead a = s.outRead a)
end

