-- ==== Sys2Proof/Laws/State.lean ====
section
/-!
SUPPORT. Laws/State.lean: one lemma per field per named update of State, so that no later proof unfolds a record update;
and what fault entry and recovery leave in the fields the spec gives a value.
-/
namespace Sys2Proof.Laws

open Sys2Proof Sys2Proof.Machine

/-! ### restartOut -/

@[simp] theorem restartOut_busy (s : State) : (restartOut s).busy = s.busy := rfl
@[simp] theorem restartOut_fault (s : State) : (restartOut s).fault = s.fault := rfl
@[simp] theorem restartOut_err (s : State) : (restartOut s).err = s.err := rfl
@[simp] theorem restartOut_ilen (s : State) : (restartOut s).ilen = s.ilen := rfl
@[simp] theorem restartOut_ioff (s : State) : (restartOut s).ioff = s.ioff := rfl
@[simp] theorem restartOut_olen (s : State) : (restartOut s).olen = 0 := rfl
@[simp] theorem restartOut_blen (s : State) : (restartOut s).blen = s.blen := rfl
@[simp] theorem restartOut_len (s : State) : (restartOut s).len = s.len := rfl
@[simp] theorem restartOut_pad (s : State) : (restartOut s).pad = s.pad := rfl
@[simp] theorem restartOut_root (s : State) : (restartOut s).root = s.root := rfl
@[simp] theorem restartOut_rv (s : State) : (restartOut s).rv = s.rv := rfl
@[simp] theorem restartOut_next (s : State) : (restartOut s).next = s.next := rfl
@[simp] theorem restartOut_inp (s : State) : (restartOut s).inp = s.inp := rfl
@[simp] theorem restartOut_out (s : State) : (restartOut s).out = s.out.restart s.olen := rfl
@[simp] theorem restartOut_bit (s : State) : (restartOut s).bit = s.bit := rfl
@[simp] theorem restartOut_freq (s : State) : (restartOut s).freq = s.freq := rfl
@[simp] theorem restartOut_node (s : State) : (restartOut s).node = s.node := rfl
@[simp] theorem restartOut_heap (s : State) : (restartOut s).heap = s.heap := rfl
@[simp] theorem restartOut_code (s : State) : (restartOut s).code = s.code := rfl
@[simp] theorem restartOut_order (s : State) : (restartOut s).order = s.order := rfl
@[simp] theorem restartOut_params (s : State) : (restartOut s).params = s.params := rfl
@[simp] theorem restartOut_fresh (s : State) : (restartOut s).fresh = s.fresh := rfl
@[simp] theorem restartOut_script (s : State) : (restartOut s).script = s.script := rfl
@[simp] theorem restartOut_port (s : State) : (restartOut s).port = s.port := rfl

/-! ### restartBit -/

@[simp] theorem restartBit_busy (s : State) : (restartBit s).busy = s.busy := rfl
@[simp] theorem restartBit_fault (s : State) : (restartBit s).fault = s.fault := rfl
@[simp] theorem restartBit_err (s : State) : (restartBit s).err = s.err := rfl
@[simp] theorem restartBit_ilen (s : State) : (restartBit s).ilen = s.ilen := rfl
@[simp] theorem restartBit_ioff (s : State) : (restartBit s).ioff = s.ioff := rfl
@[simp] theorem restartBit_olen (s : State) : (restartBit s).olen = s.olen := rfl
@[simp] theorem restartBit_blen (s : State) : (restartBit s).blen = 0 := rfl
@[simp] theorem restartBit_len (s : State) : (restartBit s).len = s.len := rfl
@[simp] theorem restartBit_pad (s : State) : (restartBit s).pad = s.pad := rfl
@[simp] theorem restartBit_root (s : State) : (restartBit s).root = s.root := rfl
@[simp] theorem restartBit_rv (s : State) : (restartBit s).rv = s.rv := rfl
@[simp] theorem restartBit_next (s : State) : (restartBit s).next = s.next := rfl
@[simp] theorem restartBit_inp (s : State) : (restartBit s).inp = s.inp := rfl
@[simp] theorem restartBit_out (s : State) : (restartBit s).out = s.out := rfl
@[simp] theorem restartBit_bit (s : State) : (restartBit s).bit = s.bit.restart s.blen := rfl
@[simp] theorem restartBit_freq (s : State) : (restartBit s).freq = s.freq := rfl
@[simp] theorem restartBit_node (s : State) : (restartBit s).node = s.node := rfl
@[simp] theorem restartBit_heap (s : State) : (restartBit s).heap = s.heap := rfl
@[simp] theorem restartBit_code (s : State) : (restartBit s).code = s.code := rfl
@[simp] theorem restartBit_order (s : State) : (restartBit s).order = s.order := rfl
@[simp] theorem restartBit_params (s : State) : (restartBit s).params = s.params := rfl
@[simp] theorem restartBit_fresh (s : State) : (restartBit s).fresh = s.fresh := rfl
@[simp] theorem restartBit_script (s : State) : (restartBit s).script = s.script := rfl
@[simp] theorem restartBit_port (s : State) : (restartBit s).port = s.port := rfl

/-! ### setCode -/

@[simp] theorem setCode_busy (c : Symbol) (b : BitSeq) (s : State) : (setCode c b s).busy = s.busy := rfl
@[simp] theorem setCode_fault (c : Symbol) (b : BitSeq) (s : State) : (setCode c b s).fault = s.fault := rfl
@[simp] theorem setCode_err (c : Symbol) (b : BitSeq) (s : State) : (setCode c b s).err = s.err := rfl
@[simp] theorem setCode_ilen (c : Symbol) (b : BitSeq) (s : State) : (setCode c b s).ilen = s.ilen := rfl
@[simp] theorem setCode_ioff (c : Symbol) (b : BitSeq) (s : State) : (setCode c b s).ioff = s.ioff := rfl
@[simp] theorem setCode_olen (c : Symbol) (b : BitSeq) (s : State) : (setCode c b s).olen = s.olen := rfl
@[simp] theorem setCode_blen (c : Symbol) (b : BitSeq) (s : State) : (setCode c b s).blen = s.blen := rfl
@[simp] theorem setCode_len (c : Symbol) (b : BitSeq) (s : State) : (setCode c b s).len = s.len := rfl
@[simp] theorem setCode_pad (c : Symbol) (b : BitSeq) (s : State) : (setCode c b s).pad = s.pad := rfl
@[simp] theorem setCode_root (c : Symbol) (b : BitSeq) (s : State) : (setCode c b s).root = s.root := rfl
@[simp] theorem setCode_rv (c : Symbol) (b : BitSeq) (s : State) : (setCode c b s).rv = s.rv := rfl
@[simp] theorem setCode_next (c : Symbol) (b : BitSeq) (s : State) : (setCode c b s).next = s.next := rfl
@[simp] theorem setCode_inp (c : Symbol) (b : BitSeq) (s : State) : (setCode c b s).inp = s.inp := rfl
@[simp] theorem setCode_out (c : Symbol) (b : BitSeq) (s : State) : (setCode c b s).out = s.out := rfl
@[simp] theorem setCode_bit (c : Symbol) (b : BitSeq) (s : State) : (setCode c b s).bit = s.bit := rfl
@[simp] theorem setCode_freq (c : Symbol) (b : BitSeq) (s : State) : (setCode c b s).freq = s.freq := rfl
@[simp] theorem setCode_node (c : Symbol) (b : BitSeq) (s : State) : (setCode c b s).node = s.node := rfl
@[simp] theorem setCode_heap (c : Symbol) (b : BitSeq) (s : State) : (setCode c b s).heap = s.heap := rfl
@[simp] theorem setCode_code (c : Symbol) (b : BitSeq) (s : State) : (setCode c b s).code = s.code.set c.toNat (some b) := rfl
@[simp] theorem setCode_order (c : Symbol) (b : BitSeq) (s : State) : (setCode c b s).order = s.order := rfl
@[simp] theorem setCode_params (c : Symbol) (b : BitSeq) (s : State) : (setCode c b s).params = s.params := rfl
@[simp] theorem setCode_fresh (c : Symbol) (b : BitSeq) (s : State) : (setCode c b s).fresh = s.fresh := rfl
@[simp] theorem setCode_script (c : Symbol) (b : BitSeq) (s : State) : (setCode c b s).script = s.script := rfl
@[simp] theorem setCode_port (c : Symbol) (b : BitSeq) (s : State) : (setCode c b s).port = s.port := rfl

/-! ### clearTable -/

@[simp] theorem clearTable_busy (s : State) : (clearTable s).busy = s.busy := rfl
@[simp] theorem clearTable_fault (s : State) : (clearTable s).fault = s.fault := rfl
@[simp] theorem clearTable_err (s : State) : (clearTable s).err = s.err := rfl
@[simp] theorem clearTable_ilen (s : State) : (clearTable s).ilen = s.ilen := rfl
@[simp] theorem clearTable_ioff (s : State) : (clearTable s).ioff = s.ioff := rfl
@[simp] theorem clearTable_olen (s : State) : (clearTable s).olen = s.olen := rfl
@[simp] theorem clearTable_blen (s : State) : (clearTable s).blen = s.blen := rfl
@[simp] theorem clearTable_len (s : State) : (clearTable s).len = s.len := rfl
@[simp] theorem clearTable_pad (s : State) : (clearTable s).pad = s.pad := rfl
@[simp] theorem clearTable_root (s : State) : (clearTable s).root = s.root := rfl
@[simp] theorem clearTable_rv (s : State) : (clearTable s).rv = s.rv := rfl
@[simp] theorem clearTable_next (s : State) : (clearTable s).next = s.next := rfl
@[simp] theorem clearTable_inp (s : State) : (clearTable s).inp = s.inp := rfl
@[simp] theorem clearTable_out (s : State) : (clearTable s).out = s.out := rfl
@[simp] theorem clearTable_bit (s : State) : (clearTable s).bit = s.bit := rfl
@[simp] theorem clearTable_freq (s : State) : (clearTable s).freq = s.freq := rfl
@[simp] theorem clearTable_node (s : State) : (clearTable s).node = s.node := rfl
@[simp] theorem clearTable_heap (s : State) : (clearTable s).heap = s.heap := rfl
@[simp] theorem clearTable_code (s : State) : (clearTable s).code = Vector.replicate 256 none := rfl
@[simp] theorem clearTable_order (s : State) : (clearTable s).order = [] := rfl
@[simp] theorem clearTable_params (s : State) : (clearTable s).params = s.params := rfl
@[simp] theorem clearTable_fresh (s : State) : (clearTable s).fresh = s.fresh := rfl
@[simp] theorem clearTable_script (s : State) : (clearTable s).script = s.script := rfl
@[simp] theorem clearTable_port (s : State) : (clearTable s).port = s.port := rfl

/-! ### pushOrder -/

@[simp] theorem pushOrder_busy (c : Symbol) (s : State) : (pushOrder c s).busy = s.busy := rfl
@[simp] theorem pushOrder_fault (c : Symbol) (s : State) : (pushOrder c s).fault = s.fault := rfl
@[simp] theorem pushOrder_err (c : Symbol) (s : State) : (pushOrder c s).err = s.err := rfl
@[simp] theorem pushOrder_ilen (c : Symbol) (s : State) : (pushOrder c s).ilen = s.ilen := rfl
@[simp] theorem pushOrder_ioff (c : Symbol) (s : State) : (pushOrder c s).ioff = s.ioff := rfl
@[simp] theorem pushOrder_olen (c : Symbol) (s : State) : (pushOrder c s).olen = s.olen := rfl
@[simp] theorem pushOrder_blen (c : Symbol) (s : State) : (pushOrder c s).blen = s.blen := rfl
@[simp] theorem pushOrder_len (c : Symbol) (s : State) : (pushOrder c s).len = s.len := rfl
@[simp] theorem pushOrder_pad (c : Symbol) (s : State) : (pushOrder c s).pad = s.pad := rfl
@[simp] theorem pushOrder_root (c : Symbol) (s : State) : (pushOrder c s).root = s.root := rfl
@[simp] theorem pushOrder_rv (c : Symbol) (s : State) : (pushOrder c s).rv = s.rv := rfl
@[simp] theorem pushOrder_next (c : Symbol) (s : State) : (pushOrder c s).next = s.next := rfl
@[simp] theorem pushOrder_inp (c : Symbol) (s : State) : (pushOrder c s).inp = s.inp := rfl
@[simp] theorem pushOrder_out (c : Symbol) (s : State) : (pushOrder c s).out = s.out := rfl
@[simp] theorem pushOrder_bit (c : Symbol) (s : State) : (pushOrder c s).bit = s.bit := rfl
@[simp] theorem pushOrder_freq (c : Symbol) (s : State) : (pushOrder c s).freq = s.freq := rfl
@[simp] theorem pushOrder_node (c : Symbol) (s : State) : (pushOrder c s).node = s.node := rfl
@[simp] theorem pushOrder_heap (c : Symbol) (s : State) : (pushOrder c s).heap = s.heap := rfl
@[simp] theorem pushOrder_code (c : Symbol) (s : State) : (pushOrder c s).code = s.code := rfl
@[simp] theorem pushOrder_order (c : Symbol) (s : State) : (pushOrder c s).order = s.order ++ [c] := rfl
@[simp] theorem pushOrder_params (c : Symbol) (s : State) : (pushOrder c s).params = s.params := rfl
@[simp] theorem pushOrder_fresh (c : Symbol) (s : State) : (pushOrder c s).fresh = s.fresh := rfl
@[simp] theorem pushOrder_script (c : Symbol) (s : State) : (pushOrder c s).script = s.script := rfl
@[simp] theorem pushOrder_port (c : Symbol) (s : State) : (pushOrder c s).port = s.port := rfl

/-! ### setNode -/

@[simp] theorem setNode_busy (n : NodeIdx) (d : Node) (s : State) : (setNode n d s).busy = s.busy := rfl
@[simp] theorem setNode_fault (n : NodeIdx) (d : Node) (s : State) : (setNode n d s).fault = s.fault := rfl
@[simp] theorem setNode_err (n : NodeIdx) (d : Node) (s : State) : (setNode n d s).err = s.err := rfl
@[simp] theorem setNode_ilen (n : NodeIdx) (d : Node) (s : State) : (setNode n d s).ilen = s.ilen := rfl
@[simp] theorem setNode_ioff (n : NodeIdx) (d : Node) (s : State) : (setNode n d s).ioff = s.ioff := rfl
@[simp] theorem setNode_olen (n : NodeIdx) (d : Node) (s : State) : (setNode n d s).olen = s.olen := rfl
@[simp] theorem setNode_blen (n : NodeIdx) (d : Node) (s : State) : (setNode n d s).blen = s.blen := rfl
@[simp] theorem setNode_len (n : NodeIdx) (d : Node) (s : State) : (setNode n d s).len = s.len := rfl
@[simp] theorem setNode_pad (n : NodeIdx) (d : Node) (s : State) : (setNode n d s).pad = s.pad := rfl
@[simp] theorem setNode_root (n : NodeIdx) (d : Node) (s : State) : (setNode n d s).root = s.root := rfl
@[simp] theorem setNode_rv (n : NodeIdx) (d : Node) (s : State) : (setNode n d s).rv = s.rv := rfl
@[simp] theorem setNode_next (n : NodeIdx) (d : Node) (s : State) : (setNode n d s).next = s.next := rfl
@[simp] theorem setNode_inp (n : NodeIdx) (d : Node) (s : State) : (setNode n d s).inp = s.inp := rfl
@[simp] theorem setNode_out (n : NodeIdx) (d : Node) (s : State) : (setNode n d s).out = s.out := rfl
@[simp] theorem setNode_bit (n : NodeIdx) (d : Node) (s : State) : (setNode n d s).bit = s.bit := rfl
@[simp] theorem setNode_freq (n : NodeIdx) (d : Node) (s : State) : (setNode n d s).freq = s.freq := rfl
@[simp] theorem setNode_node (n : NodeIdx) (d : Node) (s : State) : (setNode n d s).node = s.node.setIfInBounds n.toNat (some d) := rfl
@[simp] theorem setNode_heap (n : NodeIdx) (d : Node) (s : State) : (setNode n d s).heap = s.heap := rfl
@[simp] theorem setNode_code (n : NodeIdx) (d : Node) (s : State) : (setNode n d s).code = s.code := rfl
@[simp] theorem setNode_order (n : NodeIdx) (d : Node) (s : State) : (setNode n d s).order = s.order := rfl
@[simp] theorem setNode_params (n : NodeIdx) (d : Node) (s : State) : (setNode n d s).params = s.params := rfl
@[simp] theorem setNode_fresh (n : NodeIdx) (d : Node) (s : State) : (setNode n d s).fresh = s.fresh := rfl
@[simp] theorem setNode_script (n : NodeIdx) (d : Node) (s : State) : (setNode n d s).script = s.script := rfl
@[simp] theorem setNode_port (n : NodeIdx) (d : Node) (s : State) : (setNode n d s).port = s.port := rfl

/-! ### pushNode -/

@[simp] theorem pushNode_busy (n : NodeIdx) (s : State) : (pushNode n s).busy = s.busy := rfl
@[simp] theorem pushNode_fault (n : NodeIdx) (s : State) : (pushNode n s).fault = s.fault := rfl
@[simp] theorem pushNode_err (n : NodeIdx) (s : State) : (pushNode n s).err = s.err := rfl
@[simp] theorem pushNode_ilen (n : NodeIdx) (s : State) : (pushNode n s).ilen = s.ilen := rfl
@[simp] theorem pushNode_ioff (n : NodeIdx) (s : State) : (pushNode n s).ioff = s.ioff := rfl
@[simp] theorem pushNode_olen (n : NodeIdx) (s : State) : (pushNode n s).olen = s.olen := rfl
@[simp] theorem pushNode_blen (n : NodeIdx) (s : State) : (pushNode n s).blen = s.blen := rfl
@[simp] theorem pushNode_len (n : NodeIdx) (s : State) : (pushNode n s).len = s.len := rfl
@[simp] theorem pushNode_pad (n : NodeIdx) (s : State) : (pushNode n s).pad = s.pad := rfl
@[simp] theorem pushNode_root (n : NodeIdx) (s : State) : (pushNode n s).root = s.root := rfl
@[simp] theorem pushNode_rv (n : NodeIdx) (s : State) : (pushNode n s).rv = s.rv := rfl
@[simp] theorem pushNode_next (n : NodeIdx) (s : State) : (pushNode n s).next = s.next := rfl
@[simp] theorem pushNode_inp (n : NodeIdx) (s : State) : (pushNode n s).inp = s.inp := rfl
@[simp] theorem pushNode_out (n : NodeIdx) (s : State) : (pushNode n s).out = s.out := rfl
@[simp] theorem pushNode_bit (n : NodeIdx) (s : State) : (pushNode n s).bit = s.bit := rfl
@[simp] theorem pushNode_freq (n : NodeIdx) (s : State) : (pushNode n s).freq = s.freq := rfl
@[simp] theorem pushNode_node (n : NodeIdx) (s : State) : (pushNode n s).node = s.node := rfl
@[simp] theorem pushNode_heap (n : NodeIdx) (s : State) : (pushNode n s).heap = heapPush (keyLt s) s.heap n := rfl
@[simp] theorem pushNode_code (n : NodeIdx) (s : State) : (pushNode n s).code = s.code := rfl
@[simp] theorem pushNode_order (n : NodeIdx) (s : State) : (pushNode n s).order = s.order := rfl
@[simp] theorem pushNode_params (n : NodeIdx) (s : State) : (pushNode n s).params = s.params := rfl
@[simp] theorem pushNode_fresh (n : NodeIdx) (s : State) : (pushNode n s).fresh = s.fresh := rfl
@[simp] theorem pushNode_script (n : NodeIdx) (s : State) : (pushNode n s).script = s.script := rfl
@[simp] theorem pushNode_port (n : NodeIdx) (s : State) : (pushNode n s).port = s.port := rfl

/-! ### clearTree -/

@[simp] theorem clearTree_busy (s : State) : (clearTree s).busy = s.busy := rfl
@[simp] theorem clearTree_fault (s : State) : (clearTree s).fault = s.fault := rfl
@[simp] theorem clearTree_err (s : State) : (clearTree s).err = s.err := rfl
@[simp] theorem clearTree_ilen (s : State) : (clearTree s).ilen = s.ilen := rfl
@[simp] theorem clearTree_ioff (s : State) : (clearTree s).ioff = s.ioff := rfl
@[simp] theorem clearTree_olen (s : State) : (clearTree s).olen = s.olen := rfl
@[simp] theorem clearTree_blen (s : State) : (clearTree s).blen = s.blen := rfl
@[simp] theorem clearTree_len (s : State) : (clearTree s).len = s.len := rfl
@[simp] theorem clearTree_pad (s : State) : (clearTree s).pad = s.pad := rfl
@[simp] theorem clearTree_root (s : State) : (clearTree s).root = s.root := rfl
@[simp] theorem clearTree_rv (s : State) : (clearTree s).rv = s.rv := rfl
@[simp] theorem clearTree_next (s : State) : (clearTree s).next = 256 := rfl
@[simp] theorem clearTree_inp (s : State) : (clearTree s).inp = s.inp := rfl
@[simp] theorem clearTree_out (s : State) : (clearTree s).out = s.out := rfl
@[simp] theorem clearTree_bit (s : State) : (clearTree s).bit = s.bit := rfl
@[simp] theorem clearTree_freq (s : State) : (clearTree s).freq = s.freq := rfl
@[simp] theorem clearTree_node (s : State) : (clearTree s).node = Vector.replicate 511 none := rfl
@[simp] theorem clearTree_heap (s : State) : (clearTree s).heap = [] := rfl
@[simp] theorem clearTree_code (s : State) : (clearTree s).code = s.code := rfl
@[simp] theorem clearTree_order (s : State) : (clearTree s).order = s.order := rfl
@[simp] theorem clearTree_params (s : State) : (clearTree s).params = s.params := rfl
@[simp] theorem clearTree_fresh (s : State) : (clearTree s).fresh = s.fresh := rfl
@[simp] theorem clearTree_script (s : State) : (clearTree s).script = s.script := rfl
@[simp] theorem clearTree_port (s : State) : (clearTree s).port = s.port := rfl

/-! ### putOut -/

@[simp] theorem putOut_busy (x : Byte) (s : State) : (putOut x s).busy = s.busy := rfl
@[simp] theorem putOut_fault (x : Byte) (s : State) : (putOut x s).fault = s.fault := rfl
@[simp] theorem putOut_err (x : Byte) (s : State) : (putOut x s).err = s.err := rfl
@[simp] theorem putOut_ilen (x : Byte) (s : State) : (putOut x s).ilen = s.ilen := rfl
@[simp] theorem putOut_ioff (x : Byte) (s : State) : (putOut x s).ioff = s.ioff := rfl
@[simp] theorem putOut_olen (x : Byte) (s : State) : (putOut x s).olen = s.olen + 1 := rfl
@[simp] theorem putOut_blen (x : Byte) (s : State) : (putOut x s).blen = s.blen := rfl
@[simp] theorem putOut_len (x : Byte) (s : State) : (putOut x s).len = s.len := rfl
@[simp] theorem putOut_pad (x : Byte) (s : State) : (putOut x s).pad = s.pad := rfl
@[simp] theorem putOut_root (x : Byte) (s : State) : (putOut x s).root = s.root := rfl
@[simp] theorem putOut_rv (x : Byte) (s : State) : (putOut x s).rv = s.rv := rfl
@[simp] theorem putOut_next (x : Byte) (s : State) : (putOut x s).next = s.next := rfl
@[simp] theorem putOut_inp (x : Byte) (s : State) : (putOut x s).inp = s.inp := rfl
@[simp] theorem putOut_out (x : Byte) (s : State) : (putOut x s).out = s.out.set s.olen.toNat x := rfl
@[simp] theorem putOut_bit (x : Byte) (s : State) : (putOut x s).bit = s.bit := rfl
@[simp] theorem putOut_freq (x : Byte) (s : State) : (putOut x s).freq = s.freq := rfl
@[simp] theorem putOut_node (x : Byte) (s : State) : (putOut x s).node = s.node := rfl
@[simp] theorem putOut_heap (x : Byte) (s : State) : (putOut x s).heap = s.heap := rfl
@[simp] theorem putOut_code (x : Byte) (s : State) : (putOut x s).code = s.code := rfl
@[simp] theorem putOut_order (x : Byte) (s : State) : (putOut x s).order = s.order := rfl
@[simp] theorem putOut_params (x : Byte) (s : State) : (putOut x s).params = s.params := rfl
@[simp] theorem putOut_fresh (x : Byte) (s : State) : (putOut x s).fresh = s.fresh := rfl
@[simp] theorem putOut_script (x : Byte) (s : State) : (putOut x s).script = s.script := rfl
@[simp] theorem putOut_port (x : Byte) (s : State) : (putOut x s).port = s.port := rfl

/-! ### putBit -/

@[simp] theorem putBit_busy (b : Bool) (s : State) : (putBit b s).busy = s.busy := rfl
@[simp] theorem putBit_fault (b : Bool) (s : State) : (putBit b s).fault = s.fault := rfl
@[simp] theorem putBit_err (b : Bool) (s : State) : (putBit b s).err = s.err := rfl
@[simp] theorem putBit_ilen (b : Bool) (s : State) : (putBit b s).ilen = s.ilen := rfl
@[simp] theorem putBit_ioff (b : Bool) (s : State) : (putBit b s).ioff = s.ioff := rfl
@[simp] theorem putBit_olen (b : Bool) (s : State) : (putBit b s).olen = s.olen := rfl
@[simp] theorem putBit_blen (b : Bool) (s : State) : (putBit b s).blen = s.blen + 1 := rfl
@[simp] theorem putBit_len (b : Bool) (s : State) : (putBit b s).len = s.len := rfl
@[simp] theorem putBit_pad (b : Bool) (s : State) : (putBit b s).pad = s.pad := rfl
@[simp] theorem putBit_root (b : Bool) (s : State) : (putBit b s).root = s.root := rfl
@[simp] theorem putBit_rv (b : Bool) (s : State) : (putBit b s).rv = s.rv := rfl
@[simp] theorem putBit_next (b : Bool) (s : State) : (putBit b s).next = s.next := rfl
@[simp] theorem putBit_inp (b : Bool) (s : State) : (putBit b s).inp = s.inp := rfl
@[simp] theorem putBit_out (b : Bool) (s : State) : (putBit b s).out = s.out := rfl
@[simp] theorem putBit_bit (b : Bool) (s : State) : (putBit b s).bit = s.bit.set s.blen.toNat b := rfl
@[simp] theorem putBit_freq (b : Bool) (s : State) : (putBit b s).freq = s.freq := rfl
@[simp] theorem putBit_node (b : Bool) (s : State) : (putBit b s).node = s.node := rfl
@[simp] theorem putBit_heap (b : Bool) (s : State) : (putBit b s).heap = s.heap := rfl
@[simp] theorem putBit_code (b : Bool) (s : State) : (putBit b s).code = s.code := rfl
@[simp] theorem putBit_order (b : Bool) (s : State) : (putBit b s).order = s.order := rfl
@[simp] theorem putBit_params (b : Bool) (s : State) : (putBit b s).params = s.params := rfl
@[simp] theorem putBit_fresh (b : Bool) (s : State) : (putBit b s).fresh = s.fresh := rfl
@[simp] theorem putBit_script (b : Bool) (s : State) : (putBit b s).script = s.script := rfl
@[simp] theorem putBit_port (b : Bool) (s : State) : (putBit b s).port = s.port := rfl

/-! ### setIoff -/

@[simp] theorem setIoff_busy (v : Reg) (s : State) : (setIoff v s).busy = s.busy := rfl
@[simp] theorem setIoff_fault (v : Reg) (s : State) : (setIoff v s).fault = s.fault := rfl
@[simp] theorem setIoff_err (v : Reg) (s : State) : (setIoff v s).err = s.err := rfl
@[simp] theorem setIoff_ilen (v : Reg) (s : State) : (setIoff v s).ilen = s.ilen := rfl
@[simp] theorem setIoff_ioff (v : Reg) (s : State) : (setIoff v s).ioff = v := rfl
@[simp] theorem setIoff_olen (v : Reg) (s : State) : (setIoff v s).olen = s.olen := rfl
@[simp] theorem setIoff_blen (v : Reg) (s : State) : (setIoff v s).blen = s.blen := rfl
@[simp] theorem setIoff_len (v : Reg) (s : State) : (setIoff v s).len = s.len := rfl
@[simp] theorem setIoff_pad (v : Reg) (s : State) : (setIoff v s).pad = s.pad := rfl
@[simp] theorem setIoff_root (v : Reg) (s : State) : (setIoff v s).root = s.root := rfl
@[simp] theorem setIoff_rv (v : Reg) (s : State) : (setIoff v s).rv = s.rv := rfl
@[simp] theorem setIoff_next (v : Reg) (s : State) : (setIoff v s).next = s.next := rfl
@[simp] theorem setIoff_inp (v : Reg) (s : State) : (setIoff v s).inp = s.inp := rfl
@[simp] theorem setIoff_out (v : Reg) (s : State) : (setIoff v s).out = s.out := rfl
@[simp] theorem setIoff_bit (v : Reg) (s : State) : (setIoff v s).bit = s.bit := rfl
@[simp] theorem setIoff_freq (v : Reg) (s : State) : (setIoff v s).freq = s.freq := rfl
@[simp] theorem setIoff_node (v : Reg) (s : State) : (setIoff v s).node = s.node := rfl
@[simp] theorem setIoff_heap (v : Reg) (s : State) : (setIoff v s).heap = s.heap := rfl
@[simp] theorem setIoff_code (v : Reg) (s : State) : (setIoff v s).code = s.code := rfl
@[simp] theorem setIoff_order (v : Reg) (s : State) : (setIoff v s).order = s.order := rfl
@[simp] theorem setIoff_params (v : Reg) (s : State) : (setIoff v s).params = s.params := rfl
@[simp] theorem setIoff_fresh (v : Reg) (s : State) : (setIoff v s).fresh = s.fresh := rfl
@[simp] theorem setIoff_script (v : Reg) (s : State) : (setIoff v s).script = s.script := rfl
@[simp] theorem setIoff_port (v : Reg) (s : State) : (setIoff v s).port = s.port := rfl

/-! ### setLen -/

@[simp] theorem setLen_busy (v : Reg) (s : State) : (setLen v s).busy = s.busy := rfl
@[simp] theorem setLen_fault (v : Reg) (s : State) : (setLen v s).fault = s.fault := rfl
@[simp] theorem setLen_err (v : Reg) (s : State) : (setLen v s).err = s.err := rfl
@[simp] theorem setLen_ilen (v : Reg) (s : State) : (setLen v s).ilen = s.ilen := rfl
@[simp] theorem setLen_ioff (v : Reg) (s : State) : (setLen v s).ioff = s.ioff := rfl
@[simp] theorem setLen_olen (v : Reg) (s : State) : (setLen v s).olen = s.olen := rfl
@[simp] theorem setLen_blen (v : Reg) (s : State) : (setLen v s).blen = s.blen := rfl
@[simp] theorem setLen_len (v : Reg) (s : State) : (setLen v s).len = v := rfl
@[simp] theorem setLen_pad (v : Reg) (s : State) : (setLen v s).pad = s.pad := rfl
@[simp] theorem setLen_root (v : Reg) (s : State) : (setLen v s).root = s.root := rfl
@[simp] theorem setLen_rv (v : Reg) (s : State) : (setLen v s).rv = s.rv := rfl
@[simp] theorem setLen_next (v : Reg) (s : State) : (setLen v s).next = s.next := rfl
@[simp] theorem setLen_inp (v : Reg) (s : State) : (setLen v s).inp = s.inp := rfl
@[simp] theorem setLen_out (v : Reg) (s : State) : (setLen v s).out = s.out := rfl
@[simp] theorem setLen_bit (v : Reg) (s : State) : (setLen v s).bit = s.bit := rfl
@[simp] theorem setLen_freq (v : Reg) (s : State) : (setLen v s).freq = s.freq := rfl
@[simp] theorem setLen_node (v : Reg) (s : State) : (setLen v s).node = s.node := rfl
@[simp] theorem setLen_heap (v : Reg) (s : State) : (setLen v s).heap = s.heap := rfl
@[simp] theorem setLen_code (v : Reg) (s : State) : (setLen v s).code = s.code := rfl
@[simp] theorem setLen_order (v : Reg) (s : State) : (setLen v s).order = s.order := rfl
@[simp] theorem setLen_params (v : Reg) (s : State) : (setLen v s).params = s.params := rfl
@[simp] theorem setLen_fresh (v : Reg) (s : State) : (setLen v s).fresh = s.fresh := rfl
@[simp] theorem setLen_script (v : Reg) (s : State) : (setLen v s).script = s.script := rfl
@[simp] theorem setLen_port (v : Reg) (s : State) : (setLen v s).port = s.port := rfl

/-! ### setPad -/

@[simp] theorem setPad_busy (v : BitVec 8) (s : State) : (setPad v s).busy = s.busy := rfl
@[simp] theorem setPad_fault (v : BitVec 8) (s : State) : (setPad v s).fault = s.fault := rfl
@[simp] theorem setPad_err (v : BitVec 8) (s : State) : (setPad v s).err = s.err := rfl
@[simp] theorem setPad_ilen (v : BitVec 8) (s : State) : (setPad v s).ilen = s.ilen := rfl
@[simp] theorem setPad_ioff (v : BitVec 8) (s : State) : (setPad v s).ioff = s.ioff := rfl
@[simp] theorem setPad_olen (v : BitVec 8) (s : State) : (setPad v s).olen = s.olen := rfl
@[simp] theorem setPad_blen (v : BitVec 8) (s : State) : (setPad v s).blen = s.blen := rfl
@[simp] theorem setPad_len (v : BitVec 8) (s : State) : (setPad v s).len = s.len := rfl
@[simp] theorem setPad_pad (v : BitVec 8) (s : State) : (setPad v s).pad = v := rfl
@[simp] theorem setPad_root (v : BitVec 8) (s : State) : (setPad v s).root = s.root := rfl
@[simp] theorem setPad_rv (v : BitVec 8) (s : State) : (setPad v s).rv = s.rv := rfl
@[simp] theorem setPad_next (v : BitVec 8) (s : State) : (setPad v s).next = s.next := rfl
@[simp] theorem setPad_inp (v : BitVec 8) (s : State) : (setPad v s).inp = s.inp := rfl
@[simp] theorem setPad_out (v : BitVec 8) (s : State) : (setPad v s).out = s.out := rfl
@[simp] theorem setPad_bit (v : BitVec 8) (s : State) : (setPad v s).bit = s.bit := rfl
@[simp] theorem setPad_freq (v : BitVec 8) (s : State) : (setPad v s).freq = s.freq := rfl
@[simp] theorem setPad_node (v : BitVec 8) (s : State) : (setPad v s).node = s.node := rfl
@[simp] theorem setPad_heap (v : BitVec 8) (s : State) : (setPad v s).heap = s.heap := rfl
@[simp] theorem setPad_code (v : BitVec 8) (s : State) : (setPad v s).code = s.code := rfl
@[simp] theorem setPad_order (v : BitVec 8) (s : State) : (setPad v s).order = s.order := rfl
@[simp] theorem setPad_params (v : BitVec 8) (s : State) : (setPad v s).params = s.params := rfl
@[simp] theorem setPad_fresh (v : BitVec 8) (s : State) : (setPad v s).fresh = s.fresh := rfl
@[simp] theorem setPad_script (v : BitVec 8) (s : State) : (setPad v s).script = s.script := rfl
@[simp] theorem setPad_port (v : BitVec 8) (s : State) : (setPad v s).port = s.port := rfl

/-! ### setFreq -/

@[simp] theorem setFreq_busy (f : Vector Counter 256) (s : State) : (setFreq f s).busy = s.busy := rfl
@[simp] theorem setFreq_fault (f : Vector Counter 256) (s : State) : (setFreq f s).fault = s.fault := rfl
@[simp] theorem setFreq_err (f : Vector Counter 256) (s : State) : (setFreq f s).err = s.err := rfl
@[simp] theorem setFreq_ilen (f : Vector Counter 256) (s : State) : (setFreq f s).ilen = s.ilen := rfl
@[simp] theorem setFreq_ioff (f : Vector Counter 256) (s : State) : (setFreq f s).ioff = s.ioff := rfl
@[simp] theorem setFreq_olen (f : Vector Counter 256) (s : State) : (setFreq f s).olen = s.olen := rfl
@[simp] theorem setFreq_blen (f : Vector Counter 256) (s : State) : (setFreq f s).blen = s.blen := rfl
@[simp] theorem setFreq_len (f : Vector Counter 256) (s : State) : (setFreq f s).len = s.len := rfl
@[simp] theorem setFreq_pad (f : Vector Counter 256) (s : State) : (setFreq f s).pad = s.pad := rfl
@[simp] theorem setFreq_root (f : Vector Counter 256) (s : State) : (setFreq f s).root = s.root := rfl
@[simp] theorem setFreq_rv (f : Vector Counter 256) (s : State) : (setFreq f s).rv = s.rv := rfl
@[simp] theorem setFreq_next (f : Vector Counter 256) (s : State) : (setFreq f s).next = s.next := rfl
@[simp] theorem setFreq_inp (f : Vector Counter 256) (s : State) : (setFreq f s).inp = s.inp := rfl
@[simp] theorem setFreq_out (f : Vector Counter 256) (s : State) : (setFreq f s).out = s.out := rfl
@[simp] theorem setFreq_bit (f : Vector Counter 256) (s : State) : (setFreq f s).bit = s.bit := rfl
@[simp] theorem setFreq_freq (f : Vector Counter 256) (s : State) : (setFreq f s).freq = f := rfl
@[simp] theorem setFreq_node (f : Vector Counter 256) (s : State) : (setFreq f s).node = s.node := rfl
@[simp] theorem setFreq_heap (f : Vector Counter 256) (s : State) : (setFreq f s).heap = s.heap := rfl
@[simp] theorem setFreq_code (f : Vector Counter 256) (s : State) : (setFreq f s).code = s.code := rfl
@[simp] theorem setFreq_order (f : Vector Counter 256) (s : State) : (setFreq f s).order = s.order := rfl
@[simp] theorem setFreq_params (f : Vector Counter 256) (s : State) : (setFreq f s).params = s.params := rfl
@[simp] theorem setFreq_fresh (f : Vector Counter 256) (s : State) : (setFreq f s).fresh = s.fresh := rfl
@[simp] theorem setFreq_script (f : Vector Counter 256) (s : State) : (setFreq f s).script = s.script := rfl
@[simp] theorem setFreq_port (f : Vector Counter 256) (s : State) : (setFreq f s).port = s.port := rfl

/-! ### takeNext -/

@[simp] theorem takeNext_busy (h : List NodeIdx) (s : State) : (takeNext h s).busy = s.busy := rfl
@[simp] theorem takeNext_fault (h : List NodeIdx) (s : State) : (takeNext h s).fault = s.fault := rfl
@[simp] theorem takeNext_err (h : List NodeIdx) (s : State) : (takeNext h s).err = s.err := rfl
@[simp] theorem takeNext_ilen (h : List NodeIdx) (s : State) : (takeNext h s).ilen = s.ilen := rfl
@[simp] theorem takeNext_ioff (h : List NodeIdx) (s : State) : (takeNext h s).ioff = s.ioff := rfl
@[simp] theorem takeNext_olen (h : List NodeIdx) (s : State) : (takeNext h s).olen = s.olen := rfl
@[simp] theorem takeNext_blen (h : List NodeIdx) (s : State) : (takeNext h s).blen = s.blen := rfl
@[simp] theorem takeNext_len (h : List NodeIdx) (s : State) : (takeNext h s).len = s.len := rfl
@[simp] theorem takeNext_pad (h : List NodeIdx) (s : State) : (takeNext h s).pad = s.pad := rfl
@[simp] theorem takeNext_root (h : List NodeIdx) (s : State) : (takeNext h s).root = s.root := rfl
@[simp] theorem takeNext_rv (h : List NodeIdx) (s : State) : (takeNext h s).rv = s.rv := rfl
@[simp] theorem takeNext_next (h : List NodeIdx) (s : State) : (takeNext h s).next = s.next + 1 := rfl
@[simp] theorem takeNext_inp (h : List NodeIdx) (s : State) : (takeNext h s).inp = s.inp := rfl
@[simp] theorem takeNext_out (h : List NodeIdx) (s : State) : (takeNext h s).out = s.out := rfl
@[simp] theorem takeNext_bit (h : List NodeIdx) (s : State) : (takeNext h s).bit = s.bit := rfl
@[simp] theorem takeNext_freq (h : List NodeIdx) (s : State) : (takeNext h s).freq = s.freq := rfl
@[simp] theorem takeNext_node (h : List NodeIdx) (s : State) : (takeNext h s).node = s.node := rfl
@[simp] theorem takeNext_heap (h : List NodeIdx) (s : State) : (takeNext h s).heap = h := rfl
@[simp] theorem takeNext_code (h : List NodeIdx) (s : State) : (takeNext h s).code = s.code := rfl
@[simp] theorem takeNext_order (h : List NodeIdx) (s : State) : (takeNext h s).order = s.order := rfl
@[simp] theorem takeNext_params (h : List NodeIdx) (s : State) : (takeNext h s).params = s.params := rfl
@[simp] theorem takeNext_fresh (h : List NodeIdx) (s : State) : (takeNext h s).fresh = s.fresh := rfl
@[simp] theorem takeNext_script (h : List NodeIdx) (s : State) : (takeNext h s).script = s.script := rfl
@[simp] theorem takeNext_port (h : List NodeIdx) (s : State) : (takeNext h s).port = s.port := rfl

/-! ### setRoot -/

/-- setRoot writes RV and ROOT only. -/
theorem setRoot_frame (s : State) : setRoot s = { s with rv := (setRoot s).rv, root := (setRoot s).root } := by
  unfold setRoot
  split <;> rfl

@[simp] theorem setRoot_busy (s : State) : (setRoot s).busy = s.busy := by rw [setRoot_frame]
@[simp] theorem setRoot_fault (s : State) : (setRoot s).fault = s.fault := by rw [setRoot_frame]
@[simp] theorem setRoot_err (s : State) : (setRoot s).err = s.err := by rw [setRoot_frame]
@[simp] theorem setRoot_ilen (s : State) : (setRoot s).ilen = s.ilen := by rw [setRoot_frame]
@[simp] theorem setRoot_ioff (s : State) : (setRoot s).ioff = s.ioff := by rw [setRoot_frame]
@[simp] theorem setRoot_olen (s : State) : (setRoot s).olen = s.olen := by rw [setRoot_frame]
@[simp] theorem setRoot_blen (s : State) : (setRoot s).blen = s.blen := by rw [setRoot_frame]
@[simp] theorem setRoot_len (s : State) : (setRoot s).len = s.len := by rw [setRoot_frame]
@[simp] theorem setRoot_pad (s : State) : (setRoot s).pad = s.pad := by rw [setRoot_frame]
@[simp] theorem setRoot_next (s : State) : (setRoot s).next = s.next := by rw [setRoot_frame]
@[simp] theorem setRoot_inp (s : State) : (setRoot s).inp = s.inp := by rw [setRoot_frame]
@[simp] theorem setRoot_out (s : State) : (setRoot s).out = s.out := by rw [setRoot_frame]
@[simp] theorem setRoot_bit (s : State) : (setRoot s).bit = s.bit := by rw [setRoot_frame]
@[simp] theorem setRoot_freq (s : State) : (setRoot s).freq = s.freq := by rw [setRoot_frame]
@[simp] theorem setRoot_node (s : State) : (setRoot s).node = s.node := by rw [setRoot_frame]
@[simp] theorem setRoot_heap (s : State) : (setRoot s).heap = s.heap := by rw [setRoot_frame]
@[simp] theorem setRoot_code (s : State) : (setRoot s).code = s.code := by rw [setRoot_frame]
@[simp] theorem setRoot_order (s : State) : (setRoot s).order = s.order := by rw [setRoot_frame]
@[simp] theorem setRoot_params (s : State) : (setRoot s).params = s.params := by rw [setRoot_frame]
@[simp] theorem setRoot_fresh (s : State) : (setRoot s).fresh = s.fresh := by rw [setRoot_frame]
@[simp] theorem setRoot_script (s : State) : (setRoot s).script = s.script := by rw [setRoot_frame]
@[simp] theorem setRoot_port (s : State) : (setRoot s).port = s.port := by rw [setRoot_frame]

/-! ### faultEntry and resetFrom -/

@[simp] theorem faultEntry_busy (c : Cause) (s : State) : (faultEntry c s).busy = false := by cases c <;> rfl
@[simp] theorem faultEntry_fault (c : Cause) (s : State) : (faultEntry c s).fault = true := by cases c <;> rfl
@[simp] theorem faultEntry_err (c : Cause) (s : State) : (faultEntry c s).err = c.errCode := by cases c <;> rfl
@[simp] theorem faultEntry_params (c : Cause) (s : State) : (faultEntry c s).params = s.params := by cases c <;> rfl
@[simp] theorem faultEntry_script (c : Cause) (s : State) : (faultEntry c s).script = s.script := by cases c <;> rfl
@[simp] theorem faultEntry_port (c : Cause) (s : State) : (faultEntry c s).port = s.port := by cases c <;> rfl

/-- Fault entry leaves the block in the faulted state with the cause it was entered with (R214). -/
theorem faultEntry_faultedWith (c : Cause) (s : State) : (faultEntry c s).FaultedWith c := by simp [State.FaultedWith]

@[simp] theorem resetFrom_busy (s : State) : (resetFrom s).busy = false := rfl
@[simp] theorem resetFrom_fault (s : State) : (resetFrom s).fault = false := rfl
@[simp] theorem resetFrom_params (s : State) : (resetFrom s).params = s.params := rfl
@[simp] theorem resetFrom_script (s : State) : (resetFrom s).script = s.script := rfl
@[simp] theorem resetFrom_port (s : State) : (resetFrom s).port = s.port := rfl

end Sys2Proof.Laws
end

