-- ==== Sys2Proof/Laws/Memory.lean ====
section
/-!
SUPPORT. Laws/Memory.lean: the laws of a buffer's cells: a read after a write to the same index gives the value written, a
write leaves every other index alone, and every operation keeps the canonical form.
-/
namespace Sys2Proof.Laws

open Sys2Proof Sys2Proof.Machine

variable {α : Type}

@[simp] theorem cellGet_nil (i : Nat) : cellGet ([] : List (Nat × α)) i = none := rfl

theorem cellGet_cellSet (l : List (Nat × α)) (i j : Nat) (v : α) :
    cellGet (cellSet l i v) j = if j = i then some v else cellGet l j := by
  induction l with
  | nil => simp [cellSet, cellGet]
  | cons kw rest ih =>
    obtain ⟨k, w⟩ := kw
    simp only [cellSet]
    split
    · simp [cellGet]
    · split
      · subst_vars
        simp only [cellGet]
        split <;> simp_all
      · simp only [cellGet, ih]
        split <;> split <;> simp_all

@[simp] theorem Mem_get_set_same (m : Mem α) (i : Nat) (v : α) : (m.set i v).get? i = some v := by
  simp [Mem.get?, Mem.set, cellGet_cellSet]

theorem Mem_get_set (m : Mem α) (i j : Nat) (v : α) : (m.set i v).get? j = if j = i then some v else m.get? j := by
  simp [Mem.get?, Mem.set, cellGet_cellSet]

@[simp] theorem Mem_set_epoch (m : Mem α) (i : Nat) (v : α) : (m.set i v).epoch = m.epoch := rfl

@[simp] theorem Mem_get_forget (m : Mem α) (i : Nat) : m.forget.get? i = none := rfl
@[simp] theorem Mem_restart_zero (m : Mem α) : m.restart 0 = m := rfl
theorem Mem_restart_of_ne (m : Mem α) {len : Reg} (h : len ≠ 0) : m.restart len = m.forget := if_neg h

/-- Every index of `cellSet l i v` is `i` or an index of `l`. -/
theorem mem_cellSet {l : List (Nat × α)} {i j : Nat} {v w : α} (h : (j, w) ∈ cellSet l i v) :
    j = i ∨ ∃ w', (j, w') ∈ l := by
  induction l with
  | nil => simp only [cellSet, List.mem_singleton, Prod.mk.injEq] at h; exact .inl h.1
  | cons kx rest ih =>
    obtain ⟨k, x⟩ := kx
    simp only [cellSet] at h
    split at h
    · rcases List.mem_cons.1 h with e | e
      · simp only [Prod.mk.injEq] at e; exact .inl e.1
      · exact .inr ⟨w, e⟩
    · split at h
      · rcases List.mem_cons.1 h with e | e
        · simp only [Prod.mk.injEq] at e; exact .inl e.1
        · exact .inr ⟨w, List.mem_cons_of_mem _ e⟩
      · rcases List.mem_cons.1 h with e | e
        · exact .inr ⟨w, e ▸ List.mem_cons_self ..⟩
        · rcases ih e with e | ⟨w', e⟩
          · exact .inl e
          · exact .inr ⟨w', List.mem_cons_of_mem _ e⟩

/-- A write keeps the indices strictly rising. -/
theorem cellSet_sorted (l : List (Nat × α)) (i : Nat) (v : α) (h : (l.map Prod.fst).Pairwise (· < ·)) :
    ((cellSet l i v).map Prod.fst).Pairwise (· < ·) := by
  induction l with
  | nil => simp [cellSet]
  | cons kx rest ih =>
    obtain ⟨k, x⟩ := kx
    simp only [List.map_cons, List.pairwise_cons] at h
    simp only [cellSet]
    split
    · rename_i hik
      simp only [List.map_cons, List.pairwise_cons, List.mem_cons, forall_eq_or_imp]
      exact ⟨⟨hik, fun a ha => Nat.lt_trans hik (h.1 a ha)⟩, h.1, h.2⟩
    · rename_i hik
      split
      · subst_vars
        simpa using h
      · rename_i hne
        simp only [List.map_cons, List.pairwise_cons]
        refine ⟨fun a ha => ?_, ih h.2⟩
        obtain ⟨⟨j, w⟩, hjw, rfl⟩ := List.mem_map.1 ha
        rcases mem_cellSet hjw with rfl | ⟨w', hw'⟩
        · show k < j
          omega
        · exact h.1 j (List.mem_map.2 ⟨(j, w'), hw', rfl⟩)

theorem Mem_set_wf (m : Mem α) (i : Nat) (v : α) (h : m.wf = true) : (m.set i v).wf = true := by
  simp only [Mem.wf, decide_eq_true_eq] at h ⊢
  exact cellSet_sorted _ _ _ h

@[simp] theorem Mem_forget_wf (m : Mem α) : m.forget.wf = true := by simp [Mem.wf, Mem.forget]

/-- In canonical form equal contents are equal data. -/
theorem cells_ext : ∀ (l k : List (Nat × α)), (l.map Prod.fst).Pairwise (· < ·) → (k.map Prod.fst).Pairwise (· < ·) →
    (∀ i, cellGet l i = cellGet k i) → l = k := by
  have low : ∀ (l : List (Nat × α)) (i : Nat), (∀ a ∈ l.map Prod.fst, i < a) → cellGet l i = none := by
    intro l i h
    induction l with
    | nil => rfl
    | cons x rest ih =>
      obtain ⟨k, v⟩ := x
      simp only [List.map_cons, List.mem_cons, forall_eq_or_imp] at h
      have : i ≠ k := by omega
      simp [cellGet, this, ih h.2]
  intro l
  induction l with
  | nil =>
    intro k _ _ h
    cases k with
    | nil => rfl
    | cons x rest => obtain ⟨i, v⟩ := x; have := h i; simp [cellGet] at this
  | cons x rest ih =>
    obtain ⟨i, v⟩ := x
    intro k hl hk h
    cases k with
    | nil => have := h i; simp [cellGet] at this
    | cons y rest' =>
      obtain ⟨j, w⟩ := y
      simp only [List.map_cons, List.pairwise_cons] at hl hk
      have hij : i = j := by
        rcases Nat.lt_trichotomy i j with lt | e | lt
        · have h1 := h i
          have : cellGet ((j, w) :: rest') i = none := low _ _ (by
            simp only [List.map_cons, List.mem_cons, forall_eq_or_imp]
            exact ⟨lt, fun a ha => Nat.lt_trans lt (hk.1 a ha)⟩)
          rw [this] at h1; simp [cellGet] at h1
        · exact e
        · have h1 := h j
          have : cellGet ((i, v) :: rest) j = none := low _ _ (by
            simp only [List.map_cons, List.mem_cons, forall_eq_or_imp]
            exact ⟨lt, fun a ha => Nat.lt_trans lt (hl.1 a ha)⟩)
          rw [this] at h1; simp [cellGet] at h1
      subst hij
      have hv : v = w := by have := h i; simpa [cellGet] using this
      subst hv
      congr 1
      refine ih rest' hl.2 hk.2 fun a => ?_
      have ha := h a
      simp only [cellGet] at ha
      by_cases e : a = i
      · subst e
        rw [low _ _ hl.1, low _ _ hk.1]
      · simpa [e] using ha

/-! ### The read primitives after a write -/

theorem inRead_congr {s t : State} (h : t.inp = s.inp) (i : Nat) : t.inRead i = s.inRead i := by
  simp [State.inRead, h]

theorem outRead_congr {s t : State} (h : t.out = s.out) (i : Nat) : t.outRead i = s.outRead i := by
  simp [State.outRead, h]

theorem bitRead_congr {s t : State} (h : t.bit = s.bit) (i : Nat) : t.bitRead i = s.bitRead i := by
  simp [State.bitRead, h]

/-- OUT after a write of one byte. -/
theorem outRead_set {s t : State} {k : Nat} {x : Byte} (h : t.out = s.out.set k x) (i : Nat) :
    t.outRead i = if i = k then x else s.outRead i := by
  simp only [State.outRead, h, Mem_get_set, Mem_set_epoch]
  split <;> simp

/-- BIT after a write of one bit. -/
theorem bitRead_set {s t : State} {k : Nat} {x : Bool} (h : t.bit = s.bit.set k x) (i : Nat) :
    t.bitRead i = if i = k then x else s.bitRead i := by
  simp only [State.bitRead, h, Mem_get_set, Mem_set_epoch]
  split <;> simp

/-- IN after a host write of one byte. -/
theorem inRead_set {s t : State} {k : Nat} {x : Byte} (h : t.inp = s.inp.set k x) (i : Nat) :
    t.inRead i = if i = k then x else s.inRead i := by
  simp only [State.inRead, h, Mem_get_set, Mem_set_epoch]
  split <;> simp

end Sys2Proof.Laws
end

