-- ==== Sys2Proof/Laws/Buffers.lean ====
section
/-!
SUPPORT. Laws/Buffers.lean: what appending to OUT and BIT does, as one equation each: either everything fits and the state is
`outWritten` (`bitWritten`), or CAPACITY is raised (20_memory.md R71, R72). And the loops of the commands that are appends.
-/
namespace Sys2Proof.Laws

open Sys2Proof Sys2Proof.Machine

/-- OUT after the bytes of a list were written at OLEN, one after the other. -/
def outWritten : List Byte → State → State
  | [], s => s
  | x :: rest, s => outWritten rest (putOut x s)

/-- BIT after the bits of a sequence were written at BLEN, one after the other. -/
def bitWritten : BitSeq → State → State
  | [], s => s
  | b :: rest, s => bitWritten rest (putBit b s)

theorem outWritten_frame (l : List Byte) (s : State) :
    outWritten l s = { s with out := (outWritten l s).out, olen := (outWritten l s).olen } := by
  induction l generalizing s with
  | nil => rfl
  | cons x rest ih => exact ih (putOut x s)

theorem bitWritten_frame (l : BitSeq) (s : State) :
    bitWritten l s = { s with bit := (bitWritten l s).bit, blen := (bitWritten l s).blen } := by
  induction l generalizing s with
  | nil => rfl
  | cons x rest ih => exact ih (putBit x s)

@[simp] theorem outWritten_busy (l : List Byte) (s : State) : (outWritten l s).busy = s.busy := by rw [outWritten_frame]
@[simp] theorem outWritten_fault (l : List Byte) (s : State) : (outWritten l s).fault = s.fault := by rw [outWritten_frame]
@[simp] theorem outWritten_err (l : List Byte) (s : State) : (outWritten l s).err = s.err := by rw [outWritten_frame]
@[simp] theorem outWritten_ilen (l : List Byte) (s : State) : (outWritten l s).ilen = s.ilen := by rw [outWritten_frame]
@[simp] theorem outWritten_ioff (l : List Byte) (s : State) : (outWritten l s).ioff = s.ioff := by rw [outWritten_frame]
@[simp] theorem outWritten_blen (l : List Byte) (s : State) : (outWritten l s).blen = s.blen := by rw [outWritten_frame]
@[simp] theorem outWritten_len (l : List Byte) (s : State) : (outWritten l s).len = s.len := by rw [outWritten_frame]
@[simp] theorem outWritten_pad (l : List Byte) (s : State) : (outWritten l s).pad = s.pad := by rw [outWritten_frame]
@[simp] theorem outWritten_root (l : List Byte) (s : State) : (outWritten l s).root = s.root := by rw [outWritten_frame]
@[simp] theorem outWritten_rv (l : List Byte) (s : State) : (outWritten l s).rv = s.rv := by rw [outWritten_frame]
@[simp] theorem outWritten_next (l : List Byte) (s : State) : (outWritten l s).next = s.next := by rw [outWritten_frame]
@[simp] theorem outWritten_inp (l : List Byte) (s : State) : (outWritten l s).inp = s.inp := by rw [outWritten_frame]
@[simp] theorem outWritten_bit (l : List Byte) (s : State) : (outWritten l s).bit = s.bit := by rw [outWritten_frame]
@[simp] theorem outWritten_freq (l : List Byte) (s : State) : (outWritten l s).freq = s.freq := by rw [outWritten_frame]
@[simp] theorem outWritten_node (l : List Byte) (s : State) : (outWritten l s).node = s.node := by rw [outWritten_frame]
@[simp] theorem outWritten_heap (l : List Byte) (s : State) : (outWritten l s).heap = s.heap := by rw [outWritten_frame]
@[simp] theorem outWritten_code (l : List Byte) (s : State) : (outWritten l s).code = s.code := by rw [outWritten_frame]
@[simp] theorem outWritten_order (l : List Byte) (s : State) : (outWritten l s).order = s.order := by rw [outWritten_frame]
@[simp] theorem outWritten_params (l : List Byte) (s : State) : (outWritten l s).params = s.params := by rw [outWritten_frame]
@[simp] theorem outWritten_fresh (l : List Byte) (s : State) : (outWritten l s).fresh = s.fresh := by rw [outWritten_frame]
@[simp] theorem outWritten_script (l : List Byte) (s : State) : (outWritten l s).script = s.script := by rw [outWritten_frame]
@[simp] theorem outWritten_port (l : List Byte) (s : State) : (outWritten l s).port = s.port := by rw [outWritten_frame]

@[simp] theorem bitWritten_busy (l : BitSeq) (s : State) : (bitWritten l s).busy = s.busy := by rw [bitWritten_frame]
@[simp] theorem bitWritten_fault (l : BitSeq) (s : State) : (bitWritten l s).fault = s.fault := by rw [bitWritten_frame]
@[simp] theorem bitWritten_err (l : BitSeq) (s : State) : (bitWritten l s).err = s.err := by rw [bitWritten_frame]
@[simp] theorem bitWritten_ilen (l : BitSeq) (s : State) : (bitWritten l s).ilen = s.ilen := by rw [bitWritten_frame]
@[simp] theorem bitWritten_ioff (l : BitSeq) (s : State) : (bitWritten l s).ioff = s.ioff := by rw [bitWritten_frame]
@[simp] theorem bitWritten_olen (l : BitSeq) (s : State) : (bitWritten l s).olen = s.olen := by rw [bitWritten_frame]
@[simp] theorem bitWritten_len (l : BitSeq) (s : State) : (bitWritten l s).len = s.len := by rw [bitWritten_frame]
@[simp] theorem bitWritten_pad (l : BitSeq) (s : State) : (bitWritten l s).pad = s.pad := by rw [bitWritten_frame]
@[simp] theorem bitWritten_root (l : BitSeq) (s : State) : (bitWritten l s).root = s.root := by rw [bitWritten_frame]
@[simp] theorem bitWritten_rv (l : BitSeq) (s : State) : (bitWritten l s).rv = s.rv := by rw [bitWritten_frame]
@[simp] theorem bitWritten_next (l : BitSeq) (s : State) : (bitWritten l s).next = s.next := by rw [bitWritten_frame]
@[simp] theorem bitWritten_inp (l : BitSeq) (s : State) : (bitWritten l s).inp = s.inp := by rw [bitWritten_frame]
@[simp] theorem bitWritten_out (l : BitSeq) (s : State) : (bitWritten l s).out = s.out := by rw [bitWritten_frame]
@[simp] theorem bitWritten_freq (l : BitSeq) (s : State) : (bitWritten l s).freq = s.freq := by rw [bitWritten_frame]
@[simp] theorem bitWritten_node (l : BitSeq) (s : State) : (bitWritten l s).node = s.node := by rw [bitWritten_frame]
@[simp] theorem bitWritten_heap (l : BitSeq) (s : State) : (bitWritten l s).heap = s.heap := by rw [bitWritten_frame]
@[simp] theorem bitWritten_code (l : BitSeq) (s : State) : (bitWritten l s).code = s.code := by rw [bitWritten_frame]
@[simp] theorem bitWritten_order (l : BitSeq) (s : State) : (bitWritten l s).order = s.order := by rw [bitWritten_frame]
@[simp] theorem bitWritten_params (l : BitSeq) (s : State) : (bitWritten l s).params = s.params := by rw [bitWritten_frame]
@[simp] theorem bitWritten_fresh (l : BitSeq) (s : State) : (bitWritten l s).fresh = s.fresh := by rw [bitWritten_frame]
@[simp] theorem bitWritten_script (l : BitSeq) (s : State) : (bitWritten l s).script = s.script := by rw [bitWritten_frame]
@[simp] theorem bitWritten_port (l : BitSeq) (s : State) : (bitWritten l s).port = s.port := by rw [bitWritten_frame]

theorem outWritten_append (a b : List Byte) (s : State) : outWritten (a ++ b) s = outWritten b (outWritten a s) := by
  induction a generalizing s with
  | nil => rfl
  | cons x rest ih => simp [outWritten, ih]

theorem bitWritten_append (a b : BitSeq) (s : State) : bitWritten (a ++ b) s = bitWritten b (bitWritten a s) := by
  induction a generalizing s with
  | nil => rfl
  | cons x rest ih => simp [bitWritten, ih]

/-- A 64-bit register that has room for n more counts n more. -/
theorem toNat_add_one {x : Reg} (h : x.toNat + 1 < 2 ^ 64) : (x + 1).toNat = x.toNat + 1 := by
  rw [BitVec.toNat_add]
  exact Nat.mod_eq_of_lt h

theorem outWritten_olen (l : List Byte) (s : State) (h : s.olen.toNat + l.length < 2 ^ 64) :
    (outWritten l s).olen.toNat = s.olen.toNat + l.length := by
  induction l generalizing s with
  | nil => rfl
  | cons x rest ih =>
    simp only [List.length_cons] at h ⊢
    have e : (s.olen + 1).toNat = s.olen.toNat + 1 := toNat_add_one (by omega)
    rw [outWritten, ih _ (by simp only [putOut_olen, e]; omega)]
    simp only [putOut_olen, e]
    omega

theorem bitWritten_blen (l : BitSeq) (s : State) (h : s.blen.toNat + l.length < 2 ^ 64) :
    (bitWritten l s).blen.toNat = s.blen.toNat + l.length := by
  induction l generalizing s with
  | nil => rfl
  | cons x rest ih =>
    simp only [List.length_cons] at h ⊢
    have e : (s.blen + 1).toNat = s.blen.toNat + 1 := toNat_add_one (by omega)
    rw [bitWritten, ih _ (by simp only [putBit_blen, e]; omega)]
    simp only [putBit_blen, e]
    omega

/-- What OUT holds after the bytes of l were written: l from the old OLEN on, everything else as before. -/
theorem outWritten_read (l : List Byte) (s : State) (h : s.olen.toNat + l.length < 2 ^ 64) (i : Nat) :
    (outWritten l s).outRead i = if s.olen.toNat ≤ i then (l[i - s.olen.toNat]?).getD (s.outRead i) else s.outRead i := by
  induction l generalizing s with
  | nil => simp [outWritten]
  | cons x rest ih =>
    simp only [List.length_cons] at h
    have e : (s.olen + 1).toNat = s.olen.toNat + 1 := toNat_add_one (by omega)
    rw [outWritten, ih _ (by simp only [putOut_olen, e]; omega), outRead_set (s := s) (putOut_out x s)]
    simp only [putOut_olen, e]
    by_cases hlt : i < s.olen.toNat
    · simp [show ¬ s.olen.toNat + 1 ≤ i by omega, show ¬ s.olen.toNat ≤ i by omega, show i ≠ s.olen.toNat by omega]
    · by_cases heq : i = s.olen.toNat
      · simp [heq]
      · have e2 : i - s.olen.toNat = (i - (s.olen.toNat + 1)) + 1 := by omega
        simp [show s.olen.toNat + 1 ≤ i by omega, show s.olen.toNat ≤ i by omega, heq, e2]

theorem bitWritten_read (l : BitSeq) (s : State) (h : s.blen.toNat + l.length < 2 ^ 64) (i : Nat) :
    (bitWritten l s).bitRead i = if s.blen.toNat ≤ i then (l[i - s.blen.toNat]?).getD (s.bitRead i) else s.bitRead i := by
  induction l generalizing s with
  | nil => simp [bitWritten]
  | cons x rest ih =>
    simp only [List.length_cons] at h
    have e : (s.blen + 1).toNat = s.blen.toNat + 1 := toNat_add_one (by omega)
    rw [bitWritten, ih _ (by simp only [putBit_blen, e]; omega), bitRead_set (s := s) (putBit_bit x s)]
    simp only [putBit_blen, e]
    by_cases hlt : i < s.blen.toNat
    · simp [show ¬ s.blen.toNat + 1 ≤ i by omega, show ¬ s.blen.toNat ≤ i by omega, show i ≠ s.blen.toNat by omega]
    · by_cases heq : i = s.blen.toNat
      · simp [heq]
      · have e2 : i - s.blen.toNat = (i - (s.blen.toNat + 1)) + 1 := by omega
        simp [show s.blen.toNat + 1 ≤ i by omega, show s.blen.toNat ≤ i by omega, heq, e2]

@[simp] theorem outData_length (s : State) : s.outData.length = s.olen.toNat := by simp [State.outData]
@[simp] theorem bitData_length (s : State) : s.bitData.length = s.blen.toNat := by simp [State.bitData]

/-- Appending to OUT appends to what OUT[0..OLEN) reads as. -/
theorem outWritten_outData (l : List Byte) (s : State) (h : s.olen.toNat + l.length < 2 ^ 64) :
    (outWritten l s).outData = s.outData ++ l := by
  refine List.ext_getElem (by simp [outWritten_olen l s h]) fun i h1 h2 => ?_
  simp only [State.outData, List.getElem_map, List.getElem_range, outWritten_read l s h, List.getElem_append,
    List.length_map, List.length_range]
  simp only [State.outData, List.length_append, List.length_map, List.length_range] at h2
  split
  · simp [show ¬ i < s.olen.toNat by omega, List.getElem?_eq_getElem (show i - s.olen.toNat < l.length by omega)]
  · simp [show i < s.olen.toNat by omega]

/-- Appending to BIT appends to what BIT[0..BLEN) reads as. -/
theorem bitWritten_bitData (l : BitSeq) (s : State) (h : s.blen.toNat + l.length < 2 ^ 64) :
    (bitWritten l s).bitData = s.bitData ++ l := by
  refine List.ext_getElem (by simp [bitWritten_blen l s h]) fun i h1 h2 => ?_
  simp only [State.bitData, List.getElem_map, List.getElem_range, bitWritten_read l s h, List.getElem_append,
    List.length_map, List.length_range]
  simp only [State.bitData, List.length_append, List.length_map, List.length_range] at h2
  split
  · simp [show ¬ i < s.blen.toNat by omega, List.getElem?_eq_getElem (show i - s.blen.toNat < l.length by omega)]
  · simp [show i < s.blen.toNat by omega]

/-! ### The canonical form and the capacity bound -/

/-- Every cell of a buffer lies below cap, and the cells are in canonical form. -/
def MemOk {α : Type} (m : Mem α) (cap : Nat) : Prop := m.wf = true ∧ ∀ i x, m.get? i = some x → i < cap

theorem MemOk_set {α : Type} {m : Mem α} {cap i : Nat} {v : α} (h : MemOk m cap) (hi : i < cap) : MemOk (m.set i v) cap := by
  refine ⟨Mem_set_wf _ _ _ h.1, fun j x hx => ?_⟩
  rw [Mem_get_set] at hx
  split at hx
  · omega
  · exact h.2 j x hx

@[simp] theorem MemOk_forget {α : Type} (m : Mem α) (cap : Nat) : MemOk m.forget cap :=
  ⟨Mem_forget_wf m, fun i x h => by simp at h⟩

theorem MemOk_restart {α : Type} {m : Mem α} {cap : Nat} (h : MemOk m cap) (len : Reg) : MemOk (m.restart len) cap := by
  unfold Mem.restart; split
  · exact h
  · exact MemOk_forget m cap

theorem outWritten_ok (l : List Byte) (s : State) (hc : s.params.outCap < 2 ^ 64) (h : MemOk s.out s.params.outCap)
    (hl : s.olen.toNat + l.length ≤ s.params.outCap) : MemOk (outWritten l s).out s.params.outCap := by
  induction l generalizing s with
  | nil => exact h
  | cons x rest ih =>
    simp only [List.length_cons] at hl
    have e : (s.olen + 1).toNat = s.olen.toNat + 1 := toNat_add_one (by omega)
    exact ih (putOut x s) hc (MemOk_set h (show s.olen.toNat < s.params.outCap by omega))
       (by simp only [putOut_olen, putOut_params, e]; omega)

theorem bitWritten_ok (l : BitSeq) (s : State) (hc : s.params.bitCap < 2 ^ 64) (h : MemOk s.bit s.params.bitCap)
    (hl : s.blen.toNat + l.length ≤ s.params.bitCap) : MemOk (bitWritten l s).bit s.params.bitCap := by
  induction l generalizing s with
  | nil => exact h
  | cons x rest ih =>
    simp only [List.length_cons] at hl
    have e : (s.blen + 1).toNat = s.blen.toNat + 1 := toNat_add_one (by omega)
    exact ih (putBit x s) hc (MemOk_set h (show s.blen.toNat < s.params.bitCap by omega))
       (by simp only [putBit_blen, putBit_params, e]; omega)

/-! ### The primitives in closed form -/

@[simp] theorem ok_bind {α β : Type} (a : α) (f : α → Except Stop β) : ((Except.ok a : Except Stop α) >>= f) = f a := rfl
@[simp] theorem error_bind {α β : Type} (e : Stop) (f : α → Except Stop β) :
    ((Except.error e : Except Stop α) >>= f) = .error e := rfl
@[simp] theorem raise_bind {α β : Type} (c : Cause) (f : α → Except Stop β) :
    ((raise c : Except Stop α) >>= f) = raise c := rfl

/-- A sequence of two ended normally exactly when both did. -/
theorem bind_eq_ok {α β : Type} {x : Except Stop α} {f : α → Except Stop β} {b : β} :
    (x >>= f) = .ok b ↔ ∃ a, x = .ok a ∧ f a = .ok b := by
  cases x <;> simp

/-- OutAppendAll in closed form (R71). -/
theorem outAppendAll_eq (l : List Byte) (s : State) (hc : s.params.outCap < 2 ^ 64) :
    outAppendAll l s =
      if l = [] ∨ s.olen.toNat + l.length ≤ s.params.outCap then .ok (outWritten l s) else raise .capacity := by
  induction l generalizing s with
  | nil => simp [outAppendAll, outWritten]
  | cons x rest ih =>
    simp only [outAppendAll, outAppend, outWritten, List.length_cons, reduceCtorEq, false_or]
    by_cases hfull : s.params.outCap ≤ s.olen.toNat
    · simp [hfull, show ¬ s.olen.toNat + (rest.length + 1) ≤ s.params.outCap by omega]
    · have e : (s.olen + 1).toNat = s.olen.toNat + 1 := toNat_add_one (by omega)
      simp only [hfull, if_false, ok_bind]
      rw [ih (putOut x s) hc]
      simp only [putOut_olen, putOut_params, e]
      by_cases hr : rest = []
      · subst hr; simp; omega
      · simp only [hr, false_or]
        congr 1
        simp only [eq_iff_iff]
        omega

/-- BitAppend of each bit in closed form (R72). -/
theorem bitAppendAll_eq (l : BitSeq) (s : State) (hc : s.params.bitCap < 2 ^ 64) :
    bitAppendAll l s =
      if l = [] ∨ s.blen.toNat + l.length ≤ s.params.bitCap then .ok (bitWritten l s) else raise .capacity := by
  induction l generalizing s with
  | nil => simp [bitAppendAll, bitWritten]
  | cons x rest ih =>
    simp only [bitAppendAll, bitAppend, bitWritten, List.length_cons, reduceCtorEq, false_or]
    by_cases hfull : s.params.bitCap ≤ s.blen.toNat
    · simp [hfull, show ¬ s.blen.toNat + (rest.length + 1) ≤ s.params.bitCap by omega]
    · have e : (s.blen + 1).toNat = s.blen.toNat + 1 := toNat_add_one (by omega)
      simp only [hfull, if_false, ok_bind]
      rw [ih (putBit x s) hc]
      simp only [putBit_blen, putBit_params, e]
      by_cases hr : rest = []
      · subst hr; simp; omega
      · simp only [hr, false_or]
        congr 1
        simp only [eq_iff_iff]
        omega

/-- Whatever the capacity, where OutAppendAll ends normally the state is `outWritten`. -/
theorem outAppendAll_state {l : List Byte} {s t : State} (h : outAppendAll l s = .ok t) : t = outWritten l s := by
  induction l generalizing s with
  | nil => cases h; rfl
  | cons x rest ih =>
    obtain ⟨u, hu, ht⟩ := bind_eq_ok.1 (show (outAppend x s >>= outAppendAll rest) = .ok t from h)
    unfold outAppend at hu
    split at hu
    · simp [raise] at hu
    · cases hu
      exact ih ht

/-- Whatever the capacity, where the appends to BIT end normally the state is `bitWritten`. -/
theorem bitAppendAll_state {l : BitSeq} {s t : State} (h : bitAppendAll l s = .ok t) : t = bitWritten l s := by
  induction l generalizing s with
  | nil => cases h; rfl
  | cons x rest ih =>
    obtain ⟨u, hu, ht⟩ := bind_eq_ok.1 (show (bitAppend x s >>= bitAppendAll rest) = .ok t from h)
    unfold bitAppend at hu
    split at hu
    · simp [raise] at hu
    · cases hu
      exact ih ht

/-- OutAppendAll raises nothing but CAPACITY. -/
theorem outAppendAll_error {l : List Byte} {s : State} {e : Stop} (h : outAppendAll l s = .error e) :
    e = .raise .capacity := by
  induction l generalizing s with
  | nil => cases h
  | cons x rest ih =>
    simp only [outAppendAll, outAppend] at h
    split at h
    · cases h; rfl
    · exact ih h

/-- BitAppend of each bit raises nothing but CAPACITY. -/
theorem bitAppendAll_error {l : BitSeq} {s : State} {e : Stop} (h : bitAppendAll l s = .error e) :
    e = .raise .capacity := by
  induction l generalizing s with
  | nil => cases h
  | cons x rest ih =>
    simp only [bitAppendAll, bitAppend] at h
    split at h
    · cases h; rfl
    · exact ih h

theorem outAppendAll_append (a b : List Byte) (s : State) :
    outAppendAll (a ++ b) s = outAppendAll a s >>= outAppendAll b := by
  induction a generalizing s with
  | nil => rfl
  | cons x rest ih =>
    simp only [List.cons_append, outAppendAll]
    cases outAppend x s with
    | error e => rfl
    | ok t => exact ih t

theorem bitAppendAll_append (a b : BitSeq) (s : State) :
    bitAppendAll (a ++ b) s = bitAppendAll a s >>= bitAppendAll b := by
  induction a generalizing s with
  | nil => rfl
  | cons x rest ih =>
    simp only [List.cons_append, bitAppendAll]
    cases bitAppend x s with
    | error e => rfl
    | ok t => exact ih t

/-- `repeat n times: OutAppend(x)` appends n copies. -/
theorem outAppendTimes_eq (x : Byte) (n : Nat) (s : State) :
    outAppendTimes x n s = outAppendAll (List.replicate n x) s := by
  induction n generalizing s with
  | zero => rfl
  | succ n ih =>
    simp only [outAppendTimes, List.replicate_succ, outAppendAll]
    cases outAppend x s with
    | error e => rfl
    | ok t => exact ih t

/-- A successful run of OutAppendAll (R71): the state is `outWritten`, and it fitted. -/
theorem outAppendAll_ok {l : List Byte} {s t : State} (hc : s.params.outCap < 2 ^ 64) (h : outAppendAll l s = .ok t) :
    t = outWritten l s ∧ (l = [] ∨ s.olen.toNat + l.length ≤ s.params.outCap) := by
  rw [outAppendAll_eq l s hc] at h
  split at h
  · rename_i hl
    injection h with h
    exact ⟨h.symm, hl⟩
  · simp [raise] at h

theorem bitAppendAll_ok {l : BitSeq} {s t : State} (hc : s.params.bitCap < 2 ^ 64) (h : bitAppendAll l s = .ok t) :
    t = bitWritten l s ∧ (l = [] ∨ s.blen.toNat + l.length ≤ s.params.bitCap) := by
  rw [bitAppendAll_eq l s hc] at h
  split at h
  · rename_i hl
    injection h with h
    exact ⟨h.symm, hl⟩
  · simp [raise] at h

end Sys2Proof.Laws
end

