-- ==== Sys2Proof/Laws/Bits.lean ====
section
/-!
SUPPORT. Laws/Bits.lean: bits and bytes: `byte` and `bits8` are inverse, what `pack` lays out where, that packed bytes expand
to the bits and their padding, and that `be` and `unbe` are inverse.
-/
namespace Sys2Proof.Laws

open Sys2Proof Sys2Proof.Machine

@[simp] theorem bits8_length (x : Byte) : (bits8 x).length = 8 := rfl

theorem byteOf_bits8 (x : Byte) : byteOf (bits8 x) = x := by
  revert x
  decide +kernel

/-- Eight bits are the bits of their byte. -/
theorem bits8_byteOf (l : BitSeq) (h : l.length = 8) : bits8 (byteOf l) = l := by
  match l, h with
  | [a, b, c, d, e, f, g, i], _ =>
    revert a b c d e f g i
    decide +kernel

theorem padCount_lt (n : Nat) : padCount n < 8 := Nat.mod_lt _ (by decide)

/-- A bit count and its pad count together fill ceil8 bytes. -/
theorem add_padCount (n : Nat) : n + padCount n = 8 * ceil8 n := by
  unfold padCount ceil8
  omega

theorem ceil8_le_32 {n : Nat} (h : n ≤ 255) : ceil8 n ≤ 32 := by unfold ceil8; omega

@[simp] theorem packBytes_length (bits : BitSeq) : (packBytes bits).length = ceil8 bits.length := by
  simp only [packBytes, List.length_map, List.length_range, add_padCount]
  omega

/-- Cutting a sequence of 8m bits into bytes and expanding them gives it back. -/
theorem flatMap_bits8_chunks (m : Nat) (ext : BitSeq) (h : ext.length = 8 * m) :
    ((List.range m).map fun k => byteOf ((ext.drop (8 * k)).take 8)).flatMap bits8 = ext := by
  induction m generalizing ext with
  | zero => simpa using (List.length_eq_zero_iff.1 h).symm
  | succ m ih =>
    rw [List.range_succ_eq_map]
    simp only [List.map_cons, List.map_map, List.flatMap_cons]
    rw [bits8_byteOf _ (by simp; omega)]
    have e := ih (ext.drop 8) (by simp; omega)
    have f : ((fun k => byteOf ((ext.drop (8 * k)).take 8)) ∘ Nat.succ) =
        fun k => byteOf (((ext.drop 8).drop (8 * k)).take 8) := by
      funext k
      simp only [Function.comp, List.drop_drop, Nat.succ_eq_add_one]
      congr 3
      omega
    rw [f, e]
    simp

/-- The bits of packed bytes are the bits packed and then the zero padding (R130). -/
theorem flatMap_bits8_packBytes (bits : BitSeq) :
    (packBytes bits).flatMap bits8 = bits ++ List.replicate (padCount bits.length) false := by
  have h := add_padCount bits.length
  simp only [packBytes]
  rw [flatMap_bits8_chunks _ _ (by simp; omega)]

theorem flatMap_bits8_length (l : List Byte) : (l.flatMap bits8).length = 8 * l.length := by
  induction l with
  | nil => rfl
  | cons x rest ih => simp [ih]; omega

/-- Truncating the expanded bytes of a packed code to its length gives the code (R142). -/
theorem take_flatMap_packBytes (bits : BitSeq) : ((packBytes bits).flatMap bits8).take bits.length = bits := by
  simp [flatMap_bits8_packBytes]

/-- Dropping as many bits as were padded gives the sequence back, on lists (R132). -/
theorem take_kept_packBytes (bits : BitSeq) :
    ((packBytes bits).flatMap bits8).take (keptBits (ceil8 bits.length) (padCount bits.length)) = bits := by
  have h := add_padCount bits.length
  rw [show keptBits (ceil8 bits.length) (padCount bits.length) = bits.length by unfold keptBits; omega]
  exact take_flatMap_packBytes bits

/-- Bit i of the expansion of a byte list is bit 7 - (i mod 8) of byte i div 8 (R11). -/
theorem getElem?_flatMap_bits8 (l : List Byte) (i : Nat) :
    (l.flatMap bits8)[i]? = l[i / 8]?.map fun x => x.getLsbD (7 - i % 8) := by
  induction l generalizing i with
  | nil => simp
  | cons x rest ih =>
    rw [List.flatMap_cons]
    by_cases h : i < 8
    · rw [List.getElem?_append_left (by simpa using h)]
      have : i / 8 = 0 := by omega
      rw [this]
      interval_cases i <;> simp [bits8]
    · rw [List.getElem?_append_right (by simpa using h), ih]
      simp only [bits8_length]
      have e : i / 8 = (i - 8) / 8 + 1 := by omega
      rw [e, List.getElem?_cons_succ, show (i - 8) % 8 = i % 8 by omega]

/-- What stands where in packed bytes: bit 7 - j of byte k is bit 8k + j of the sequence, or a padding 0 (R130). -/
theorem packBytes_bit (bits : BitSeq) (k j : Nat) (hj : j < 8) :
    ((packBytes bits)[k]?.map fun x => x.getLsbD (7 - j)) =
      (bits ++ List.replicate (padCount bits.length) false)[8 * k + j]? := by
  rw [← flatMap_bits8_packBytes, getElem?_flatMap_bits8]
  have e1 : (8 * k + j) / 8 = k := by omega
  have e2 : (8 * k + j) % 8 = j := by omega
  rw [e1, e2]

/-! ### Byte order -/

@[simp] theorem be_length (v n : Nat) : (be v n).length = n := by simp [be]

theorem be_succ (v n : Nat) : be v (n + 1) = be (v / 256) n ++ [BitVec.ofNat 8 v] := by
  unfold be
  rw [List.range_succ, List.map_append]
  congr 1
  · refine List.map_congr_left fun k hk => ?_
    have hk : k < n := List.mem_range.1 hk
    congr 1
    rw [Nat.div_div_eq_div_mul, ← pow_succ']
    congr 2
    omega
  · simp

theorem unbe_append_singleton (l : List Byte) (x : Byte) : unbe (l ++ [x]) = 256 * unbe l + x.toNat := by simp [unbe]

/-- `unbe` reads what `be` wrote (R12). -/
theorem unbe_be (v n : Nat) (h : v < 256 ^ n) : unbe (be v n) = v := by
  induction n generalizing v with
  | zero => simp at h; subst h; rfl
  | succ n ih =>
    rw [be_succ, unbe_append_singleton, ih]
    · simp only [BitVec.toNat_ofNat]
      omega
    · rw [pow_succ] at h
      omega

/-- A number read from n bytes fits in n bytes (R12). -/
theorem unbe_lt (l : List Byte) : unbe l < 256 ^ l.length := by
  induction l using List.reverseRecOn with
  | nil => simp [unbe]
  | append_singleton l x ih =>
    have := x.isLt
    rw [unbe_append_singleton, List.length_append, List.length_singleton, Nat.pow_succ]
    omega

/-- `be` writes what `unbe` read (R12). -/
theorem be_unbe (l : List Byte) : be (unbe l) l.length = l := by
  induction l using List.reverseRecOn with
  | nil => rfl
  | append_singleton l x ih =>
    have := x.isLt
    rw [unbe_append_singleton, List.length_append, List.length_singleton, be_succ]
    rw [show (256 * unbe l + x.toNat) / 256 = unbe l by omega, ih]
    have e : BitVec.ofNat 8 (256 * unbe l + x.toNat) = x := BitVec.eq_of_toNat_eq (by rw [BitVec.toNat_ofNat]; omega)
    rw [e]

end Sys2Proof.Laws
end

