-- ==== Sys2Proof/Laws/Cycle.lean ====
section
/-!
SUPPORT. Laws/Cycle.lean: the command cycle (40_common_and_control.md R110) and the operand checks (R114), once each.
-/
namespace Sys2Proof.Laws

open Sys2Proof Sys2Proof.Machine

/-- While busy every command is ignored (R110, R243). -/
theorem commandCycle_busy (run : State → Run) (s : State) (h : s.busy = true) : commandCycle run s = .next s := by
  simp [commandCycle, h]

/-- While faulted every command but SRESET is refused (R110, R220). -/
theorem commandCycle_faulted (run : State → Run) (s : State) (h : s.fault = true) : commandCycle run s = .next s := by
  simp [commandCycle, h]

/-- A command whose pseudocode ends normally leaves the state the pseudocode left (R110). -/
theorem commandCycle_ok {run : State → Run} {s t : State} (hs : s.Idle) (h : run s = .ok t) :
    commandCycle run s = .next t := by
  simp [commandCycle, hs.1, hs.2, h]

/-- A command whose pseudocode raises a fault enters it (R110, R214). -/
theorem commandCycle_raise {run : State → Run} {s : State} {c : Cause} (hs : s.Idle) (h : run s = raise c) :
    commandCycle run s = .next (faultEntry c s) := by
  simp [commandCycle, hs.1, hs.2, h, raise]

/-- Everything the command cycle of a defined command can end in: nothing happened, the pseudocode ended normally, or it
raised a fault. -/
theorem commandCycle_cases {run : State → Run} {s t : State} (h : commandCycle run s = .next t) :
    (¬ s.Idle ∧ t = s) ∨ (s.Idle ∧ run s = .ok t) ∨ (s.Idle ∧ ∃ c, run s = raise c ∧ t = faultEntry c s) := by
  unfold commandCycle at h
  split at h
  · rename_i hb
    injection h with h
    exact .inl ⟨fun hi => by simp [hi.1] at hb, h.symm⟩
  · rename_i hb
    split at h
    · rename_i hf
      injection h with h
      exact .inl ⟨fun hi => by simp [hi.2] at hf, h.symm⟩
    · rename_i hf
      have hi : s.Idle := ⟨by simpa using hb, by simpa using hf⟩
      split at h
      · injection h with h
        exact .inr (.inl ⟨hi, by simp_all⟩)
      · rename_i c hr
        injection h with h
        exact .inr (.inr ⟨hi, c, hr, h.symm⟩)
      · simp at h

/-- A command that ended without fault from an idle state ended as its pseudocode did. -/
theorem commandCycle_normal {run : State → Run} {s t : State} (hs : s.Idle) (h : commandCycle run s = .next t)
    (ht : t.fault = false) : run s = .ok t := by
  rcases commandCycle_cases h with ⟨hn, _⟩ | ⟨_, hr⟩ | ⟨_, c, _, rfl⟩
  · exact absurd hs hn
  · exact hr
  · simp at ht

/-! ### The checks -/

theorem checkLen_eq (s : State) : checkLen s = if s.params.inCap < s.ilen.toNat then raise .precond else .ok s := rfl

theorem checkLen_ok {s t : State} (h : checkLen s = .ok t) : t = s ∧ s.ilen.toNat ≤ s.params.inCap := by
  unfold checkLen at h
  split at h
  · simp [raise] at h
  · injection h with h
    exact ⟨h.symm, by omega⟩

@[simp] theorem checkLen_of_le {s : State} (h : s.ilen.toNat ≤ s.params.inCap) : checkLen s = .ok s := by
  simp [checkLen, Nat.not_lt.2 h]

theorem checkLen_of_gt {s : State} (h : s.params.inCap < s.ilen.toNat) : checkLen s = raise .precond := by
  simp [checkLen, h]

theorem checkIn_ok {s t : State} (h : checkIn s = .ok t) :
    t = s ∧ s.ilen.toNat ≤ s.params.inCap ∧ s.ioff.toNat ≤ s.ilen.toNat := by
  obtain ⟨a, h1, h2⟩ := bind_eq_ok.1 h
  obtain ⟨rfl, hl⟩ := checkLen_ok h1
  split at h2
  · simp [raise] at h2
  · injection h2 with h2
    exact ⟨h2.symm, hl, by omega⟩

theorem checkIn_of_le {s : State} (h : s.ilen.toNat ≤ s.params.inCap) (h2 : s.ioff.toNat ≤ s.ilen.toNat) :
    checkIn s = .ok s := by
  simp [checkIn, checkLen_of_le h, Nat.not_lt.2 h2]

theorem checkIn_bad {s : State} (h : s.params.inCap < s.ilen.toNat ∨ s.ilen.toNat < s.ioff.toNat) :
    checkIn s = raise .precond := by
  unfold checkIn checkLen
  by_cases h1 : s.params.inCap < s.ilen.toNat
  · simp [h1]
  · simp [h1, h.resolve_left h1]

theorem checkBit_ok {s t : State} (h : checkBit s = .ok t) : t = s ∧ s.blen.toNat ≤ s.params.bitCap := by
  unfold checkBit at h
  split at h
  · simp [raise] at h
  · injection h with h
    exact ⟨h.symm, by omega⟩

theorem checkBit_of_le {s : State} (h : s.blen.toNat ≤ s.params.bitCap) : checkBit s = .ok s := by
  simp [checkBit, Nat.not_lt.2 h]

theorem checkBit_of_gt {s : State} (h : s.params.bitCap < s.blen.toNat) : checkBit s = raise .precond := by
  simp [checkBit, h]

/-! ### The parameters -/

/-- What well-formed parameters give (R9). -/
theorem Params_wf_bounds {p : Params} (h : p.wf = true) :
    (1 ≤ p.inCap ∧ p.inCap < 2 ^ 64) ∧ (15 ≤ p.outCap ∧ p.outCap < 2 ^ 64) ∧ (8 ≤ p.bitCap ∧ p.bitCap < 2 ^ 64) := by
  simp only [Params.wf, Params.inCapOk, Params.outCapOk, Params.bitCapOk, Bool.and_eq_true, decide_eq_true_eq] at h
  exact ⟨h.1.1, h.1.2, h.2⟩

theorem outCap_lt {p : Params} (h : p.wf = true) : p.outCap < 2 ^ 64 := (Params_wf_bounds h).2.1.2
theorem bitCap_lt {p : Params} (h : p.wf = true) : p.bitCap < 2 ^ 64 := (Params_wf_bounds h).2.2.2

end Sys2Proof.Laws
end

