-- ==== Sys2Proof/Laws/Heap.lean ====
section
/-!
SUPPORT. Laws/Heap.lean: the binary heap (43_tree_builder.md R153 to R155) over a numeric key. The sift procedures permute the
slots and restore the heap property, so a removed node is one of least key.
-/
namespace Sys2Proof.Laws

open Sys2Proof Sys2Proof.Machine

/-- The order of a numeric key. -/
def ltOf (k : NodeIdx → Nat) (a b : NodeIdx) : Bool := decide (k a < k b)

/-- The key in slot i. -/
def keyAt (k : NodeIdx → Nat) (h : List NodeIdx) (i : Nat) : Nat := k (h.getD i 0)

/-- No slot below n has a key below its parent's. -/
def WeakHeap (f : Nat → Nat) (n : Nat) : Prop := ∀ j, 0 < j → j < n → f ((j - 1) / 2) ≤ f j

/-- The heap property holds but at the edge above slot i, and slot i's parent is not above slot i's children. -/
def UpInv (f : Nat → Nat) (n i : Nat) : Prop :=
  (∀ j, 0 < j → j < n → j ≠ i → f ((j - 1) / 2) ≤ f j) ∧
  (∀ j, 0 < j → j < n → (j - 1) / 2 = i → 0 < i → f ((i - 1) / 2) ≤ f j)

/-- The heap property holds but at the edges below slot i, and slot i's parent is not above slot i's children. -/
def DownInv (f : Nat → Nat) (n i : Nat) : Prop :=
  (∀ j, 0 < j → j < n → (j - 1) / 2 ≠ i → f ((j - 1) / 2) ≤ f j) ∧
  (∀ j, 0 < j → j < n → (j - 1) / 2 = i → 0 < i → f ((i - 1) / 2) ≤ f j)

/-- f with the values at i and j exchanged. -/
def swapped (f : Nat → Nat) (i j x : Nat) : Nat := if x = i then f j else if x = j then f i else f x

theorem swapped_left (f : Nat → Nat) (i j : Nat) : swapped f i j i = f j := by simp [swapped]
theorem swapped_right (f : Nat → Nat) (i j : Nat) : swapped f i j j = f i := by
  unfold swapped
  split
  · rename_i h; rw [h]
  · simp
theorem swapped_other (f : Nat → Nat) {i j x : Nat} (h1 : x ≠ i) (h2 : x ≠ j) : swapped f i j x = f x := by
  simp [swapped, h1, h2]

theorem UpInv_swap {f : Nat → Nat} {n i : Nat} (h : UpInv f n i) (hi : 0 < i) (hn : i < n)
    (hlt : f i < f ((i - 1) / 2)) : UpInv (swapped f i ((i - 1) / 2)) n ((i - 1) / 2) := by
  generalize hp : (i - 1) / 2 = p at *
  have hpi : p ≠ i := by omega
  refine ⟨fun j h0 hj hjp => ?_, fun j h0 hj hjp hp0 => ?_⟩
  · by_cases hji : j = i
    · subst hji
      rw [hp, swapped_left, swapped_right]
      exact Nat.le_of_lt hlt
    · rw [swapped_other f hji hjp]
      by_cases hq : (j - 1) / 2 = i
      · rw [hq, swapped_left]
        exact hp ▸ h.2 j h0 hj hq hi
      · by_cases hq2 : (j - 1) / 2 = p
        · rw [hq2, swapped_right]
          have := h.1 j h0 hj hji
          rw [hq2] at this
          omega
        · rw [swapped_other f hq hq2]
          exact h.1 j h0 hj hji
  · have hpp : f ((p - 1) / 2) ≤ f p := h.1 p hp0 (by omega) hpi
    rw [swapped_other f (show (p - 1) / 2 ≠ i by omega) (show (p - 1) / 2 ≠ p by omega)]
    by_cases hji : j = i
    · subst hji
      rw [swapped_left]
      exact hpp
    · rw [swapped_other f hji (by omega)]
      have := h.1 j h0 hj hji
      rw [hjp] at this
      omega

theorem WeakHeap_of_UpInv {f : Nat → Nat} {n i : Nat} (h : UpInv f n i) (hle : 0 < i → f ((i - 1) / 2) ≤ f i) :
    WeakHeap f n := by
  intro j h0 hj
  by_cases hji : j = i
  · subst hji; exact hle h0
  · exact h.1 j h0 hj hji

theorem DownInv_swap {f : Nat → Nat} {n i m : Nat} (h : DownInv f n i) (hm : (m - 1) / 2 = i) (hm0 : 0 < m) (hmn : m < n)
    (hlt : f m < f i) (hle : ∀ j, 0 < j → j < n → (j - 1) / 2 = i → f m ≤ f j) : DownInv (swapped f i m) n m := by
  refine ⟨fun j h0 hj hjm => ?_, fun j h0 hj hjm _ => ?_⟩
  · by_cases hj1 : j = m
    · subst hj1
      rw [hm, swapped_left, swapped_right]
      omega
    · by_cases hj2 : j = i
      · subst hj2
        rw [swapped_left, swapped_other f (by omega) (by omega)]
        exact h.2 m hm0 hmn hm h0
      · rw [swapped_other f hj2 hj1]
        by_cases hq : (j - 1) / 2 = i
        · rw [hq, swapped_left]
          exact hle j h0 hj hq
        · rw [swapped_other f hq hjm]
          exact h.1 j h0 hj hq
  · rw [hm, swapped_left, swapped_other f (by omega) (by omega)]
    have := h.1 j h0 hj (by omega)
    rwa [hjm] at this

theorem WeakHeap_of_DownInv {f : Nat → Nat} {n i : Nat} (h : DownInv f n i)
    (hle : ∀ j, 0 < j → j < n → (j - 1) / 2 = i → f i ≤ f j) : WeakHeap f n := by
  intro j h0 hj
  by_cases hq : (j - 1) / 2 = i
  · rw [hq]; exact hle j h0 hj hq
  · exact h.1 j h0 hj hq

theorem WeakHeap_root {f : Nat → Nat} {n : Nat} (h : WeakHeap f n) : ∀ i, i < n → f 0 ≤ f i := by
  intro i
  induction i using Nat.strong_induction_on with
  | _ i ih =>
    intro hi
    by_cases h0 : i = 0
    · subst h0; exact Nat.le_refl _
    · exact Nat.le_trans (ih ((i - 1) / 2) (by omega) (by omega)) (h i (by omega) hi)

/-! ### Slots -/

theorem slotLt_iff (k : NodeIdx → Nat) (h : List NodeIdx) (i j : Nat) :
    slotLt (ltOf k) h i j = true ↔ i < h.length ∧ j < h.length ∧ keyAt k h i < keyAt k h j := by
  unfold slotLt keyAt
  by_cases hi : i < h.length
  · by_cases hj : j < h.length
    · simp [hi, hj, ltOf, List.getD]
    · simp [hj]
  · simp [hi]

theorem heapSwap_eq {h : List NodeIdx} {i j : Nat} (hi : i < h.length) (hj : j < h.length) :
    heapSwap h i j = (h.set i h[j]).set j h[i] := by
  simp [heapSwap, List.getElem?_eq_getElem hi, List.getElem?_eq_getElem hj]

@[simp] theorem heapSwap_length (h : List NodeIdx) (i j : Nat) : (heapSwap h i j).length = h.length := by
  unfold heapSwap
  split <;> simp

theorem heapSwap_perm (h : List NodeIdx) (i j : Nat) : (heapSwap h i j).Perm h := by
  unfold heapSwap
  split
  · rename_i a b ha hb
    obtain ⟨hi, rfl⟩ := List.getElem?_eq_some_iff.1 ha
    obtain ⟨hj, rfl⟩ := List.getElem?_eq_some_iff.1 hb
    exact List.set_set_perm hi hj
  · exact List.Perm.refl _

theorem keyAt_heapSwap (k : NodeIdx → Nat) {h : List NodeIdx} {i j : Nat} (hi : i < h.length) (hj : j < h.length) :
    keyAt k (heapSwap h i j) = swapped (keyAt k h) i j := by
  funext x
  rw [heapSwap_eq hi hj]
  unfold swapped keyAt
  simp only [List.getD_eq_getElem?_getD, List.getElem?_set]
  by_cases hxj : x = j
  · subst hxj
    by_cases hxi : x = i
    · subst hxi
      simp [hi]
    · simp [hj, hxi, List.getElem?_eq_getElem hi]
  · by_cases hxi : x = i
    · subst hxi
      simp [hi, Ne.symm hxj, List.getElem?_eq_getElem hj]
    · simp [Ne.symm hxj, Ne.symm hxi, hxj, hxi]

/-! ### The sift procedures -/

theorem siftUp_spec (k : NodeIdx → Nat) (rounds : Nat) : ∀ (i : Nat) (h : List NodeIdx), i ≤ rounds → i < h.length →
    UpInv (keyAt k h) h.length i →
    (siftUp (ltOf k) rounds i h).Perm h ∧ WeakHeap (keyAt k (siftUp (ltOf k) rounds i h)) h.length := by
  induction rounds with
  | zero =>
    intro i h hi _ hu
    exact ⟨List.Perm.refl _, WeakHeap_of_UpInv hu (by omega)⟩
  | succ n ih =>
    intro i h hi hl hu
    simp only [siftUp]
    split
    · rename_i h0
      split
      · rename_i hlt
        obtain ⟨_, hp, hk⟩ := (slotLt_iff k h _ _).1 hlt
        have hu' := UpInv_swap hu h0 hl hk
        rw [← keyAt_heapSwap k hl hp] at hu'
        obtain ⟨h1, h2⟩ := ih ((i - 1) / 2) (heapSwap h i ((i - 1) / 2)) (by omega) (by simpa using hp) (by simpa using hu')
        exact ⟨h1.trans (heapSwap_perm ..), by simpa using h2⟩
      · rename_i hlt
        refine ⟨List.Perm.refl _, WeakHeap_of_UpInv hu fun _ => ?_⟩
        rw [slotLt_iff] at hlt
        have hp : (i - 1) / 2 < h.length := by omega
        exact Nat.not_lt.1 fun hc => hlt ⟨hl, hp, hc⟩
    · rename_i h0
      exact ⟨List.Perm.refl _, WeakHeap_of_UpInv hu (by omega)⟩

/-- The slot R155 picks: slot i itself where no child has a lesser key, else a child of least key. -/
theorem leastChild_spec (k : NodeIdx → Nat) (h : List NodeIdx) (i : Nat) (hi : i < h.length) :
    (leastChild (ltOf k) h i = i ∧
      ∀ j, 0 < j → j < h.length → (j - 1) / 2 = i → keyAt k h i ≤ keyAt k h j) ∨
    (0 < leastChild (ltOf k) h i ∧ (leastChild (ltOf k) h i - 1) / 2 = i ∧ leastChild (ltOf k) h i < h.length ∧
      keyAt k h (leastChild (ltOf k) h i) < keyAt k h i ∧
      ∀ j, 0 < j → j < h.length → (j - 1) / 2 = i → keyAt k h (leastChild (ltOf k) h i) ≤ keyAt k h j) := by
  have child : ∀ j, 0 < j → (j - 1) / 2 = i → j = 2 * i + 1 ∨ j = 2 * i + 2 := by intro j _ _; omega
  simp only [leastChild]
  by_cases hl : slotLt (ltOf k) h (2 * i + 1) i = true
  · have hl' := (slotLt_iff ..).1 hl
    simp only [hl, if_true]
    right
    by_cases hr : slotLt (ltOf k) h (2 * i + 2) (2 * i + 1) = true
    · have hr' := (slotLt_iff ..).1 hr
      simp only [hr, if_true]
      refine ⟨by omega, by omega, hr'.1, by omega, fun j h0 hj hq => ?_⟩
      rcases child j h0 hq with rfl | rfl <;> omega
    · simp only [hr]
      refine ⟨by simp, by simp, by simpa using hl'.1, by simpa using hl'.2.2, fun j h0 hj hq => ?_⟩
      rw [slotLt_iff] at hr
      rcases child j h0 hq with rfl | rfl
      · simp
      · simp only [Bool.false_eq_true, if_false]
        exact Nat.not_lt.1 fun hc => hr ⟨hj, hl'.1, hc⟩
  · simp only [hl, Bool.false_eq_true, if_false]
    rw [slotLt_iff] at hl
    have hl2 : 2 * i + 1 < h.length → keyAt k h i ≤ keyAt k h (2 * i + 1) :=
      fun hb => Nat.not_lt.1 fun hc => hl ⟨hb, hi, hc⟩
    by_cases hr : slotLt (ltOf k) h (2 * i + 2) i = true
    · have hr' := (slotLt_iff ..).1 hr
      right
      simp only [hr, if_true]
      refine ⟨by omega, by omega, hr'.1, hr'.2.2, fun j h0 hj hq => ?_⟩
      rcases child j h0 hq with rfl | rfl
      · have := hl2 hj; omega
      · exact Nat.le_refl _
    · left
      simp only [hr, Bool.false_eq_true, if_false, true_and]
      rw [slotLt_iff] at hr
      intro j h0 hj hq
      rcases child j h0 hq with rfl | rfl
      · exact hl2 hj
      · exact Nat.not_lt.1 fun hc => hr ⟨hj, hi, hc⟩

theorem siftDown_spec (k : NodeIdx → Nat) (rounds : Nat) : ∀ (i : Nat) (h : List NodeIdx), h.length ≤ rounds + i →
    DownInv (keyAt k h) h.length i →
    (siftDown (ltOf k) rounds i h).Perm h ∧ WeakHeap (keyAt k (siftDown (ltOf k) rounds i h)) h.length := by
  induction rounds with
  | zero =>
    intro i h hi hd
    exact ⟨List.Perm.refl _, WeakHeap_of_DownInv hd fun j h0 hj hq => by omega⟩
  | succ n ih =>
    intro i h hi hd
    simp only [siftDown]
    by_cases hl : i < h.length
    · rcases leastChild_spec k h i hl with ⟨hm, hle⟩ | ⟨h0, hq, hml, hlt, hle⟩
      · rw [hm, if_pos rfl]
        exact ⟨List.Perm.refl _, WeakHeap_of_DownInv hd hle⟩
      · rw [if_neg (by omega)]
        have hd' := DownInv_swap hd hq h0 hml hlt hle
        rw [← keyAt_heapSwap k hl hml] at hd'
        obtain ⟨h1, h2⟩ := ih (leastChild (ltOf k) h i) (heapSwap h i (leastChild (ltOf k) h i)) (by simp; omega)
          (by simpa using hd')
        exact ⟨h1.trans (heapSwap_perm ..), by simpa using h2⟩
    · have e : leastChild (ltOf k) h i = i := by
        have hn : ∀ j, slotLt (ltOf k) h j i = false := fun j => by
          rw [Bool.eq_false_iff]
          intro hc
          exact hl ((slotLt_iff ..).1 hc).2.1
        simp [leastChild, hn]
      rw [if_pos e]
      exact ⟨List.Perm.refl _, WeakHeap_of_DownInv hd fun j h0 hj hq => by omega⟩

/-! ### Pushing and popping -/

/-- heap_push keeps the heap property and adds exactly the new index (R154). -/
theorem heapPush_spec (k : NodeIdx → Nat) (h : List NodeIdx) (n : NodeIdx) (hw : WeakHeap (keyAt k h) h.length) :
    (heapPush (ltOf k) h n).Perm (n :: h) ∧
      WeakHeap (keyAt k (heapPush (ltOf k) h n)) (heapPush (ltOf k) h n).length := by
  have hu : UpInv (keyAt k (h ++ [n])) (h ++ [n]).length h.length := by
    have e : ∀ j, j < h.length → keyAt k (h ++ [n]) j = keyAt k h j := by
      intro j hj
      simp [keyAt, List.getD_eq_getElem?_getD, List.getElem?_append_left hj]
    simp only [List.length_append, List.length_singleton]
    refine ⟨fun j h0 hj hne => ?_, fun j h0 hj hq _ => by omega⟩
    rw [e j (by omega), e _ (by omega)]
    exact hw j h0 (by omega)
  obtain ⟨h1, h2⟩ := siftUp_spec k h.length h.length (h ++ [n]) (Nat.le_refl _) (by simp) hu
  have hlen := h1.length_eq
  refine ⟨h1.trans (List.perm_append_singleton n h), ?_⟩
  rw [heapPush, hlen]
  exact h2

/-- heap_pop removes a node of least key, leaves exactly the others, and keeps the heap property (R155). -/
theorem heapPop_spec (k : NodeIdx → Nat) {h h' : List NodeIdx} {a : NodeIdx} (hw : WeakHeap (keyAt k h) h.length)
    (hp : heapPop (ltOf k) h = some (a, h')) :
    h.Perm (a :: h') ∧ (∀ b ∈ h', k a ≤ k b) ∧ WeakHeap (keyAt k h') h'.length := by
  cases h with
  | nil => simp [heapPop] at hp
  | cons n rest =>
    have hroot : ∀ b ∈ rest, k n ≤ k b := by
      intro b hb
      obtain ⟨i, hi, rfl⟩ := List.getElem_of_mem hb
      have := WeakHeap_root hw (i + 1) (by simpa using hi)
      simpa [keyAt, hi] using this
    simp only [heapPop] at hp
    cases hz : rest.getLast? with
    | none =>
      rw [hz] at hp
      simp only [Option.some.injEq, Prod.mk.injEq] at hp
      obtain ⟨rfl, rfl⟩ := hp
      have : rest = [] := by simpa using hz
      subst this
      exact ⟨List.Perm.refl _, by simp, fun j _ hj => by simp at hj⟩
    | some z =>
      rw [hz] at hp
      simp only [Option.some.injEq, Prod.mk.injEq] at hp
      obtain ⟨rfl, rfl⟩ := hp
      have hr : rest.dropLast ++ [z] = rest := List.dropLast_append_getLast? _ hz
      have hlen : rest.length = rest.dropLast.length + 1 := by
        conv_lhs => rw [← hr]
        simp
      have e : ∀ j, 0 < j → j < (z :: rest.dropLast).length → keyAt k (z :: rest.dropLast) j = keyAt k (n :: rest) j := by
        intro j h0 hj
        obtain ⟨i, rfl⟩ : ∃ i, j = i + 1 := ⟨j - 1, by omega⟩
        simp only [List.length_cons] at hj
        conv_rhs => rw [← hr]
        simp [keyAt, List.getD_eq_getElem?_getD, List.getElem?_append_left (show i < rest.dropLast.length by omega)]
      have hd : DownInv (keyAt k (z :: rest.dropLast)) (z :: rest.dropLast).length 0 := by
        refine ⟨fun j h0 hj hq => ?_, fun j _ _ _ h00 => by omega⟩
        rw [e j h0 hj, e _ (by omega) (by omega)]
        exact hw j h0 (by simp only [List.length_cons] at hj ⊢; omega)
      obtain ⟨h1, h2⟩ := siftDown_spec k rest.length 0 (z :: rest.dropLast) (by simp; omega) hd
      have hperm : (siftDown (ltOf k) rest.length 0 (z :: rest.dropLast)).Perm rest := by
        refine h1.trans ?_
        conv_rhs => rw [← hr]
        exact (List.perm_append_singleton z _).symm
      refine ⟨(hperm.symm.cons n), fun b hb => hroot b (hperm.mem_iff.1 hb), ?_⟩
      rw [h1.length_eq]
      exact h2

/-- heap_pop has a node to remove exactly where the heap is not empty (R155). -/
theorem heapPop_isSome (lt : NodeIdx → NodeIdx → Bool) {h : List NodeIdx} (hne : h ≠ []) :
    ∃ a h', heapPop lt h = some (a, h') := by
  cases h with
  | nil => exact absurd rfl hne
  | cons n rest =>
    simp only [heapPop]
    cases rest.getLast? with
    | none => exact ⟨_, _, rfl⟩
    | some z => exact ⟨_, _, rfl⟩

/-! ### The heap property of the spec -/

/-- For distinct keys the heap property of R153 is the weak one on the keys. -/
theorem HeapOrdered_iff (k : NodeIdx → Nat) (hk : ∀ a b, k a = k b → a = b) {h : List NodeIdx} (hn : h.Nodup) :
    HeapOrdered (ltOf k) h ↔ WeakHeap (keyAt k h) h.length := by
  constructor
  · intro ho j h0 hj
    exact Nat.le_of_lt ((slotLt_iff ..).1 (ho j h0 hj)).2.2
  · intro hw i h0 hi
    rw [slotLt_iff]
    have hp : (i - 1) / 2 < h.length := by omega
    refine ⟨hp, hi, Nat.lt_of_le_of_ne (hw i h0 hi) fun he => ?_⟩
    have := hk _ _ he
    rw [List.getD_eq_getElem _ _ hp, List.getD_eq_getElem _ _ hi] at this
    have := (List.Nodup.getElem_inj_iff hn).1 this
    omega

/-- heap_pop removes HEAP[0] (R155). -/
theorem heapPop_head (lt : NodeIdx → NodeIdx → Bool) {h h' : List NodeIdx} {a : NodeIdx}
    (hp : heapPop lt h = some (a, h')) : h[0]? = some a := by
  cases h with
  | nil => cases hp
  | cons x rest =>
    simp only [heapPop] at hp
    split at hp <;> (have := (Prod.mk.inj (Option.some.inj hp)).1; simp [this])

theorem heapSwap_mem (h : List NodeIdx) (i j : Nat) (x : NodeIdx) : x ∈ heapSwap h i j ↔ x ∈ h :=
  (heapSwap_perm h i j).mem_iff

theorem slotLt_agree {lt lt' : NodeIdx → NodeIdx → Bool} {h : List NodeIdx}
    (e : ∀ a ∈ h, ∀ b ∈ h, lt a b = lt' a b) (i j : Nat) : slotLt lt h i j = slotLt lt' h i j := by
  unfold slotLt
  split
  · rename_i a b h1 h2
    exact e _ (List.mem_of_getElem? h1) _ (List.mem_of_getElem? h2)
  · rfl

theorem siftUp_agree {lt lt' : NodeIdx → NodeIdx → Bool} (n : Nat) : ∀ (i : Nat) {h : List NodeIdx},
    (∀ a ∈ h, ∀ b ∈ h, lt a b = lt' a b) → siftUp lt n i h = siftUp lt' n i h := by
  induction n with
  | zero => intros; rfl
  | succ n ih =>
    intro i h e
    simp only [siftUp, slotLt_agree e]
    rw [ih ((i - 1) / 2) fun a ha b hb => e a ((heapSwap_mem h _ _ a).1 ha) b ((heapSwap_mem h _ _ b).1 hb)]

/-- heap_push looks at the keys of the members and of the new node only. -/
theorem heapPush_agree {lt lt' : NodeIdx → NodeIdx → Bool} {h : List NodeIdx} {n : NodeIdx}
    (e : ∀ a ∈ n :: h, ∀ b ∈ n :: h, lt a b = lt' a b) : heapPush lt h n = heapPush lt' h n := by
  refine siftUp_agree _ _ fun a ha b hb => e a ?_ b ?_ <;> simp_all [or_comm]

/-- The loop of heap_push only moves nodes. -/
theorem siftUp_perm (lt : NodeIdx → NodeIdx → Bool) (n : Nat) : ∀ (i : Nat) (h : List NodeIdx), (siftUp lt n i h).Perm h := by
  induction n with
  | zero => intros; exact .refl _
  | succ n ih =>
    intro i h
    simp only [siftUp]
    split
    · split
      · exact (ih _ _).trans (heapSwap_perm h _ _)
      · exact .refl _
    · exact .refl _

/-- Pushing a list looks at the keys of the members and of the new nodes only. -/
theorem heapPush_foldl_agree {lt lt' : NodeIdx → NodeIdx → Bool} (l : List NodeIdx) : ∀ {h : List NodeIdx},
    (∀ a ∈ l ++ h, ∀ b ∈ l ++ h, lt a b = lt' a b) → l.foldl (heapPush lt) h = l.foldl (heapPush lt') h := by
  induction l with
  | nil => intros; rfl
  | cons n rest ih =>
    intro h e
    have hmem : ∀ x ∈ heapPush lt' h n, x ∈ n :: h := by
      intro x hx
      have := (siftUp_perm lt' h.length h.length (h ++ [n])).mem_iff.1 hx
      simpa [or_comm] using this
    simp only [List.foldl_cons]
    rw [heapPush_agree (lt' := lt') fun a ha b hb => e a (by simp at *; tauto) b (by simp at *; tauto)]
    refine ih fun a ha b hb => e a ?_ b ?_
    · rcases List.mem_append.1 ha with h1 | h1
      · simp [h1]
      · have := hmem a h1
        simp at *; tauto
    · rcases List.mem_append.1 hb with h1 | h1
      · simp [h1]
      · have := hmem b h1
        simp at *; tauto

end Sys2Proof.Laws
end

