-- ==== Sys2Proof/Laws/Tree.lean ====
section
/-!
SUPPORT. Laws/Tree.lean: the tree invariants of R41 under the two moves of the tree builder: a leaf enters the arena and the
heap (43_tree_builder.md R157), and two roots are combined (R158).
-/
namespace Sys2Proof.Laws

open Sys2Proof Sys2Proof.Machine

/-! ### Keys -/

/-- The priority of a node as one number: the weight, then the index (R112 (g), R152). -/
def keyNat (s : State) (n : NodeIdx) : Nat := (s.nodeRead n).weight.toNat * 512 + n.toNat

/-- The priority order is the order of one number (R112 (g), R152). -/
theorem keyLt_eq (s : State) : keyLt s = ltOf (keyNat s) := by
  funext a b
  simp only [keyLt, ltOf, keyNat]
  congr 1
  have ha := a.isLt
  have hb := b.isLt
  simp only [BitVec.lt_def, ← BitVec.toNat_inj, eq_iff_iff]
  omega

theorem keyNat_inj (s : State) : ∀ a b, keyNat s a = keyNat s b → a = b := by
  intro a b h
  have ha := a.isLt
  have hb := b.isLt
  simp only [keyNat] at h
  exact BitVec.eq_of_toNat_eq (by omega)

theorem nodeRead_of_slot {s : State} {n : NodeIdx} {nd : Node} (h : s.slot n.toNat = some nd) : s.nodeRead n = nd := by
  simp [State.nodeRead, h]

theorem keyNat_congr {s t : State} {n : NodeIdx} (h : t.slot n.toNat = s.slot n.toNat)
    (hv : (s.slot n.toNat).isSome = true) : keyNat t n = keyNat s n := by
  obtain ⟨nd, hnd⟩ := Option.isSome_iff_exists.1 hv
  rw [keyNat, keyNat, nodeRead_of_slot hnd, nodeRead_of_slot (h.trans hnd)]

theorem keyAt_congr {k k' : NodeIdx → Nat} {h : List NodeIdx} (e : ∀ n ∈ h, k' n = k n) {i : Nat} (hi : i < h.length) :
    keyAt k' h i = keyAt k h i := by
  unfold keyAt
  rw [List.getD_eq_getElem _ _ hi]
  exact e _ (List.getElem_mem hi)

theorem WeakHeap_congr {k k' : NodeIdx → Nat} {h : List NodeIdx} (e : ∀ n ∈ h, k' n = k n)
    (hw : WeakHeap (keyAt k h) h.length) : WeakHeap (keyAt k' h) h.length := by
  intro j h0 hj
  rw [keyAt_congr e hj, keyAt_congr e (by omega)]
  exact hw j h0 hj

/-! ### Slots -/

theorem slot_congr {s t : State} (h : t.node = s.node) (n : Nat) : t.slot n = s.slot n := by simp [State.slot, h]

theorem slot_setNode (n : NodeIdx) (nd : Node) (s : State) (m : Nat) (hn : n.toNat < 511) :
    (setNode n nd s).slot m = if m = n.toNat then some nd else s.slot m := by
  simp only [State.slot, setNode_node, Vector.getElem?_setIfInBounds]
  by_cases h : m = n.toNat
  · subst h; simp [hn]
  · simp [h, Ne.symm h]

theorem slotWeight_congr {s t : State} {m : Nat} (h : t.slot m = s.slot m) : t.slotWeight m = s.slotWeight m := by
  simp [State.slotWeight, h]

theorem slotWeight_of_slot {s : State} {m : Nat} {nd : Node} (h : s.slot m = some nd) : s.slotWeight m = nd.weight.toNat := by
  simp [State.slotWeight, h]

theorem parentOf_congr {s t : State} (h : ∀ m, t.slot m = s.slot m) (p : Nat) (n : NodeIdx) :
    t.ParentOf p n ↔ s.ParentOf p n := by simp [State.ParentOf, h]

theorem leafCount_congr {s t : State} (h : ∀ m, m < 256 → t.slot m = s.slot m) : t.leafCount = s.leafCount := by
  unfold State.leafCount
  refine List.countP_congr fun m hm => ?_
  rw [h m (List.mem_range.1 hm)]

/-- A sum over a range, after one term changed. -/
theorem sum_range_update {f g : Nat → Nat} {k : Nat} (h : ∀ m, m ≠ k → g m = f m) (n : Nat) (hk : k < n) :
    ((List.range n).map g).sum + f k = ((List.range n).map f).sum + g k := by
  induction n with
  | zero => omega
  | succ n ih =>
    rw [List.range_succ]
    simp only [List.map_append, List.map_cons, List.map_nil, List.sum_append, List.sum_cons, List.sum_nil]
    by_cases hkn : k = n
    · subst hkn
      have : (List.range k).map g = (List.range k).map f :=
        List.map_congr_left fun m hm => h m (by have := List.mem_range.1 hm; omega)
      rw [this]
      omega
    · have := ih (by omega)
      rw [h n (by omega)]
      omega

theorem leafCount_eq_sum (s : State) :
    s.leafCount = ((List.range 256).map fun m => if (s.slot m).isSome then 1 else 0).sum := by
  unfold State.leafCount
  generalize List.range 256 = l
  induction l with
  | nil => rfl
  | cons x l ih =>
    simp only [List.map_cons, List.sum_cons, List.countP_cons, ih]
    omega

theorem leafCount_le (s : State) : s.leafCount ≤ 256 := by
  unfold State.leafCount
  exact (List.countP_le_length).trans (by simp)

/-! ### The invariant depends on the tree only -/

theorem Forest_weakHeap {s : State} (h : s.Forest) : WeakHeap (keyAt (keyNat s) s.heap) s.heap.length := by
  have := h.heapOrdered
  rw [keyLt_eq] at this
  exact (HeapOrdered_iff (keyNat s) (keyNat_inj s) h.heapNodup).1 this

/-- The tree invariants depend on NODE, HEAP and NEXT only. -/
theorem Forest_congr {s t : State} (h : s.Forest) (hn : t.node = s.node) (hh : t.heap = s.heap) (hx : t.next = s.next) :
    t.Forest := by
  have hs : ∀ m, t.slot m = s.slot m := slot_congr hn
  have hw : ∀ m, t.slotWeight m = s.slotWeight m := fun m => slotWeight_congr (hs m)
  have hp := parentOf_congr hs
  constructor
  · rw [hx]; exact h.nextRange
  · simpa only [hs, hx] using h.internalSlots
  · simpa only [hs] using h.leafShape
  · simpa only [hs, hw] using h.internalShape
  · rw [hh]; exact h.heapNodup
  · simpa only [hs, hh] using h.heapValid
  · rw [keyLt_eq, hh, HeapOrdered_iff (keyNat t) (keyNat_inj t) h.heapNodup]
    exact WeakHeap_congr (fun n hnm => keyNat_congr (hs _) (h.heapValid n hnm)) (Forest_weakHeap h)
  · simpa only [hs, hp, hh] using h.roots
  · simpa only [hp] using h.oneParent
  · rw [hh, hx, leafCount_congr fun m _ => hs m]; exact h.count
  · have e : (fun n : NodeIdx => t.slotWeight n.toNat) = fun n => s.slotWeight n.toNat := funext fun n => hw _
    rw [hh, e, show t.slotWeight = s.slotWeight from funext hw]
    exact h.weights

theorem RootShown_congr {s t : State} (h : s.RootShown) (hh : t.heap = s.heap) (hr : t.rv = s.rv) (hx : t.root = s.root) :
    t.RootShown := by
  simpa only [State.RootShown, hh, hr, hx] using h

/-- After set_root the flags show the heap (R163). -/
theorem setRoot_rootShown (s : State) : (setRoot s).RootShown := by
  unfold setRoot
  split
  · rename_i r hr
    simp [State.RootShown, hr]
  · rename_i hr
    refine ⟨?_, by simp, by simp⟩
    simp only [Bool.false_eq_true, false_iff]
    intro hl
    obtain ⟨r, hr'⟩ := List.length_eq_one_iff.1 hl
    exact hr r hr'

/-! ### A child is valid and below its parent -/

theorem parentOf_valid {s : State} (h : s.Forest) {p : Nat} {n : NodeIdx} (hp : s.ParentOf p n) :
    (s.slot n.toNat).isSome = true ∧ n.toNat < p ∧ 256 ≤ p := by
  obtain ⟨nd, h1, h2, h3⟩ := hp
  have h256 : 256 ≤ p := Nat.not_lt.1 fun hc => by simp [(h.leafShape p nd hc h1).1] at h2
  have := h.internalShape p nd h256 h1
  rcases h3 with rfl | rfl
  · exact ⟨this.2.2.2.2.1, this.2.2.1, h256⟩
  · exact ⟨this.2.2.2.2.2.1, this.2.2.2.1, h256⟩

/-- A valid node is a leaf exactly below 256. -/
theorem leaf_iff {s : State} (h : s.Forest) {n : Nat} {nd : Node} (hn : s.slot n = some nd) : nd.leaf = true ↔ n < 256 := by
  constructor
  · intro hl
    exact Nat.not_le.1 fun hc => by simp [(h.internalShape n nd hc hn).1] at hl
  · intro hl
    exact (h.leafShape n nd hl hn).1

/-! ### An empty tree -/

theorem clearTree_forest (s : State) : (clearTree s).Forest := by
  have hs : ∀ m, (clearTree s).slot m = none := by
    intro m
    simp only [State.slot, clearTree_node]
    by_cases hm : m < 511 <;> simp [hm]
  have hp : ∀ p n, ¬ (clearTree s).ParentOf p n := by
    rintro p n ⟨nd, h1, _⟩
    simp [hs] at h1
  constructor
  · simp
  · intro n hn
    simp only [hs, clearTree_next]
    simpa using hn
  · intro n nd _ h; simp [hs] at h
  · intro n nd _ h; simp [hs] at h
  · simp
  · simp
  · intro i _ hi; simp at hi
  · intro n hn; simp [hs] at hn
  · intro p q n hpn; exact absurd hpn (hp p n)
  · rw [State.leafCount, List.countP_eq_zero.2 (fun m _ => by simp [hs])]; simp
  · simp only [clearTree_heap, List.map_nil, List.sum_nil]
    refine (List.sum_eq_zero fun x hx => ?_).symm
    obtain ⟨m, _, rfl⟩ := List.mem_map.1 hx
    simp only [State.slotWeight, hs]

/-! ### A leaf enters -/

theorem toNat_setWidth9 (c : Symbol) : (c.setWidth 9).toNat = c.toNat := by
  have := c.isLt
  rw [BitVec.toNat_setWidth]
  omega

/-- Pushing on the heap of a forest, whatever the new node: the parts of the invariant about the heap. -/
theorem pushNode_keeps {s : State} {n : NodeIdx} (hw : WeakHeap (keyAt (keyNat s) s.heap) s.heap.length) :
    (pushNode n s).heap.Perm (n :: s.heap) ∧
      ((n :: s.heap).Nodup → HeapOrdered (keyLt (pushNode n s)) (pushNode n s).heap) := by
  obtain ⟨h1, h2⟩ := heapPush_spec (keyNat s) s.heap n hw
  rw [pushNode_heap, keyLt_eq]
  refine ⟨h1, fun hnd => ?_⟩
  rw [keyLt_eq, show keyNat (pushNode n s) = keyNat s from rfl,
    HeapOrdered_iff (keyNat s) (keyNat_inj s) (h1.nodup_iff.2 hnd)]
  exact h2

theorem leafNode_weight (v : Counter) : (leafNode v).weight.toNat = v.toNat := by
  have := v.isLt
  simp only [leafNode, BitVec.toNat_setWidth]
  omega

/-- A symbol's leaf enters an arena without internal nodes (R157). -/
theorem addLeaf_forest {s : State} (h : s.Forest) (hx : s.next = 256) {c : Symbol} (hc : s.slot c.toNat = none)
    {v : Counter} (hv : 0 < v) : (pushNode (c.setWidth 9) (setNode (c.setWidth 9) (leafNode v) s)).Forest := by
  generalize hn : (c.setWidth 9 : NodeIdx) = n
  have hcn : n.toNat = c.toNat := by rw [← hn, toNat_setWidth9]
  have hn256 : n.toNat < 256 := by have := c.isLt; omega
  have hnone : s.slot n.toNat = none := by rw [hcn]; exact hc
  have hs : ∀ m, (pushNode n (setNode n (leafNode v) s)).slot m = if m = n.toNat then some (leafNode v) else s.slot m :=
    fun m => slot_setNode n _ s m (by omega)
  have hs' : ∀ m, m ≠ n.toNat → (pushNode n (setNode n (leafNode v) s)).slot m = s.slot m := fun m hm => by
    rw [hs, if_neg hm]
  have hw' : ∀ m, m ≠ n.toNat → (pushNode n (setNode n (leafNode v) s)).slotWeight m = s.slotWeight m :=
    fun m hm => slotWeight_congr (hs' m hm)
  have hne : ∀ m ∈ s.heap, m.toNat ≠ n.toNat := fun m hm he => by
    have := h.heapValid m hm
    rw [he, hnone] at this
    simp at this
  have hnm : n ∉ s.heap := fun hm => hne n hm rfl
  have hnd : (n :: s.heap).Nodup := List.nodup_cons.2 ⟨hnm, h.heapNodup⟩
  have hweak : WeakHeap (keyAt (keyNat (setNode n (leafNode v) s)) s.heap) s.heap.length :=
    WeakHeap_congr (fun m hm => keyNat_congr (hs' _ (hne m hm)) (h.heapValid m hm)) (Forest_weakHeap h)
  obtain ⟨hperm, hord⟩ := pushNode_keeps (s := setNode n (leafNode v) s) (n := n) hweak
  have hperm' : (pushNode n (setNode n (leafNode v) s)).heap.Perm (n :: s.heap) := hperm
  have hp : ∀ p m, ¬ (pushNode n (setNode n (leafNode v) s)).ParentOf p m := by
    rintro p m ⟨nd, h1, h2, _⟩
    rw [hs] at h1
    split at h1
    · cases h1; simp [leafNode] at h2
    · have h256 : 256 ≤ p := Nat.not_lt.1 fun hc => by simp [(h.leafShape p nd hc h1).1] at h2
      have := (h.internalSlots p h256).1 (by simp [h1])
      rw [hx] at this
      simp at this
      omega
  have hp0 : ∀ p m, ¬ s.ParentOf p m := by
    rintro p m ⟨nd, h1, h2, _⟩
    have h256 : 256 ≤ p := Nat.not_lt.1 fun hc => by simp [(h.leafShape p nd hc h1).1] at h2
    have := (h.internalSlots p h256).1 (by simp [h1])
    rw [hx] at this
    simp at this
    omega
  have hvn : 0 < v.toNat := by simpa [BitVec.lt_def] using hv
  constructor
  · simpa using h.nextRange
  · intro m hm
    rw [hs' m (by omega)]
    exact h.internalSlots m hm
  · intro m nd hm hmn
    rw [hs] at hmn
    split at hmn
    · cases hmn
      refine ⟨rfl, rfl, rfl, ?_, ?_⟩
      · rw [leafNode_weight]; exact hvn
      · rw [leafNode_weight]; exact v.isLt
    · exact h.leafShape m nd hm hmn
  · intro m nd hm hmn
    rw [hs' m (by omega)] at hmn
    have := (h.internalSlots m hm).1 (by simp [hmn])
    rw [hx] at this
    simp at this
    omega
  · exact hperm'.nodup_iff.2 hnd
  · intro m hm
    rcases List.mem_cons.1 (hperm'.mem_iff.1 hm) with rfl | hm
    · simp [hs]
    · rw [hs' _ (hne m hm)]
      exact h.heapValid m hm
  · exact hord hnd
  · intro m hm
    simp only [hp, not_false_eq_true, implies_true, iff_true]
    rw [hperm'.mem_iff]
    by_cases hmn : m = n
    · simp [hmn]
    · refine List.mem_cons_of_mem _ ((h.roots m ?_).2 fun p => hp0 p m)
      rwa [hs' m.toNat (fun e => hmn (BitVec.eq_of_toNat_eq e))] at hm
  · intro p q m hpm
    exact absurd hpm (hp p m)
  · rw [hperm'.length_eq, leafCount_eq_sum]
    have hc1 := h.count
    rw [leafCount_eq_sum] at hc1
    have hsum := sum_range_update (f := fun m => if (s.slot m).isSome then 1 else 0)
      (g := fun m => if ((pushNode n (setNode n (leafNode v) s)).slot m).isSome then 1 else 0) (k := n.toNat)
      (fun m hm => by simp only [hs' m hm]) 256 hn256
    simp only [hnone, hs n.toNat, Option.isSome_none, Option.isSome_some, if_true] at hsum
    simp only [List.length_cons, pushNode_next, setNode_next]
    simp at hsum
    omega
  · rw [(hperm'.map _).sum_eq, List.map_cons, List.sum_cons,
      List.map_congr_left (f := fun m : NodeIdx => (pushNode n (setNode n (leafNode v) s)).slotWeight m.toNat)
        (g := fun m => s.slotWeight m.toNat) (fun m hm => hw' _ (hne m hm)), h.weights]
    have hsum := sum_range_update (f := s.slotWeight) (g := (pushNode n (setNode n (leafNode v) s)).slotWeight) hw' 256 hn256
    have h0 : s.slotWeight n.toNat = 0 := by simp [State.slotWeight, hnone]
    omega

/-! ### Two roots are combined -/

/-- The weights of the roots stay below 2^72 (R112 (b)). -/
theorem Forest_weights_lt {s : State} (h : s.Forest) : (s.heap.map fun n => s.slotWeight n.toNat).sum < 2 ^ 72 := by
  rw [h.weights]
  have hb : ∀ m ∈ List.range 256, s.slotWeight m ≤ 2 ^ 64 - 1 := by
    intro m hm
    unfold State.slotWeight
    split
    · rename_i nd hnd
      have := (h.leafShape m nd (List.mem_range.1 hm) hnd).2.2.2.2
      omega
    · omega
  have : ∀ (l : List Nat), (∀ m ∈ l, s.slotWeight m ≤ 2 ^ 64 - 1) → (l.map s.slotWeight).sum ≤ l.length * (2 ^ 64 - 1) := by
    intro l hl
    induction l with
    | nil => simp
    | cons x l ih =>
      simp only [List.map_cons, List.sum_cons, List.length_cons]
      have h1 := hl x (by simp)
      have h2 := ih fun m hm => hl m (by simp [hm])
      rw [Nat.add_mul]
      omega
  have := this (List.range 256) hb
  rw [List.length_range] at this
  omega

/-- A slot number of a valid node is below NEXT or below 256. -/
theorem valid_lt {s : State} (h : s.Forest) {m : Nat} (hm : (s.slot m).isSome = true) : m < 256 ∨ m < s.next.toNat := by
  by_cases h256 : m < 256
  · exact .inl h256
  · exact .inr ((h.internalSlots m (by omega)).1 hm)

/-- Two roots leave the heap and their combination enters it: the invariants stay (R158). -/
theorem combine_forest {s : State} (h : s.Forest) {a b : NodeIdx} {h' : List NodeIdx} (hperm : s.heap.Perm (a :: b :: h'))
    (hweak : WeakHeap (keyAt (keyNat s) h') h'.length) :
    (pushNode s.next (takeNext h' (setNode s.next (mergedNode s a b) s))).Forest := by
  generalize hnd : mergedNode s a b = nd
  generalize ht : takeNext h' (setNode s.next nd s) = t
  have hlen := hperm.length_eq
  simp only [List.length_cons] at hlen
  have hcount := h.count
  have hle := leafCount_le s
  have hrange := h.nextRange
  have hn : s.next.toNat < 511 := by omega
  have hnone : s.slot s.next.toNat = none := by
    cases hsl : s.slot s.next.toNat with
    | none => rfl
    | some x => exact absurd ((h.internalSlots _ hrange.1).1 (by simp [hsl])) (Nat.lt_irrefl _)
  have hst : ∀ m, t.slot m = if m = s.next.toNat then some nd else s.slot m := fun m => by
    rw [← ht]
    exact slot_setNode s.next nd s m hn
  have hs : ∀ m, (pushNode s.next t).slot m = if m = s.next.toNat then some nd else s.slot m := hst
  have hs' : ∀ m, m ≠ s.next.toNat → (pushNode s.next t).slot m = s.slot m := fun m hm => by rw [hs, if_neg hm]
  have hval : ∀ m, (s.slot m).isSome = true → m ≠ s.next.toNat := fun m hm he => by rw [he, hnone] at hm; simp at hm
  have hmem : ∀ x, x ∈ s.heap ↔ x = a ∨ x = b ∨ x ∈ h' := fun x => by rw [hperm.mem_iff]; simp
  have hnodup : (a :: b :: h').Nodup := hperm.nodup_iff.1 h.heapNodup
  simp only [List.nodup_cons, List.mem_cons, not_or] at hnodup
  obtain ⟨⟨hab, hah⟩, hbh, hh'⟩ := hnodup
  have hva : (s.slot a.toNat).isSome = true := h.heapValid a ((hmem a).2 (by simp))
  have hvb : (s.slot b.toNat).isSome = true := h.heapValid b ((hmem b).2 (by simp))
  have hvh : ∀ m ∈ h', (s.slot m.toNat).isSome = true := fun m hm => h.heapValid m ((hmem m).2 (by simp [hm]))
  have htn : t.next.toNat = s.next.toNat + 1 := by
    rw [← ht]
    simp only [takeNext_next, setNode_next]
    have e : s.next + 1 = BitVec.ofNat 9 (s.next.toNat + 1) := by
      apply BitVec.eq_of_toNat_eq
      simp
    rw [e, BitVec.toNat_ofNat]
    omega
  have hth : t.heap = h' := by rw [← ht]; rfl
  have hnh : s.next ∉ h' := fun hm => hval _ (hvh _ hm) rfl
  have hnd' : (s.next :: t.heap).Nodup := by rw [hth]; exact List.nodup_cons.2 ⟨hnh, hh'⟩
  have hweak' : WeakHeap (keyAt (keyNat t) t.heap) t.heap.length := by
    rw [hth]
    exact WeakHeap_congr (fun m hm => keyNat_congr (hs' _ (hval _ (hvh m hm))) (hvh m hm)) hweak
  obtain ⟨hp1, hord⟩ := pushNode_keeps (s := t) (n := s.next) hweak'
  rw [hth] at hp1
  have hw' : ∀ m, m ≠ s.next.toNat → (pushNode s.next t).slotWeight m = s.slotWeight m := fun m hm => slotWeight_congr (hs' m hm)
  have hsum : (s.heap.map fun n => s.slotWeight n.toNat).sum =
      s.slotWeight a.toNat + (s.slotWeight b.toNat + (h'.map fun n => s.slotWeight n.toNat).sum) := by
    rw [(hperm.map _).sum_eq]
    simp
  have hlt := Forest_weights_lt h
  obtain ⟨na, hna⟩ := Option.isSome_iff_exists.1 hva
  obtain ⟨nb, hnb⟩ := Option.isSome_iff_exists.1 hvb
  have hndw : nd.weight.toNat = s.slotWeight a.toNat + s.slotWeight b.toNat := by
    rw [← hnd, mergedNode, nodeRead_of_slot hna, nodeRead_of_slot hnb, BitVec.toNat_add, Nat.mod_eq_of_lt,
      slotWeight_of_slot hna, slotWeight_of_slot hnb]
    rw [← slotWeight_of_slot hna, ← slotWeight_of_slot hnb]
    omega
  have hndl : nd.leaf = false ∧ nd.left = a ∧ nd.right = b := by rw [← hnd]; exact ⟨rfl, rfl, rfl⟩
  have hpar : ∀ p x, (pushNode s.next t).ParentOf p x ↔ s.ParentOf p x ∨ (p = s.next.toNat ∧ (x = a ∨ x = b)) := by
    intro p x
    unfold State.ParentOf
    rw [hs p]
    by_cases hpn : p = s.next.toNat
    · subst hpn
      rw [if_pos rfl]
      constructor
      · rintro ⟨y, h1, _, h3⟩
        cases h1
        rw [hndl.2.1, hndl.2.2] at h3
        exact .inr ⟨rfl, h3.imp Eq.symm Eq.symm⟩
      · rintro (⟨y, h1, _⟩ | ⟨_, hx⟩)
        · rw [hnone] at h1; cases h1
        · exact ⟨nd, rfl, hndl.1, by rw [hndl.2.1, hndl.2.2]; exact hx.imp Eq.symm Eq.symm⟩
    · rw [if_neg hpn]
      exact ⟨fun hx => .inl hx, fun hx => hx.resolve_right fun hc => hpn hc.1⟩
  constructor
  · simp only [pushNode_next]; omega
  · intro m hm
    simp only [pushNode_next]
    by_cases hmn : m = s.next.toNat
    · rw [hs, if_pos hmn, htn]; exact ⟨fun _ => by omega, fun _ => rfl⟩
    · rw [hs' m hmn, h.internalSlots m hm]
      omega
  · intro m x hm hmx
    rw [hs' m (by omega)] at hmx
    exact h.leafShape m x hm hmx
  · intro m x hm hmx
    by_cases hmn : m = s.next.toNat
    · rw [hs, if_pos hmn] at hmx
      cases hmx
      rw [hndl.2.1, hndl.2.2, hs' _ (hval _ hva), hs' _ (hval _ hvb), hw' _ (hval _ hva), hw' _ (hval _ hvb), hmn]
      refine ⟨hndl.1, hab, ?_, ?_, hva, hvb, hndw⟩
      · rcases valid_lt h hva <;> omega
      · rcases valid_lt h hvb <;> omega
    · rw [hs' m hmn] at hmx
      obtain ⟨h1, h2, h3, h4, h5, h6, h7⟩ := h.internalShape m x hm hmx
      rw [hs' _ (hval _ h5), hs' _ (hval _ h6), hw' _ (hval _ h5), hw' _ (hval _ h6)]
      exact ⟨h1, h2, h3, h4, h5, h6, h7⟩
  · exact hp1.nodup_iff.2 (by rw [← hth]; exact hnd')
  · intro m hm
    rcases List.mem_cons.1 (hp1.mem_iff.1 hm) with rfl | hm
    · simp [hs]
    · rw [hs' _ (hval _ (hvh m hm))]
      exact hvh m hm
  · exact hord hnd'
  · intro x hx
    rw [hp1.mem_iff]
    simp only [hpar]
    by_cases hxn : x = s.next
    · subst hxn
      simp only [List.mem_cons, true_or, true_iff]
      rintro p (hp | ⟨_, hp | hp⟩)
      · exact hval _ (parentOf_valid h hp).1 rfl
      · exact hval _ hva (by rw [← hp])
      · exact hval _ hvb (by rw [← hp])
    · have hxs : (s.slot x.toNat).isSome = true := by
        rwa [hs' _ (fun e => hxn (BitVec.eq_of_toNat_eq e))] at hx
      have hr := h.roots x hxs
      rw [hmem] at hr
      simp only [List.mem_cons, hxn, false_or]
      constructor
      · rintro hxh p (hp | ⟨_, rfl | rfl⟩)
        · exact hr.1 (.inr (.inr hxh)) p hp
        · exact hah hxh
        · exact hbh hxh
      · intro hall
        rcases hr.2 (fun p hp => hall p (.inl hp)) with rfl | rfl | hxh
        · exact absurd (.inr ⟨rfl, .inl rfl⟩) (hall s.next.toNat)
        · exact absurd (.inr ⟨rfl, .inr rfl⟩) (hall s.next.toNat)
        · exact hxh
  · intro p q x hp hq
    rw [hpar] at hp hq
    have root : ∀ r, s.ParentOf r x → ¬ (x = a ∨ x = b) := by
      intro r hr hx
      refine (h.roots x (parentOf_valid h hr).1).1 ((hmem x).2 ?_) r hr
      rcases hx with rfl | rfl <;> simp
    rcases hp with hp | ⟨rfl, hp⟩ <;> rcases hq with hq | ⟨rfl, hq⟩
    · exact h.oneParent p q x hp hq
    · exact absurd hq (root p hp)
    · exact absurd hp (root q hq)
    · rfl
  · rw [hp1.length_eq, leafCount_congr (s := s) (fun m hm => hs' m (by omega))]
    simp only [pushNode_next, List.length_cons]
    omega
  · rw [(hp1.map _).sum_eq, List.map_cons, List.sum_cons,
      List.map_congr_left (f := fun m : NodeIdx => (pushNode s.next t).slotWeight m.toNat)
        (g := fun m => s.slotWeight m.toNat) (fun m hm => hw' _ (hval _ (hvh m hm))),
      List.map_congr_left (l := List.range 256) (f := (pushNode s.next t).slotWeight) (g := s.slotWeight)
        (fun m hm => hw' m (by have := List.mem_range.1 hm; omega)), ← h.weights, hsum,
      slotWeight_of_slot (s := pushNode s.next t) (m := s.next.toNat) (nd := nd) (by simp [hs]), hndw]
    omega

end Sys2Proof.Laws
end

