-- ==== Sys2Proof/Laws/Build.lean ====
section
/-!
SUPPORT. Laws/Build.lean: what TINIT, TMERGE and TBUILD do to the arena and the heap (43_tree_builder.md R156 to R159), and that
they touch nothing else.
-/
namespace Sys2Proof.Laws

open Sys2Proof Sys2Proof.Machine

/-- The tree of t put into s: what the tree builder may write (R31, R32, R33). -/
def withTree (t s : State) : State :=
  { s with node := t.node, heap := t.heap, next := t.next, rv := t.rv, root := t.root }

@[simp] theorem withTree_busy (t s : State) : (withTree t s).busy = s.busy := rfl
@[simp] theorem withTree_fault (t s : State) : (withTree t s).fault = s.fault := rfl
@[simp] theorem withTree_err (t s : State) : (withTree t s).err = s.err := rfl
@[simp] theorem withTree_ilen (t s : State) : (withTree t s).ilen = s.ilen := rfl
@[simp] theorem withTree_ioff (t s : State) : (withTree t s).ioff = s.ioff := rfl
@[simp] theorem withTree_olen (t s : State) : (withTree t s).olen = s.olen := rfl
@[simp] theorem withTree_blen (t s : State) : (withTree t s).blen = s.blen := rfl
@[simp] theorem withTree_len (t s : State) : (withTree t s).len = s.len := rfl
@[simp] theorem withTree_pad (t s : State) : (withTree t s).pad = s.pad := rfl
@[simp] theorem withTree_root (t s : State) : (withTree t s).root = t.root := rfl
@[simp] theorem withTree_rv (t s : State) : (withTree t s).rv = t.rv := rfl
@[simp] theorem withTree_next (t s : State) : (withTree t s).next = t.next := rfl
@[simp] theorem withTree_inp (t s : State) : (withTree t s).inp = s.inp := rfl
@[simp] theorem withTree_out (t s : State) : (withTree t s).out = s.out := rfl
@[simp] theorem withTree_bit (t s : State) : (withTree t s).bit = s.bit := rfl
@[simp] theorem withTree_freq (t s : State) : (withTree t s).freq = s.freq := rfl
@[simp] theorem withTree_node (t s : State) : (withTree t s).node = t.node := rfl
@[simp] theorem withTree_heap (t s : State) : (withTree t s).heap = t.heap := rfl
@[simp] theorem withTree_code (t s : State) : (withTree t s).code = s.code := rfl
@[simp] theorem withTree_order (t s : State) : (withTree t s).order = s.order := rfl
@[simp] theorem withTree_params (t s : State) : (withTree t s).params = s.params := rfl
@[simp] theorem withTree_fresh (t s : State) : (withTree t s).fresh = s.fresh := rfl
@[simp] theorem withTree_script (t s : State) : (withTree t s).script = s.script := rfl
@[simp] theorem withTree_port (t s : State) : (withTree t s).port = s.port := rfl

/-! ### Frames -/

/-- Writing the tree twice in a row is writing the tree. -/
theorem withTree_trans {a b c : State} (h1 : b = withTree b a) (h2 : c = withTree c b) : c = withTree c a :=
  h2.trans ((congrArg (fun x => withTree c x) h1).trans (show withTree c (withTree b a) = withTree c a from rfl))

theorem setRoot_withTree (s : State) : setRoot s = withTree (setRoot s) s := by
  unfold setRoot
  split <;> rfl

theorem tinitSymbol_frame (s : State) (c : Symbol) : tinitSymbol s c = withTree (tinitSymbol s c) s := by
  unfold tinitSymbol
  split <;> rfl

theorem tinitFold_frame (l : List Symbol) (s : State) : l.foldl tinitSymbol s = withTree (l.foldl tinitSymbol s) s := by
  induction l generalizing s with
  | nil => rfl
  | cons c l ih => exact withTree_trans (tinitSymbol_frame s c) (ih _)

theorem tinit_frame (s : State) : tinit s = withTree (tinit s) s :=
  withTree_trans (withTree_trans (a := s) (b := clearTree s) rfl (tinitFold_frame allSymbols _)) (setRoot_withTree _)

theorem combine_frame (s : State) (a b : NodeIdx) (h : List NodeIdx) : combine s a b h = withTree (combine s a b h) s := by
  unfold combine
  exact withTree_trans rfl (setRoot_withTree _)

theorem tmerge_frame (s : State) : tmerge s = withTree (tmerge s) s := by
  unfold tmerge
  split
  · rfl
  · split
    · rfl
    · exact combine_frame ..

theorem mergeLoop_frame (n : Nat) (s : State) : mergeLoop n s = withTree (mergeLoop n s) s := by
  induction n generalizing s with
  | zero => rfl
  | succ n ih =>
    simp only [mergeLoop]
    split
    · exact withTree_trans (tmerge_frame s) (ih _)
    · rfl

theorem tbuild_frame (s : State) : tbuild s = withTree (tbuild s) s := by
  unfold tbuild
  exact withTree_trans (tinit_frame s) (mergeLoop_frame _ _)

@[simp] theorem tinit_busy (s : State) : (tinit s).busy = s.busy := by rw [tinit_frame, withTree_busy]
@[simp] theorem tinit_fault (s : State) : (tinit s).fault = s.fault := by rw [tinit_frame, withTree_fault]
@[simp] theorem tinit_err (s : State) : (tinit s).err = s.err := by rw [tinit_frame, withTree_err]
@[simp] theorem tinit_ilen (s : State) : (tinit s).ilen = s.ilen := by rw [tinit_frame, withTree_ilen]
@[simp] theorem tinit_ioff (s : State) : (tinit s).ioff = s.ioff := by rw [tinit_frame, withTree_ioff]
@[simp] theorem tinit_olen (s : State) : (tinit s).olen = s.olen := by rw [tinit_frame, withTree_olen]
@[simp] theorem tinit_blen (s : State) : (tinit s).blen = s.blen := by rw [tinit_frame, withTree_blen]
@[simp] theorem tinit_len (s : State) : (tinit s).len = s.len := by rw [tinit_frame, withTree_len]
@[simp] theorem tinit_pad (s : State) : (tinit s).pad = s.pad := by rw [tinit_frame, withTree_pad]
@[simp] theorem tinit_inp (s : State) : (tinit s).inp = s.inp := by rw [tinit_frame, withTree_inp]
@[simp] theorem tinit_out (s : State) : (tinit s).out = s.out := by rw [tinit_frame, withTree_out]
@[simp] theorem tinit_bit (s : State) : (tinit s).bit = s.bit := by rw [tinit_frame, withTree_bit]
@[simp] theorem tinit_freq (s : State) : (tinit s).freq = s.freq := by rw [tinit_frame, withTree_freq]
@[simp] theorem tinit_code (s : State) : (tinit s).code = s.code := by rw [tinit_frame, withTree_code]
@[simp] theorem tinit_order (s : State) : (tinit s).order = s.order := by rw [tinit_frame, withTree_order]
@[simp] theorem tinit_params (s : State) : (tinit s).params = s.params := by rw [tinit_frame, withTree_params]
@[simp] theorem tinit_fresh (s : State) : (tinit s).fresh = s.fresh := by rw [tinit_frame, withTree_fresh]
@[simp] theorem tinit_script (s : State) : (tinit s).script = s.script := by rw [tinit_frame, withTree_script]
@[simp] theorem tinit_port (s : State) : (tinit s).port = s.port := by rw [tinit_frame, withTree_port]

@[simp] theorem tmerge_busy (s : State) : (tmerge s).busy = s.busy := by rw [tmerge_frame, withTree_busy]
@[simp] theorem tmerge_fault (s : State) : (tmerge s).fault = s.fault := by rw [tmerge_frame, withTree_fault]
@[simp] theorem tmerge_err (s : State) : (tmerge s).err = s.err := by rw [tmerge_frame, withTree_err]
@[simp] theorem tmerge_ilen (s : State) : (tmerge s).ilen = s.ilen := by rw [tmerge_frame, withTree_ilen]
@[simp] theorem tmerge_ioff (s : State) : (tmerge s).ioff = s.ioff := by rw [tmerge_frame, withTree_ioff]
@[simp] theorem tmerge_olen (s : State) : (tmerge s).olen = s.olen := by rw [tmerge_frame, withTree_olen]
@[simp] theorem tmerge_blen (s : State) : (tmerge s).blen = s.blen := by rw [tmerge_frame, withTree_blen]
@[simp] theorem tmerge_len (s : State) : (tmerge s).len = s.len := by rw [tmerge_frame, withTree_len]
@[simp] theorem tmerge_pad (s : State) : (tmerge s).pad = s.pad := by rw [tmerge_frame, withTree_pad]
@[simp] theorem tmerge_inp (s : State) : (tmerge s).inp = s.inp := by rw [tmerge_frame, withTree_inp]
@[simp] theorem tmerge_out (s : State) : (tmerge s).out = s.out := by rw [tmerge_frame, withTree_out]
@[simp] theorem tmerge_bit (s : State) : (tmerge s).bit = s.bit := by rw [tmerge_frame, withTree_bit]
@[simp] theorem tmerge_freq (s : State) : (tmerge s).freq = s.freq := by rw [tmerge_frame, withTree_freq]
@[simp] theorem tmerge_code (s : State) : (tmerge s).code = s.code := by rw [tmerge_frame, withTree_code]
@[simp] theorem tmerge_order (s : State) : (tmerge s).order = s.order := by rw [tmerge_frame, withTree_order]
@[simp] theorem tmerge_params (s : State) : (tmerge s).params = s.params := by rw [tmerge_frame, withTree_params]
@[simp] theorem tmerge_fresh (s : State) : (tmerge s).fresh = s.fresh := by rw [tmerge_frame, withTree_fresh]
@[simp] theorem tmerge_script (s : State) : (tmerge s).script = s.script := by rw [tmerge_frame, withTree_script]
@[simp] theorem tmerge_port (s : State) : (tmerge s).port = s.port := by rw [tmerge_frame, withTree_port]

@[simp] theorem tbuild_busy (s : State) : (tbuild s).busy = s.busy := by rw [tbuild_frame, withTree_busy]
@[simp] theorem tbuild_fault (s : State) : (tbuild s).fault = s.fault := by rw [tbuild_frame, withTree_fault]
@[simp] theorem tbuild_err (s : State) : (tbuild s).err = s.err := by rw [tbuild_frame, withTree_err]
@[simp] theorem tbuild_ilen (s : State) : (tbuild s).ilen = s.ilen := by rw [tbuild_frame, withTree_ilen]
@[simp] theorem tbuild_ioff (s : State) : (tbuild s).ioff = s.ioff := by rw [tbuild_frame, withTree_ioff]
@[simp] theorem tbuild_olen (s : State) : (tbuild s).olen = s.olen := by rw [tbuild_frame, withTree_olen]
@[simp] theorem tbuild_blen (s : State) : (tbuild s).blen = s.blen := by rw [tbuild_frame, withTree_blen]
@[simp] theorem tbuild_len (s : State) : (tbuild s).len = s.len := by rw [tbuild_frame, withTree_len]
@[simp] theorem tbuild_pad (s : State) : (tbuild s).pad = s.pad := by rw [tbuild_frame, withTree_pad]
@[simp] theorem tbuild_inp (s : State) : (tbuild s).inp = s.inp := by rw [tbuild_frame, withTree_inp]
@[simp] theorem tbuild_out (s : State) : (tbuild s).out = s.out := by rw [tbuild_frame, withTree_out]
@[simp] theorem tbuild_bit (s : State) : (tbuild s).bit = s.bit := by rw [tbuild_frame, withTree_bit]
@[simp] theorem tbuild_freq (s : State) : (tbuild s).freq = s.freq := by rw [tbuild_frame, withTree_freq]
@[simp] theorem tbuild_code (s : State) : (tbuild s).code = s.code := by rw [tbuild_frame, withTree_code]
@[simp] theorem tbuild_order (s : State) : (tbuild s).order = s.order := by rw [tbuild_frame, withTree_order]
@[simp] theorem tbuild_params (s : State) : (tbuild s).params = s.params := by rw [tbuild_frame, withTree_params]
@[simp] theorem tbuild_fresh (s : State) : (tbuild s).fresh = s.fresh := by rw [tbuild_frame, withTree_fresh]
@[simp] theorem tbuild_script (s : State) : (tbuild s).script = s.script := by rw [tbuild_frame, withTree_script]
@[simp] theorem tbuild_port (s : State) : (tbuild s).port = s.port := by rw [tbuild_frame, withTree_port]

/-! ### TINIT -/

theorem mem_allSymbols (c : Symbol) : c ∈ allSymbols := by
  simp only [allSymbols, List.mem_map, List.mem_range]
  exact ⟨c.toNat, c.isLt, by simp⟩

theorem allSymbols_nodup : allSymbols.Nodup := by
  refine List.Nodup.map_on ?_ List.nodup_range
  intro x hx y hy he
  have  := congrArg BitVec.toNat he
  simp only [BitVec.toNat_ofNat] at this
  have := List.mem_range.1 hx
  have := List.mem_range.1 hy
  omega

theorem freqAt_congr {s t : State} (h : t.freq = s.freq) (c : Symbol) : t.freqAt c = s.freqAt c := by
  simp [State.freqAt, h]

/-- What holds after TINIT took the symbols `done` of a block with counters `f`. -/
structure InitInv (f : Symbol → Counter) (done : List Symbol) (s : State) : Prop where
  forest : s.Forest
  next : s.next = 256
  freq : ∀ c, s.freqAt c = f c
  leaf : ∀ c, s.slot c.toNat = if c ∈ done ∧ 0 < f c then some (leafNode (f c)) else none
  heap : s.heap.Perm ((done.filter fun c => 0 < f c).map fun c => c.setWidth 9)

theorem tinitSymbol_inv {f : Symbol → Counter} {done : List Symbol} {s : State} (h : InitInv f done s) {c : Symbol}
    (hc : c ∉ done) : InitInv f (done ++ [c]) (tinitSymbol s c) := by
  unfold tinitSymbol
  rw [h.freq c]
  have hmem : ∀ d, d ∈ done ++ [c] ↔ d ∈ done ∨ d = c := by simp
  split
  · rename_i hv
    have hnone : s.slot c.toNat = none := by rw [h.leaf, if_neg (fun hx => hc hx.1)]
    have hlt := c.isLt
    refine ⟨addLeaf_forest h.forest h.next hnone hv, h.next, h.freq, fun d => ?_, ?_⟩
    · have hd := d.isLt
      show (setNode (c.setWidth 9) (leafNode (f c)) s).slot d.toNat = _
      rw [slot_setNode _ _ _ _ (by rw [toNat_setWidth9]; omega), toNat_setWidth9]
      simp only [hmem]
      by_cases hdc : d = c
      · subst hdc
        rw [if_pos rfl, if_pos ⟨.inr rfl, hv⟩]
      · rw [if_neg (fun e => hdc (BitVec.eq_of_toNat_eq e)), h.leaf]
        simp [hdc]
    · have hw : WeakHeap (keyAt (keyNat (setNode (c.setWidth 9) (leafNode (f c)) s)) s.heap) s.heap.length := by
        refine WeakHeap_congr (fun m hm => keyNat_congr ?_ (h.forest.heapValid m hm)) (Forest_weakHeap h.forest)
        rw [slot_setNode _ _ _ _ (by rw [toNat_setWidth9]; omega), if_neg]
        intro e
        have := h.forest.heapValid m hm
        rw [e, toNat_setWidth9, hnone] at this
        simp at this
      refine (pushNode_keeps (s := setNode (c.setWidth 9) (leafNode (f c)) s) hw).1.trans ?_
      rw [List.filter_append, List.map_append]
      simp only [setNode_heap, List.filter_cons, hv, decide_true, if_true, List.filter_nil, List.map_cons, List.map_nil]
      exact (h.heap.cons _).trans (List.perm_append_singleton _ _).symm
  · rename_i hv
    refine ⟨h.forest, h.next, h.freq, fun d => ?_, ?_⟩
    · rw [h.leaf]
      simp only [hmem]
      by_cases hdc : d = c
      · subst hdc
        rw [if_neg fun hx => hc hx.1, if_neg fun hx => hv hx.2]
      · simp [hdc]
    · rw [List.filter_append, List.filter_cons_of_neg (by simpa using hv)]
      simpa using h.heap

theorem tinitFold_inv {f : Symbol → Counter} (l : List Symbol) : ∀ {done : List Symbol} {s : State}, InitInv f done s →
    (done ++ l).Nodup → InitInv f (done ++ l) (l.foldl tinitSymbol s) := by
  induction l with
  | nil => intro done s h _; simpa using h
  | cons c l ih =>
    intro done s h hn
    have hc : c ∉ done := fun hc => by
      rw [List.nodup_append] at hn
      exact hn.2.2 c hc c (by simp) rfl
    have := ih (tinitSymbol_inv h hc) (by simpa using hn)
    simpa using this

theorem tinit_inv (s : State) : InitInv s.freqAt allSymbols (allSymbols.foldl tinitSymbol (clearTree s)) := by
  have h0 : InitInv s.freqAt [] (clearTree s) := by
    refine ⟨clearTree_forest s, rfl, fun _ => rfl, fun c => ?_, by simp⟩
    have := c.isLt
    simp [State.slot, show c.toNat < 511 by omega]
  simpa using tinitFold_inv allSymbols h0 (by simpa using allSymbols_nodup)

theorem tinit_forest (s : State) : (tinit s).Forest := Forest_congr (tinit_inv s).forest (by simp [tinit]) (by simp [tinit]) (by simp [tinit])

theorem tinit_rootShown (s : State) : (tinit s).RootShown := setRoot_rootShown _

theorem tinit_next (s : State) : (tinit s).next = 256 := by
  have := (tinit_inv s).next
  simpa [tinit] using this

/-- The leaves after TINIT (R157). -/
theorem tinit_slot (s : State) (c : Symbol) :
    (tinit s).slot c.toNat = if 0 < s.freqAt c then some (leafNode (s.freqAt c)) else none := by
  have := (tinit_inv s).leaf c
  rw [slot_congr (s := allSymbols.foldl tinitSymbol (clearTree s)) (t := tinit s) (by simp [tinit]), this]
  simp [mem_allSymbols]

/-- The heap after TINIT holds exactly the leaves of the present symbols (R157). -/
theorem tinit_heap (s : State) :
    (tinit s).heap.Perm ((allSymbols.filter fun c => 0 < s.freqAt c).map fun c => c.setWidth 9) := by
  have := (tinit_inv s).heap
  simpa [tinit] using this

theorem nodeRead_congr {s t : State} (h : s.node = t.node) : s.nodeRead = t.nodeRead := by
  funext n
  simp [State.nodeRead, State.slot, h]

theorem keyLt_congr {s t : State} (h : s.node = t.node) : keyLt s = keyLt t := by
  funext a b
  simp [keyLt, nodeRead_congr h]

/-- The key of a leaf, from the counters (R152, R157). -/
def leafKey (f : Symbol → Counter) (n : NodeIdx) : Nat := (f (n.setWidth 8)).toNat * 512 + n.toNat

theorem setWidth8_setWidth9 (c : Symbol) : (c.setWidth 9).setWidth 8 = c :=
  BitVec.eq_of_toNat_eq (by have := c.isLt; simp)

theorem keyNat_leaf {f : Symbol → Counter} {done : List Symbol} {s : State} (h : InitInv f done s) {n : NodeIdx}
    (hn : n ∈ s.heap) : keyNat s n = leafKey f n := by
  obtain ⟨c, hc, rfl⟩ := List.mem_map.1 (h.heap.mem_iff.1 hn)
  have hc := List.mem_filter.1 hc
  have hs := h.leaf c
  rw [if_pos ⟨hc.1, by simpa using hc.2⟩, ← toNat_setWidth9] at hs
  rw [keyNat, leafKey, nodeRead_of_slot hs, leafNode_weight, setWidth8_setWidth9]

/-- The leaves TINIT has pushed stand in the heap as pushing them one after the other makes it (R157). -/
theorem tinitSymbol_heap {f : Symbol → Counter} {done : List Symbol} {s : State} (h : InitInv f done s) {c : Symbol}
    (hc : c ∉ done)
    (hh : s.heap = ((done.filter fun c => 0 < f c).map fun c => c.setWidth 9).foldl (heapPush (ltOf (leafKey f))) []) :
    (tinitSymbol s c).heap =
      (((done ++ [c]).filter fun c => 0 < f c).map fun c => c.setWidth 9).foldl (heapPush (ltOf (leafKey f))) [] := by
  have ht := tinitSymbol_inv h hc
  rw [List.filter_append, List.map_append, List.foldl_append, ← hh]
  by_cases hv : 0 < f c
  · have e : tinitSymbol s c = pushNode (c.setWidth 9) (setNode (c.setWidth 9) (leafNode (f c)) s) := by
      unfold tinitSymbol
      rw [h.freq c, if_pos hv]
    have hp : (tinitSymbol s c).heap =
        heapPush (keyLt (setNode (c.setWidth 9) (leafNode (f c)) s)) s.heap (c.setWidth 9) := by rw [e]; rfl
    have hk : keyLt (setNode (c.setWidth 9) (leafNode (f c)) s) = keyLt (tinitSymbol s c) := keyLt_congr (by rw [e]; rfl)
    have hmem : ∀ a ∈ c.setWidth 9 :: s.heap, a ∈ (tinitSymbol s c).heap := by
      intro a ha
      rw [ht.heap.mem_iff, List.filter_append, List.map_append]
      rcases List.mem_cons.1 ha with rfl | ha
      · exact List.mem_append_right _ (List.mem_map.2 ⟨c, List.mem_filter.2 ⟨by simp, by simpa using hv⟩, rfl⟩)
      · exact List.mem_append_left _ (h.heap.mem_iff.1 ha)
    rw [List.filter_cons_of_pos (by simpa using hv), hp, hk]
    simp only [List.filter_nil, List.map_cons, List.map_nil, List.foldl_cons, List.foldl_nil]
    refine heapPush_agree fun a ha b hb => ?_
    rw [keyLt_eq]
    simp only [ltOf, keyNat_leaf ht (hmem a ha), keyNat_leaf ht (hmem b hb)]
  · have e : tinitSymbol s c = s := by
      unfold tinitSymbol
      rw [h.freq c, if_neg hv]
    rw [e, List.filter_cons_of_neg (by simpa using hv)]
    rfl

theorem tinitFold_heap {f : Symbol → Counter} (l : List Symbol) : ∀ {done : List Symbol} {s : State}, InitInv f done s →
    (done ++ l).Nodup →
    s.heap = ((done.filter fun c => 0 < f c).map fun c => c.setWidth 9).foldl (heapPush (ltOf (leafKey f))) [] →
    (l.foldl tinitSymbol s).heap =
      (((done ++ l).filter fun c => 0 < f c).map fun c => c.setWidth 9).foldl (heapPush (ltOf (leafKey f))) [] := by
  induction l with
  | nil => intro done s _ _ hh; simpa using hh
  | cons c rest ih =>
    intro done s h hn hh
    have hc : c ∉ done := fun hx => (List.nodup_append.1 hn).2.2 c hx c (by simp) rfl
    have := ih (tinitSymbol_inv h hc) (by simpa using hn) (tinitSymbol_heap h hc hh)
    simpa using this

/-- The heap after TINIT is what pushing the leaves of the present symbols in ascending order makes (R157). -/
theorem tinit_heap_pushed (s : State) :
    (tinit s).heap = ((allSymbols.filter fun c => 0 < s.freqAt c).map fun c => c.setWidth 9).foldl
      (heapPush (keyLt (tinit s))) [] := by
  have h0 : InitInv s.freqAt [] (clearTree s) := by
    refine ⟨clearTree_forest s, rfl, fun _ => rfl, fun c => ?_, by simp⟩
    have := c.isLt
    simp [State.slot, show c.toNat < 511 by omega]
  have h := tinitFold_heap allSymbols h0 (by simpa using allSymbols_nodup) rfl
  have hi := tinit_inv s
  rw [List.nil_append] at h
  have hk : keyLt (tinit s) = keyLt (allSymbols.foldl tinitSymbol (clearTree s)) := keyLt_congr (by simp [tinit])
  rw [show (tinit s).heap = (allSymbols.foldl tinitSymbol (clearTree s)).heap by simp [tinit], h, hk]
  refine heapPush_foldl_agree _ fun a ha b hb => ?_
  rw [List.append_nil] at ha hb
  rw [keyLt_eq]
  simp only [ltOf, keyNat_leaf hi (hi.heap.mem_iff.2 ha), keyNat_leaf hi (hi.heap.mem_iff.2 hb)]

/-! ### TMERGE -/

/-- With fewer than two nodes in the heap nothing happens (R158). -/
theorem tmerge_small {s : State} (h : s.heap.length < 2) : tmerge s = s := by
  unfold tmerge
  match hh : s.heap with
  | [] => rfl
  | [a] => rfl
  | a :: b :: l => rw [hh] at h; simp at h

/-- One combination: the two nodes of least key leave the heap, in the order of their keys, and their combination enters
(R158). -/
theorem tmerge_pops {s : State} (h : s.Forest) (h2 : 2 ≤ s.heap.length) :
    ∃ a b h1 h', heapPop (keyLt s) s.heap = some (a, h1) ∧ heapPop (keyLt s) h1 = some (b, h') ∧
      s.heap.Perm (a :: b :: h') ∧ keyLt s a b = true ∧ (∀ x ∈ h', keyLt s b x = true) ∧
      tmerge s = combine s a b h' ∧ WeakHeap (keyAt (keyNat s) h') h'.length := by
  have hw := Forest_weakHeap h
  obtain ⟨a, h1, hp1⟩ := heapPop_isSome (ltOf (keyNat s)) (h := s.heap) (by rintro e; simp [e] at h2)
  obtain ⟨q1, q2, q3⟩ := heapPop_spec (keyNat s) hw hp1
  have hl1 := q1.length_eq
  simp only [List.length_cons] at hl1
  obtain ⟨b, h', hp2⟩ := heapPop_isSome (ltOf (keyNat s)) (h := h1) (by rintro e; rw [e] at hl1; simp at hl1; omega)
  obtain ⟨r1, r2, r3⟩ := heapPop_spec (keyNat s) q3 hp2
  have hperm : s.heap.Perm (a :: b :: h') := q1.trans (r1.cons a)
  have hnd := hperm.nodup_iff.1 h.heapNodup
  simp only [List.nodup_cons, List.mem_cons, not_or] at hnd
  have strict : ∀ x y, x ≠ y → keyNat s x ≤ keyNat s y → keyLt s x y = true := by
    intro x y hne hle
    rw [keyLt_eq, ltOf, decide_eq_true_eq]
    exact Nat.lt_of_le_of_ne hle fun e => hne (keyNat_inj s _ _ e)
  refine ⟨a, b, h1, h', by rw [keyLt_eq]; exact hp1, by rw [keyLt_eq]; exact hp2, hperm,
    strict a b hnd.1.1 (q2 b (r1.mem_iff.2 (by simp))), fun x hx => strict b x (fun e => hnd.2.1 (e ▸ hx)) (r2 x hx), ?_, r3⟩
  simp only [tmerge, keyLt_eq, hp1, hp2]

theorem tmerge_spec {s : State} (h : s.Forest) (h2 : 2 ≤ s.heap.length) :
    ∃ a b h', s.heap.Perm (a :: b :: h') ∧ keyLt s a b = true ∧ (∀ x ∈ h', keyLt s b x = true) ∧
      tmerge s = combine s a b h' ∧ WeakHeap (keyAt (keyNat s) h') h'.length := by
  obtain ⟨a, b, _, h', _, _, h3⟩ := tmerge_pops h h2
  exact ⟨a, b, h', h3⟩

/-- NEXT is a free slot while two nodes or more are in the heap (R31, R156). -/
theorem next_lt {s : State} (h : s.Forest) (h2 : 2 ≤ s.heap.length) : s.next.toNat < 511 := by
  have := h.count
  have := leafCount_le s
  omega

/-- What one combination leaves in the arena (R158). -/
theorem combine_slots {s : State} (h : s.Forest) (h2 : 2 ≤ s.heap.length) (a b : NodeIdx) (h' : List NodeIdx) (m : Nat) :
    (combine s a b h').slot m = if m = s.next.toNat then some (mergedNode s a b) else s.slot m := by
  rw [slot_congr (s := setNode s.next (mergedNode s a b) s) (by simp [combine]), slot_setNode _ _ _ _ (next_lt h h2)]

theorem combine_next {s : State} (h : s.Forest) (h2 : 2 ≤ s.heap.length) (a b : NodeIdx) (h' : List NodeIdx) :
    (combine s a b h').next.toNat = s.next.toNat + 1 := by
  have := next_lt h h2
  have : (combine s a b h').next = s.next + 1 := by simp [combine]
  rw [this, BitVec.toNat_add]
  simp
  omega

theorem combine_heap_length {s : State} (h : s.Forest) {a b : NodeIdx} {h' : List NodeIdx}
    (hperm : s.heap.Perm (a :: b :: h')) (hweak : WeakHeap (keyAt (keyNat s) h') h'.length) :
    (combine s a b h').heap.length = h'.length + 1 := by
  have hf := combine_forest h hperm hweak
  have hc := hf.count
  have hc0 := h.count
  simp only [combine, setRoot_heap]
  have hpush : ∀ t : State, (pushNode s.next t).heap.length = t.heap.length + 1 := by
    intro t
    have swapLen : ∀ (lt : NodeIdx → NodeIdx → Bool) n i (l : List NodeIdx), (siftUp lt n i l).length = l.length := by
      intro lt n
      induction n with
      | zero => intro i l; rfl
      | succ n ih =>
        intro i l
        simp only [siftUp]
        split
        · split
          · rw [ih]; simp
          · rfl
        · rfl
    simp [heapPush, swapLen]
  rw [hpush]
  rfl

theorem tmerge_forest {s : State} (h : s.Forest) : (tmerge s).Forest := by
  by_cases h2 : 2 ≤ s.heap.length
  · obtain ⟨a, b, h', hperm, _, _, he, hw⟩ := tmerge_spec h h2
    rw [he]
    exact Forest_congr (combine_forest h hperm hw) (by simp [combine]) (by simp [combine]) (by simp [combine])
  · rw [tmerge_small (by omega)]
    exact h

theorem tmerge_rootShown {s : State} (h : s.RootShown) : (tmerge s).RootShown := by
  unfold tmerge
  split
  · exact h
  · split
    · exact h
    · exact setRoot_rootShown _

/-- One combination takes one node from the heap (R156). -/
theorem tmerge_heap_length {s : State} (h : s.Forest) (h2 : 2 ≤ s.heap.length) :
    (tmerge s).heap.length + 1 = s.heap.length := by
  obtain ⟨a, b, h', hperm, _, _, he, hw⟩ := tmerge_spec h h2
  rw [he, combine_heap_length h hperm hw, hperm.length_eq]
  simp

/-- TMERGE leaves the leaves alone. -/
theorem tmerge_leaf {s : State} (h : s.Forest) {m : Nat} (hm : m < 256) : (tmerge s).slot m = s.slot m := by
  by_cases h2 : 2 ≤ s.heap.length
  · obtain ⟨a, b, h', hperm, _, _, he, hw⟩ := tmerge_spec h h2
    have hr := h.nextRange
    rw [he, slot_congr (s := setNode s.next (mergedNode s a b) s) (by simp [combine])]
    simp only [State.slot, setNode_node, Vector.getElem?_setIfInBounds]
    rw [if_neg (by omega)]
  · rw [tmerge_small (by omega)]

/-! ### TBUILD -/

/-- The loop of TBUILD: enough rounds leave at most one node in the heap (R159). -/
theorem mergeLoop_spec (n : Nat) : ∀ {s : State}, s.Forest → s.RootShown → s.heap.length ≤ n + 1 →
    (mergeLoop n s).Forest ∧ (mergeLoop n s).RootShown ∧ (mergeLoop n s).heap.length ≤ 1 ∧
      (∀ m, m < 256 → (mergeLoop n s).slot m = s.slot m) ∧
      (s.heap ≠ [] → (mergeLoop n s).heap ≠ []) ∧
      mergeLoop n s = tmerge^[s.heap.length - 1] s := by
  induction n with
  | zero =>
    intro s h hr hl
    exact ⟨h, hr, hl, fun _ _ => rfl, id, by simp [show s.heap.length - 1 = 0 by omega, mergeLoop]⟩
  | succ n ih =>
    intro s h hr hl
    simp only [mergeLoop]
    split
    · rename_i h2
      have hlen := tmerge_heap_length h h2
      obtain ⟨a1, a2, a3, a4, a5, a6⟩ := ih (tmerge_forest h) (tmerge_rootShown hr) (by omega)
      refine ⟨a1, a2, a3, fun m hm => (a4 m hm).trans (tmerge_leaf h hm), fun _ => a5 ?_, ?_⟩
      · intro e
        rw [e] at hlen
        simp at hlen
        omega
      · rw [a6, show s.heap.length - 1 = ((tmerge s).heap.length - 1) + 1 by omega, Function.iterate_succ_apply]
    · exact ⟨h, hr, by omega, fun _ _ => rfl, id, by simp [show s.heap.length - 1 = 0 by omega]⟩

theorem tbuild_spec (s : State) :
    (tbuild s).Forest ∧ (tbuild s).RootShown ∧ (tbuild s).heap.length ≤ 1 ∧
      (∀ m, m < 256 → (tbuild s).slot m = (tinit s).slot m) ∧
      ((tinit s).heap ≠ [] → (tbuild s).heap ≠ []) ∧
      tbuild s = tmerge^[(tinit s).heap.length - 1] (tinit s) :=
  mergeLoop_spec _ (tinit_forest s) (tinit_rootShown s) (by omega)

/-! ### The tree depends on the counters only -/

/-- Two blocks with the same tree. -/
structure SameTree (s t : State) : Prop where
  node : s.node = t.node
  heap : s.heap = t.heap
  next : s.next = t.next
  rv : s.rv = t.rv
  root : s.root = t.root

theorem SameTree_setRoot {s t : State} (h : SameTree s t) : SameTree (setRoot s) (setRoot t) := by
  have e : (setRoot s).rv = (setRoot t).rv ∧ (setRoot s).root = (setRoot t).root := by
    have ht := h.heap
    unfold setRoot
    rcases hs : s.heap with _ | ⟨r, _ | ⟨x, l⟩⟩ <;> rw [hs] at ht <;> simp [← ht]
  exact ⟨by simpa using h.node, by simpa using h.heap, by simpa using h.next, e.1, e.2⟩

theorem SameTree_push {s t : State} (h : SameTree s t) (n : NodeIdx) (nd : Node) :
    SameTree (pushNode n (setNode n nd s)) (pushNode n (setNode n nd t)) := by
  have hn : (setNode n nd s).node = (setNode n nd t).node := by simp [h.node]
  exact ⟨hn, by simp [keyLt_congr hn, h.heap], h.next, h.rv, h.root⟩

theorem SameTree_tinit {s t : State} (hf : s.freq = t.freq) (hr : s.rv = t.rv) (hx : s.root = t.root) :
    SameTree (tinit s) (tinit t) := by
  refine SameTree_setRoot ?_
  have h0 : SameTree (clearTree s) (clearTree t) := ⟨rfl, rfl, rfl, hr, hx⟩
  have hf0 : (clearTree s).freq = (clearTree t).freq := hf
  revert h0 hf0
  generalize clearTree s = s'
  generalize clearTree t = t'
  induction allSymbols generalizing s' t' with
  | nil => intro h _; exact h
  | cons c l ih =>
    intro h hf'
    refine ih _ _ ?_ ?_
    · unfold tinitSymbol
      rw [freqAt_congr hf' c]
      split
      · exact SameTree_push h _ _
      · exact h
    · rw [tinitSymbol_frame s', tinitSymbol_frame t']
      exact hf'

theorem SameTree_combine {s t : State} (h : SameTree s t) (a b : NodeIdx) (l : List NodeIdx) :
    SameTree (combine s a b l) (combine t a b l) := by
  have hm : mergedNode s a b = mergedNode t a b := by simp [mergedNode, nodeRead_congr h.node]
  refine SameTree_setRoot ?_
  rw [h.next, hm]
  have hn : (takeNext l (setNode t.next (mergedNode t a b) s)).node = (takeNext l (setNode t.next (mergedNode t a b) t)).node := by
    simp [h.node]
  exact ⟨hn, by simp [keyLt_congr hn], by simp [h.next], h.rv, h.root⟩

theorem SameTree_tmerge {s t : State} (h : SameTree s t) : SameTree (tmerge s) (tmerge t) := by
  unfold tmerge
  rw [keyLt_congr h.node, h.heap]
  split
  · exact h
  · split
    · exact h
    · exact SameTree_combine h _ _ _

theorem SameTree_mergeLoop (n : Nat) {s t : State} (h : SameTree s t) : SameTree (mergeLoop n s) (mergeLoop n t) := by
  induction n generalizing s t with
  | zero => exact h
  | succ n ih =>
    simp only [mergeLoop, h.heap]
    split
    · exact ih (SameTree_tmerge h)
    · exact h

end Sys2Proof.Laws
end

