-- ==== Sys2Proof/Laws/Codec.lean ====
section
/-!
SUPPORT. Laws/Codec.lean: what TSER writes and what TDES reads, in closed form (42_code_table_codec.md R140 to R142), on the
bytes IN[IOFF..ILEN).
-/
namespace Sys2Proof.Laws

open Sys2Proof Sys2Proof.Machine

/-! ### TSER -/

theorem codeRead_congr {s t : State} (h : t.code = s.code) (c : Symbol) : t.codeRead c = s.codeRead c := by
  simp [State.codeRead, State.codeAt, h]

theorem codeAt_congr {s t : State} (h : t.code = s.code) (c : Symbol) : t.codeAt c = s.codeAt c := by
  simp [State.codeAt, h]

/-- The loop of TSER appends the entries' bytes. -/
theorem tserEntries_eq (l : List Symbol) (s : State) :
    tserEntries l s = outAppendAll (l.flatMap fun c => entryBytes c (s.codeRead c)) s := by
  induction l generalizing s with
  | nil => rfl
  | cons c rest ih =>
    simp only [tserEntries, List.flatMap_cons, outAppendAll_append]
    cases hc : outAppendAll (entryBytes c (s.codeRead c)) s with
    | error e => rfl
    | ok t =>
      cases outAppendAll_state hc
      simp only [ok_bind]
      rw [ih]
      congr 1
      exact List.flatMap_congr fun d _ => by rw [codeRead_congr (outWritten_code ..)]

/-- TSER appends the serialised table (R141). -/
theorem runTser_eq (s : State) : runTser s = outAppendAll (serialTable s.entries) s := by
  have h : serialTable s.entries = be s.order.length 2 ++ s.order.flatMap fun c => entryBytes c (s.codeRead c) := by
    simp [serialTable, State.entries, List.flatMap_map]
  rw [h, outAppendAll_append]
  unfold runTser
  cases hb : outAppendAll (be s.order.length 2) s with
  | error e => rfl
  | ok t =>
    cases outAppendAll_state hb
    simp only [ok_bind]
    rw [tserEntries_eq, outWritten_order]
    congr 1

/-! ### Reading IN from IOFF on -/

@[simp] theorem inSlice_length (s : State) (a b : Nat) : (s.inSlice a b).length = b - a := by simp [State.inSlice]
@[simp] theorem inRest_length (s : State) : s.inRest.length = s.ilen.toNat - s.ioff.toNat := by simp [State.inRest]
@[simp] theorem inData_length (s : State) : s.inData.length = s.ilen.toNat := by simp [State.inData]

theorem inSlice_congr {s t : State} (h : t.inp = s.inp) (a b : Nat) : t.inSlice a b = s.inSlice a b := by
  unfold State.inSlice
  exact List.map_congr_left fun i _ => inRead_congr h i

theorem inRest_congr {s t : State} (h : t.inp = s.inp) (h2 : t.ilen = s.ilen) (h3 : t.ioff = s.ioff) :
    t.inRest = s.inRest := by
  simp [State.inRest, h2, h3, inSlice_congr h]

theorem inData_congr {s t : State} (h : t.inp = s.inp) (h2 : t.ilen = s.ilen) : t.inData = s.inData := by
  simp [State.inData, h2, inSlice_congr h]

theorem inSlice_cons {s : State} {a b : Nat} (h : a < b) : s.inSlice a b = s.inRead a :: s.inSlice (a + 1) b := by
  unfold State.inSlice
  rw [show b - a = (b - (a + 1)) + 1 by omega, List.range'_succ]
  rfl

theorem inSlice_drop (s : State) (a b n : Nat) : (s.inSlice a b).drop n = s.inSlice (a + n) b := by
  unfold State.inSlice
  rw [← List.map_drop, List.drop_range', Nat.mul_one, show b - a - n = b - (a + n) by omega]

theorem inSlice_getElem? (s : State) (a b i : Nat) :
    (s.inSlice a b)[i]? = if i < b - a then some (s.inRead (a + i)) else none := by
  unfold State.inSlice
  rw [List.getElem?_map]
  split
  · rename_i h
    rw [List.getElem?_range' (by simpa using h)]
    simp only [Option.map_some, Nat.one_mul]
  · rename_i h
    rw [List.getElem?_eq_none (by simp; omega)]
    rfl

/-- IOFF moved on by n bytes. -/
def skip (n : Nat) (s : State) : State := setIoff (s.ioff + BitVec.ofNat 64 n) s

theorem skip_frame (n : Nat) (s : State) : skip n s = setIoff (skip n s).ioff s := rfl

theorem skip_ioff (n : Nat) (s : State) (h : s.ioff.toNat + n ≤ s.ilen.toNat) :
    (skip n s).ioff.toNat = s.ioff.toNat + n := by
  have := s.ilen.isLt
  simp only [skip, setIoff_ioff, BitVec.toNat_add, BitVec.toNat_ofNat]
  rw [Nat.mod_eq_of_lt (show n < 2 ^ 64 by omega), Nat.mod_eq_of_lt (by omega)]

theorem skip_inRest (n : Nat) (s : State) (h : s.ioff.toNat + n ≤ s.ilen.toNat) : (skip n s).inRest = s.inRest.drop n := by
  rw [State.inRest, State.inRest, skip_ioff n s h, inSlice_drop]
  exact inSlice_congr rfl _ _

theorem skip_skip (n m : Nat) (s : State) : skip m (skip n s) = skip (n + m) s := by
  simp only [skip, setIoff, BitVec.add_assoc]
  congr 2
  rw [BitVec.ofNat_add]

/-- `next()` with a byte left (R142). -/
theorem tdesNext_cons {s : State} {x : Byte} {rest : List Byte} (h : s.inRest = x :: rest) :
    tdesNext s = .ok (x, skip 1 s) ∧ (skip 1 s).inRest = rest := by
  have hl := congrArg List.length h
  simp only [inRest_length, List.length_cons] at hl
  have hlt : s.ioff.toNat < s.ilen.toNat := by omega
  refine ⟨?_, by rw [skip_inRest 1 s (by omega), h]; rfl⟩
  have hx : s.inRead s.ioff.toNat = x := by
    rw [State.inRest, inSlice_cons hlt] at h
    exact (List.cons.inj h).1
  simp [tdesNext, Nat.not_le.2 hlt, hx, skip]

/-- `next()` at the end of IN (R142). -/
theorem tdesNext_nil {s : State} (h : s.inRest = []) : tdesNext s = raise .corruptStream := by
  have hl := congrArg List.length h
  simp only [inRest_length, List.length_nil] at hl
  simp [tdesNext, show s.ilen.toNat ≤ s.ioff.toNat by omega]

theorem skip_zero (s : State) : skip 0 s = s := by simp [skip, setIoff]

/-- The raw bits of n bytes (R142). -/
theorem tdesRaw_ok (l : List Byte) : ∀ {s : State} {rest : List Byte}, s.inRest = l ++ rest →
    tdesRaw l.length s = .ok (l.flatMap bits8, skip l.length s) ∧ (skip l.length s).inRest = rest := by
  induction l with
  | nil => intro s rest h; exact ⟨by simp [tdesRaw, skip_zero], by simpa [skip_zero] using h⟩
  | cons x l ih =>
    intro s rest h
    obtain ⟨h1, h2⟩ := tdesNext_cons h
    obtain ⟨h3, h4⟩ := ih h2
    rw [skip_skip, Nat.add_comm 1] at h3 h4
    exact ⟨by simp [tdesRaw, h1, h3], h4⟩

/-- Fewer than n bytes are left: the table is cut short (R142). -/
theorem tdesRaw_short (n : Nat) : ∀ {s : State}, s.inRest.length < n → tdesRaw n s = raise .corruptStream := by
  induction n with
  | zero => intro s h; omega
  | succ n ih =>
    intro s h
    cases hr : s.inRest with
    | nil => simp [tdesRaw, tdesNext_nil hr]
    | cons x rest =>
      obtain ⟨h1, h2⟩ := tdesNext_cons hr
      simp only [tdesRaw, h1, ok_bind]
      rw [ih (by rw [h2]; rw [hr] at h; simp at h; omega)]
      rfl

theorem putEntry_skip (c : Symbol) (bits : BitSeq) (n : Nat) (s : State) :
    putEntry c bits (skip n s) = skip n (putEntry c bits s) := by
  unfold putEntry
  rw [codeAt_congr (s := s) (t := skip n s) rfl]
  split <;> rfl

theorem entryBytes_length (c : Symbol) (bits : BitSeq) : (entryBytes c bits).length = 2 + ceil8 bits.length := by
  simp [entryBytes]; omega

theorem ofNat_len_toNat {bits : BitSeq} (h : bits.length ≤ 255) : (BitVec.ofNat 8 bits.length).toNat = bits.length := by
  simp only [BitVec.toNat_ofNat]
  omega

theorem RawEntry_serial_length {r : RawEntry} (hr : r.ok) : r.serial.length = 2 + ceil8 r.len.toNat := by
  rw [RawEntry.ok] at hr
  simp [RawEntry.serial, hr]
  omega

/-- One entry of TDES (R142). -/
theorem tdesEntry_ok {r : RawEntry} (hr : r.ok) {s : State} {rest : List Byte} (h : s.inRest = r.serial ++ rest) :
    tdesEntry s = .ok (putEntry r.entry.1 r.entry.2 (skip r.serial.length s)) ∧
      (skip r.serial.length s).inRest = rest := by
  obtain ⟨h1, h2⟩ := tdesNext_cons h
  obtain ⟨h3, h4⟩ := tdesNext_cons h2
  obtain ⟨h5, h6⟩ := tdesRaw_ok r.bytes h4
  rw [RawEntry.ok] at hr
  rw [hr, skip_skip, skip_skip] at h5 h6
  rw [RawEntry_serial_length hr]
  refine ⟨?_, by rw [← h6]; congr 2; omega⟩
  simp only [tdesEntry, h1, h3, skip_skip, ok_bind, h5, RawEntry.entry]

/-- An entry cut short (R142). -/
theorem tdesEntry_short {r : RawEntry} (hr' : r.ok) {s : State} {missing : List Byte}
    (h : s.inRest ++ missing = r.serial) (hm : missing ≠ []) : tdesEntry s = raise .corruptStream := by
  have hl := congrArg List.length h
  have hml : 0 < missing.length := List.length_pos_iff.2 hm
  rw [List.length_append, RawEntry_serial_length hr'] at hl
  cases hr : s.inRest with
  | nil => simp [tdesEntry, tdesNext_nil hr]
  | cons x r1 =>
    obtain ⟨h1, h2⟩ := tdesNext_cons hr
    cases hr1 : r1 with
    | nil =>
      rw [hr1] at h2
      simp only [tdesEntry, h1, ok_bind, tdesNext_nil h2]
      rfl
    | cons y r2 =>
      rw [hr1] at h2
      obtain ⟨h3, h4⟩ := tdesNext_cons h2
      rw [hr, hr1] at h
      simp only [RawEntry.serial, List.cons_append, List.cons.injEq] at h
      rw [hr, hr1] at hl
      simp only [List.length_cons] at hl
      have hy : y.toNat = r.len.toNat := by rw [h.2.1]
      simp only [tdesEntry, h1, h3, ok_bind, hy]
      rw [tdesRaw_short _ (by rw [h4]; omega)]
      rfl

/-- The table after a list of entries was recorded, in order. -/
def putEntries (es : List (Symbol × BitSeq)) (s : State) : State := es.foldl (fun s e => putEntry e.1 e.2 s) s

theorem putEntries_skip (es : List (Symbol × BitSeq)) (n : Nat) (s : State) :
    putEntries es (skip n s) = skip n (putEntries es s) := by
  induction es generalizing s with
  | nil => rfl
  | cons e es ih =>
    simp only [putEntries, List.foldl_cons, putEntry_skip] at ih ⊢
    exact ih _

theorem putEntry_frame (c : Symbol) (bits : BitSeq) (s : State) :
    putEntry c bits s = { s with code := (putEntry c bits s).code, order := (putEntry c bits s).order } := by
  unfold putEntry
  split <;> rfl

@[simp] theorem putEntry_busy (c : Symbol) (bits : BitSeq) (s : State) : (putEntry c bits s).busy = s.busy := by rw [putEntry_frame]
@[simp] theorem putEntry_fault (c : Symbol) (bits : BitSeq) (s : State) : (putEntry c bits s).fault = s.fault := by rw [putEntry_frame]
@[simp] theorem putEntry_err (c : Symbol) (bits : BitSeq) (s : State) : (putEntry c bits s).err = s.err := by rw [putEntry_frame]
@[simp] theorem putEntry_ilen (c : Symbol) (bits : BitSeq) (s : State) : (putEntry c bits s).ilen = s.ilen := by rw [putEntry_frame]
@[simp] theorem putEntry_ioff (c : Symbol) (bits : BitSeq) (s : State) : (putEntry c bits s).ioff = s.ioff := by rw [putEntry_frame]
@[simp] theorem putEntry_olen (c : Symbol) (bits : BitSeq) (s : State) : (putEntry c bits s).olen = s.olen := by rw [putEntry_frame]
@[simp] theorem putEntry_blen (c : Symbol) (bits : BitSeq) (s : State) : (putEntry c bits s).blen = s.blen := by rw [putEntry_frame]
@[simp] theorem putEntry_len (c : Symbol) (bits : BitSeq) (s : State) : (putEntry c bits s).len = s.len := by rw [putEntry_frame]
@[simp] theorem putEntry_pad (c : Symbol) (bits : BitSeq) (s : State) : (putEntry c bits s).pad = s.pad := by rw [putEntry_frame]
@[simp] theorem putEntry_root (c : Symbol) (bits : BitSeq) (s : State) : (putEntry c bits s).root = s.root := by rw [putEntry_frame]
@[simp] theorem putEntry_rv (c : Symbol) (bits : BitSeq) (s : State) : (putEntry c bits s).rv = s.rv := by rw [putEntry_frame]
@[simp] theorem putEntry_next (c : Symbol) (bits : BitSeq) (s : State) : (putEntry c bits s).next = s.next := by rw [putEntry_frame]
@[simp] theorem putEntry_inp (c : Symbol) (bits : BitSeq) (s : State) : (putEntry c bits s).inp = s.inp := by rw [putEntry_frame]
@[simp] theorem putEntry_out (c : Symbol) (bits : BitSeq) (s : State) : (putEntry c bits s).out = s.out := by rw [putEntry_frame]
@[simp] theorem putEntry_bit (c : Symbol) (bits : BitSeq) (s : State) : (putEntry c bits s).bit = s.bit := by rw [putEntry_frame]
@[simp] theorem putEntry_freq (c : Symbol) (bits : BitSeq) (s : State) : (putEntry c bits s).freq = s.freq := by rw [putEntry_frame]
@[simp] theorem putEntry_node (c : Symbol) (bits : BitSeq) (s : State) : (putEntry c bits s).node = s.node := by rw [putEntry_frame]
@[simp] theorem putEntry_heap (c : Symbol) (bits : BitSeq) (s : State) : (putEntry c bits s).heap = s.heap := by rw [putEntry_frame]
@[simp] theorem putEntry_params (c : Symbol) (bits : BitSeq) (s : State) : (putEntry c bits s).params = s.params := by rw [putEntry_frame]
@[simp] theorem putEntry_fresh (c : Symbol) (bits : BitSeq) (s : State) : (putEntry c bits s).fresh = s.fresh := by rw [putEntry_frame]
@[simp] theorem putEntry_script (c : Symbol) (bits : BitSeq) (s : State) : (putEntry c bits s).script = s.script := by rw [putEntry_frame]
@[simp] theorem putEntry_port (c : Symbol) (bits : BitSeq) (s : State) : (putEntry c bits s).port = s.port := by rw [putEntry_frame]

theorem putEntries_frame (es : List (Symbol × BitSeq)) (s : State) :
    putEntries es s = { s with code := (putEntries es s).code, order := (putEntries es s).order } := by
  induction es generalizing s with
  | nil => rfl
  | cons e es ih =>
    refine (ih (putEntry e.1 e.2 s)).trans ?_
    simp only [putEntry_busy, putEntry_fault, putEntry_err, putEntry_ilen, putEntry_ioff, putEntry_olen, putEntry_blen,
      putEntry_len, putEntry_pad, putEntry_root, putEntry_rv, putEntry_next, putEntry_inp, putEntry_out, putEntry_bit,
      putEntry_freq, putEntry_node, putEntry_heap, putEntry_params, putEntry_fresh, putEntry_script, putEntry_port]
    rfl

@[simp] theorem putEntries_busy (es : List (Symbol × BitSeq)) (s : State) : (putEntries es s).busy = s.busy := by rw [putEntries_frame]
@[simp] theorem putEntries_fault (es : List (Symbol × BitSeq)) (s : State) : (putEntries es s).fault = s.fault := by rw [putEntries_frame]
@[simp] theorem putEntries_err (es : List (Symbol × BitSeq)) (s : State) : (putEntries es s).err = s.err := by rw [putEntries_frame]
@[simp] theorem putEntries_ilen (es : List (Symbol × BitSeq)) (s : State) : (putEntries es s).ilen = s.ilen := by rw [putEntries_frame]
@[simp] theorem putEntries_ioff (es : List (Symbol × BitSeq)) (s : State) : (putEntries es s).ioff = s.ioff := by rw [putEntries_frame]
@[simp] theorem putEntries_olen (es : List (Symbol × BitSeq)) (s : State) : (putEntries es s).olen = s.olen := by rw [putEntries_frame]
@[simp] theorem putEntries_blen (es : List (Symbol × BitSeq)) (s : State) : (putEntries es s).blen = s.blen := by rw [putEntries_frame]
@[simp] theorem putEntries_len (es : List (Symbol × BitSeq)) (s : State) : (putEntries es s).len = s.len := by rw [putEntries_frame]
@[simp] theorem putEntries_pad (es : List (Symbol × BitSeq)) (s : State) : (putEntries es s).pad = s.pad := by rw [putEntries_frame]
@[simp] theorem putEntries_root (es : List (Symbol × BitSeq)) (s : State) : (putEntries es s).root = s.root := by rw [putEntries_frame]
@[simp] theorem putEntries_rv (es : List (Symbol × BitSeq)) (s : State) : (putEntries es s).rv = s.rv := by rw [putEntries_frame]
@[simp] theorem putEntries_next (es : List (Symbol × BitSeq)) (s : State) : (putEntries es s).next = s.next := by rw [putEntries_frame]
@[simp] theorem putEntries_inp (es : List (Symbol × BitSeq)) (s : State) : (putEntries es s).inp = s.inp := by rw [putEntries_frame]
@[simp] theorem putEntries_out (es : List (Symbol × BitSeq)) (s : State) : (putEntries es s).out = s.out := by rw [putEntries_frame]
@[simp] theorem putEntries_bit (es : List (Symbol × BitSeq)) (s : State) : (putEntries es s).bit = s.bit := by rw [putEntries_frame]
@[simp] theorem putEntries_freq (es : List (Symbol × BitSeq)) (s : State) : (putEntries es s).freq = s.freq := by rw [putEntries_frame]
@[simp] theorem putEntries_node (es : List (Symbol × BitSeq)) (s : State) : (putEntries es s).node = s.node := by rw [putEntries_frame]
@[simp] theorem putEntries_heap (es : List (Symbol × BitSeq)) (s : State) : (putEntries es s).heap = s.heap := by rw [putEntries_frame]
@[simp] theorem putEntries_params (es : List (Symbol × BitSeq)) (s : State) : (putEntries es s).params = s.params := by rw [putEntries_frame]
@[simp] theorem putEntries_fresh (es : List (Symbol × BitSeq)) (s : State) : (putEntries es s).fresh = s.fresh := by rw [putEntries_frame]
@[simp] theorem putEntries_script (es : List (Symbol × BitSeq)) (s : State) : (putEntries es s).script = s.script := by rw [putEntries_frame]
@[simp] theorem putEntries_port (es : List (Symbol × BitSeq)) (s : State) : (putEntries es s).port = s.port := by rw [putEntries_frame]

/-- The entries of TDES (R142). -/
theorem tdesEntries_ok (rs : List RawEntry) (hb : ∀ r ∈ rs, r.ok) :
    ∀ {s : State} {rest : List Byte}, s.inRest = rs.flatMap RawEntry.serial ++ rest →
      tdesEntries rs.length s =
        .ok (putEntries (rs.map RawEntry.entry) (skip (rs.flatMap RawEntry.serial).length s)) := by
  induction rs with
  | nil => intro s rest h; simp [tdesEntries, putEntries, skip_zero]
  | cons r rs ih =>
    intro s rest h
    rw [List.flatMap_cons, List.append_assoc] at h
    obtain ⟨h1, h2⟩ := tdesEntry_ok (hb r (by simp)) h
    simp only [List.length_cons, tdesEntries, h1, ok_bind]
    have h3 : (putEntry r.entry.1 r.entry.2 (skip r.serial.length s)).inRest = rs.flatMap RawEntry.serial ++ rest := by
      rw [← h2]
      exact inRest_congr (by simp) (by simp) (by simp)
    rw [ih (fun r he => hb r (by simp [he])) h3, ← putEntry_skip, skip_skip]
    simp only [List.flatMap_cons, List.length_append]
    rfl

/-- Entries cut short (R142). -/
theorem tdesEntries_short (rs : List RawEntry) (hb : ∀ r ∈ rs, r.ok) :
    ∀ {s : State} {missing : List Byte}, s.inRest ++ missing = rs.flatMap RawEntry.serial → missing ≠ [] →
      tdesEntries rs.length s = raise .corruptStream := by
  induction rs with
  | nil => intro s missing h hm; simp at h; exact absurd h.2 hm
  | cons r rs ih =>
    intro s missing h hm
    rw [List.flatMap_cons] at h
    simp only [List.length_cons, tdesEntries]
    have hrest : ∀ {s : State} {rest : List Byte}, s.inRest = r.serial ++ rest →
        tdesEntry s = .ok (putEntry r.entry.1 r.entry.2 (skip r.serial.length s)) ∧
          (putEntry r.entry.1 r.entry.2 (skip r.serial.length s)).inRest = rest := fun {s rest} h => by
      obtain ⟨h1, h2⟩ := tdesEntry_ok (hb r (by simp)) h
      exact ⟨h1, by rw [← h2]; exact inRest_congr (by simp) (by simp) (by simp)⟩
    rcases List.append_eq_append_iff.1 h with ⟨a, ha, hb'⟩ | ⟨a, ha, hb'⟩
    · by_cases hae : a = []
      · subst hae
        obtain ⟨h1, h2⟩ := hrest (s := s) (rest := []) (by simpa using ha.symm)
        simp only [h1, ok_bind]
        exact ih (fun r he => hb r (by simp [he])) (missing := missing) (by rw [h2]; simpa using hb') hm
      · rw [tdesEntry_short (hb r (by simp)) ha.symm hae]
        rfl
    · obtain ⟨h1, h2⟩ := hrest ha
      simp only [h1, ok_bind]
      exact ih (fun r he => hb r (by simp [he])) (missing := missing) (by rw [h2]; exact hb'.symm) hm

/-- The two count bytes of a serialised table (R140). -/
theorem be_two (n : Nat) : be n 2 = [BitVec.ofNat 8 (n / 256), BitVec.ofNat 8 n] := by
  simp [be, List.range_succ]

/-- TDES of a table records its entries and leaves IOFF behind it (R142). -/
theorem runTdes_raw {rs : List RawEntry} {s : State} {rest : List Byte} (hn : rs.length < 65536)
    (hb : ∀ r ∈ rs, r.ok) (hc : checkIn s = .ok s) (h : s.inRest = rawTable rs ++ rest) :
    runTdes s = .ok (skip (rawTable rs).length (putEntries (rs.map RawEntry.entry) (clearTable s))) := by
  have h0 : (clearTable s).inRest = s.inRest := inRest_congr rfl rfl rfl
  have hcount := unbe_be rs.length 2 (by omega)
  rw [be_two] at hcount
  rw [rawTable, be_two] at h
  obtain ⟨h1, h2⟩ := tdesNext_cons (h0.trans h)
  obtain ⟨h3, h4⟩ := tdesNext_cons h2
  rw [skip_skip] at h3 h4
  simp only [runTdes, hc, ok_bind, h1, h3, hcount]
  rw [tdesEntries_ok rs hb h4, skip_skip, putEntries_skip]
  simp [rawTable]

/-- TDES of a table cut short raises CORRUPT_STREAM_ERROR (R142). -/
theorem runTdes_short {rs : List RawEntry} {s : State} {missing : List Byte} (hn : rs.length < 65536)
    (hb : ∀ r ∈ rs, r.ok) (hc : checkIn s = .ok s) (h : s.inRest ++ missing = rawTable rs)
    (hm : missing ≠ []) : runTdes s = raise .corruptStream := by
  have h0 : (clearTable s).inRest = s.inRest := inRest_congr rfl rfl rfl
  have hcount := unbe_be rs.length 2 (by omega)
  rw [be_two] at hcount
  rw [rawTable, be_two] at h
  simp only [runTdes, hc, ok_bind]
  cases hr : s.inRest with
  | nil => simp [tdesNext_nil (h0.trans hr)]
  | cons x r1 =>
    obtain ⟨h1, h2⟩ := tdesNext_cons (h0.trans hr)
    rw [hr] at h
    simp only [List.cons_append, List.cons.injEq, List.nil_append] at h
    simp only [h1, ok_bind]
    cases hr1 : r1 with
    | nil => simp [tdesNext_nil (h2.trans hr1)]
    | cons y r2 =>
      obtain ⟨h3, h4⟩ := tdesNext_cons (h2.trans hr1)
      rw [hr1] at h
      simp only [List.cons_append, List.cons.injEq] at h
      simp only [h3, ok_bind, h.1, h.2.1, hcount]
      exact tdesEntries_short rs hb (by rw [h4]; exact h.2.2) hm

/-- An entry as TSER writes it (R140). -/
def toRaw (e : Symbol × BitSeq) : RawEntry := ⟨e.1, BitVec.ofNat 8 e.2.length, packBytes e.2⟩

theorem toRaw_serial (e : Symbol × BitSeq) : (toRaw e).serial = entryBytes e.1 e.2 := rfl

theorem toRaw_ok {e : Symbol × BitSeq} (h : e.2.length ≤ 255) : (toRaw e).ok := by
  simp only [RawEntry.ok, toRaw, packBytes_length, ofNat_len_toNat h]

theorem toRaw_entry {e : Symbol × BitSeq} (h : e.2.length ≤ 255) : (toRaw e).entry = e := by
  simp only [RawEntry.entry, toRaw, ofNat_len_toNat h, take_flatMap_packBytes]

theorem serialTable_eq (es : List (Symbol × BitSeq)) : serialTable es = rawTable (es.map toRaw) := by
  simp only [serialTable, rawTable, List.length_map, List.flatMap_map]
  rfl

/-- TDES of a table TSER wrote records its entries and leaves IOFF behind it (R142). -/
theorem runTdes_ok {es : List (Symbol × BitSeq)} {s : State} {rest : List Byte} (hn : es.length < 65536)
    (hb : ∀ e ∈ es, e.2.length ≤ 255) (hc : checkIn s = .ok s) (h : s.inRest = serialTable es ++ rest) :
    runTdes s = .ok (skip (serialTable es).length (putEntries es (clearTable s))) := by
  rw [serialTable_eq] at h ⊢
  rw [runTdes_raw (by simpa using hn) (fun r hr => by
    obtain ⟨e, he, rfl⟩ := List.mem_map.1 hr
    exact toRaw_ok (hb e he)) hc h, List.map_map]
  congr 3
  conv_rhs => rw [← List.map_id es]
  exact List.map_congr_left fun e he => toRaw_entry (hb e he)

/-! ### The table after its entries were recorded -/

theorem codeAt_setCode (c d : Symbol) (bits : BitSeq) (s : State) :
    (setCode c bits s).codeAt d = if d = c then some bits else s.codeAt d := by
  simp only [State.codeAt, setCode_code, Vector.getElem_set]
  by_cases h : d = c
  · simp [h]
  · simp [h, show ¬ c.toNat = d.toNat from fun e => h (BitVec.eq_of_toNat_eq e.symm)]

@[simp] theorem codeAt_clearTable (s : State) (c : Symbol) : (clearTable s).codeAt c = none := by simp [State.codeAt]

theorem codeAt_putEntry (c d : Symbol) (bits : BitSeq) (s : State) :
    (putEntry c bits s).codeAt d = if d = c then some bits else s.codeAt d := by
  unfold putEntry
  rw [codeAt_setCode]
  split
  · rfl
  · split <;> rfl

theorem order_putEntry (c : Symbol) (bits : BitSeq) (s : State) :
    (putEntry c bits s).order = if (s.codeAt c).isNone then s.order ++ [c] else s.order := by
  unfold putEntry
  split <;> simp_all

/-- Recording an entry keeps the table invariant (R41 (g)). -/
theorem putEntry_tableOk {s : State} (h : s.TableOk) (c : Symbol) {bits : BitSeq} (hb : bits.length ≤ 255) :
    (putEntry c bits s).TableOk := by
  have hv := h.validIff
  constructor
  · rw [order_putEntry]
    split
    · rename_i hc
      have hm : c ∉ s.order := fun hm => by simpa [Option.isNone_iff_eq_none.1 hc] using (hv c).2 hm
      refine List.nodup_append.2 ⟨h.orderNodup, by simp, fun a ha b hb e => hm ?_⟩
      rw [List.mem_singleton.1 hb] at e
      exact e ▸ ha
    · exact h.orderNodup
  · intro d
    rw [codeAt_putEntry, order_putEntry]
    by_cases hd : d = c
    · subst hd
      simp only [if_true, Option.isSome_some, true_iff]
      split
      · simp
      · rename_i hn
        exact (hv d).1 (by cases hx : s.codeAt d <;> simp_all)
    · simp only [hd, if_false]
      split
      · rw [hv]; simp [hd]
      · exact hv d
  · intro d b
    rw [codeAt_putEntry]
    split
    · intro e; cases e; exact hb
    · exact h.codeLength d b

theorem clearTable_tableOk (s : State) : (clearTable s).TableOk :=
  ⟨by simp, by simp, by simp⟩

/-- Recording entries with pairwise different symbols into an empty table gives exactly those entries, in their order. -/
theorem putEntries_distinct (es : List (Symbol × BitSeq)) (s : State) (hd : (es.map Prod.fst).Nodup)
    (hs : ∀ e ∈ es, s.codeAt e.1 = none) :
    (putEntries es s).order = s.order ++ es.map Prod.fst ∧
      (∀ e ∈ es, (putEntries es s).codeAt e.1 = some e.2) ∧
      (∀ c, c ∉ es.map Prod.fst → (putEntries es s).codeAt c = s.codeAt c) := by
  induction es generalizing s with
  | nil => simp [putEntries]
  | cons e es ih =>
    simp only [List.map_cons, List.nodup_cons] at hd
    have hne : ∀ f ∈ es, f.1 ≠ e.1 := fun f hf he => hd.1 (he ▸ List.mem_map_of_mem hf)
    obtain ⟨h1, h2, h3⟩ := ih (putEntry e.1 e.2 s) hd.2 fun f hf => by
      rw [codeAt_putEntry, if_neg (hne f hf)]
      exact hs f (by simp [hf])
    have he : s.codeAt e.1 = none := hs e (by simp)
    refine ⟨?_, ?_, ?_⟩
    · show (putEntries es (putEntry e.1 e.2 s)).order = _
      rw [h1, order_putEntry, he]
      simp
    · intro f hf
      rcases List.mem_cons.1 hf with rfl | hf
      · exact (h3 f.1 hd.1).trans (by simp [codeAt_putEntry])
      · exact h2 f hf
    · intro c hc
      simp only [List.map_cons, List.mem_cons, not_or] at hc
      exact (h3 c hc.2).trans (by rw [codeAt_putEntry, if_neg hc.1])

end Sys2Proof.Laws
end

