-- ==== Sys2Proof/Laws/Walk.lean ====
section
/-!
SUPPORT. Laws/Walk.lean: the tree walker (43_tree_builder.md R160 to R162, R164): in a forest every node has one path from its
root, the walk meets exactly the leaves, each with its path, and the codes it records are prefix-free and fill the code space.
-/
namespace Sys2Proof.Laws

open Sys2Proof Sys2Proof.Machine

/-! ### Paths -/

theorem follow_append (s : State) (p q : BitSeq) (n : NodeIdx) :
    s.follow n (p ++ q) = (s.follow n p).bind fun m => s.follow m q := by
  induction p generalizing n with
  | nil => rfl
  | cons b p ih =>
    simp only [List.cons_append, State.follow]
    cases s.child n b with
    | none => rfl
    | some m => exact ih m

theorem child_some {s : State} {n m : NodeIdx} {b : Bool} (h : s.child n b = some m) :
    ∃ nd, s.slot n.toNat = some nd ∧ nd.leaf = false ∧ m = if b then nd.right else nd.left := by
  unfold State.child at h
  split at h
  · rename_i nd hnd
    split at h
    · simp at h
    · rename_i hl
      injection h with h
      exact ⟨nd, hnd, by simpa using hl, h.symm⟩
  · simp at h

theorem child_parentOf {s : State} {n m : NodeIdx} {b : Bool} (h : s.child n b = some m) : s.ParentOf n.toNat m := by
  obtain ⟨nd, h1, h2, h3⟩ := child_some h
  cases b
  · exact ⟨nd, h1, h2, .inl h3.symm⟩
  · exact ⟨nd, h1, h2, .inr h3.symm⟩

theorem parentOf_child {s : State} {p : Nat} {m : NodeIdx} (h : s.ParentOf p m) :
    ∃ (n : NodeIdx) (b : Bool), n.toNat = p ∧ s.child n b = some m := by
  obtain ⟨nd, h1, h2, h3⟩ := h
  have hp : p < 511 := by
    by_contra hc
    simp [State.slot, hc] at h1
  refine ⟨BitVec.ofNat 9 p, decide (nd.left ≠ m), by simp; omega, ?_⟩
  unfold State.child
  rw [show (BitVec.ofNat 9 p).toNat = p by simp; omega, h1]
  rcases h3 with h3 | h3
  · simp [h2, h3]
  · by_cases hl : nd.left = m
    · simp [h2, hl]
    · simp [h2, hl, h3]

theorem child_inj {s : State} (h : s.Forest) {n n' m : NodeIdx} {b b' : Bool} (h1 : s.child n b = some m)
    (h2 : s.child n' b' = some m) : n = n' ∧ b = b' := by
  have hn : n = n' := BitVec.eq_of_toNat_eq (h.oneParent _ _ _ (child_parentOf h1) (child_parentOf h2))
  subst hn
  obtain ⟨nd, e1, e2, e3⟩ := child_some h1
  obtain ⟨nd', f1, _, f3⟩ := child_some h2
  rw [e1] at f1
  cases f1
  have h256 := (parentOf_valid h (child_parentOf h1)).2.2
  have hne := (h.internalShape _ nd h256 e1).2.1
  refine ⟨rfl, ?_⟩
  cases b <;> cases b' <;> simp_all

/-- A root has no parent. -/
theorem root_no_parent {s : State} (h : s.Forest) {r : NodeIdx} (hr : r ∈ s.heap) (p : Nat) : ¬ s.ParentOf p r :=
  (h.roots r (h.heapValid r hr)).1 hr p

/-- Two paths from a root to the same node are the same path. -/
theorem follow_inj {s : State} (h : s.Forest) {r : NodeIdx} (hr : r ∈ s.heap) (p : BitSeq) :
    ∀ {q : BitSeq} {n : NodeIdx}, s.follow r p = some n → s.follow r q = some n → p = q := by
  have last : ∀ (p : BitSeq) (b : Bool) (n : NodeIdx), s.follow r (p ++ [b]) = some n →
      ∃ m, s.follow r p = some m ∧ s.child m b = some n := by
    intro p b n hp
    rw [follow_append] at hp
    obtain ⟨m, hm, hmn⟩ := Option.bind_eq_some_iff.1 hp
    refine ⟨m, hm, ?_⟩
    simp only [State.follow] at hmn
    cases hc : s.child m b with
    | none => rw [hc] at hmn; simp at hmn
    | some x => rw [hc] at hmn; simpa using hmn
  induction p using List.reverseRecOn with
  | nil =>
    intro q n hp hq
    cases hp
    rcases List.eq_nil_or_concat q with rfl | ⟨q', b, rfl⟩
    · rfl
    · obtain ⟨m, _, hm⟩ := last q' b r (by simpa using hq)
      exact absurd (child_parentOf hm) (root_no_parent h hr _)
  | append_singleton p b ih =>
    intro q n hp hq
    obtain ⟨m, hm, hmn⟩ := last p b n hp
    rcases List.eq_nil_or_concat q with rfl | ⟨q', b', rfl⟩
    · cases hq
      exact absurd (child_parentOf hmn) (root_no_parent h hr _)
    · obtain ⟨m', hm', hmn'⟩ := last q' b' n (by simpa using hq)
      obtain ⟨rfl, rfl⟩ := child_inj h hmn hmn'
      rw [ih hm hm']
      simp

/-- With one root every valid node is reached from it. -/
theorem follow_reach {s : State} (h : s.Forest) {r : NodeIdx} (hr : s.heap = [r]) (d : Nat) :
    ∀ n : NodeIdx, 511 ≤ n.toNat + d → (s.slot n.toNat).isSome = true → ∃ p, s.follow r p = some n := by
  induction d with
  | zero =>
    intro n hd hv
    have : n.toNat < 511 := by
      by_contra hc
      simp [State.slot, hc] at hv
    omega
  | succ d ih =>
    intro n hd hv
    by_cases hn : n ∈ s.heap
    · rw [hr, List.mem_singleton] at hn
      exact ⟨[], by rw [hn]; rfl⟩
    · have hp : ∃ p, s.ParentOf p n := by
        by_contra hc
        exact hn ((h.roots n hv).2 fun p hp => hc ⟨p, hp⟩)
      obtain ⟨p, hp⟩ := hp
      have hlt := (parentOf_valid h hp).2.1
      obtain ⟨m, b, rfl, hm⟩ := parentOf_child hp
      obtain ⟨nd, hnd, _⟩ := child_some hm
      obtain ⟨q, hq⟩ := ih m (by omega) (by simp [hnd])
      refine ⟨q ++ [b], ?_⟩
      rw [follow_append, hq]
      simp [State.follow, hm]

/-! ### The walk -/

theorem nodeRead_leaf {s : State} (h : s.Forest) {n : NodeIdx} (hv : (s.slot n.toNat).isSome = true) :
    (s.nodeRead n).leaf = decide (n.toNat < 256) := by
  obtain ⟨nd, hnd⟩ := Option.isSome_iff_exists.1 hv
  rw [nodeRead_of_slot hnd, Bool.eq_iff_iff, leaf_iff h hnd, decide_eq_true_eq]

theorem follow_leaf {s : State} (h : s.Forest) {n : NodeIdx} (hn : n.toNat < 256) {q : BitSeq} {m : NodeIdx}
    (hq : s.follow n q = some m) : q = [] ∧ m = n := by
  cases q with
  | nil => cases hq; exact ⟨rfl, rfl⟩
  | cons b q =>
    simp only [State.follow] at hq
    cases hc : s.child n b with
    | none => rw [hc] at hq; simp at hq
    | some x =>
      have := (parentOf_valid h (child_parentOf hc)).2.2
      omega

theorem internal_children {s : State} (h : s.Forest) {n : NodeIdx} (hv : (s.slot n.toNat).isSome = true)
    (hn : ¬ n.toNat < 256) :
    s.child n false = some (s.nodeRead n).left ∧ s.child n true = some (s.nodeRead n).right ∧
      (s.slot (s.nodeRead n).left.toNat).isSome = true ∧ (s.slot (s.nodeRead n).right.toNat).isSome = true ∧
      (s.nodeRead n).left.toNat < n.toNat ∧ (s.nodeRead n).right.toNat < n.toNat := by
  obtain ⟨nd, hnd⟩ := Option.isSome_iff_exists.1 hv
  obtain ⟨h1, _, h3, h4, h5, h6, _⟩ := h.internalShape _ nd (by omega) hnd
  rw [nodeRead_of_slot hnd]
  simp [State.child, hnd, h1, h3, h4, h5, h6]

theorem toNat_setWidth8 {m : NodeIdx} (h : m.toNat < 256) : (m.setWidth 8).toNat = m.toNat := by
  simp only [BitVec.toNat_setWidth]
  omega

/-- A path is prefix-free against one it parts from. -/
theorem LeftOf_not_prefix {a b : BitSeq} (h : LeftOf a b) : ¬ a <+: b ∧ ¬ b <+: a := by
  obtain ⟨p, ⟨x, rfl⟩, ⟨y, rfl⟩⟩ := h
  constructor <;>
  · rintro ⟨z, hz⟩
    simp at hz

theorem prefixFree_of_ordered {l : List (Symbol × BitSeq)} (h : l.Pairwise fun a b => LeftOf a.2 b.2) : PrefixFree l :=
  h.imp LeftOf_not_prefix

/-- A path from an internal node to a leaf passes internal nodes of falling index. -/
theorem follow_short {s : State} (h : s.Forest) (q : BitSeq) : ∀ {n m : NodeIdx}, 256 ≤ n.toNat → s.follow n q = some m →
    m.toNat < 256 → q.length + 255 ≤ n.toNat := by
  induction q with
  | nil => intro n m hn hq hm; cases hq; omega
  | cons b q ih =>
    intro n m hn hq hm
    simp only [State.follow] at hq
    cases hc : s.child n b with
    | none => rw [hc] at hq; simp at hq
    | some x =>
      rw [hc] at hq
      have hx := (parentOf_valid h (child_parentOf hc)).2.1
      by_cases hl : x.toNat < 256
      · have := (follow_leaf h hl hq).1
        simp [this]
        omega
      · have := ih (by omega) hq hm
        simp only [List.length_cons]
        omega

/-- What the walk from node n meets: exactly the leaves below n, each with the prefix and its path. -/
structure WalkSpec (s : State) (d : Nat) (n : NodeIdx) (pre : BitSeq) (l : List (Symbol × BitSeq)) : Prop where
  mem : ∀ c code, (c, code) ∈ l ↔ ∃ q m, code = pre ++ q ∧ s.follow n q = some m ∧ m.toNat < 256 ∧ c = m.setWidth 8
  short : ∀ e ∈ l, e.2.length ≤ pre.length + d
  ordered : l.Pairwise fun a b => LeftOf a.2 b.2
  kraft : (l.map fun e => 2 ^ (pre.length + d - e.2.length)).sum = 2 ^ d

theorem walk_spec {s : State} (h : s.Forest) (d : Nat) : ∀ (n : NodeIdx) (pre : BitSeq),
    (s.slot n.toNat).isSome = true → n.toNat < 256 + d → ∃ l, walk s d n pre = some l ∧ WalkSpec s d n pre l := by
  have leafCase : ∀ (d : Nat) (n : NodeIdx) (pre : BitSeq), n.toNat < 256 → WalkSpec s d n pre [(n.setWidth 8, pre)] := by
    intro d n pre hn
    refine ⟨fun c code => ?_, by simp, by simp, by simp⟩
    simp only [List.mem_singleton, Prod.mk.injEq]
    constructor
    · rintro ⟨rfl, rfl⟩
      exact ⟨[], n, by simp, rfl, hn, rfl⟩
    · rintro ⟨q, m, rfl, hq, _, rfl⟩
      obtain ⟨rfl, rfl⟩ := follow_leaf h hn hq
      simp
  induction d with
  | zero =>
    intro n pre hv hn
    exact ⟨_, by simp [walk, nodeRead_leaf h hv, show n.toNat < 256 by omega], leafCase 0 n pre (by omega)⟩
  | succ d ih =>
    intro n pre hv hn
    by_cases hl : n.toNat < 256
    · exact ⟨_, by simp [walk, nodeRead_leaf h hv, hl], leafCase _ n pre hl⟩
    · obtain ⟨c1, c2, v1, v2, l1, l2⟩ := internal_children h hv hl
      obtain ⟨a, ha, sa⟩ := ih (s.nodeRead n).left (pre ++ [false]) v1 (by omega)
      obtain ⟨b, hb, sb⟩ := ih (s.nodeRead n).right (pre ++ [true]) v2 (by omega)
      refine ⟨a ++ b, by simp [walk, nodeRead_leaf h hv, hl, ha, hb], ?_⟩
      have la : ∀ e ∈ a, ∃ q, e.2 = (pre ++ [false]) ++ q := fun e he => by
        obtain ⟨q, _, hq, _⟩ := (sa.mem e.1 e.2).1 he
        exact ⟨q, hq⟩
      have lb : ∀ e ∈ b, ∃ q, e.2 = (pre ++ [true]) ++ q := fun e he => by
        obtain ⟨q, _, hq, _⟩ := (sb.mem e.1 e.2).1 he
        exact ⟨q, hq⟩
      refine ⟨fun c code => ?_, fun e he => ?_, ?_, ?_⟩
      · rw [List.mem_append, sa.mem, sb.mem]
        constructor
        · rintro (⟨q, m, rfl, hq, hm⟩ | ⟨q, m, rfl, hq, hm⟩)
          · exact ⟨false :: q, m, by simp, by simp [State.follow, c1, hq], hm⟩
          · exact ⟨true :: q, m, by simp, by simp [State.follow, c2, hq], hm⟩
        · rintro ⟨q, m, rfl, hq, hm, hc⟩
          cases q with
          | nil =>
            cases hq
            exact absurd hm hl
          | cons b' q =>
            cases b'
            · exact .inl ⟨q, m, by simp, by simpa [State.follow, c1] using hq, hm, hc⟩
            · exact .inr ⟨q, m, by simp, by simpa [State.follow, c2] using hq, hm, hc⟩
      · rcases List.mem_append.1 he with he | he
        · have := sa.short e he; simp at this; omega
        · have := sb.short e he; simp at this; omega
      · refine List.pairwise_append.2 ⟨sa.ordered, sb.ordered, fun x hx y hy => ?_⟩
        obtain ⟨q, hq⟩ := la x hx
        obtain ⟨q', hq'⟩ := lb y hy
        exact ⟨pre, ⟨q, hq.symm⟩, ⟨q', hq'.symm⟩⟩
      · rw [List.map_append, List.sum_append]
        have ea : ∀ e ∈ a, pre.length + (d + 1) - e.2.length = (pre ++ [false]).length + d - e.2.length := fun e _ => by
          simp; omega
        have eb : ∀ e ∈ b, pre.length + (d + 1) - e.2.length = (pre ++ [true]).length + d - e.2.length := fun e _ => by
          simp; omega
        rw [List.map_congr_left (g := fun e => 2 ^ ((pre ++ [false]).length + d - e.2.length)) (fun e he => by rw [ea e he]),
          List.map_congr_left (l := b) (g := fun e => 2 ^ ((pre ++ [true]).length + d - e.2.length))
            (fun e he => by rw [eb e he]), sa.kraft, sb.kraft, pow_succ]
        omega

/-- The leaves below n weigh what n weighs, and the lengths of their codes, weighted, add up to the weights of the internal
nodes below n (R164 (e)). -/
theorem walk_cost {s : State} (h : s.Forest) (d : Nat) : ∀ (n : NodeIdx) (pre : BitSeq) (l : List (Symbol × BitSeq)),
    (s.slot n.toNat).isSome = true → n.toNat < 256 + d → walk s d n pre = some l →
    (∀ q q' m, s.follow n q = some m → s.follow n q' = some m → q = q') →
    (l.map fun e => s.slotWeight e.1.toNat).sum = s.slotWeight n.toNat ∧
    ∃ inner : List Nat, inner.Nodup ∧ (∀ m, m ∈ inner ↔ 256 ≤ m ∧ ∃ q x, s.follow n q = some x ∧ x.toNat = m) ∧
      (l.map fun e => s.slotWeight e.1.toNat * (e.2.length - pre.length)).sum = (inner.map s.slotWeight).sum := by
  have leafCase : ∀ (n : NodeIdx) (pre : BitSeq), n.toNat < 256 →
      ([((n.setWidth 8 : Symbol), pre)].map fun e => s.slotWeight e.1.toNat).sum = s.slotWeight n.toNat ∧
      ∃ inner : List Nat, inner.Nodup ∧ (∀ m, m ∈ inner ↔ 256 ≤ m ∧ ∃ q x, s.follow n q = some x ∧ x.toNat = m) ∧
        ([((n.setWidth 8 : Symbol), pre)].map fun e => s.slotWeight e.1.toNat * (e.2.length - pre.length)).sum =
          (inner.map s.slotWeight).sum := by
    intro n pre hn
    refine ⟨by simp [toNat_setWidth8 hn], [], by simp, fun m => ?_, by simp⟩
    simp only [List.not_mem_nil, false_iff]
    rintro ⟨hm, q, x, hq, hx⟩
    have hxn := (follow_leaf h hn hq).2
    rw [hxn] at hx
    omega
  induction d with
  | zero =>
    intro n pre l hv hn hw _
    simp only [walk, nodeRead_leaf h hv, show n.toNat < 256 by omega, decide_true, if_true, Option.some.injEq] at hw
    exact hw ▸ leafCase n pre (by omega)
  | succ d ih =>
    intro n pre l hv hn hw hu
    by_cases hl : n.toNat < 256
    · simp only [walk, nodeRead_leaf h hv, hl, decide_true, if_true, Option.some.injEq] at hw
      exact hw ▸ leafCase n pre hl
    · obtain ⟨c1, c2, v1, v2, l1, l2⟩ := internal_children h hv hl
      obtain ⟨a, ha, sa⟩ := walk_spec h d (s.nodeRead n).left (pre ++ [false]) v1 (by omega)
      obtain ⟨b, hb, sb⟩ := walk_spec h d (s.nodeRead n).right (pre ++ [true]) v2 (by omega)
      simp only [walk, nodeRead_leaf h hv, hl, decide_false, Bool.false_eq_true, if_false, ha, hb,
        Option.some.injEq] at hw
      obtain ⟨wa, ia, na, ma, ca⟩ := ih _ _ a v1 (by omega) ha fun q q' m h1 h2 => by
        have := hu (false :: q) (false :: q') m (by simp [State.follow, c1, h1]) (by simp [State.follow, c1, h2])
        simpa using this
      obtain ⟨wb, ib, nb, mb, cb⟩ := ih _ _ b v2 (by omega) hb fun q q' m h1 h2 => by
        have := hu (true :: q) (true :: q') m (by simp [State.follow, c2, h1]) (by simp [State.follow, c2, h2])
        simpa using this
      obtain ⟨nd, hnd⟩ := Option.isSome_iff_exists.1 hv
      have hwn : s.slotWeight n.toNat =
          s.slotWeight (s.nodeRead n).left.toNat + s.slotWeight (s.nodeRead n).right.toNat := by
        rw [slotWeight_of_slot hnd, nodeRead_of_slot hnd]
        exact (h.internalShape _ nd (by omega) hnd).2.2.2.2.2.2
      have step : ∀ (l : List (Symbol × BitSeq)) (x : Bool), (∀ e ∈ l, ∃ q, e.2 = (pre ++ [x]) ++ q) →
          (l.map fun e => s.slotWeight e.1.toNat * (e.2.length - pre.length)).sum =
            (l.map fun e => s.slotWeight e.1.toNat * (e.2.length - (pre ++ [x]).length)).sum +
              (l.map fun e => s.slotWeight e.1.toNat).sum := by
        intro l x hx
        induction l with
        | nil => rfl
        | cons e l ihl =>
          obtain ⟨q, hq⟩ := hx e (by simp)
          simp only [List.map_cons, List.sum_cons, ihl fun f hf => hx f (by simp [hf])]
          have e1 : e.2.length - pre.length = e.2.length - (pre ++ [x]).length + 1 := by rw [hq]; simp; omega
          rw [e1, Nat.mul_add, Nat.mul_one]
          omega
      subst hw
      refine ⟨by rw [List.map_append, List.sum_append, wa, wb, hwn], n.toNat :: (ia ++ ib), ?_, fun m => ?_, ?_⟩
      · rw [List.nodup_cons, List.nodup_append]
        refine ⟨?_, na, nb, ?_⟩
        · rw [List.mem_append, ma, mb]
          rintro (⟨_, q, x, hq, hx⟩ | ⟨_, q, x, hq, hx⟩)
          · have := hu [] (false :: q) n rfl (by simp [State.follow, c1, hq, BitVec.eq_of_toNat_eq hx])
            simp at this
          · have := hu [] (true :: q) n rfl (by simp [State.follow, c2, hq, BitVec.eq_of_toNat_eq hx])
            simp at this
        · intro m hm m' hm' heq
          subst heq
          obtain ⟨_, q, x, hq, hx⟩ := (ma m).1 hm
          obtain ⟨_, q', x', hq', hx'⟩ := (mb m).1 hm'
          have hxx : x = x' := BitVec.eq_of_toNat_eq (hx.trans hx'.symm)
          have := hu (false :: q) (true :: q') x (by simp [State.follow, c1, hq]) (by simp [State.follow, c2, hq', hxx])
          simp at this
      · rw [List.mem_cons, List.mem_append, ma, mb]
        constructor
        · rintro (rfl | ⟨hm, q, x, hq, hx⟩ | ⟨hm, q, x, hq, hx⟩)
          · exact ⟨by omega, [], n, rfl, rfl⟩
          · exact ⟨hm, false :: q, x, by simp [State.follow, c1, hq], hx⟩
          · exact ⟨hm, true :: q, x, by simp [State.follow, c2, hq], hx⟩
        · rintro ⟨hm, q, x, hq, hx⟩
          cases q with
          | nil => cases hq; exact .inl hx.symm
          | cons b' q =>
            cases b'
            · exact .inr (.inl ⟨hm, q, x, by simpa [State.follow, c1] using hq, hx⟩)
            · exact .inr (.inr ⟨hm, q, x, by simpa [State.follow, c2] using hq, hx⟩)
      · have la : ∀ e ∈ a, ∃ q, e.2 = (pre ++ [false]) ++ q := fun e he => by
          obtain ⟨q, _, hq, _⟩ := (sa.mem e.1 e.2).1 he
          exact ⟨q, hq⟩
        have lb : ∀ e ∈ b, ∃ q, e.2 = (pre ++ [true]) ++ q := fun e he => by
          obtain ⟨q, _, hq, _⟩ := (sb.mem e.1 e.2).1 he
          exact ⟨q, hq⟩
        rw [List.map_append, List.sum_append, step a false la, step b true lb, ca, cb, wa, wb]
        simp only [List.map_cons, List.map_append, List.sum_cons, List.sum_append, hwn]
        omega

/-- With one internal root the root is the newest node (R159). -/
theorem root_newest {s : State} (h : s.Forest) {r : NodeIdx} (hr : s.heap = [r]) (h256 : 256 ≤ r.toNat) :
    r.toNat + 1 = s.next.toNat := by
  have hv := h.heapValid r (by simp [hr])
  have hlt := (h.internalSlots _ h256).1 hv
  have hn := h.nextRange
  have hm : (s.slot (s.next.toNat - 1)).isSome = true := (h.internalSlots _ (by omega)).2 (by omega)
  have hmb : (BitVec.ofNat 9 (s.next.toNat - 1)).toNat = s.next.toNat - 1 := by simp; omega
  have hroot : BitVec.ofNat 9 (s.next.toNat - 1) ∈ s.heap := by
    refine (h.roots _ (by rw [hmb]; exact hm)).2 fun p hp => ?_
    have hlt := (parentOf_valid h hp).2
    obtain ⟨nd, hnd, _⟩ := hp
    have := (h.internalSlots _ hlt.2).1 (by simp [hnd])
    omega
  rw [hr, List.mem_singleton] at hroot
  rw [← hroot, hmb]
  omega

/-! ### GENC -/

/-- Recording entries with new, pairwise different symbols is putting them into the table. -/
theorem recordCodes_eq (es : List (Symbol × BitSeq)) (s : State) (hd : (es.map Prod.fst).Nodup)
    (hs : ∀ e ∈ es, s.codeAt e.1 = none) : es.foldl recordCode s = putEntries es s := by
  induction es generalizing s with
  | nil => rfl
  | cons e es ih =>
    simp only [List.map_cons, List.nodup_cons] at hd
    have he : recordCode s e = putEntry e.1 e.2 s := by
      unfold putEntry
      rw [hs e (by simp)]
      rfl
    rw [List.foldl_cons, he]
    refine ih _ hd.2 fun f hf => ?_
    rw [codeAt_putEntry, if_neg fun (heq : f.1 = e.1) => hd.1 (heq ▸ List.mem_map_of_mem hf)]
    exact hs f (by simp [hf])

/-- The entries GENC records from a finished tree (R160 to R162, R164). -/
structure CodesOf (s : State) (l : List (Symbol × BitSeq)) : Prop where
  symbolsNodup : (l.map Prod.fst).Nodup
  length : ∀ e ∈ l, 1 ≤ e.2.length ∧ e.2.length ≤ 255
  symbols : ∀ c : Symbol, c ∈ l.map Prod.fst ↔ (s.slot c.toNat).isSome = true
  /-- The leaves are met from left to right. -/
  ordered : l.Pairwise fun a b => LeftOf a.2 b.2
  /-- Where the root is an internal node, the code of a symbol is the path from the root to its leaf. -/
  path : ∀ r, s.heap = [r] → 256 ≤ r.toNat → ∀ e ∈ l, s.follow r e.2 = some (e.1.setWidth 9)
  /-- Where the root is a leaf, its symbol has the code "0". -/
  single : ∀ r, s.heap = [r] → r.toNat < 256 → l = [(r.setWidth 8, [false])]
  /-- No code is longer than there are internal nodes. -/
  depth : ∀ r, s.heap = [r] → 256 ≤ r.toNat → ∀ e ∈ l, e.2.length + 256 ≤ s.next.toNat
  /-- The weighted lengths of the codes add up to the weights of the internal nodes. -/
  cost : ∀ r, s.heap = [r] → 256 ≤ r.toNat → (l.map fun e => s.slotWeight e.1.toNat * e.2.length).sum =
    ((List.range' 256 (s.next.toNat - 256)).map s.slotWeight).sum
  /-- The codes fill the code space. -/
  kraft : ∀ r, s.heap = [r] → 256 ≤ r.toNat → (l.map fun e => 2 ^ (255 - e.2.length)).sum = 2 ^ 255

theorem runGenc_ok {s : State} (h : s.Forest) (hl : s.heap.length ≤ 1) :
    ∃ l, runGenc s = .ok (putEntries l (clearTable s)) ∧ CodesOf s l := by
  match hh : s.heap with
  | [] =>
    refine ⟨[], by simp [runGenc, hh, putEntries], ⟨by simp, by simp, fun c => ?_, by simp, ?_, ?_, ?_, ?_, ?_⟩⟩
    · have hc := h.count
      rw [hh] at hc
      have hle := leafCount_le s
      have hnone : s.leafCount = 0 := by
        by_contra hne
        obtain ⟨m, hm, hsome⟩ : ∃ m ∈ List.range 256, (s.slot m).isSome = true := by
          by_contra hcon
          apply hne
          unfold State.leafCount
          refine List.countP_eq_zero.2 fun m hm hs => hcon ⟨m, hm, hs⟩
        -- the valid node of greatest index has no parent, so it is a root
        have key : ∀ d (n : NodeIdx), 511 ≤ n.toNat + d → (s.slot n.toNat).isSome = true → False := by
          intro d
          induction d with
          | zero =>
            intro n hd hv
            have : n.toNat < 511 := by
              by_contra hc
              simp [State.slot, hc] at hv
            omega
          | succ d ih =>
            intro n hd hv
            have hp : ∃ p, s.ParentOf p n := by
              by_contra hc
              have := (h.roots n hv).2 fun p hp => hc ⟨p, hp⟩
              rw [hh] at this
              simp at this
            obtain ⟨p, hp⟩ := hp
            have hlt := (parentOf_valid h hp).2.1
            obtain ⟨x, b, rfl, hx⟩ := parentOf_child hp
            obtain ⟨nd, hnd, _⟩ := child_some hx
            exact ih x (by omega) (by simp [hnd])
        have hm256 := List.mem_range.1 hm
        exact key 511 (BitVec.ofNat 9 m) (by omega) (by
          rw [show (BitVec.ofNat 9 m).toNat = m by simp; omega]; exact hsome)
      simp only [List.map_nil, List.not_mem_nil, false_iff]
      intro hv
      have : 0 < s.leafCount := by
        unfold State.leafCount
        exact List.countP_pos_iff.2 ⟨c.toNat, List.mem_range.2 c.isLt, hv⟩
      omega
    all_goals
      intro r hr
      rw [hh] at hr
      simp at hr
  | [r] =>
    have hv : (s.slot r.toNat).isSome = true := h.heapValid r (by simp [hh])
    have hreach := fun n => follow_reach h hh 511 n (by omega)
    have hr511 : r.toNat < 511 := by
      by_contra hc
      simp [State.slot, hc] at hv
    by_cases hleaf : r.toNat < 256
    · refine ⟨[(r.setWidth 8, [false])], ?_, ⟨by simp, by simp, fun c => ?_, by simp, ?_, ?_, ?_, ?_, ?_⟩⟩
      · simp only [runGenc, hh, rootCodes, nodeRead_leaf h hv, hleaf, decide_true, if_true]
        rw [recordCodes_eq _ _ (by simp) (by simp)]
      · simp only [List.map_cons, List.map_nil, List.mem_singleton]
        constructor
        · rintro rfl
          rw [toNat_setWidth8 hleaf]; exact hv
        · intro hcv
          obtain ⟨p, hp⟩ := hreach (c.setWidth 9) (by rw [toNat_setWidth9]; exact hcv)
          have := (follow_leaf h hleaf hp).2
          apply BitVec.eq_of_toNat_eq
          rw [toNat_setWidth8 hleaf, ← this, toNat_setWidth9]
      · intro r' hr' h256; rw [hh] at hr'; cases hr'; omega
      · intro r' hr' _; rw [hh] at hr'; cases hr'; rfl
      all_goals
        intro r' hr' h256
        rw [hh] at hr'
        cases hr'
        omega
    · obtain ⟨l, hw, sp⟩ := walk_spec h 255 r [] hv (by omega)
      have hmem : ∀ e ∈ l, s.follow r e.2 = some (e.1.setWidth 9) := by
        intro e he
        obtain ⟨q, m, hq, hf, hm, hc⟩ := (sp.mem e.1 e.2).1 he
        rw [hq, List.nil_append, hf, hc]
        congr 1
        apply BitVec.eq_of_toNat_eq
        rw [toNat_setWidth9, toNat_setWidth8 hm]
      have hnodup : (l.map Prod.fst).Nodup := by
        refine List.pairwise_map.2 (List.Pairwise.imp_of_mem ?_ (prefixFree_of_ordered sp.ordered))
        intro x y hx hy hxy hfst
        have := follow_inj h (r := r) (by simp [hh]) x.2 (hmem x hx) (by rw [hfst]; exact hmem y hy)
        rw [this] at hxy
        exact hxy.1 (List.prefix_refl _)
      refine ⟨l, ?_, ⟨hnodup, fun e he => ⟨?_, by simpa using sp.short e he⟩, fun c => ?_, sp.ordered, ?_, ?_, ?_, ?_, ?_⟩⟩
      · simp only [runGenc, hh, rootCodes, nodeRead_leaf h hv, hleaf, decide_false, Bool.false_eq_true, if_false, hw]
        rw [recordCodes_eq _ _ hnodup (by simp)]
      · have hf := hmem e he
        cases hcode : e.2 with
        | nil =>
          rw [hcode] at hf
          simp only [State.follow, Option.some.injEq] at hf
          have := congrArg BitVec.toNat hf
          rw [toNat_setWidth9] at this
          have := e.1.isLt
          omega
        | cons b q => simp
      · constructor
        · intro hc
          obtain ⟨e, he, rfl⟩ := List.mem_map.1 hc
          obtain ⟨q, m, _, hf, hm, hcm⟩ := (sp.mem e.1 e.2).1 he
          have hvalid : ∀ (q : BitSeq) (n : NodeIdx), (s.slot n.toNat).isSome = true → s.follow n q = some m →
              (s.slot m.toNat).isSome = true := by
            intro q
            induction q with
            | nil => intro n hn hq; cases hq; exact hn
            | cons b q ih =>
              intro n hn hq
              simp only [State.follow] at hq
              cases hch : s.child n b with
              | none => rw [hch] at hq; simp at hq
              | some x =>
                rw [hch] at hq
                exact ih x (parentOf_valid h (child_parentOf hch)).1 hq
          rw [hcm, toNat_setWidth8 hm]
          exact hvalid q r hv hf
        · intro hc
          obtain ⟨p, hp⟩ := hreach (c.setWidth 9) (by rw [toNat_setWidth9]; exact hc)
          have hlt := c.isLt
          refine List.mem_map.2 ⟨(c, p), (sp.mem c p).2 ⟨p, c.setWidth 9, by simp, hp, ?_, ?_⟩, rfl⟩
          · rw [toNat_setWidth9]; exact hlt
          · apply BitVec.eq_of_toNat_eq
            rw [toNat_setWidth8 (by rw [toNat_setWidth9]; exact hlt), toNat_setWidth9]
      · intro r' hr' _
        rw [hh] at hr'
        cases hr'
        exact hmem
      · intro r' hr' h256; rw [hh] at hr'; cases hr'; exact absurd h256 hleaf
      · intro r' hr' h256 e he
        rw [hh] at hr'
        cases hr'
        have := follow_short h e.2 h256 (hmem e he) (by rw [toNat_setWidth9]; exact e.1.isLt)
        have := root_newest h hh h256
        omega
      · intro r' hr' h256
        rw [hh] at hr'
        cases hr'
        obtain ⟨_, inner, hnd, hin, hcost⟩ := walk_cost h 255 r [] l hv (by omega) hw fun q q' m h1 h2 =>
          follow_inj h (by simp [hh]) q h1 h2
        simp only [List.length_nil, Nat.sub_zero] at hcost
        rw [hcost]
        refine (List.Perm.map _ ((List.perm_ext_iff_of_nodup hnd List.nodup_range').2 fun m => ?_)).sum_eq
        have hnx := h.nextRange
        rw [hin, List.mem_range'_1]
        constructor
        · rintro ⟨h1, q, x, hq, rfl⟩
          have hvx : (s.slot x.toNat).isSome = true := by
            rcases List.eq_nil_or_concat q with rfl | ⟨q', b, rfl⟩
            · cases hq; exact hv
            · rw [List.concat_eq_append, follow_append] at hq
              obtain ⟨y, _, hy⟩ := Option.bind_eq_some_iff.1 hq
              simp only [State.follow] at hy
              cases hc : s.child y b with
              | none => rw [hc] at hy; simp at hy
              | some z =>
                rw [hc] at hy
                cases hy
                exact (parentOf_valid h (child_parentOf hc)).1
          have := (h.internalSlots _ h1).1 hvx
          omega
        · rintro ⟨h1, h2⟩
          have hb : (BitVec.ofNat 9 m).toNat = m := by simp; omega
          obtain ⟨q, hq⟩ := hreach (BitVec.ofNat 9 m) (by rw [hb]; exact (h.internalSlots _ h1).2 (by omega))
          exact ⟨h1, q, _, hq, hb⟩
      · intro r' hr' _
        have := sp.kraft
        simpa using this
  | a :: b :: rest => rw [hh] at hl; simp at hl

/-- GENC on an unfinished tree (R162). -/
theorem runGenc_unfinished {s : State} (h : 2 ≤ s.heap.length) : runGenc s = raise .precond := by
  match hh : s.heap with
  | [] => rw [hh] at h; simp at h
  | [r] => rw [hh] at h; simp at h
  | a :: b :: rest => simp [runGenc, hh]

/-- The table GENC leaves: its entries are exactly the ones recorded, in their order. -/
theorem putEntries_clear {l : List (Symbol × BitSeq)} (hd : (l.map Prod.fst).Nodup) (s : State) :
    (putEntries l (clearTable s)).order = l.map Prod.fst ∧
      (∀ e ∈ l, (putEntries l (clearTable s)).codeAt e.1 = some e.2) ∧
      (∀ c, c ∉ l.map Prod.fst → (putEntries l (clearTable s)).codeAt c = none) ∧
      (putEntries l (clearTable s)).entries = l := by
  obtain ⟨h1, h2, h3⟩ := putEntries_distinct l (clearTable s) hd (by simp)
  simp only [clearTable_order, List.nil_append] at h1
  refine ⟨h1, h2, fun c hc => (h3 c hc).trans (by simp), ?_⟩
  rw [State.entries, h1, List.map_map]
  conv_rhs => rw [← List.map_id l]
  refine List.map_congr_left fun e he => ?_
  simp [State.codeRead, h2 e he]

theorem putEntries_tableOk {l : List (Symbol × BitSeq)} (hb : ∀ e ∈ l, e.2.length ≤ 255) {s : State} (h : s.TableOk) :
    (putEntries l s).TableOk := by
  induction l generalizing s with
  | nil => exact h
  | cons e l ih => exact ih (fun f hf => hb f (by simp [hf])) (putEntry_tableOk h e.1 (hb e (by simp)))

end Sys2Proof.Laws
end

