-- ==== Sys2Proof/Laws/Table.lean ====
section
/-!
SUPPORT. Laws/Table.lean: code tables as lists of entries (42_code_table_codec.md R142, 44_pipeline.md R182, R183): what
recording a list of entries leaves, the reverse lookup, and the matching loop over the code words the bits are made of.
-/
namespace Sys2Proof.Laws

open Sys2Proof Sys2Proof.Machine

/-! ### Recording a list of entries -/

theorem firstSeen_append (l : List Symbol) (c : Symbol) :
    firstSeen (l ++ [c]) = if c ∈ firstSeen l then firstSeen l else firstSeen l ++ [c] := by
  rw [firstSeen, List.foldl_append]
  rfl

theorem mem_firstSeen (l : List Symbol) (c : Symbol) : c ∈ firstSeen l ↔ c ∈ l := by
  induction l using List.reverseRecOn with
  | nil => simp [firstSeen]
  | append_singleton l d ih =>
    rw [firstSeen_append]
    by_cases hd : d ∈ firstSeen l
    · rw [if_pos hd, ih, List.mem_append, List.mem_singleton]
      constructor
      · exact .inl
      · rintro (h | rfl)
        · exact h
        · exact ih.1 hd
    · rw [if_neg hd, List.mem_append, List.mem_append, ih]

theorem firstSeen_nodup (l : List Symbol) : (firstSeen l).Nodup := by
  induction l using List.reverseRecOn with
  | nil => simp [firstSeen]
  | append_singleton l d ih =>
    rw [firstSeen_append]
    by_cases hd : d ∈ firstSeen l
    · rw [if_pos hd]; exact ih
    · rw [if_neg hd]
      refine List.nodup_append.2 ⟨ih, by simp, ?_⟩
      intro a ha b hb
      rw [List.mem_singleton] at hb
      subst hb
      exact fun e => hd (e ▸ ha)

/-- Where no symbol repeats, the symbols stay as they are. -/
theorem firstSeen_of_nodup {l : List Symbol} (h : l.Nodup) : firstSeen l = l := by
  induction l using List.reverseRecOn with
  | nil => rfl
  | append_singleton l d ih =>
    have hd := (List.nodup_append.1 h)
    rw [firstSeen_append, ih hd.1, if_neg]
    intro hc
    exact hd.2.2 d hc d (by simp) rfl

theorem lastCode_append (es : List (Symbol × BitSeq)) (e : Symbol × BitSeq) (c : Symbol) :
    lastCode (es ++ [e]) c = if e.1 = c then some e.2 else lastCode es c := by
  by_cases h : e.1 = c
  · simp [lastCode, h]
  · simp [lastCode, h]

theorem lastCode_isSome (es : List (Symbol × BitSeq)) (c : Symbol) :
    (lastCode es c).isSome = true ↔ c ∈ es.map Prod.fst := by
  induction es using List.reverseRecOn with
  | nil => simp [lastCode]
  | append_singleton es e ih =>
    rw [lastCode_append]
    by_cases h : e.1 = c
    · simp [h]
    · simp [h, ih, Ne.symm h]

/-- Where no symbol repeats, the code of a symbol is the code of its one entry. -/
theorem lastCode_of_nodup {es : List (Symbol × BitSeq)} (h : (es.map Prod.fst).Nodup) {e : Symbol × BitSeq} (he : e ∈ es) :
    lastCode es e.1 = some e.2 := by
  induction es using List.reverseRecOn with
  | nil => simp at he
  | append_singleton es f ih =>
    rw [List.map_append, List.nodup_append] at h
    rw [lastCode_append]
    rcases List.mem_append.1 he with he | he
    · rw [if_neg, ih h.1 he]
      intro heq
      exact h.2.2 e.1 (List.mem_map_of_mem he) f.1 (by simp) heq.symm
    · rw [List.mem_singleton] at he
      simp [he]

theorem putEntries_append (es : List (Symbol × BitSeq)) (e : Symbol × BitSeq) (s : State) :
    putEntries (es ++ [e]) s = putEntry e.1 e.2 (putEntries es s) := by
  simp [putEntries, List.foldl_append]

/-- The table TDES leaves: the symbols in the order of their first entries, each with the code of its last (R142). -/
theorem putEntries_table (es : List (Symbol × BitSeq)) (s : State) :
    (putEntries es (clearTable s)).order = firstSeen (es.map Prod.fst) ∧
      ∀ c, (putEntries es (clearTable s)).codeAt c = lastCode es c := by
  induction es using List.reverseRecOn with
  | nil =>
    refine ⟨rfl, fun c => ?_⟩
    simp [putEntries, lastCode]
  | append_singleton es e ih =>
    rw [putEntries_append]
    constructor
    · rw [order_putEntry, ih.1, ih.2, List.map_append, List.map_cons, List.map_nil, firstSeen_append]
      have hsome := lastCode_isSome es e.1
      rw [← mem_firstSeen] at hsome
      cases hl : lastCode es e.1 with
      | none =>
        rw [hl] at hsome
        have hc : e.1 ∉ firstSeen (es.map Prod.fst) := fun hc => by simpa using hsome.2 hc
        rw [if_neg hc, if_pos (by rfl)]
      | some x =>
        rw [hl] at hsome
        rw [if_pos (hsome.1 rfl), if_neg (by simp)]
    · intro c
      rw [codeAt_putEntry, lastCode_append, ih.2]
      by_cases h : e.1 = c
      · simp [h]
      · simp [h, Ne.symm h]

/-- In a table that meets R41 (g) the entries are listed with the codes the slots hold. -/
theorem codeAt_of_mem_order {s : State} (h : s.TableOk) {c : Symbol} (hc : c ∈ s.order) :
    s.codeAt c = some (s.codeRead c) := by
  obtain ⟨b, hb⟩ := Option.isSome_iff_exists.1 ((h.validIff c).2 hc)
  simp [State.codeRead, hb]

theorem entries_fst (s : State) : s.entries.map Prod.fst = s.order := by
  rw [State.entries, List.map_map]
  exact List.map_id _

theorem entries_length (s : State) : s.entries.length = s.order.length := by simp [State.entries]

theorem lastCode_entries {s : State} (h : s.TableOk) (c : Symbol) : lastCode s.entries c = s.codeAt c := by
  by_cases hc : c ∈ s.order
  · have hm : (c, s.codeRead c) ∈ s.entries := List.mem_map.2 ⟨c, hc, rfl⟩
    rw [lastCode_of_nodup (by rw [entries_fst]; exact h.orderNodup) hm, codeAt_of_mem_order h hc]
  · have h1 : ¬ (lastCode s.entries c).isSome = true := fun h1 => hc (by rwa [lastCode_isSome, entries_fst] at h1)
    have h2 : ¬ (s.codeAt c).isSome = true := fun h2 => hc ((h.validIff c).1 h2)
    simp only [Bool.not_eq_true, Option.isSome_eq_false_iff, Option.isNone_iff_eq_none] at h1 h2
    rw [h1, h2]

theorem entries_congr {s t : State} (h1 : t.order = s.order) (h2 : t.code = s.code) : t.entries = s.entries := by
  simp only [State.entries, h1, codeRead_congr h2]

theorem TableOk_congr {s t : State} (h : s.TableOk) (h1 : t.order = s.order) (h2 : t.code = s.code) : t.TableOk where
  orderNodup := h1 ▸ h.orderNodup
  validIff := fun c => by rw [codeAt_congr h2, h1]; exact h.validIff c
  codeLength := fun c bits hc => h.codeLength c bits (by rwa [codeAt_congr h2] at hc)

theorem entries_length_le {s : State} (h : s.TableOk) : s.entries.length ≤ 256 := by
  rw [entries_length]
  have hn : (s.order.map BitVec.toNat).Nodup := h.orderNodup.map fun _ _ e => BitVec.eq_of_toNat_eq e
  have hs : s.order.map BitVec.toNat ⊆ List.range 256 := fun x hx => by
    obtain ⟨c, _, rfl⟩ := List.mem_map.1 hx
    exact List.mem_range.2 c.isLt
  have := (hn.subperm hs).length_le
  simpa using this

theorem entries_codeLength {s : State} (h : s.TableOk) : ∀ e ∈ s.entries, e.2.length ≤ 255 := by
  intro e he
  obtain ⟨c, hc, rfl⟩ := List.mem_map.1 he
  exact h.codeLength c _ (codeAt_of_mem_order h hc)

/-! ### The reverse lookup -/

theorem MatchIn_append (es : List (Symbol × BitSeq)) (e : Symbol × BitSeq) (cand : BitSeq) (c : Symbol) :
    MatchIn (es ++ [e]) cand c ↔ (e.2 = cand ∧ e.1 = c) ∨ (e.2 ≠ cand ∧ MatchIn es cand c) := by
  constructor
  · rintro ⟨pre, post, h, hp⟩
    rcases List.eq_nil_or_concat post with rfl | ⟨q, f, rfl⟩
    · have := List.append_inj_right' h (by simp)
      simp only [List.cons.injEq, and_true] at this
      exact .inl (by rw [this]; exact ⟨rfl, rfl⟩)
    · rw [List.concat_eq_append, ← List.cons_append, ← List.append_assoc] at h
      obtain ⟨h1, h2⟩ := List.append_inj' h (by simp)
      simp only [List.cons.injEq, and_true] at h2
      refine .inr ⟨h2 ▸ hp f (by simp), pre, q, h1, fun x hx => hp x (by simp [hx])⟩
  · rintro (⟨h1, h2⟩ | ⟨h1, pre, post, h, hp⟩)
    · exact ⟨es, [], by rw [← h1, ← h2], by simp⟩
    · refine ⟨pre, post ++ [e], by rw [h]; simp, fun x hx => ?_⟩
      rcases List.mem_append.1 hx with hx | hx
      · exact hp x hx
      · rw [List.mem_singleton] at hx
        exact hx ▸ h1

theorem MatchIn_mem {es : List (Symbol × BitSeq)} {cand : BitSeq} {c : Symbol} (h : MatchIn es cand c) : (c, cand) ∈ es := by
  obtain ⟨pre, post, rfl, _⟩ := h
  simp

/-- A bit sequence that is a code of the table matches some symbol. -/
theorem MatchIn_of_code {es : List (Symbol × BitSeq)} {cand : BitSeq} (h : ∃ e ∈ es, e.2 = cand) :
    ∃ c, MatchIn es cand c := by
  induction es using List.reverseRecOn with
  | nil => obtain ⟨e, he, _⟩ := h; simp at he
  | append_singleton l x ih =>
    by_cases hx : x.2 = cand
    · exact ⟨x.1, (MatchIn_append l x cand _).2 (.inl ⟨hx, rfl⟩)⟩
    · obtain ⟨e, he, hec⟩ := h
      rcases List.mem_append.1 he with he | he
      · obtain ⟨c, hc⟩ := ih ⟨e, he, hec⟩
        exact ⟨c, (MatchIn_append l x cand c).2 (.inr ⟨hx, hc⟩)⟩
      · rw [List.mem_singleton.1 he] at hec
        exact absurd hec hx

/-- The lookup of R182 finds the last entry with the code. -/
theorem matchCode_iff {s : State} (h : s.TableOk) (cand : BitSeq) (c : Symbol) :
    matchCode s cand = some c ↔ MatchIn s.entries cand c := by
  unfold matchCode State.entries
  have hall : ∀ d ∈ s.order, s.codeAt d = some (s.codeRead d) := fun d hd => codeAt_of_mem_order h hd
  revert hall
  generalize s.order = l
  induction l using List.reverseRecOn with
  | nil => intro _; simp [MatchIn]
  | append_singleton l d ih =>
    intro hall
    have ih' := ih fun d hd => hall d (List.mem_append_left _ hd)
    rw [List.foldl_append, List.map_append, List.map_cons, List.map_nil, MatchIn_append]
    rw [Iff.symm ih']
    simp only [List.foldl_cons, List.foldl_nil, hall d (by simp), Option.some.injEq]
    by_cases hd : s.codeRead d = cand
    · simp [hd]
    · simp [hd]

theorem matchCode_none {s : State} (h : s.TableOk) (cand : BitSeq) :
    matchCode s cand = none ↔ ∀ c, ¬ MatchIn s.entries cand c := by
  constructor
  · intro hn c hc
    rw [(matchCode_iff h cand c).2 hc] at hn
    simp at hn
  · intro hn
    cases hm : matchCode s cand with
    | none => rfl
    | some c => exact absurd ((matchCode_iff h cand c).1 hm) (hn c)

theorem matchCode_congr {s t : State} (h1 : t.order = s.order) (h2 : t.code = s.code) (cand : BitSeq) :
    matchCode t cand = matchCode s cand := by
  simp only [matchCode, h1, codeAt_congr h2]

/-! ### The matching loop -/

/-- A whole code word is consumed and its symbol appended (R183). -/
theorem bdecLoop_word {s : State} (h : s.TableOk) {c : Symbol} {w : BitSeq} (hw : Emits s.entries c w) (rest : BitSeq)
    (n : Nat) : bdecLoop (w ++ rest) (n + 1) [] s = (outAppend c s >>= bdecLoop rest n []) := by
  have key : ∀ (w2 w1 : BitSeq), w2 ≠ [] → w1 ++ w2 = w →
      bdecLoop (w2 ++ rest) (n + 1) w1 s = (outAppend c s >>= bdecLoop rest n []) := by
    intro w2
    induction w2 with
    | nil => intro w1 h0; exact absurd rfl h0
    | cons b w2 ih =>
      intro w1 _ heq
      simp only [List.cons_append, bdecLoop, Nat.add_one_ne_zero, if_false]
      by_cases h2 : w2 = []
      · subst h2
        rw [heq, (matchCode_iff h w c).2 hw.2.1]
        rfl
      · have hp : ∀ d, ¬ MatchIn s.entries (w1 ++ [b]) d :=
          hw.2.2 _ (by simp) ⟨w2, by rw [← heq]; simp⟩ (by
            intro he
            rw [← heq] at he
            simp at he
            exact h2 he)
        rw [(matchCode_none h _).2 hp]
        exact ih (w1 ++ [b]) h2 (by rw [← heq]; simp)
  exact key w [] hw.1 rfl

/-- The matching loop over code words (R183). -/
theorem bdecLoop_words {syms : List Symbol} {chunks : List BitSeq} {es : List (Symbol × BitSeq)}
    (hw : List.Forall₂ (Emits es) syms chunks) : ∀ {s : State} (_ : s.TableOk) (_ : s.entries = es) (rest : BitSeq)
    (n : Nat), bdecLoop (chunks.flatten ++ rest) (syms.length + n) [] s = (outAppendAll syms s >>= bdecLoop rest n []) := by
  induction hw with
  | nil => intro s _ _ rest n; simp [outAppendAll]
  | @cons c w syms chunks hcw _ ih =>
    intro s h he rest n
    rw [List.flatten_cons, List.append_assoc, List.length_cons, show syms.length + 1 + n = syms.length + n + 1 by omega,
      bdecLoop_word h (he ▸ hcw), outAppendAll]
    unfold outAppend
    split
    · simp
    · simp only [ok_bind]
      exact ih (TableOk_congr h (by simp) (by simp)) ((entries_congr (by simp) (by simp)).trans he) rest n

/-- The bits run out (R183). -/
theorem bdecLoop_noMatch {s : State} (h : s.TableOk) {n : Nat} (hn : 0 < n) : ∀ (rest cand : BitSeq),
    (∀ p, p ≠ [] → p <+: rest → ∀ d, ¬ MatchIn s.entries (cand ++ p) d) →
    bdecLoop rest n cand s = raise .corruptStream := by
  intro rest
  induction rest with
  | nil => intro cand _; simp [bdecLoop, show n ≠ 0 by omega]
  | cons b rest ih =>
    intro cand hm
    simp only [bdecLoop, show n ≠ 0 by omega, if_false]
    rw [(matchCode_none h _).2 (hm [b] (by simp) ⟨rest, rfl⟩)]
    refine ih (cand ++ [b]) fun p hp hpre d => ?_
    have := hm (b :: p) (by simp) (by simpa using hpre) d
    simpa using this

theorem bdecLoop_done (bits cand : BitSeq) (s : State) : bdecLoop bits 0 cand s = .ok s := by
  cases bits <;> simp [bdecLoop]

/-- Where the matching loop ends normally it appended some symbols. -/
theorem bdecLoop_ok (bits : BitSeq) : ∀ {n : Nat} {cand : BitSeq} {s t : State}, bdecLoop bits n cand s = .ok t →
    ∃ syms, outAppendAll syms s = .ok t := by
  induction bits with
  | nil =>
    intro n cand s t h
    by_cases hn : n = 0
    · exact ⟨[], by simpa [bdecLoop, hn, outAppendAll] using h⟩
    · simp [bdecLoop, hn, raise] at h
  | cons b bits ih =>
    intro n cand s t h
    by_cases hn : n = 0
    · exact ⟨[], by simpa [bdecLoop, hn, outAppendAll] using h⟩
    · simp only [bdecLoop, hn, if_false] at h
      split at h
      · rename_i c _
        obtain ⟨u, hu, h⟩ := bind_eq_ok.1 h
        obtain ⟨syms, hs⟩ := ih h
        exact ⟨c :: syms, by simp only [outAppendAll, hu, ok_bind, hs]⟩
      · exact ih h

/-- What the matching loop can raise (R183). -/
theorem bdecLoop_error (bits : BitSeq) : ∀ {n : Nat} {cand : BitSeq} {s : State} {e : Stop}, bdecLoop bits n cand s = .error e →
    e = .raise .corruptStream ∨ e = .raise .capacity := by
  induction bits with
  | nil =>
    intro n cand s e h
    by_cases hn : n = 0
    · simp [bdecLoop, hn] at h
    · simp only [bdecLoop, hn, if_false, raise, Except.error.injEq] at h
      exact .inl h.symm
  | cons b bits ih =>
    intro n cand s e h
    by_cases hn : n = 0
    · simp [bdecLoop, hn] at h
    · simp only [bdecLoop, hn, if_false] at h
      split at h
      · unfold outAppend at h
        split at h
        · rw [raise_bind] at h
          exact .inr (Except.error.inj h).symm
        · simp only [ok_bind] at h
          exact ih h
      · exact ih h

/-- Every bit sequence is code words and a rest: enough of them, or a rest that matches nothing (R183). -/
theorem words_split (es : List (Symbol × BitSeq)) (n : Nat) : ∀ bits : BitSeq, ∃ syms chunks rest,
    bits = chunks.flatten ++ rest ∧ List.Forall₂ (Emits es) syms chunks ∧ syms.length ≤ n ∧
      (syms.length = n ∨ NoMatch es rest) := by
  induction n with
  | zero => intro bits; exact ⟨[], [], bits, by simp, .nil, by simp, .inl rfl⟩
  | succ n ih =>
    intro bits
    by_cases hm : NoMatch es bits
    · exact ⟨[], [], bits, by simp, .nil, by simp, .inr hm⟩
    · -- the shortest prefix that matches
      have hex : ∃ k, ∃ p, p.length = k ∧ p ≠ [] ∧ p <+: bits ∧ ∃ d, MatchIn es p d := by
        unfold NoMatch at hm
        push Not at hm
        obtain ⟨p, hp, hpre, d, hd⟩ := hm
        exact ⟨p.length, p, rfl, hp, hpre, d, hd⟩
      classical
      obtain ⟨p, hk, hp, ⟨tail, htail⟩, d, hd⟩ := Nat.find_spec hex
      have hmin := fun m hmlt => Nat.find_min (m := m) hex hmlt
      obtain ⟨syms, chunks, rest, h1, h2, h3, h4⟩ := ih tail
      refine ⟨d :: syms, p :: chunks, rest, ?_, .cons ⟨hp, hd, ?_⟩ h2, by simp; omega, by simpa using h4⟩
      · rw [← htail, h1]; simp
      · intro q hq hqp hne e he
        have hlt : q.length < p.length := by
          rcases Nat.lt_or_ge q.length p.length with hl | hl
          · exact hl
          · exact absurd (hqp.eq_of_length_le hl) hne
        exact hmin q.length (by omega) ⟨q, rfl, hq, hqp.trans ⟨tail, htail⟩, e, he⟩

/-- In a prefix-free table of non-empty codes every entry's code is a code word. -/
theorem Emits_of_prefixFree {es : List (Symbol × BitSeq)} (hp : PrefixFree es) (hne : ∀ e ∈ es, e.2 ≠ [])
    {e : Symbol × BitSeq} (he : e ∈ es) : Emits es e.1 e.2 := by
  have hpair := (List.pairwise_iff_getElem.1 hp)
  refine ⟨hne e he, ?_, fun p _ hpre hpne d hd => ?_⟩
  · obtain ⟨pre, post, hsplit⟩ := List.append_of_mem he
    refine ⟨pre, post, hsplit, fun f hf heq => ?_⟩
    rw [hsplit, PrefixFree, List.pairwise_append, List.pairwise_cons] at hp
    exact (hp.2.1.1 f hf).2 (by rw [heq])
  · have hd' := MatchIn_mem hd
    obtain ⟨i, hi, hie⟩ := List.mem_iff_getElem.1 hd'
    obtain ⟨j, hj, hje⟩ := List.mem_iff_getElem.1 he
    rcases Nat.lt_trichotomy i j with hlt | rfl | hlt
    · have := (hpair i j hi hj hlt).1
      rw [hie, hje] at this
      exact this hpre
    · rw [hie] at hje
      exact hpne (by rw [← hje])
    · have := (hpair j i hj hi hlt).2
      rw [hie, hje] at this
      exact this hpre

/-- An input all of whose bytes have a code in a prefix-free table is encoded as a sequence of code words. -/
theorem encode_words {es : List (Symbol × BitSeq)} (hp : PrefixFree es) (hne : ∀ e ∈ es, e.2 ≠ [])
    (hd : (es.map Prod.fst).Nodup) (data : List Byte) (hc : ∀ c ∈ data, c ∈ es.map Prod.fst) :
    List.Forall₂ (Emits es) data (data.map (codeOf es)) := by
  induction data with
  | nil => exact .nil
  | cons c data ih =>
    refine .cons ?_ (ih fun d hd => hc d (by simp [hd]))
    obtain ⟨e, he, rfl⟩ := List.mem_map.1 (hc c (by simp))
    rw [codeOf, lastCode_of_nodup hd he]
    exact Emits_of_prefixFree hp hne he

theorem encodeBits_eq (es : List (Symbol × BitSeq)) (data : List Byte) :
    encodeBits es data = (data.map (codeOf es)).flatten := by
  rw [encodeBits, List.flatMap_def]

end Sys2Proof.Laws
end

