-- ==== Sys2Proof/Laws/Runs.lean ====
section
/-!
SUPPORT. Laws/Runs.lean: the pseudocode of PACK, UNPACK, FCNT, BGEN, BDEC and of TBUILD followed by GENC in closed form
(41_bit_packer.md, 43_tree_builder.md, 44_pipeline.md): what the run answers, as one expression over the named updates.
-/
namespace Sys2Proof.Laws

open Sys2Proof Sys2Proof.Machine

/-! ### PACK and UNPACK -/

theorem runPack_eq (s : State) (hc : s.params.outCap < 2 ^ 64) :
    runPack s =
      if s.params.bitCap < s.blen.toNat then raise .precond
      else if s.blen.toNat = 0 ∨ s.olen.toNat + ceil8 s.blen.toNat ≤ s.params.outCap then
        .ok (setPad (BitVec.ofNat 8 (padCount s.blen.toNat)) (outWritten (packBytes s.bitData) s))
      else raise .capacity := by
  unfold runPack
  by_cases hb : s.params.bitCap < s.blen.toNat
  · rw [checkBit_of_gt hb, if_pos hb]; rfl
  · rw [checkBit_of_le (by omega), if_neg hb]
    simp only [ok_bind, bitData_length]
    rw [outAppendAll_eq _ _ hc, packBytes_length, bitData_length]
    have hnil : packBytes s.bitData = [] ↔ s.blen.toNat = 0 := by
      rw [← List.length_eq_zero_iff, packBytes_length, bitData_length, ceil8]
      omega
    simp only [hnil]
    split
    · rfl
    · rfl

theorem unpackLoop_eq (off n : Nat) : ∀ (i : Nat) (s : State),
    unpackLoop off n i s =
      bitAppendAll ((List.range' i n).map fun j => (s.inRead (off + j / 8)).getLsbD (7 - j % 8)) s := by
  induction n with
  | zero => intro i s; rfl
  | succ n ih =>
    intro i s
    simp only [unpackLoop, List.range'_succ, List.map_cons, bitAppendAll]
    unfold bitAppend
    split
    · rfl
    · simp only [ok_bind]
      rw [ih]
      rfl

/-- The bits UNPACK appends are the unpacking of IN[IOFF..ILEN) (R131, R134). -/
theorem unpackLoop_bits (s : State) :
    ((List.range' 0 (keptBits (s.ilen.toNat - s.ioff.toNat) s.pad.toNat)).map fun j =>
      (s.inRead (s.ioff.toNat + j / 8)).getLsbD (7 - j % 8)) = unpackBits s.inRest s.pad.toNat := by
  rw [unpackBits, inRest_length]
  refine List.ext_getElem? fun i => ?_
  rw [List.getElem?_map, List.getElem?_take]
  have hk : keptBits (s.ilen.toNat - s.ioff.toNat) s.pad.toNat ≤ 8 * (s.ilen.toNat - s.ioff.toNat) := by
    simp only [keptBits]; omega
  by_cases hi : i < keptBits (s.ilen.toNat - s.ioff.toNat) s.pad.toNat
  · rw [List.getElem?_range' hi, if_pos hi, getElem?_flatMap_bits8, State.inRest, inSlice_getElem?,
      if_pos (by omega)]
    simp
  · rw [List.getElem?_eq_none (by simpa using hi), if_neg hi]
    rfl

theorem unpackBits_length (l : List Byte) (p : Nat) : (unpackBits l p).length = keptBits l.length p := by
  rw [unpackBits, List.length_take, flatMap_bits8_length]
  simp only [keptBits]
  omega

theorem runUnpack_eq (s : State) (hc : s.params.bitCap < 2 ^ 64) :
    runUnpack s =
      if s.params.inCap < s.ilen.toNat ∨ s.ilen.toNat < s.ioff.toNat then raise .precond
      else if s.params.bitCap < keptBits (s.ilen.toNat - s.ioff.toNat) s.pad.toNat then raise .capacity
      else .ok (setIoff s.ilen (bitWritten (unpackBits s.inRest s.pad.toNat) (restartBit s))) := by
  unfold runUnpack
  by_cases h : s.params.inCap < s.ilen.toNat ∨ s.ilen.toNat < s.ioff.toNat
  · rw [checkIn_bad h, if_pos h]; rfl
  · rw [checkIn_of_le (by omega) (by omega), if_neg h]
    simp only [ok_bind]
    split
    · rfl
    · rename_i hk
      rw [unpackLoop_eq, List.map_congr_left (g := fun j => (s.inRead (s.ioff.toNat + j / 8)).getLsbD (7 - j % 8))
        (fun j _ => by rw [inRead_congr (s := s) (t := restartBit s) rfl]), unpackLoop_bits,
        bitAppendAll_eq _ (restartBit s) hc, if_pos]
      · simp
      · refine .inr ?_
        rw [unpackBits_length, inRest_length]
        simp
        omega

/-- Unpacking what was packed gives it back (R132), on lists. -/
theorem unpackBits_packBytes (bits : BitSeq) : unpackBits (packBytes bits) (padCount bits.length) = bits := by
  rw [unpackBits, packBytes_length, take_kept_packBytes]

/-! ### FCNT -/

theorem foldl_countByte (l : List Byte) (f : Vector Counter 256) (c : Symbol) :
    (l.foldl countByte f)[c.toNat] = f[c.toNat] + BitVec.ofNat 64 (l.count c) := by
  induction l generalizing f with
  | nil => simp
  | cons d l ih =>
    rw [List.foldl_cons, ih, countByte, Vector.getElem_set]
    by_cases h : d = c
    · subst h
      simp only [if_true, List.count_cons_self]
      rw [show BitVec.ofNat 64 (List.count d l + 1) = BitVec.ofNat 64 (List.count d l) + 1#64 from by
        simp [BitVec.ofNat_add]]
      rw [BitVec.add_assoc, BitVec.add_comm 1]
      rfl
    · rw [if_neg fun e => h (BitVec.eq_of_toNat_eq e), List.count_cons_of_ne h]

theorem countsOf_get (data : List Byte) (c : Symbol) : (countsOf data)[c.toNat] = BitVec.ofNat 64 (data.count c) := by
  simp [countsOf]

/-- Counting byte by byte gives the occurrence counts (R180). -/
theorem countByte_countsOf (data : List Byte) : data.foldl countByte (Vector.replicate 256 0) = countsOf data := by
  refine Vector.ext fun i hi => ?_
  have h := foldl_countByte data (Vector.replicate 256 0) (BitVec.ofNat 8 i)
  have h2 := countsOf_get data (BitVec.ofNat 8 i)
  simp only [show (BitVec.ofNat 8 i).toNat = i by simp; omega] at h h2
  rw [h, h2]
  simp

theorem runFcnt_eq (s : State) :
    runFcnt s = if s.params.inCap < s.ilen.toNat then raise .precond else .ok (setFreq (countsOf s.inData) s) := by
  unfold runFcnt
  rw [checkLen_eq]
  split
  · rfl
  · simp only [ok_bind, countByte_countsOf]

/-- A symbol is present exactly where it occurs (R30, R180). -/
theorem countsOf_pos {data : List Byte} (h : data.length < 2 ^ 64) (c : Symbol) :
    0 < (countsOf data)[c.toNat] ↔ c ∈ data := by
  rw [countsOf_get, ← List.count_pos_iff]
  have := List.count_le_length (a := c) (l := data)
  rw [BitVec.lt_def, BitVec.toNat_ofNat, show (0 : Counter).toNat = 0 from rfl]
  omega

/-! ### BGEN -/

theorem bgenLoop_covered (l : List Byte) : ∀ s : State, (∀ c ∈ l, (s.codeAt c).isSome = true) →
    bgenLoop l s = bitAppendAll (l.flatMap s.codeRead) s := by
  induction l with
  | nil => intro s _; rfl
  | cons c l ih =>
    intro s h
    obtain ⟨b, hb⟩ := Option.isSome_iff_exists.1 (h c (by simp))
    have hr : s.codeRead c = b := by simp [State.codeRead, hb]
    simp only [bgenLoop, hb, List.flatMap_cons, bitAppendAll_append, hr]
    cases hap : bitAppendAll b s with
    | error e => rfl
    | ok t =>
      have ht := bitAppendAll_state hap
      simp only [ok_bind]
      have hcode : t.code = s.code := by rw [ht]; simp
      rw [ih t fun d hd => by rw [codeAt_congr hcode]; exact h d (by simp [hd])]
      congr 2
      funext d
      exact codeRead_congr hcode d

theorem bgenLoop_uncovered (pre : List Byte) (c : Byte) (post : List Byte) : ∀ s : State,
    (∀ d ∈ pre, (s.codeAt d).isSome = true) → s.codeAt c = none →
    bgenLoop (pre ++ c :: post) s = (bitAppendAll (pre.flatMap s.codeRead) s >>= fun _ => raise .precond) := by
  induction pre with
  | nil => intro s _ hc; simp [bgenLoop, hc, bitAppendAll]
  | cons d pre ih =>
    intro s h hc
    obtain ⟨b, hb⟩ := Option.isSome_iff_exists.1 (h d (by simp))
    have hr : s.codeRead d = b := by simp [State.codeRead, hb]
    simp only [List.cons_append, bgenLoop, hb, List.flatMap_cons, bitAppendAll_append, hr]
    cases hap : bitAppendAll b s with
    | error e => rfl
    | ok t =>
      have ht := bitAppendAll_state hap
      simp only [ok_bind]
      have hcode : t.code = s.code := by rw [ht]; simp
      rw [ih t (fun d hd => by rw [codeAt_congr hcode]; exact h d (by simp [hd])) (by rw [codeAt_congr hcode, hc])]
      congr 2
      congr 1
      funext d
      exact codeRead_congr hcode d

/-- Where the loop of BGEN ends normally it appended some bits. -/
theorem bgenLoop_ok (l : List Byte) : ∀ {s t : State}, bgenLoop l s = .ok t → ∃ bits, bitAppendAll bits s = .ok t := by
  induction l with
  | nil => intro s t h; exact ⟨[], h⟩
  | cons c l ih =>
    intro s t h
    simp only [bgenLoop] at h
    split at h
    · simp [raise] at h
    · rename_i b _
      obtain ⟨u, hu, h⟩ := bind_eq_ok.1 h
      obtain ⟨bits, hb⟩ := ih h
      exact ⟨b ++ bits, by rw [bitAppendAll_append, hu, ok_bind, hb]⟩

theorem bgenLoop_error (l : List Byte) : ∀ {s : State} {e : Stop}, bgenLoop l s = .error e →
    e = .raise .precond ∨ e = .raise .capacity := by
  induction l with
  | nil => intro s e h; simp [bgenLoop] at h
  | cons c l ih =>
    intro s e h
    simp only [bgenLoop] at h
    split at h
    · exact .inl (Except.error.inj h).symm
    · rename_i b _
      cases hap : bitAppendAll b s with
      | error e' =>
        rw [hap, error_bind] at h
        exact .inr ((Except.error.inj h).symm.trans (bitAppendAll_error hap))
      | ok t =>
        rw [hap, ok_bind] at h
        exact ih h

/-- The codes read for bytes the table covers are their encoding. -/
theorem flatMap_codeRead {s : State} (ht : s.TableOk) {l : List Byte} (h : ∀ c ∈ l, c ∈ s.order) :
    l.flatMap s.codeRead = encodeBits s.entries l := by
  rw [encodeBits, List.flatMap_def, List.flatMap_def]
  refine congrArg List.flatten (List.map_congr_left fun c hc => ?_)
  rw [codeOf, lastCode_entries ht, codeAt_of_mem_order ht (h c hc)]
  rfl

/-- With a covering table in good order BGEN appends the encoding of the input (R181). -/
theorem runBgen_covered {s : State} (hc : s.params.bitCap < 2 ^ 64) (hl : s.ilen.toNat ≤ s.params.inCap) (ht : s.TableOk)
    (hcov : ∀ c ∈ s.inData, c ∈ s.order) :
    runBgen s =
      if (encodeBits s.entries s.inData).length ≤ s.params.bitCap then
        .ok (bitWritten (encodeBits s.entries s.inData) (restartBit s))
      else raise .capacity := by
  have hcode : ∀ c ∈ s.inData, (s.codeAt c).isSome = true := fun c h => (ht.validIff c).2 (hcov c h)
  have hbits := flatMap_codeRead ht hcov
  unfold runBgen
  rw [checkLen_of_le hl, ok_bind, bgenLoop_covered _ (restartBit s) hcode]
  rw [show s.inData.flatMap (restartBit s).codeRead = encodeBits s.entries s.inData from hbits, bitAppendAll_eq _ (restartBit s) hc]
  by_cases h : (encodeBits s.entries s.inData).length ≤ s.params.bitCap
  · rw [if_pos h, if_pos (.inr (by simpa using h))]
  · rw [if_neg h, if_neg]
    rintro (h0 | h0)
    · rw [h0] at h; simp at h
    · simp at h0; exact h h0

/-! ### TBUILD and GENC -/

theorem tinitFold_sameTree (l : List Symbol) : ∀ {s t : State}, s.freq = t.freq → s.node = t.node → s.heap = t.heap →
    s.next = t.next →
    (l.foldl tinitSymbol s).node = (l.foldl tinitSymbol t).node ∧
      (l.foldl tinitSymbol s).heap = (l.foldl tinitSymbol t).heap ∧
      (l.foldl tinitSymbol s).next = (l.foldl tinitSymbol t).next := by
  induction l with
  | nil => intro s t _ h1 h2 h3; exact ⟨h1, h2, h3⟩
  | cons c l ih =>
    intro s t hf h1 h2 h3
    have hfr : ∀ c, s.freqAt c = t.freqAt c := fun c => freqAt_congr hf c
    simp only [List.foldl_cons]
    refine ih ?_ ?_ ?_ ?_
    · unfold tinitSymbol
      rw [hfr]
      split <;> simp [hf]
    all_goals
      unfold tinitSymbol
      rw [hfr]
      split
      · have hk : ∀ (nd : Node), (setNode (c.setWidth 9) nd s).node = (setNode (c.setWidth 9) nd t).node := fun nd => by
          simp only [setNode, h1]
        simp only [pushNode, keyLt_congr (hk _)]
        simp [setNode, h1, h2, h3]
      · assumption

theorem setRoot_sameTree {s t : State} (h1 : s.node = t.node) (h2 : s.heap = t.heap) (h3 : s.next = t.next) :
    SameTree (setRoot s) (setRoot t) := by
  refine ⟨by simp [h1], by simp [h2], by simp [h3], ?_, ?_⟩
  all_goals
    simp only [setRoot, h2]
    split <;> rfl

/-- The tree TBUILD builds depends on FREQ only (R164 (f)). -/
theorem tbuild_sameTree {s t : State} (h : s.freq = t.freq) : SameTree (tbuild s) (tbuild t) := by
  have hi : SameTree (tinit s) (tinit t) := by
    obtain ⟨h1, h2, h3⟩ := tinitFold_sameTree allSymbols (s := clearTree s) (t := clearTree t) (by simp [h]) rfl rfl rfl
    exact setRoot_sameTree h1 h2 h3
  unfold tbuild
  rw [hi.heap]
  exact SameTree_mergeLoop _ hi

theorem walk_congr {s t : State} (h : s.node = t.node) (d : Nat) : ∀ (n : NodeIdx) (pre : BitSeq),
    walk s d n pre = walk t d n pre := by
  have hr := nodeRead_congr h
  induction d with
  | zero => intro n pre; simp only [walk, hr]
  | succ d ih => intro n pre; simp only [walk, hr, ih]

theorem rootCodes_congr {s t : State} (h : s.node = t.node) (r : NodeIdx) : rootCodes s r = rootCodes t r := by
  simp only [rootCodes, walk_congr h, nodeRead_congr h]

theorem rootCodes_single {s : State} (h : s.Forest) {r : NodeIdx} (hr : s.heap = [r]) :
    ∃ l, rootCodes s r = some l ∧ CodesOf s l := by
  obtain ⟨l, h1, h2⟩ := runGenc_ok h (by rw [hr]; simp)
  simp only [runGenc, hr] at h1
  split at h1
  · rename_i l' hl'
    obtain ⟨l2, hw⟩ : ∃ l2, l2 = l' := ⟨_, rfl⟩
    refine ⟨l', hl', ?_⟩
    -- the entries recorded are the entries of the code table
    by_cases hleaf : r.toNat < 256
    · have h3 := h2.single r hr hleaf
      have hv : (s.slot r.toNat).isSome = true := h.heapValid r (by simp [hr])
      simp only [rootCodes, nodeRead_leaf h hv, hleaf, decide_true, if_true, Option.some.injEq] at hl'
      rw [← hl', ← h3]
      exact h2
    · have hv : (s.slot r.toNat).isSome = true := h.heapValid r (by simp [hr])
      have hr511 : r.toNat < 511 := by
        by_contra hc
        simp [State.slot, hc] at hv
      obtain ⟨l3, hw3, sp⟩ := walk_spec h 255 r [] hv (by omega)
      simp only [rootCodes, nodeRead_leaf h hv, hleaf, decide_false, Bool.false_eq_true, if_false] at hl'
      have hll : l' = l := by
        have hd2 : (l'.map Prod.fst).Nodup := by
          rw [hw3] at hl'
          cases hl'
          refine List.pairwise_map.2 (List.Pairwise.imp_of_mem ?_ (prefixFree_of_ordered sp.ordered))
          intro x y hx hy hxy hfst
          obtain ⟨q, m, hq, hf, hm, hc⟩ := (sp.mem x.1 x.2).1 hx
          obtain ⟨q', m', hq', hf', hm', hc'⟩ := (sp.mem y.1 y.2).1 hy
          have hmm : m = m' := by
            apply BitVec.eq_of_toNat_eq
            rw [← toNat_setWidth8 hm, ← toNat_setWidth8 hm', ← hc, ← hc', hfst]
          have := follow_inj h (r := r) (by simp [hr]) q hf (hmm ▸ hf')
          rw [hq, hq', this] at hxy
          exact hxy.1 (List.prefix_refl _)
        have e1 := (putEntries_clear h2.symbolsNodup s).2.2.2
        have e2 := (putEntries_clear hd2 s).2.2.2
        have h1 := Except.ok.inj h1
        rw [recordCodes_eq _ _ hd2 (by simp)] at h1
        rw [← e2, h1, e1]
      rw [hll]
      exact h2
  · simp at h1

/-- The entries GENC records from a finished tree, and from every block with the same tree. -/
theorem genc_sameTree {s u : State} (hf : s.Forest) (hlen : s.heap.length ≤ 1) (hsame : SameTree s u)
    {es : List (Symbol × BitSeq)} (hes : es = u.derivedTable) :
    runGenc s = .ok (putEntries es (clearTable s)) ∧ CodesOf s es := by
  match hh : s.heap with
  | [] =>
    have hh0 : u.heap = [] := by rw [← hsame.heap, hh]
    have ht : es = [] := by
      simp only [hes, State.derivedTable, runGenc, hh0]
      rfl
    obtain ⟨l, h1, h2⟩ := runGenc_ok hf (by rw [hh]; simp)
    rw [ht]
    refine ⟨by simp [runGenc, hh, putEntries], ?_⟩
    have hl : l = [] := by
      have e1 := (putEntries_clear h2.symbolsNodup s).2.2.2
      simp only [runGenc, hh, Except.ok.injEq] at h1
      rw [← e1, ← h1]
      rfl
    rw [← hl]
    exact h2
  | [r] =>
    have hh0 : u.heap = [r] := by rw [← hsame.heap, hh]
    obtain ⟨l, h1, h2⟩ := rootCodes_single hf hh
    have h10 : rootCodes u r = some l := by rw [← rootCodes_congr hsame.node, h1]
    have ht : es = l := by
      simp only [hes, State.derivedTable, runGenc, hh0, h10]
      rw [recordCodes_eq _ _ h2.symbolsNodup (by simp)]
      exact (putEntries_clear h2.symbolsNodup _).2.2.2
    rw [ht]
    refine ⟨?_, h2⟩
    simp only [runGenc, hh, h1]
    rw [recordCodes_eq _ _ h2.symbolsNodup (by simp)]
  | a :: b :: rest => rw [hh] at hlen; simp at hlen

/-- The entries GENC records from the tree TBUILD builds. -/
theorem tableFor_spec (s : State) :
    runGenc (tbuild s) = .ok (putEntries (tableFor s.freq) (clearTable (tbuild s))) ∧
      CodesOf (tbuild s) (tableFor s.freq) :=
  genc_sameTree (tbuild_spec s).1 (tbuild_spec s).2.2.1 (tbuild_sameTree (t := setFreq s.freq State.reset) rfl)
    (tableFor.eq_1 s.freq)

/-- A leaf is valid after TBUILD exactly where its symbol is present (R156). -/
theorem tbuild_leaf (s : State) (c : Symbol) : ((tbuild s).slot c.toNat).isSome = true ↔ 0 < s.freqAt c := by
  rw [(tbuild_spec s).2.2.2.1 c.toNat c.isLt, tinit_slot]
  split <;> simp_all

/-- The table made of the counters of a block holds exactly the present symbols (R164 (a)). -/
theorem mem_tableFor (s : State) (c : Symbol) : c ∈ (tableFor s.freq).map Prod.fst ↔ 0 < s.freqAt c :=
  ((tableFor_spec s).2.symbols c).trans (tbuild_leaf s c)

/-- The entries of the table of an input: exactly the symbols that occur in it. -/
theorem mem_tableOfData {data : List Byte} (h : data.length < 2 ^ 64) (c : Symbol) :
    c ∈ (tableOfData data).map Prod.fst ↔ c ∈ data := by
  rw [← countsOf_pos h c, tableOfData]
  exact mem_tableFor (setFreq (countsOf data) State.reset) c

/-! ### BDEC -/

theorem runBdec_empty {s : State} (h : s.order = []) : runBdec s = .ok s := by simp [runBdec, h]

theorem runBdec_single {s : State} {c : Symbol} (h : s.order = [c]) :
    runBdec s = outAppendAll (List.replicate s.len.toNat c) s := by
  simp [runBdec, h, outAppendTimes_eq]

theorem runBdec_many {s : State} (h : 2 ≤ s.order.length) (hb : s.blen.toNat ≤ s.params.bitCap) :
    runBdec s = bdecLoop s.bitData s.len.toNat [] s := by
  match hh : s.order with
  | [] => rw [hh] at h; simp at h
  | [c] => rw [hh] at h; simp at h
  | a :: b :: rest => simp only [runBdec, hh, checkBit_of_le hb, ok_bind]

theorem runBdec_bad {s : State} (h : 2 ≤ s.order.length) (hb : s.params.bitCap < s.blen.toNat) :
    runBdec s = raise .precond := by
  match hh : s.order with
  | [] => rw [hh] at h; simp at h
  | [c] => rw [hh] at h; simp at h
  | a :: b :: rest => simp only [runBdec, hh, checkBit_of_gt hb, raise_bind]

/-- Where BDEC ends normally it appended some symbols (R183). -/
theorem runBdec_ok {s t : State} (h : runBdec s = .ok t) : ∃ syms, outAppendAll syms s = .ok t := by
  match hh : s.order with
  | [] => exact ⟨[], by rw [← h, runBdec_empty hh]; rfl⟩
  | [c] => exact ⟨_, by rw [← runBdec_single hh, h]⟩
  | a :: b :: rest =>
    have h2 : 2 ≤ s.order.length := by rw [hh]; simp
    by_cases hb : s.params.bitCap < s.blen.toNat
    · rw [runBdec_bad h2 hb] at h
      simp [raise] at h
    · rw [runBdec_many h2 (by omega)] at h
      exact bdecLoop_ok _ h

/-! ### The finished tree -/

/-- TINIT pushes as many leaves as there are present symbols. -/
theorem tinit_count (s : State) : (tinit s).heap.length = s.present.length := by
  rw [(tinit_heap s).length_eq, List.length_map]; rfl

/-- The leaves of the finished tree are those of the present symbols (R156). -/
theorem tbuild_leafCount (s : State) : (tbuild s).leafCount = s.present.length := by
  obtain ⟨_, _, _, h4, _, _⟩ := tbuild_spec s
  rw [leafCount_congr h4, ← (tinit_forest s).count, tinit_next, tinit_count]
  simp

/-- A leaf weighs what its symbol occurs (R157). -/
theorem tbuild_weight (s : State) (c : Symbol) : (tbuild s).slotWeight c.toNat = (s.freqAt c).toNat := by
  obtain ⟨_, _, _, h4, _, _⟩ := tbuild_spec s
  rw [slotWeight_congr (h4 _ c.isLt), State.slotWeight, tinit_slot]
  by_cases h : 0 < s.freqAt c
  · rw [if_pos h]; exact leafNode_weight _
  · rw [if_neg h]
    have : s.freqAt c = 0 := by
      rw [BitVec.not_lt] at h
      exact BitVec.le_zero_iff.1 h
    simp [this]

/-- A root that is a leaf is alone. -/
theorem root_leaf_alone {s : State} (h : s.Forest) {r : NodeIdx} (hr : s.heap = [r]) (hl : r.toNat < 256) :
    s.next = 256 := by
  by_contra hne
  have hx := h.nextRange
  have hgt : 256 < s.next.toNat := by
    rcases Nat.lt_or_eq_of_le hx.1 with h1 | h1
    · exact h1
    · exact absurd (BitVec.eq_of_toNat_eq h1.symm) hne
  have hv := (h.internalSlots 256 (Nat.le_refl _)).2 hgt
  obtain ⟨p, hp⟩ := follow_reach h hr 511 256#9 (by simp) hv
  have := (follow_leaf h hl hp).2
  rw [← this] at hl
  simp at hl

theorem present_nodup (s : State) : s.present.Nodup := allSymbols_nodup.filter _

theorem mem_present (s : State) (c : Symbol) : c ∈ s.present ↔ 0 < s.freqAt c := by
  simp [State.present, mem_allSymbols]

theorem sum_indicator (k n : Nat) :
    ((List.range n).map fun c => if c = k then 1 else 0).sum = if k < n then 1 else 0 := by
  induction n with
  | zero => rfl
  | succ n ih =>
    rw [List.range_succ, List.map_append, List.sum_append, ih]
    simp only [List.map_cons, List.map_nil, List.sum_cons, List.sum_nil]
    split <;> split <;> split <;> omega

/-- The counters of an input add up to its length (R180). -/
theorem sum_counts (l : List Byte) : ((List.range 256).map fun c => l.count (BitVec.ofNat 8 c)).sum = l.length := by
  induction l with
  | nil =>
    generalize List.range 256 = r
    induction r with
    | nil => rfl
    | cons a r ih => simp
  | cons x rest ih =>
    have hx := x.isLt
    have e : (List.range 256).map (fun c => (x :: rest).count (BitVec.ofNat 8 c)) =
        (List.range 256).map (fun c => rest.count (BitVec.ofNat 8 c) + if c = x.toNat then 1 else 0) := by
      refine List.map_congr_left fun c hc => ?_
      have hc := List.mem_range.1 hc
      rw [List.count_cons]
      refine congrArg (rest.count (BitVec.ofNat 8 c) + ·) ?_
      by_cases e : c = x.toNat
      · subst e; simp
      · rw [if_neg e, if_neg]
        intro h
        have := congrArg BitVec.toNat (beq_iff_eq.1 h)
        rw [BitVec.toNat_ofNat, Nat.mod_eq_of_lt (by omega)] at this
        exact e this.symm
    rw [e, List.sum_map_add, ih, sum_indicator, if_pos (by omega), List.length_cons]

end Sys2Proof.Laws
end

