-- ==== Sys2Proof/Laws/Macro.lean ====
section
/-!
SUPPORT. Laws/Macro.lean: ENCODE, DECODE, COMPRESS and DECOMPRESS in closed form (44_pipeline.md R184 to R186,
45_container.md R200 to R203).
-/
namespace Sys2Proof.Laws

open Sys2Proof Sys2Proof.Machine

theorem bitData_congr {s t : State} (h1 : t.bit = s.bit) (h2 : t.blen = s.blen) : t.bitData = s.bitData := by
  rw [State.bitData, State.bitData, h2]
  exact List.map_congr_left fun i _ => bitRead_congr h1 i

theorem outData_congr {s t : State} (h1 : t.out = s.out) (h2 : t.olen = s.olen) : t.outData = s.outData := by
  rw [State.outData, State.outData, h2]
  exact List.map_congr_left fun i _ => outRead_congr h1 i

/-! ### FCNT, TBUILD, GENC and BGEN in a row -/

/-- The table and the bits of the block's input. -/
def inTable (s : State) : List (Symbol × BitSeq) := tableOfData s.inData
def inBits (s : State) : BitSeq := encodeBits (inTable s) s.inData

/-- The state after GENC, before BGEN. -/
def tabled (s : State) : State := putEntries (inTable s) (clearTable (tbuild (setFreq (countsOf s.inData) s)))

/-- The state after BGEN, where the bits fit. -/
def coded (s : State) : State := bitWritten (inBits s) (restartBit (tabled s))

@[simp] theorem tabled_busy (s : State) : (tabled s).busy = s.busy := by simp [tabled]
@[simp] theorem tabled_fault (s : State) : (tabled s).fault = s.fault := by simp [tabled]
@[simp] theorem tabled_err (s : State) : (tabled s).err = s.err := by simp [tabled]
@[simp] theorem tabled_ilen (s : State) : (tabled s).ilen = s.ilen := by simp [tabled]
@[simp] theorem tabled_ioff (s : State) : (tabled s).ioff = s.ioff := by simp [tabled]
@[simp] theorem tabled_olen (s : State) : (tabled s).olen = s.olen := by simp [tabled]
@[simp] theorem tabled_blen (s : State) : (tabled s).blen = s.blen := by simp [tabled]
@[simp] theorem tabled_len (s : State) : (tabled s).len = s.len := by simp [tabled]
@[simp] theorem tabled_pad (s : State) : (tabled s).pad = s.pad := by simp [tabled]
@[simp] theorem tabled_inp (s : State) : (tabled s).inp = s.inp := by simp [tabled]
@[simp] theorem tabled_out (s : State) : (tabled s).out = s.out := by simp [tabled]
@[simp] theorem tabled_bit (s : State) : (tabled s).bit = s.bit := by simp [tabled]
@[simp] theorem tabled_params (s : State) : (tabled s).params = s.params := by simp [tabled]
@[simp] theorem tabled_fresh (s : State) : (tabled s).fresh = s.fresh := by simp [tabled]
@[simp] theorem tabled_script (s : State) : (tabled s).script = s.script := by simp [tabled]
@[simp] theorem tabled_port (s : State) : (tabled s).port = s.port := by simp [tabled]

@[simp] theorem coded_busy (s : State) : (coded s).busy = s.busy := by simp [coded]
@[simp] theorem coded_fault (s : State) : (coded s).fault = s.fault := by simp [coded]
@[simp] theorem coded_err (s : State) : (coded s).err = s.err := by simp [coded]
@[simp] theorem coded_ilen (s : State) : (coded s).ilen = s.ilen := by simp [coded]
@[simp] theorem coded_ioff (s : State) : (coded s).ioff = s.ioff := by simp [coded]
@[simp] theorem coded_olen (s : State) : (coded s).olen = s.olen := by simp [coded]
@[simp] theorem coded_len (s : State) : (coded s).len = s.len := by simp [coded]
@[simp] theorem coded_pad (s : State) : (coded s).pad = s.pad := by simp [coded]
@[simp] theorem coded_inp (s : State) : (coded s).inp = s.inp := by simp [coded]
@[simp] theorem coded_out (s : State) : (coded s).out = s.out := by simp [coded]
@[simp] theorem coded_params (s : State) : (coded s).params = s.params := by simp [coded]
@[simp] theorem coded_fresh (s : State) : (coded s).fresh = s.fresh := by simp [coded]
@[simp] theorem coded_script (s : State) : (coded s).script = s.script := by simp [coded]
@[simp] theorem coded_port (s : State) : (coded s).port = s.port := by simp [coded]

@[simp] theorem coded_freq (s : State) : (coded s).freq = countsOf s.inData := by simp [coded, tabled]
@[simp] theorem coded_order (s : State) : (coded s).order = (tabled s).order := by simp [coded]
@[simp] theorem coded_code (s : State) : (coded s).code = (tabled s).code := by simp [coded]

theorem inTable_spec (s : State) : CodesOf (tbuild (setFreq (countsOf s.inData) s)) (inTable s) :=
  (tableFor_spec (setFreq (countsOf s.inData) s)).2

theorem tabled_table (s : State) :
    (tabled s).order = (inTable s).map Prod.fst ∧ (∀ e ∈ inTable s, (tabled s).codeAt e.1 = some e.2) ∧
      (∀ c, c ∉ (inTable s).map Prod.fst → (tabled s).codeAt c = none) ∧ (tabled s).entries = inTable s :=
  putEntries_clear (inTable_spec s).symbolsNodup _

theorem tabled_tableOk (s : State) : (tabled s).TableOk :=
  putEntries_tableOk (fun e he => ((inTable_spec s).length e he).2) (clearTable_tableOk _)

theorem mem_inTable (s : State) (c : Symbol) : c ∈ (inTable s).map Prod.fst ↔ c ∈ s.inData :=
  mem_tableOfData (by rw [inData_length]; exact s.ilen.isLt) c

/-- Four unit commands in a row (R184). -/
theorem front_eq (s : State) (hc : s.params.bitCap < 2 ^ 64) (hl : s.ilen.toNat ≤ s.params.inCap) (k : State → Run) :
    (do
      let s ← runFcnt s
      let s ← runTbuild s
      let s ← runGenc s
      let s ← runBgen s
      k s) = if (inBits s).length ≤ s.params.bitCap then k (coded s) else raise .capacity := by
  have hin : (tabled s).inData = s.inData := inData_congr (by simp) (by simp)
  have hent := (tabled_table s).2.2.2
  rw [runFcnt_eq, if_neg (by omega)]
  simp only [ok_bind, runTbuild, (tableFor_spec (setFreq (countsOf s.inData) s)).1, setFreq_freq]
  rw [show putEntries (tableFor (countsOf s.inData)) (clearTable (tbuild (setFreq (countsOf s.inData) s))) = tabled s from
    rfl, runBgen_covered (by simpa using hc) (by simpa using hl) (tabled_tableOk s) (by
      intro c h
      rw [hin] at h
      rw [(tabled_table s).1]
      exact (mem_inTable s c).2 h), hin, hent]
  simp only [tabled_params]
  rw [show encodeBits (inTable s) s.inData = inBits s from rfl]
  split
  · simp only [ok_bind, coded]
  · simp only [raise_bind]

theorem front_ok (s : State) (hc : s.params.bitCap < 2 ^ 64) (hl : s.ilen.toNat ≤ s.params.inCap)
    (h : (inBits s).length ≤ s.params.bitCap) (k : State → Run) :
    (do
      let s ← runFcnt s
      let s ← runTbuild s
      let s ← runGenc s
      let s ← runBgen s
      k s) = k (coded s) := by rw [front_eq s hc hl k, if_pos h]

theorem front_full (s : State) (hc : s.params.bitCap < 2 ^ 64) (hl : s.ilen.toNat ≤ s.params.inCap)
    (h : ¬ (inBits s).length ≤ s.params.bitCap) (k : State → Run) :
    (do
      let s ← runFcnt s
      let s ← runTbuild s
      let s ← runGenc s
      let s ← runBgen s
      k s) = raise .capacity := by rw [front_eq s hc hl k, if_neg h]

theorem coded_blen (s : State) (hc : s.params.bitCap < 2 ^ 64) (h : (inBits s).length ≤ s.params.bitCap) :
    (coded s).blen.toNat = (inBits s).length := by
  rw [coded, bitWritten_blen _ _ (by simp; omega)]
  simp

theorem coded_bitData (s : State) (hc : s.params.bitCap < 2 ^ 64) (h : (inBits s).length ≤ s.params.bitCap) :
    (coded s).bitData = inBits s := by
  rw [coded, bitWritten_bitData _ _ (by simp; omega)]
  have : (restartBit (tabled s)).bitData = [] := by simp [State.bitData]
  rw [this]
  rfl

theorem coded_entries (s : State) : (coded s).entries = inTable s := by
  rw [entries_congr (s := tabled s) (by simp) (by simp), (tabled_table s).2.2.2]

theorem coded_tableOk (s : State) : (coded s).TableOk := TableOk_congr (tabled_tableOk s) (by simp) (by simp)

/-! ### ENCODE -/

/-- The state ENCODE leaves (R184). -/
def encoded (s : State) : State :=
  setPad (BitVec.ofNat 8 (padCount (inBits s).length))
    (outWritten (packBytes (inBits s)) (coded (restartOut (setLen s.ilen s))))

theorem runEncode_eq (s : State) (ho : s.params.outCap < 2 ^ 64) (hb : s.params.bitCap < 2 ^ 64) :
    runEncode s =
      if s.params.inCap < s.ilen.toNat then raise .precond
      else if (inBits s).length ≤ s.params.bitCap ∧ ceil8 (inBits s).length ≤ s.params.outCap then .ok (encoded s)
      else raise .capacity := by
  unfold runEncode
  rw [checkLen_eq]
  split
  · rfl
  · rename_i hl
    simp only [ok_bind]
    have hin : (restartOut (setLen s.ilen s)).inData = s.inData := inData_congr rfl rfl
    have hbits : inBits (restartOut (setLen s.ilen s)) = inBits s := by simp only [inBits, inTable, hin]
    by_cases h : (inBits s).length ≤ s.params.bitCap
    · have h1 := coded_blen (restartOut (setLen s.ilen s)) (by simpa using hb) (by simpa [hbits] using h)
      have h2 := coded_bitData (restartOut (setLen s.ilen s)) (by simpa using hb) (by simpa [hbits] using h)
      rw [front_ok _ (by simpa using hb) (by simp; omega) (by simpa [hbits] using h)]
      rw [hbits] at h1 h2
      rw [runPack_eq _ (by simpa using ho), h1, h2]
      simp only [coded_params, coded_olen, restartOut_params, setLen_params, restartOut_olen]
      rw [if_neg (by omega)]
      by_cases h3 : ceil8 (inBits s).length ≤ s.params.outCap
      · have h4 : (0 : Reg).toNat + ceil8 (inBits s).length ≤ s.params.outCap := by
          rw [show (0 : Reg).toNat = 0 from rfl]; omega
        rw [if_pos (Or.inr h4), if_pos (And.intro h h3)]
        rfl
      · have h4 : ¬ ((inBits s).length = 0 ∨ (0 : Reg).toNat + ceil8 (inBits s).length ≤ s.params.outCap) := by
          rw [show (0 : Reg).toNat = 0 from rfl]
          rintro (h0 | h0)
          · rw [h0] at h3; exact h3 (by simp [ceil8])
          · omega
        rw [if_neg h4, if_neg fun h5 => h3 h5.2]
    · rw [front_full _ (by simpa using hb) (by simp; omega) (by simpa [hbits] using h), if_neg fun h5 => h h5.1]

/-! ### COMPRESS -/

/-- The blob of an input (R200, R201). -/
def inBlob (s : State) : List Byte := blobBytes s.params.magic s.ilen.toNat (inTable s) (inBits s)

/-- The state COMPRESS leaves (R201). -/
def compressed (s : State) : State :=
  setPad (BitVec.ofNat 8 (padCount (inBits s).length)) (outWritten (inBlob s) (restartOut (coded (setLen s.ilen s))))

theorem runCompress_eq (s : State) (ho : s.params.outCap < 2 ^ 64) (hb : s.params.bitCap < 2 ^ 64) :
    runCompress s =
      if s.params.inCap < s.ilen.toNat then raise .precond
      else if (inBits s).length ≤ s.params.bitCap ∧ (inBlob s).length ≤ s.params.outCap then .ok (compressed s)
      else raise .capacity := by
  unfold runCompress
  rw [checkLen_eq]
  split
  · rfl
  · rename_i hl
    simp only [ok_bind]
    have hin : (setLen s.ilen s).inData = s.inData := inData_congr rfl rfl
    have htab : inTable (setLen s.ilen s) = inTable s := by simp only [inTable, hin]
    have hbits : inBits (setLen s.ilen s) = inBits s := by simp only [inBits, htab, hin]
    by_cases h : (inBits s).length ≤ s.params.bitCap
    · have h1 := coded_blen (setLen s.ilen s) (by simpa using hb) (by simpa [hbits] using h)
      have h2 := coded_bitData (setLen s.ilen s) (by simpa using hb) (by simpa [hbits] using h)
      have h3 := coded_entries (setLen s.ilen s)
      rw [hbits] at h1 h2
      rw [htab] at h3
      rw [front_ok _ (by simpa using hb) (by simp; omega) (by simpa [hbits] using h)]
      simp only [coded_params, setLen_params, coded_len, setLen_len, h1]
      -- the three appends are one
      have key : ∀ hd : List Byte, (outAppendAll hd (restartOut (coded (setLen s.ilen s))) >>= fun u =>
          runTser u >>= runPack) =
          (outAppendAll (hd ++ serialTable (inTable s) ++ packBytes (inBits s)) (restartOut (coded (setLen s.ilen s))) >>=
            fun u => .ok (setPad (BitVec.ofNat 8 (padCount (inBits s).length)) u)) := by
        intro hd
        rw [outAppendAll_append, outAppendAll_append]
        cases e1 : outAppendAll hd (restartOut (coded (setLen s.ilen s))) with
        | error e => rfl
        | ok u =>
          have hu := outAppendAll_state e1
          have he : u.entries = inTable s := by
            rw [hu, entries_congr (s := coded (setLen s.ilen s)) (by simp) (by simp), h3]
          simp only [ok_bind, runTser_eq, he]
          cases e2 : outAppendAll (serialTable (inTable s)) u with
          | error e => rfl
          | ok v =>
            have hv := outAppendAll_state e2
            have hblen : v.blen = (coded (setLen s.ilen s)).blen := by rw [hv, hu]; simp
            have hbd : v.bitData = inBits s := by
              rw [← h2]
              have hbit : v.bit = (coded (setLen s.ilen s)).bit := by rw [hv, hu]; simp
              exact bitData_congr hbit hblen
            simp only [ok_bind, runPack]
            rw [checkBit_of_le (by rw [hblen, h1, hv, hu]; simpa using h)]
            simp only [ok_bind, hbd]
      rw [key]
      have hblob : headerBytes s.params.magic s.ilen.toNat (padCount (inBits s).length) ++ serialTable (inTable s) ++
          packBytes (inBits s) = inBlob s := rfl
      rw [hblob, outAppendAll_eq _ _ (by simpa using ho)]
      have hne : inBlob s ≠ [] := by
        intro h0
        have := congrArg List.length h0
        simp [inBlob, blobBytes, headerBytes] at this
      simp only [hne, false_or, restartOut_olen, restartOut_params, coded_params, setLen_params]
      rw [show (0 : Reg).toNat = 0 from rfl, Nat.zero_add]
      by_cases h4 : (inBlob s).length ≤ s.params.outCap
      · rw [if_pos h4, if_pos (And.intro h h4)]
        rfl
      · rw [if_neg h4, if_neg fun h5 => h4 h5.2]
        rfl
    · rw [front_full _ (by simpa using hb) (by simp; omega) (by simpa [hbits] using h), if_neg fun h5 => h h5.1]

/-! ### DECODE -/

theorem runDecode_bad {s : State} (h : s.params.inCap < s.ilen.toNat ∨ s.ilen.toNat < s.ioff.toNat) :
    runDecode s = raise .precond := by
  unfold runDecode
  rw [checkIn_bad h]
  rfl

theorem runDecode_empty {s : State} (h1 : s.ilen.toNat ≤ s.params.inCap) (h2 : s.ioff.toNat ≤ s.ilen.toNat)
    (h : s.order = []) : runDecode s = .ok (restartOut s) := by
  unfold runDecode
  rw [checkIn_of_le h1 h2]
  simp only [ok_bind, restartOut_order, h]
  exact runBdec_empty (by simpa using h)

theorem runDecode_single {s : State} {c : Symbol} (h1 : s.ilen.toNat ≤ s.params.inCap)
    (h2 : s.ioff.toNat ≤ s.ilen.toNat) (h : s.order = [c]) :
    runDecode s = outAppendAll (List.replicate s.len.toNat c) (restartOut s) := by
  unfold runDecode
  rw [checkIn_of_le h1 h2]
  simp only [ok_bind, restartOut_order, h]
  exact runBdec_single (by simpa using h)

/-- The state DECODE matches bits in (R185). -/
def unpacked (s : State) : State :=
  setIoff s.ilen (bitWritten (unpackBits s.inRest s.pad.toNat) (restartBit (restartOut s)))

theorem runDecode_many {s : State} (hc : s.params.bitCap < 2 ^ 64) (h1 : s.ilen.toNat ≤ s.params.inCap)
    (h2 : s.ioff.toNat ≤ s.ilen.toNat) (h : 2 ≤ s.order.length) :
    runDecode s =
      if s.params.bitCap < keptBits (s.ilen.toNat - s.ioff.toNat) s.pad.toNat then raise .capacity
      else bdecLoop (unpackBits s.inRest s.pad.toNat) s.len.toNat [] (unpacked s) := by
  have hrest : (restartOut s).inRest = s.inRest := inRest_congr rfl rfl rfl
  have hu := runUnpack_eq (restartOut s) hc
  simp only [restartOut_params, restartOut_ilen, restartOut_ioff, restartOut_pad, hrest] at hu
  rw [if_neg (by omega)] at hu
  unfold runDecode
  rw [checkIn_of_le h1 h2]
  simp only [ok_bind, restartOut_order, h, if_true, hu]
  by_cases hk : s.params.bitCap < keptBits (s.ilen.toNat - s.ioff.toNat) s.pad.toNat
  · rw [if_pos hk, if_pos hk]; rfl
  · rw [if_neg hk, if_neg hk]
    have hlen : (unpackBits s.inRest s.pad.toNat).length ≤ s.params.bitCap := by
      rw [unpackBits_length, inRest_length]; omega
    have hbd : (unpacked s).bitData = unpackBits s.inRest s.pad.toNat := by
      have e : (unpacked s).bitData =
          (bitWritten (unpackBits s.inRest s.pad.toNat) (restartBit (restartOut s))).bitData := rfl
      rw [e, bitWritten_bitData _ _ (by simp; omega)]
      have : (restartBit (restartOut s)).bitData = [] := by simp [State.bitData]
      rw [this]
      rfl
    have hblen : (unpacked s).blen.toNat = (unpackBits s.inRest s.pad.toNat).length := by
      rw [← hbd, bitData_length]
    rw [show setIoff s.ilen (bitWritten (unpackBits s.inRest s.pad.toNat) (restartBit (restartOut s))) = unpacked s from
      rfl, ok_bind, runBdec_many (by simpa [unpacked] using h) (by rw [hblen]; simpa [unpacked] using hlen), hbd]
    simp [unpacked]

/-! ### DECOMPRESS -/

theorem inSlice_take (s : State) {a b c : Nat} (h1 : a ≤ b) (h2 : b ≤ c) :
    s.inSlice a b = (s.inSlice a c).take (b - a) := by
  refine List.ext_getElem? fun i => ?_
  rw [List.getElem?_take, inSlice_getElem?, inSlice_getElem?]
  by_cases h : i < b - a
  · rw [if_pos h, if_pos h, if_pos (by omega)]
  · rw [if_neg h, if_neg h]

@[simp] theorem headerBytes_length (magic : Vector Byte 4) (len pad : Nat) : (headerBytes magic len pad).length = 13 := by
  simp [headerBytes]

/-- What DECOMPRESS reads from a blob in IN (R202): tag, length, pad count, and where the table begins. -/
theorem header_read {s : State} {magic : Vector Byte 4} {len pad : Nat} {rest : List Byte} (hlen : len < 2 ^ 64)
    (h : s.inData = headerBytes magic len pad ++ rest) :
    13 ≤ s.ilen.toNat ∧ s.inSlice 0 4 = magic.toList ∧ readHeader s =
      setIoff 13 (setPad (BitVec.ofNat 8 pad) (setLen (BitVec.ofNat 64 len) s)) ∧ (readHeader s).inRest = rest := by
  have hl : 13 ≤ s.ilen.toNat := by
    have := congrArg List.length h
    rw [inData_length, List.length_append, headerBytes_length] at this
    omega
  have h13 : s.inSlice 0 13 = headerBytes magic len pad := by
    rw [inSlice_take s (by omega) hl, show s.inSlice 0 s.ilen.toNat = s.inData from rfl, h]
    exact List.take_left' (by simp)
  have ha : s.inSlice 0 4 = magic.toList := by
    rw [inSlice_take s (show 0 ≤ 4 by omega) (show 4 ≤ 13 by omega), h13, headerBytes, List.append_assoc]
    exact List.take_left' (by simp)
  have hb : s.inSlice 4 12 = be len 8 := by
    rw [inSlice_take s (show 4 ≤ 12 by omega) (show 12 ≤ 13 by omega), show s.inSlice 4 13 = (s.inSlice 0 13).drop 4 by
      rw [inSlice_drop], h13, headerBytes, List.append_assoc, List.drop_left' (by simp)]
    exact List.take_left' (by simp)
  have hc : s.inRead 12 = BitVec.ofNat 8 pad := by
    have e := inSlice_getElem? s 0 13 12
    rw [h13] at e
    simpa [headerBytes] using e.symm
  refine ⟨hl, ha, ?_, ?_⟩
  · rw [readHeader, hb, hc, unbe_be _ _ (by omega)]
  · have e : (readHeader s).inRest = s.inSlice 13 s.ilen.toNat := by
      rw [State.inRest]
      exact inSlice_congr rfl _ _
    rw [e, show s.inSlice 13 s.ilen.toNat = (s.inSlice 0 s.ilen.toNat).drop 13 by rw [inSlice_drop],
      show s.inSlice 0 s.ilen.toNat = s.inData from rfl, h]
    exact List.drop_left' (by simp)

/-- DECOMPRESS of a blob with the block's own tag (R202). -/
theorem runDecompress_header {s : State} {len pad : Nat} {rest : List Byte} (hlen : len < 2 ^ 64)
    (hl : s.ilen.toNat ≤ s.params.inCap) (h : s.inData = headerBytes s.params.magic len pad ++ rest) :
    runDecompress s = (runTdes (readHeader s) >>= runDecode) := by
  obtain ⟨h13, ha, -, -⟩ := header_read hlen h
  unfold runDecompress
  rw [checkLen_of_le hl]
  simp only [ok_bind]
  rw [if_neg (by omega), if_neg (by simp [ha])]

theorem runDecompress_format {s : State} (hl : s.ilen.toNat ≤ s.params.inCap)
    (h : s.ilen.toNat < 13 ∨ s.inSlice 0 4 ≠ s.params.magic.toList) : runDecompress s = raise .formatError := by
  unfold runDecompress
  rw [checkLen_of_le hl]
  simp only [ok_bind]
  by_cases h1 : s.ilen.toNat < 13
  · rw [if_pos h1]
  · rw [if_neg h1, if_pos (h.resolve_left h1)]

/-! ### Decoding what was encoded -/

/-- The table of an input is prefix-free, and its codes are not empty. -/
theorem tableOfData_prefixFree (data : List Byte) :
    PrefixFree (tableOfData data) ∧ (∀ e ∈ tableOfData data, e.2 ≠ []) ∧ ((tableOfData data).map Prod.fst).Nodup ∧
      (∀ e ∈ tableOfData data, e.2.length ≤ 255) := by
  have h := (tableFor_spec (setFreq (countsOf data) State.reset)).2
  refine ⟨prefixFree_of_ordered h.ordered, fun e he h0 => ?_, h.symbolsNodup, fun e he => (h.length e he).2⟩
  have := (h.length e he).1
  rw [h0] at this
  simp at this

/-- DECODE of the payload of an input, with its table, gives the input (R186). -/
theorem runDecode_encoded {u : State} {data : List Byte} (ho : u.params.outCap < 2 ^ 64) (hb : u.params.bitCap < 2 ^ 64)
    (h1 : u.ilen.toNat ≤ u.params.inCap) (h2 : u.ioff.toNat ≤ u.ilen.toNat) (ht : u.TableOk)
    (he : u.entries = tableOfData data) (hd : data.length < 2 ^ 64) (hlen : u.len.toNat = data.length)
    (hrest : u.inRest = packBytes (encodeBits (tableOfData data) data))
    (hpad : u.pad.toNat = padCount (encodeBits (tableOfData data) data).length)
    (hcap : (encodeBits (tableOfData data) data).length ≤ u.params.bitCap) (hout : data.length ≤ u.params.outCap) :
    ∃ v, runDecode u = .ok v ∧ v.outData = data ∧ v.olen.toNat = data.length := by
  obtain ⟨hp, hne, hnd, _⟩ := tableOfData_prefixFree data
  have hfst : u.order = (tableOfData data).map Prod.fst := by rw [← entries_fst, he]
  have hmem := fun c => mem_tableOfData hd c
  have fits : ∀ w : State, w.params = u.params → w.olen = 0 → w.outData = [] →
      outAppendAll data w = .ok (outWritten data w) ∧ (outWritten data w).outData = data ∧
        (outWritten data w).olen.toNat = data.length := by
    intro w hw h0 hnil
    refine ⟨?_, ?_, ?_⟩
    · rw [outAppendAll_eq _ _ (by rw [hw]; exact ho), if_pos (.inr (by rw [h0, hw]; simpa using hout))]
    · rw [outWritten_outData _ _ (by rw [h0]; simpa using hd), hnil]; rfl
    · rw [outWritten_olen _ _ (by rw [h0]; simpa using hd), h0]; simp
  have hnil : ∀ w : State, w.olen = 0 → w.outData = [] := fun w hw => by simp [State.outData, hw]
  match hord : u.order with
  | [] =>
    have hdata : data = [] := by
      rw [hord] at hfst
      refine List.eq_nil_iff_forall_not_mem.2 fun c hc => ?_
      have := (hmem c).2 hc
      rw [← hfst] at this
      simp at this
    refine ⟨_, runDecode_empty h1 h2 hord, ?_, ?_⟩
    · rw [hdata, hnil _ rfl]
    · rw [hdata]; rfl
  | [c] =>
    have hdata : data = List.replicate data.length c := by
      refine List.eq_replicate_iff.2 ⟨rfl, fun d hdm => ?_⟩
      have := (hmem d).2 hdm
      rw [← hfst, hord] at this
      simpa using this
    obtain ⟨f1, f2, f3⟩ := fits (restartOut u) rfl rfl (hnil _ rfl)
    refine ⟨_, ?_, f2, f3⟩
    rw [runDecode_single h1 h2 hord, hlen, ← hdata, f1]
  | a :: b :: rest =>
    have hmany : 2 ≤ u.order.length := by rw [hord]; simp
    have hbits : unpackBits u.inRest u.pad.toNat = encodeBits (tableOfData data) data := by
      rw [hrest, hpad, unpackBits_packBytes]
    have hk : keptBits (u.ilen.toNat - u.ioff.toNat) u.pad.toNat = (encodeBits (tableOfData data) data).length := by
      rw [← hbits, unpackBits_length, inRest_length]
    rw [runDecode_many hb h1 h2 hmany, if_neg (by rw [hk]; omega), hbits, hlen]
    have hunp : (unpacked u).entries = tableOfData data := by
      rw [← he]
      exact entries_congr (by simp [unpacked]) (by simp [unpacked])
    have hw := encode_words hp hne hnd data fun c hc => (hmem c).2 hc
    have := bdecLoop_words hw (s := unpacked u) (TableOk_congr ht (by simp [unpacked]) (by simp [unpacked])) hunp [] 0
    rw [List.append_nil, ← encodeBits_eq, Nat.add_zero] at this
    obtain ⟨f1, f2, f3⟩ := fits (unpacked u) (by simp [unpacked]) (by simp [unpacked])
      (hnil _ (by simp [unpacked]))
    refine ⟨_, ?_, f2, f3⟩
    rw [this, f1, ok_bind, bdecLoop_done]

end Sys2Proof.Laws
end

