-- ==== Sys2Proof/Laws/PerInstr.lean ====
section
/-!
SUPPORT. Laws/PerInstr.lean: statements made command by command. Family EncodingRow: the encoding of a command is the row
of the opcode map (30_encoding.md R90, R92) that selects it.
-/
namespace Sys2Proof.Laws

open Sys2Proof

/-- A command has one row in the opcode map, and its encoding has that row's fields. -/
def EncodingRow.Statement (i : Instr) : Prop :=
  ∃ r ∈ opcodeMap, r.instr = i ∧ grpField (encode i) = r.grp ∧ fnField (encode i) = r.fn

theorem EncodingRow.nop : EncodingRow.Statement .nop := ⟨⟨0, 0, .nop⟩, by decide, rfl, rfl, rfl⟩
theorem EncodingRow.sreset : EncodingRow.Statement .sreset := ⟨⟨0, 1, .sreset⟩, by decide, rfl, rfl, rfl⟩
theorem EncodingRow.pack : EncodingRow.Statement .pack := ⟨⟨1, 0, .pack⟩, by decide, rfl, rfl, rfl⟩
theorem EncodingRow.unpack : EncodingRow.Statement .unpack := ⟨⟨1, 1, .unpack⟩, by decide, rfl, rfl, rfl⟩
theorem EncodingRow.tser : EncodingRow.Statement .tser := ⟨⟨2, 0, .tser⟩, by decide, rfl, rfl, rfl⟩
theorem EncodingRow.tdes : EncodingRow.Statement .tdes := ⟨⟨2, 1, .tdes⟩, by decide, rfl, rfl, rfl⟩
theorem EncodingRow.tinit : EncodingRow.Statement .tinit := ⟨⟨3, 0, .tinit⟩, by decide, rfl, rfl, rfl⟩
theorem EncodingRow.tmerge : EncodingRow.Statement .tmerge := ⟨⟨3, 1, .tmerge⟩, by decide, rfl, rfl, rfl⟩
theorem EncodingRow.tbuild : EncodingRow.Statement .tbuild := ⟨⟨3, 2, .tbuild⟩, by decide, rfl, rfl, rfl⟩
theorem EncodingRow.genc : EncodingRow.Statement .genc := ⟨⟨3, 3, .genc⟩, by decide, rfl, rfl, rfl⟩
theorem EncodingRow.fcnt : EncodingRow.Statement .fcnt := ⟨⟨4, 0, .fcnt⟩, by decide, rfl, rfl, rfl⟩
theorem EncodingRow.bgen : EncodingRow.Statement .bgen := ⟨⟨4, 1, .bgen⟩, by decide, rfl, rfl, rfl⟩
theorem EncodingRow.bdec : EncodingRow.Statement .bdec := ⟨⟨4, 2, .bdec⟩, by decide, rfl, rfl, rfl⟩
theorem EncodingRow.encode : EncodingRow.Statement .encode := ⟨⟨4, 3, .encode⟩, by decide, rfl, rfl, rfl⟩
theorem EncodingRow.decode : EncodingRow.Statement .decode := ⟨⟨4, 4, .decode⟩, by decide, rfl, rfl, rfl⟩
theorem EncodingRow.compress : EncodingRow.Statement .compress := ⟨⟨5, 0, .compress⟩, by decide, rfl, rfl, rfl⟩
theorem EncodingRow.decompress : EncodingRow.Statement .decompress := ⟨⟨5, 1, .decompress⟩, by decide, rfl, rfl, rfl⟩

/-- The two fields make up the byte (R90). -/
theorem grp_append_fn (c : Byte) : grpField c ++ fnField c = c := by
  revert c
  decide +kernel

/-- A byte that decodes is the encoding of what it decodes to (R92). -/
theorem encode_of_decode {c : Byte} {i : Instr} (h : Sys2Proof.decode c = .ok i) : Sys2Proof.encode i = c := by
  unfold Sys2Proof.decode at h
  split at h
  · rename_i r hr
    have hm := List.mem_of_find?_eq_some hr
    have hp := List.find?_some hr
    simp only [Except.ok.injEq] at h
    subst h
    simp only [decide_eq_true_eq] at hp
    have key : ∀ r ∈ opcodeMap, Sys2Proof.encode r.instr = r.grp ++ r.fn := by decide
    rw [key r hm, hp.1, hp.2, grp_append_fn]
  · simp at h

end Sys2Proof.Laws
end

