-- ==== Sys2Proof/Laws/Keeps.lean ====
section
/-!
SUPPORT. Laws/Keeps.lean: of the pseudocode of every command: what it leaves alone, that it keeps the invariants of
10_state.md R41, and what it can raise (60_exceptions.md R211).
-/
namespace Sys2Proof.Laws

open Sys2Proof Sys2Proof.Machine

/-! ### What a command leaves alone -/

theorem Unchanged_refl (l : List Field) (s : State) : Unchanged l s s := fun f _ => by cases f <;> rfl

theorem Unchanged_trans {l : List Field} {s t u : State} (h1 : Unchanged l s t) (h2 : Unchanged l t u) :
    Unchanged l s u := by
  intro f hf
  have a := h1 f hf
  have b := h2 f hf
  cases f <;> exact b.trans a

theorem Unchanged_mono {l m : List Field} {s t : State} (h : Unchanged l s t) (hs : l ⊆ m) : Unchanged m s t :=
  fun f hf => h f fun hm => hf (hs hm)

theorem Unchanged_outWritten (l : List Byte) (s : State) : Unchanged [.out, .olen] s (outWritten l s) := by
  intro f hf
  cases f <;> simp_all [Field.Same]

theorem Unchanged_bitWritten (l : BitSeq) (s : State) : Unchanged [.bit, .blen] s (bitWritten l s) := by
  intro f hf
  cases f <;> simp_all [Field.Same]

theorem Unchanged_putEntries (es : List (Symbol × BitSeq)) (s : State) :
    Unchanged [.code, .order] s (putEntries es s) := by
  intro f hf
  cases f <;> simp_all [Field.Same]

theorem Unchanged_withTree (t s : State) : Unchanged treeFields s (withTree t s) := by
  intro f hf
  cases f <;> simp_all [Field.Same, treeFields]

theorem Unchanged_restartOut (s : State) : Unchanged [.out, .olen] s (restartOut s) := by
  intro f hf
  cases f <;> simp_all [Field.Same]

theorem Unchanged_restartBit (s : State) : Unchanged [.bit, .blen] s (restartBit s) := by
  intro f hf
  cases f <;> simp_all [Field.Same]

theorem Unchanged_clearTable (s : State) : Unchanged [.code, .order] s (clearTable s) := by
  intro f hf
  cases f <;> simp_all [Field.Same]

theorem Unchanged_setIoff (v : Reg) (s : State) : Unchanged [.ioff] s (setIoff v s) := by
  intro f hf
  cases f <;> simp_all [Field.Same]

theorem Unchanged_setLen (v : Reg) (s : State) : Unchanged [.len] s (setLen v s) := by
  intro f hf
  cases f <;> simp_all [Field.Same]

theorem Unchanged_setPad (v : BitVec 8) (s : State) : Unchanged [.pad] s (setPad v s) := by
  intro f hf
  cases f <;> simp_all [Field.Same]

theorem Unchanged_setFreq (v : Vector Counter 256) (s : State) : Unchanged [.freq] s (setFreq v s) := by
  intro f hf
  cases f <;> simp_all [Field.Same]

/-! ### The invariants of the data -/

/-- The parts of the invariant a command's pseudocode works on (R41). -/
structure DataOk (s : State) : Prop where
  params : s.params.wf = true
  buffers : s.BuffersOk
  forest : s.Forest
  rootShown : s.RootShown
  table : s.TableOk

/-- The pseudocode keeps the invariants, and writes no field but those listed. -/
structure Keeps (run : State → Run) (l : List Field) : Prop where
  data : ∀ {s t}, DataOk s → run s = .ok t → DataOk t
  frame : ∀ {s t}, run s = .ok t → Unchanged l s t

theorem BuffersOk_congr {s t : State} (h : s.BuffersOk) (h1 : t.inp = s.inp) (h2 : t.out = s.out) (h3 : t.bit = s.bit)
    (h4 : t.params = s.params) : t.BuffersOk :=
  ⟨by rw [h1, h4]; exact h.inp, by rw [h2, h4]; exact h.out, by rw [h3, h4]; exact h.bit⟩

theorem DataOk_congr {s t : State} (h : DataOk s) (hp : t.params = s.params) (h1 : t.inp = s.inp) (h2 : t.out = s.out)
    (h3 : t.bit = s.bit) (h4 : t.node = s.node) (h5 : t.heap = s.heap) (h6 : t.next = s.next) (h7 : t.rv = s.rv)
    (h8 : t.root = s.root) (h9 : t.order = s.order) (h10 : t.code = s.code) : DataOk t :=
  ⟨hp ▸ h.params, BuffersOk_congr h.buffers h1 h2 h3 hp, Forest_congr h.forest h4 h5 h6, RootShown_congr h.rootShown h5 h7 h8,
    TableOk_congr h.table h9 h10⟩

theorem DataOk_setIoff {s : State} (h : DataOk s) (v : Reg) : DataOk (setIoff v s) :=
  DataOk_congr h rfl rfl rfl rfl rfl rfl rfl rfl rfl rfl rfl

theorem DataOk_setLen {s : State} (h : DataOk s) (v : Reg) : DataOk (setLen v s) :=
  DataOk_congr h rfl rfl rfl rfl rfl rfl rfl rfl rfl rfl rfl

theorem DataOk_setPad {s : State} (h : DataOk s) (v : BitVec 8) : DataOk (setPad v s) :=
  DataOk_congr h rfl rfl rfl rfl rfl rfl rfl rfl rfl rfl rfl

theorem DataOk_setFreq {s : State} (h : DataOk s) (v : Vector Counter 256) : DataOk (setFreq v s) :=
  DataOk_congr h rfl rfl rfl rfl rfl rfl rfl rfl rfl rfl rfl

theorem DataOk_restartOut {s : State} (h : DataOk s) : DataOk (restartOut s) :=
  ⟨h.params, ⟨h.buffers.inp, MemOk_restart h.buffers.out _, h.buffers.bit⟩, Forest_congr h.forest rfl rfl rfl,
    RootShown_congr h.rootShown rfl rfl rfl, TableOk_congr h.table rfl rfl⟩

theorem DataOk_restartBit {s : State} (h : DataOk s) : DataOk (restartBit s) :=
  ⟨h.params, ⟨h.buffers.inp, h.buffers.out, MemOk_restart h.buffers.bit _⟩, Forest_congr h.forest rfl rfl rfl,
    RootShown_congr h.rootShown rfl rfl rfl, TableOk_congr h.table rfl rfl⟩

theorem DataOk_clearTable {s : State} (h : DataOk s) : DataOk (clearTable s) :=
  ⟨h.params, BuffersOk_congr h.buffers rfl rfl rfl rfl, Forest_congr h.forest rfl rfl rfl,
    RootShown_congr h.rootShown rfl rfl rfl, clearTable_tableOk s⟩

theorem DataOk_withTable {s t : State} (h : DataOk s) (hu : Unchanged [.code, .order] s t) (ht : t.TableOk) : DataOk t := by
  have e := fun f hf => hu f hf
  exact ⟨(e .params (by decide)) ▸ h.params,
    BuffersOk_congr h.buffers (e .inp (by decide)) (e .out (by decide)) (e .bit (by decide)) (e .params (by decide)),
    Forest_congr h.forest (e .node (by decide)) (e .heap (by decide)) (e .next (by decide)),
    RootShown_congr h.rootShown (e .heap (by decide)) (e .rv (by decide)) (e .root (by decide)), ht⟩

theorem DataOk_withTree {s t : State} (h : DataOk s) (hu : t = withTree t s) (hf : t.Forest) (hr : t.RootShown) :
    DataOk t := by
  refine ⟨?_, ?_, hf, hr, ?_⟩
  · rw [hu]; exact h.params
  · rw [hu]; exact BuffersOk_congr h.buffers rfl rfl rfl rfl
  · rw [hu]; exact TableOk_congr h.table rfl rfl

theorem DataOk_outAppendAll {s t : State} {l : List Byte} (h : DataOk s) (hr : outAppendAll l s = .ok t) : DataOk t := by
  have hc := outCap_lt h.params
  obtain ⟨rfl, hfit⟩ := outAppendAll_ok hc hr
  have hb : (outWritten l s).BuffersOk := by
    refine ⟨by simpa using h.buffers.inp, ?_, by simpa using h.buffers.bit⟩
    simp only [outWritten_params]
    rcases hfit with rfl | hfit
    · exact h.buffers.out
    · exact outWritten_ok l s hc h.buffers.out hfit
  exact ⟨by simpa using h.params, hb, Forest_congr h.forest (by simp) (by simp) (by simp),
    RootShown_congr h.rootShown (by simp) (by simp) (by simp), TableOk_congr h.table (by simp) (by simp)⟩

theorem DataOk_bitAppendAll {s t : State} {l : BitSeq} (h : DataOk s) (hr : bitAppendAll l s = .ok t) : DataOk t := by
  have hc := bitCap_lt h.params
  obtain ⟨rfl, hfit⟩ := bitAppendAll_ok hc hr
  have hb : (bitWritten l s).BuffersOk := by
    refine ⟨by simpa using h.buffers.inp, by simpa using h.buffers.out, ?_⟩
    simp only [bitWritten_params]
    rcases hfit with rfl | hfit
    · exact h.buffers.bit
    · exact bitWritten_ok l s hc h.buffers.bit hfit
  exact ⟨by simpa using h.params, hb, Forest_congr h.forest (by simp) (by simp) (by simp),
    RootShown_congr h.rootShown (by simp) (by simp) (by simp), TableOk_congr h.table (by simp) (by simp)⟩

/-! ### The unit commands -/

theorem Keeps_pure {f : State → State} {l : List Field} (hd : ∀ {s}, DataOk s → DataOk (f s))
    (hf : ∀ s, Unchanged l s (f s)) : Keeps (fun s => .ok (f s)) l :=
  ⟨fun h e => by cases e; exact hd h, fun e => by cases e; exact hf _⟩

theorem runNop_keeps : Keeps runNop [] :=
  ⟨fun h e => by cases e; exact h, fun e => by cases e; exact Unchanged_refl _ _⟩

theorem runPack_keeps : Keeps runPack [.out, .olen, .pad] := by
  have key : ∀ {s t}, runPack s = .ok t → ∃ l u v, outAppendAll l s = .ok u ∧ t = setPad v u := by
    intro s t h0
    obtain ⟨a, h1, h⟩ := bind_eq_ok.1 h0
    obtain ⟨rfl, _⟩ := checkBit_ok h1
    obtain ⟨u, h2, h⟩ := bind_eq_ok.1 h
    exact ⟨_, u, _, h2, (Except.ok.inj h).symm⟩
  constructor
  · intro s t hd h
    obtain ⟨l, u, v, h1, rfl⟩ := key h
    exact DataOk_setPad (DataOk_outAppendAll hd h1) _
  · intro s t h
    obtain ⟨l, u, v, h1, rfl⟩ := key h
    rw [outAppendAll_state h1]
    exact Unchanged_trans (Unchanged_mono (Unchanged_outWritten l s) (by simp))
      (Unchanged_mono (Unchanged_setPad v _) (by simp))

theorem runUnpack_keeps : Keeps runUnpack [.bit, .blen, .ioff] := by
  have key : ∀ {s t}, runUnpack s = .ok t → ∃ l u v, bitAppendAll l (restartBit s) = .ok u ∧ t = setIoff v u := by
    intro s t h0
    obtain ⟨a, h1, h⟩ := bind_eq_ok.1 h0
    obtain ⟨rfl, _⟩ := checkIn_ok h1
    simp only at h
    split at h
    · simp [raise] at h
    · obtain ⟨u, h2, h⟩ := bind_eq_ok.1 h
      rw [unpackLoop_eq] at h2
      exact ⟨_, u, _, h2, (Except.ok.inj h).symm⟩
  constructor
  · intro s t hd h
    obtain ⟨l, u, v, h1, rfl⟩ := key h
    exact DataOk_setIoff (DataOk_bitAppendAll (DataOk_restartBit hd) h1) _
  · intro s t h
    obtain ⟨l, u, v, h1, rfl⟩ := key h
    rw [bitAppendAll_state h1]
    exact Unchanged_trans (Unchanged_mono (Unchanged_restartBit s) (by simp))
      (Unchanged_trans (Unchanged_mono (Unchanged_bitWritten l _) (by simp))
        (Unchanged_mono (Unchanged_setIoff v _) (by simp)))

theorem runTser_keeps : Keeps runTser [.out, .olen] := by
  constructor
  · intro s t hd h
    rw [runTser_eq] at h
    exact DataOk_outAppendAll hd h
  · intro s t h
    rw [runTser_eq] at h
    rw [outAppendAll_state h]
    exact Unchanged_outWritten _ s

theorem tdesNext_ok {s : State} {p : Byte × State} (h : tdesNext s = .ok p) : ∃ v, p.2 = setIoff v s := by
  unfold tdesNext at h
  split at h
  · simp [raise] at h
  · exact ⟨_, by rw [← Except.ok.inj h]⟩

theorem setIoff_setIoff (v w : Reg) (s : State) : setIoff v (setIoff w s) = setIoff v s := rfl

theorem tdesRaw_state (n : Nat) : ∀ {s : State} {p : BitSeq × State}, tdesRaw n s = .ok p →
    p.1.length = 8 * n ∧ ∃ v, p.2 = setIoff v s := by
  induction n with
  | zero => intro s p h; cases h; exact ⟨rfl, s.ioff, rfl⟩
  | succ n ih =>
    intro s p h
    obtain ⟨q, h1, h⟩ := bind_eq_ok.1 h
    obtain ⟨r, h2, h⟩ := bind_eq_ok.1 h
    obtain ⟨v, hv⟩ := tdesNext_ok h1
    obtain ⟨hl, w, hw⟩ := ih h2
    have := Except.ok.inj h
    subst this
    exact ⟨by simp [hl]; omega, w, by rw [hw, hv]; rfl⟩

theorem tdesEntry_keeps : Keeps tdesEntry [.code, .order, .ioff] := by
  have key : ∀ {s t}, tdesEntry s = .ok t → ∃ c bits v, bits.length ≤ 255 ∧ t = putEntry c bits (setIoff v s) := by
    intro s t h
    obtain ⟨p1, h1, h⟩ := bind_eq_ok.1 h
    obtain ⟨p2, h2, h⟩ := bind_eq_ok.1 h
    obtain ⟨p3, h3, h⟩ := bind_eq_ok.1 h
    obtain ⟨v1, e1⟩ := tdesNext_ok h1
    obtain ⟨v2, e2⟩ := tdesNext_ok h2
    obtain ⟨_, v3, e3⟩ := tdesRaw_state _ h3
    refine ⟨p1.1, p3.1.take p2.1.toNat, v3, ?_, ?_⟩
    · have := p2.1.isLt
      rw [List.length_take]
      omega
    · rw [← Except.ok.inj h, e3, e2, e1]
      rfl
  constructor
  · intro s t hd h
    obtain ⟨c, bits, v, hb, rfl⟩ := key h
    exact DataOk_withTable (DataOk_setIoff hd v) (Unchanged_putEntries [(c, bits)] _)
      (putEntry_tableOk (DataOk_setIoff hd v).table c hb)
  · intro s t h
    obtain ⟨c, bits, v, hb, rfl⟩ := key h
    exact Unchanged_trans (Unchanged_mono (Unchanged_setIoff v s) (by simp))
      (Unchanged_mono (Unchanged_putEntries [(c, bits)] _) (by simp))

theorem tdesEntries_keeps (n : Nat) : Keeps (tdesEntries n) [.code, .order, .ioff] := by
  induction n with
  | zero => exact ⟨fun h e => by cases e; exact h, fun e => by cases e; exact Unchanged_refl _ _⟩
  | succ n ih =>
    constructor
    · intro s t hd h
      obtain ⟨u, h1, h⟩ := bind_eq_ok.1 h
      exact ih.data (tdesEntry_keeps.data hd h1) h
    · intro s t h
      obtain ⟨u, h1, h⟩ := bind_eq_ok.1 h
      exact Unchanged_trans (tdesEntry_keeps.frame h1) (ih.frame h)

theorem runTdes_keeps : Keeps runTdes [.code, .order, .ioff] := by
  have key : ∀ {s t}, runTdes s = .ok t → ∃ n v, tdesEntries n (setIoff v (clearTable s)) = .ok t := by
    intro s t h0
    obtain ⟨a, h1, h⟩ := bind_eq_ok.1 h0
    obtain ⟨rfl, _⟩ := checkIn_ok h1
    obtain ⟨p1, h1, h⟩ := bind_eq_ok.1 h
    obtain ⟨p2, h2, h⟩ := bind_eq_ok.1 h
    obtain ⟨v1, e1⟩ := tdesNext_ok h1
    obtain ⟨v2, e2⟩ := tdesNext_ok h2
    refine ⟨unbe [p1.1, p2.1], v2, ?_⟩
    have e3 : p2.2 = setIoff v2 (clearTable a) := by rw [e2, e1]; rfl
    rw [← e3]
    exact h
  constructor
  · intro s t hd h
    obtain ⟨n, v, h⟩ := key h
    exact (tdesEntries_keeps n).data (DataOk_setIoff (DataOk_clearTable hd) v) h
  · intro s t h
    obtain ⟨n, v, h⟩ := key h
    exact Unchanged_trans (Unchanged_mono (Unchanged_clearTable s) (by simp))
      (Unchanged_trans (Unchanged_mono (Unchanged_setIoff v _) (by simp)) ((tdesEntries_keeps n).frame h))

theorem withTree_frame {s t : State} (h : t = withTree t s) : Unchanged treeFields s t := by
  rw [h]
  exact Unchanged_withTree t s

theorem runTinit_keeps : Keeps runTinit treeFields :=
  Keeps_pure (fun {s} hd => DataOk_withTree hd (tinit_frame s) (tinit_forest s) (tinit_rootShown s))
    fun s => withTree_frame (tinit_frame s)

theorem runTmerge_keeps : Keeps runTmerge treeFields :=
  Keeps_pure (fun {s} hd => DataOk_withTree hd (tmerge_frame s) (tmerge_forest hd.forest) (tmerge_rootShown hd.rootShown))
    fun s => withTree_frame (tmerge_frame s)

theorem runTbuild_keeps : Keeps runTbuild treeFields :=
  Keeps_pure (fun {s} hd => DataOk_withTree hd (tbuild_frame s) (tbuild_spec s).1 (tbuild_spec s).2.1)
    fun s => withTree_frame (tbuild_frame s)

theorem recordCodes_frame (es : List (Symbol × BitSeq)) : ∀ s : State, Unchanged [.code, .order] s (es.foldl recordCode s) := by
  induction es with
  | nil => intro s; exact Unchanged_refl _ s
  | cons e es ih =>
    intro s
    refine Unchanged_trans ?_ (ih (recordCode s e))
    intro f hf
    cases f <;> simp_all [Field.Same, recordCode]

theorem runGenc_keeps : Keeps runGenc [.code, .order] := by
  constructor
  · intro s t hd h
    by_cases h2 : 2 ≤ s.heap.length
    · rw [runGenc_unfinished h2] at h
      simp [raise] at h
    · obtain ⟨l, h1, h3⟩ := runGenc_ok hd.forest (by omega)
      rw [h1] at h
      cases h
      exact DataOk_withTable hd (Unchanged_trans (Unchanged_clearTable s) (Unchanged_putEntries l _))
        (putEntries_tableOk (fun e he => (h3.length e he).2) (clearTable_tableOk s))
  · intro s t h
    unfold runGenc at h
    split at h
    · cases h; exact Unchanged_clearTable s
    · split at h
      · cases h
        exact Unchanged_trans (Unchanged_clearTable s) (recordCodes_frame _ _)
      · simp at h
    · simp [raise] at h

theorem runFcnt_keeps : Keeps runFcnt [.freq] := by
  have key : ∀ {s t}, runFcnt s = .ok t → t = setFreq (countsOf s.inData) s := by
    intro s t h
    rw [runFcnt_eq] at h
    split at h
    · simp [raise] at h
    · exact (Except.ok.inj h).symm
  exact ⟨fun hd h => by rw [key h]; exact DataOk_setFreq hd _, fun h => by rw [key h]; exact Unchanged_setFreq _ _⟩

theorem runBgen_keeps : Keeps runBgen [.bit, .blen] := by
  have key : ∀ {s t}, runBgen s = .ok t → ∃ bits, bitAppendAll bits (restartBit s) = .ok t := by
    intro s t h0
    obtain ⟨a, h1, h⟩ := bind_eq_ok.1 h0
    obtain ⟨rfl, _⟩ := checkLen_ok h1
    exact bgenLoop_ok _ h
  constructor
  · intro s t hd h
    obtain ⟨bits, h⟩ := key h
    exact DataOk_bitAppendAll (DataOk_restartBit hd) h
  · intro s t h
    obtain ⟨bits, h⟩ := key h
    rw [bitAppendAll_state h]
    exact Unchanged_trans (Unchanged_restartBit s) (Unchanged_bitWritten _ _)

theorem runBdec_keeps : Keeps runBdec [.out, .olen] := by
  constructor
  · intro s t hd h
    obtain ⟨syms, h⟩ := runBdec_ok h
    exact DataOk_outAppendAll hd h
  · intro s t h
    obtain ⟨syms, h⟩ := runBdec_ok h
    rw [outAppendAll_state h]
    exact Unchanged_outWritten _ _

/-! ### Sequences -/

theorem Keeps_bind {f g : State → Run} {l : List Field} (hf : Keeps f l) (hg : Keeps g l) :
    Keeps (fun s => f s >>= g) l := by
  constructor
  · intro s t hd h
    obtain ⟨u, h1, h⟩ := bind_eq_ok.1 h
    exact hg.data (hf.data hd h1) h
  · intro s t h
    obtain ⟨u, h1, h⟩ := bind_eq_ok.1 h
    exact Unchanged_trans (hf.frame h1) (hg.frame h)

theorem Keeps_mono {f : State → Run} {l m : List Field} (h : Keeps f l) (hs : l ⊆ m) : Keeps f m :=
  ⟨h.data, fun e => Unchanged_mono (h.frame e) hs⟩

theorem checkLen_keeps (l : List Field) : Keeps checkLen l :=
  ⟨fun h e => (checkLen_ok e).1 ▸ h, fun e => (checkLen_ok e).1 ▸ Unchanged_refl _ _⟩

theorem checkIn_keeps (l : List Field) : Keeps checkIn l :=
  ⟨fun h e => (checkIn_ok e).1 ▸ h, fun e => (checkIn_ok e).1 ▸ Unchanged_refl _ _⟩

theorem runEncode_keeps : Keeps runEncode (writtenBy .encode) := by
  have h : Keeps (fun s => checkLen s >>= fun s => (Except.ok (restartOut (setLen s.ilen s)) : Run) >>= fun s =>
      runFcnt s >>= fun s => runTbuild s >>= fun s => runGenc s >>= fun s => runBgen s >>= runPack)
      (writtenBy .encode) :=
    Keeps_bind (checkLen_keeps _) (Keeps_bind
      (Keeps_pure (fun h => DataOk_restartOut (DataOk_setLen h _)) fun s =>
        Unchanged_trans (Unchanged_mono (Unchanged_setLen _ s) (by decide))
          (Unchanged_mono (Unchanged_restartOut _) (by decide)))
      (Keeps_bind (Keeps_mono runFcnt_keeps (by decide)) (Keeps_bind (Keeps_mono runTbuild_keeps (by decide))
        (Keeps_bind (Keeps_mono runGenc_keeps (by decide)) (Keeps_bind (Keeps_mono runBgen_keeps (by decide))
          (Keeps_mono runPack_keeps (by decide)))))))
  exact h

theorem runDecode_keeps : Keeps runDecode (writtenBy .decode) := by
  have hif : Keeps (fun s : State => if 2 ≤ s.order.length then runUnpack s else .ok s) (writtenBy .decode) := by
    constructor
    · intro s t hd h
      split at h
      · exact runUnpack_keeps.data hd h
      · cases h; exact hd
    · intro s t h
      split at h
      · exact Unchanged_mono (runUnpack_keeps.frame h) (by decide)
      · cases h; exact Unchanged_refl _ _
  have h : Keeps (fun s => checkIn s >>= fun s => (Except.ok (restartOut s) : Run) >>= fun s =>
      (if 2 ≤ s.order.length then runUnpack s else .ok s) >>= runBdec) (writtenBy .decode) :=
    Keeps_bind (checkIn_keeps _) (Keeps_bind
      (Keeps_pure DataOk_restartOut fun s => Unchanged_mono (Unchanged_restartOut s) (by decide))
      (Keeps_bind hif (Keeps_mono runBdec_keeps (by decide))))
  have e : runDecode = fun s => checkIn s >>= fun s => (Except.ok (restartOut s) : Run) >>= fun s =>
      (if 2 ≤ s.order.length then runUnpack s else .ok s) >>= runBdec := by
    funext s
    unfold runDecode
    cases checkIn s with
    | error e => rfl
    | ok u =>
      simp only [ok_bind]
      split <;> rfl
  rw [e]
  exact h

theorem runCompress_keeps : Keeps runCompress (writtenBy .compress) := by
  have hout : ∀ l : State → List Byte, Keeps (fun s => outAppendAll (l s) s) (writtenBy .compress) := fun l =>
    ⟨fun hd e => DataOk_outAppendAll hd e, fun e => by
      rw [outAppendAll_state e]
      exact Unchanged_mono (Unchanged_outWritten _ _) (by decide)⟩
  have hhead : Keeps (fun s : State => outAppendAll (headerBytes s.params.magic s.len.toNat (padCount s.blen.toNat))
      (restartOut s)) (writtenBy .compress) :=
    Keeps_bind (f := fun s => .ok (restartOut s))
      (Keeps_pure DataOk_restartOut fun s => Unchanged_mono (Unchanged_restartOut s) (by decide))
      (hout fun s => headerBytes s.params.magic s.len.toNat (padCount s.blen.toNat))
  have h : Keeps (fun s => checkLen s >>= fun s => (Except.ok (setLen s.ilen s) : Run) >>= fun s =>
      runFcnt s >>= fun s => runTbuild s >>= fun s => runGenc s >>= fun s => runBgen s >>= fun s =>
      outAppendAll (headerBytes s.params.magic s.len.toNat (padCount s.blen.toNat)) (restartOut s) >>= fun s =>
      runTser s >>= runPack) (writtenBy .compress) :=
    Keeps_bind (checkLen_keeps _) (Keeps_bind
      (Keeps_pure (fun h => DataOk_setLen h _) fun s => Unchanged_mono (Unchanged_setLen _ s) (by decide))
      (Keeps_bind (Keeps_mono runFcnt_keeps (by decide)) (Keeps_bind (Keeps_mono runTbuild_keeps (by decide))
        (Keeps_bind (Keeps_mono runGenc_keeps (by decide)) (Keeps_bind (Keeps_mono runBgen_keeps (by decide))
          (Keeps_bind hhead (Keeps_bind (Keeps_mono runTser_keeps (by decide))
            (Keeps_mono runPack_keeps (by decide)))))))))
  exact h

theorem runDecompress_keeps : Keeps runDecompress (writtenBy .decompress) := by
  have hhead : ∀ s, Unchanged (writtenBy .decompress) s (readHeader s) := fun s =>
    Unchanged_trans (Unchanged_mono (Unchanged_setLen _ s) (by decide))
      (Unchanged_trans (Unchanged_mono (Unchanged_setPad _ _) (by decide))
        (Unchanged_mono (Unchanged_setIoff _ _) (by decide)))
  have key : ∀ {s t}, runDecompress s = .ok t → ∃ u, runTdes (readHeader s) = .ok u ∧ runDecode u = .ok t := by
    intro s t h0
    obtain ⟨a, h1, h⟩ := bind_eq_ok.1 h0
    obtain ⟨rfl, _⟩ := checkLen_ok h1
    split at h
    · simp [raise] at h
    · split at h
      · simp [raise] at h
      · exact bind_eq_ok.1 h
  constructor
  · intro s t hd h
    obtain ⟨u, h1, h2⟩ := key h
    exact runDecode_keeps.data (runTdes_keeps.data (DataOk_setIoff (DataOk_setPad (DataOk_setLen hd _) _) _) h1) h2
  · intro s t h
    obtain ⟨u, h1, h2⟩ := key h
    exact Unchanged_trans (hhead s) (Unchanged_trans (Unchanged_mono (runTdes_keeps.frame h1) (by decide))
      (Unchanged_mono (runDecode_keeps.frame h2) (by decide)))

end Sys2Proof.Laws
end

