-- ==== Sys2Proof/Laws/Raises.lean ====
section
/-!
SUPPORT. Laws/Raises.lean: which causes the pseudocode of each command can raise (60_exceptions.md R211), and that none is
stuck where the invariants hold (40_common_and_control.md R111). Then what follows for exec and for step.
-/
namespace Sys2Proof.Laws

open Sys2Proof Sys2Proof.Machine

/-- Where the pseudocode ends early it raises one of the causes listed; it is stuck only where the invariants do not
hold. -/
structure Raises (run : State → Run) (cs : List Cause) : Prop where
  cause : ∀ {s e}, run s = .error e → e = .stuck .treeTooDeep ∨ ∃ c ∈ cs, e = .raise c
  free : ∀ {s}, DataOk s → run s ≠ .error (.stuck .treeTooDeep)

theorem bind_eq_error {α β : Type} {x : Except Stop α} {f : α → Except Stop β} {e : Stop} (h : (x >>= f) = .error e) :
    x = .error e ∨ ∃ a, x = .ok a ∧ f a = .error e := by
  cases x with
  | error e' => exact .inl (by simpa using h)
  | ok a => exact .inr ⟨a, rfl, by simpa using h⟩

theorem Raises_bind {f g : State → Run} {l : List Field} {cs : List Cause} (hf : Raises f cs) (hk : Keeps f l)
    (hg : Raises g cs) : Raises (fun s => f s >>= g) cs := by
  constructor
  · intro s e h
    rcases bind_eq_error h with h | ⟨u, _, h⟩
    · exact hf.cause h
    · exact hg.cause h
  · intro s hd h
    rcases bind_eq_error h with h | ⟨u, h1, h⟩
    · exact hf.free hd h
    · exact hg.free (hk.data hd h1) h

theorem Raises_mono {f : State → Run} {cs ds : List Cause} (h : Raises f cs) (hs : cs ⊆ ds) : Raises f ds :=
  ⟨fun e => (h.cause e).imp id fun ⟨c, hc, he⟩ => ⟨c, hs hc, he⟩, h.free⟩

theorem Raises_pure (f : State → State) (cs : List Cause) : Raises (fun s => .ok (f s)) cs :=
  ⟨fun h => by simp at h, fun _ h => by simp at h⟩

/-- A run that only raises causes of the list. -/
theorem Raises_of {f : State → Run} {cs : List Cause} (h : ∀ {s e}, f s = .error e → ∃ c ∈ cs, e = .raise c) : Raises f cs :=
  ⟨fun e => .inr (h e), fun _ hs => by
    obtain ⟨c, _, he⟩ := h hs
    simp at he⟩

theorem checkLen_raises : Raises checkLen [.precond] :=
  Raises_of fun {s e} h => by
    rw [checkLen_eq] at h
    split at h
    · exact ⟨.precond, by simp, (Except.error.inj h).symm⟩
    · simp at h

theorem checkIn_raises : Raises checkIn [.precond] :=
  Raises_of fun {s e} h => by
    by_cases hb : s.params.inCap < s.ilen.toNat ∨ s.ilen.toNat < s.ioff.toNat
    · rw [checkIn_bad hb] at h
      exact ⟨.precond, by simp, (Except.error.inj h).symm⟩
    · rw [checkIn_of_le (by omega) (by omega)] at h
      simp at h

theorem checkBit_raises : Raises checkBit [.precond] :=
  Raises_of fun {s e} h => by
    by_cases hb : s.params.bitCap < s.blen.toNat
    · rw [checkBit_of_gt hb] at h
      exact ⟨.precond, by simp, (Except.error.inj h).symm⟩
    · rw [checkBit_of_le (by omega)] at h
      simp at h

theorem checkBit_keeps (l : List Field) : Keeps checkBit l :=
  ⟨fun h e => (checkBit_ok e).1 ▸ h, fun e => (checkBit_ok e).1 ▸ Unchanged_refl _ _⟩

theorem outAppendAll_raises (l : State → List Byte) (f : State → State) :
    Raises (fun s => outAppendAll (l s) (f s)) [.capacity] :=
  Raises_of fun h => ⟨.capacity, by simp, outAppendAll_error h⟩

theorem runPack_raises : Raises runPack (causesOf .pack) :=
  Raises_bind (l := []) (Raises_mono checkBit_raises (by decide)) (checkBit_keeps _) (Raises_of fun {s e} h => by
    rcases bind_eq_error h with h | ⟨u, _, h⟩
    · exact ⟨.capacity, by decide, outAppendAll_error h⟩
    · simp at h)

theorem runUnpack_raises : Raises runUnpack (causesOf .unpack) :=
  Raises_bind (l := []) (Raises_mono checkIn_raises (by decide)) (checkIn_keeps _) (Raises_of fun {s e} h => by
    simp only at h
    split at h
    · exact ⟨.capacity, by decide, (Except.error.inj h).symm⟩
    · rcases bind_eq_error h with h | ⟨u, _, h⟩
      · rw [unpackLoop_eq] at h
        exact ⟨.capacity, by decide, bitAppendAll_error h⟩
      · simp at h)

theorem runTser_raises : Raises runTser (causesOf .tser) :=
  Raises_of fun h => ⟨.capacity, by decide, outAppendAll_error (runTser_eq _ ▸ h)⟩

theorem tdesNext_error {s : State} {e : Stop} (h : tdesNext s = .error e) : e = .raise .corruptStream := by
  unfold tdesNext at h
  split at h
  · exact (Except.error.inj h).symm
  · simp at h

theorem tdesRaw_error (n : Nat) : ∀ {s : State} {e : Stop}, tdesRaw n s = .error e → e = .raise .corruptStream := by
  induction n with
  | zero => intro s e h; simp [tdesRaw] at h
  | succ n ih =>
    intro s e h
    rcases bind_eq_error h with h | ⟨p, _, h⟩
    · exact tdesNext_error h
    · rcases bind_eq_error h with h | ⟨q, _, h⟩
      · exact ih h
      · simp at h

theorem tdesEntries_error (n : Nat) : ∀ {s : State} {e : Stop}, tdesEntries n s = .error e → e = .raise .corruptStream := by
  induction n with
  | zero => intro s e h; simp [tdesEntries] at h
  | succ n ih =>
    intro s e h
    rcases bind_eq_error h with h | ⟨u, _, h⟩
    · rcases bind_eq_error h with h | ⟨p, _, h⟩
      · exact tdesNext_error h
      · rcases bind_eq_error h with h | ⟨q, _, h⟩
        · exact tdesNext_error h
        · rcases bind_eq_error h with h | ⟨r, _, h⟩
          · exact tdesRaw_error _ h
          · simp at h
    · exact ih h

theorem runTdes_raises : Raises runTdes (causesOf .tdes) :=
  Raises_bind (l := []) (Raises_mono checkIn_raises (by decide)) (checkIn_keeps _) (Raises_of fun {s e} h => by
    refine ⟨.corruptStream, by decide, ?_⟩
    rcases bind_eq_error h with h | ⟨p, _, h⟩
    · exact tdesNext_error h
    · rcases bind_eq_error h with h | ⟨q, _, h⟩
      · exact tdesNext_error h
      · exact tdesEntries_error _ h)

theorem runGenc_raises : Raises runGenc (causesOf .genc) := by
  constructor
  · intro s e h
    unfold runGenc at h
    split at h
    · simp at h
    · split at h
      · simp at h
      · exact .inl (Except.error.inj h).symm
    · exact .inr ⟨.precond, by decide, (Except.error.inj h).symm⟩
  · intro s hd h
    by_cases h2 : 2 ≤ s.heap.length
    · rw [runGenc_unfinished h2] at h
      have := Except.error.inj h
      simp at this
    · obtain ⟨l, h1, _⟩ := runGenc_ok hd.forest (by omega)
      rw [h1] at h
      simp at h

theorem runFcnt_raises : Raises runFcnt (causesOf .fcnt) :=
  Raises_bind (l := []) checkLen_raises (checkLen_keeps _) (Raises_pure _ _)

theorem runBgen_raises : Raises runBgen (causesOf .bgen) :=
  Raises_bind (l := []) (Raises_mono checkLen_raises (by decide)) (checkLen_keeps _) (Raises_of fun h =>
    (bgenLoop_error _ h).elim (fun e => ⟨.precond, by decide, e⟩) fun e => ⟨.capacity, by decide, e⟩)

theorem runBdec_raises : Raises runBdec (causesOf .bdec) :=
  Raises_of fun {s e} h => by
    match hh : s.order with
    | [] =>
      rw [runBdec_empty hh] at h
      simp at h
    | [c] =>
      rw [runBdec_single hh] at h
      exact ⟨.capacity, by decide, outAppendAll_error h⟩
    | a :: b :: rest =>
      have h2 : 2 ≤ s.order.length := by rw [hh]; simp
      by_cases hb : s.params.bitCap < s.blen.toNat
      · rw [runBdec_bad h2 hb] at h
        exact ⟨.precond, by decide, (Except.error.inj h).symm⟩
      · rw [runBdec_many h2 (by omega)] at h
        exact (bdecLoop_error _ h).elim (fun e => ⟨_, by decide, e⟩) fun e => ⟨_, by decide, e⟩

theorem runEncode_raises : Raises runEncode (causesOf .encode) := by
  have h : Raises (fun s => checkLen s >>= fun s => (Except.ok (restartOut (setLen s.ilen s)) : Run) >>= fun s =>
      runFcnt s >>= fun s => runTbuild s >>= fun s => runGenc s >>= fun s => runBgen s >>= runPack) (causesOf .encode) :=
    Raises_bind (Raises_mono checkLen_raises (by decide)) (checkLen_keeps []) (Raises_bind (Raises_pure _ _)
      (Keeps_pure (fun h => DataOk_restartOut (DataOk_setLen h _)) fun s =>
        Unchanged_trans (Unchanged_mono (Unchanged_setLen _ s) (by decide))
          (Unchanged_mono (m := writtenBy .encode) (Unchanged_restartOut _) (by decide)))
      (Raises_bind (Raises_mono runFcnt_raises (by decide)) runFcnt_keeps (Raises_bind (Raises_pure _ _) runTbuild_keeps
        (Raises_bind (Raises_mono runGenc_raises (by decide)) runGenc_keeps
          (Raises_bind (Raises_mono runBgen_raises (by decide)) runBgen_keeps
            (Raises_mono runPack_raises (by decide)))))))
  exact h

theorem runDecode_eq : runDecode = fun s => checkIn s >>= fun s => (Except.ok (restartOut s) : Run) >>= fun s =>
    (if 2 ≤ s.order.length then runUnpack s else .ok s) >>= runBdec := by
  funext s
  unfold runDecode
  cases checkIn s with
  | error e => rfl
  | ok u =>
    simp only [ok_bind]
    split <;> rfl

theorem runDecode_raises : Raises runDecode (causesOf .decode) := by
  have hif : Raises (fun s : State => if 2 ≤ s.order.length then runUnpack s else .ok s) (causesOf .decode) := by
    constructor
    · intro s e h
      split at h
      · exact (Raises_mono runUnpack_raises (by decide)).cause h
      · simp at h
    · intro s hd h
      split at h
      · exact runUnpack_raises.free hd h
      · simp at h
  have hk : Keeps (fun s : State => if 2 ≤ s.order.length then runUnpack s else .ok s) [.bit, .blen, .ioff] := by
    constructor
    · intro s t hd h
      split at h
      · exact runUnpack_keeps.data hd h
      · cases h; exact hd
    · intro s t h
      split at h
      · exact runUnpack_keeps.frame h
      · cases h; exact Unchanged_refl _ _
  rw [runDecode_eq]
  exact Raises_bind (Raises_mono checkIn_raises (by decide)) (checkIn_keeps []) (Raises_bind (Raises_pure _ _)
    (Keeps_pure DataOk_restartOut fun s => Unchanged_restartOut s)
    (Raises_bind hif hk (Raises_mono runBdec_raises (by decide))))

theorem runCompress_raises : Raises runCompress (causesOf .compress) := by
  have hhead : Raises (fun s : State => outAppendAll (headerBytes s.params.magic s.len.toNat (padCount s.blen.toNat))
      (restartOut s)) [.capacity] := outAppendAll_raises _ _
  have hkeep : Keeps (fun s : State => outAppendAll (headerBytes s.params.magic s.len.toNat (padCount s.blen.toNat))
      (restartOut s)) [.out, .olen] :=
    ⟨fun hd e => DataOk_outAppendAll (DataOk_restartOut hd) e, fun {s t} e => by
      rw [outAppendAll_state e]
      exact Unchanged_trans (Unchanged_restartOut s) (Unchanged_outWritten _ _)⟩
  have h : Raises (fun s => checkLen s >>= fun s => (Except.ok (setLen s.ilen s) : Run) >>= fun s =>
      runFcnt s >>= fun s => runTbuild s >>= fun s => runGenc s >>= fun s => runBgen s >>= fun s =>
      outAppendAll (headerBytes s.params.magic s.len.toNat (padCount s.blen.toNat)) (restartOut s) >>= fun s =>
      runTser s >>= runPack) (causesOf .compress) :=
    Raises_bind (Raises_mono checkLen_raises (by decide)) (checkLen_keeps []) (Raises_bind (Raises_pure _ _)
      (Keeps_pure (fun h => DataOk_setLen h _) fun s => Unchanged_setLen _ s)
      (Raises_bind (Raises_mono runFcnt_raises (by decide)) runFcnt_keeps (Raises_bind (Raises_pure _ _) runTbuild_keeps
        (Raises_bind (Raises_mono runGenc_raises (by decide)) runGenc_keeps
          (Raises_bind (Raises_mono runBgen_raises (by decide)) runBgen_keeps
            (Raises_bind (Raises_mono hhead (by decide)) hkeep
              (Raises_bind (Raises_mono runTser_raises (by decide)) runTser_keeps
                (Raises_mono runPack_raises (by decide)))))))))
  exact h

theorem runDecompress_raises : Raises runDecompress (causesOf .decompress) := by
  have hd2 := Raises_bind (Raises_mono runTdes_raises (ds := causesOf .decompress) (by decide)) runTdes_keeps
    (Raises_mono runDecode_raises (ds := causesOf .decompress) (by decide))
  refine Raises_bind (l := []) (Raises_mono checkLen_raises (by decide)) (checkLen_keeps _) ⟨fun {s e} h => ?_, fun {s} hd h => ?_⟩
  · split at h
    · exact .inr ⟨.formatError, by decide, (Except.error.inj h).symm⟩
    · split at h
      · exact .inr ⟨.formatError, by decide, (Except.error.inj h).symm⟩
      · exact hd2.cause h
  · split at h
    · have := Except.error.inj h
      simp at this
    · split at h
      · have := Except.error.inj h
        simp at this
      · exact hd2.free (DataOk_setIoff (DataOk_setPad (DataOk_setLen hd _) _) _) h

/-! ### exec -/

/-- The pseudocode of each command other than SRESET. -/
def runOf : Instr → State → Run
  | .nop => runNop
  | .sreset => runNop
  | .pack => runPack
  | .unpack => runUnpack
  | .tser => runTser
  | .tdes => runTdes
  | .tinit => runTinit
  | .tmerge => runTmerge
  | .tbuild => runTbuild
  | .genc => runGenc
  | .fcnt => runFcnt
  | .bgen => runBgen
  | .bdec => runBdec
  | .encode => runEncode
  | .decode => runDecode
  | .compress => runCompress
  | .decompress => runDecompress

/-- Every command other than SRESET is its pseudocode in the command cycle. -/
theorem exec_eq {i : Instr} (h : i ≠ .sreset) (s : State) : exec i s = commandCycle (runOf i) s := by
  cases i <;> first | rfl | exact absurd rfl h

theorem runOf_keeps (i : Instr) : Keeps (runOf i) (writtenBy i) := by
  cases i
  · exact runNop_keeps
  · exact runNop_keeps
  · exact runPack_keeps
  · exact runUnpack_keeps
  · exact runTser_keeps
  · exact Keeps_mono runTdes_keeps (by decide)
  · exact runTinit_keeps
  · exact runTmerge_keeps
  · exact runTbuild_keeps
  · exact runGenc_keeps
  · exact runFcnt_keeps
  · exact runBgen_keeps
  · exact runBdec_keeps
  · exact runEncode_keeps
  · exact runDecode_keeps
  · exact runCompress_keeps
  · exact runDecompress_keeps

theorem runOf_raises (i : Instr) : Raises (runOf i) (causesOf i) := by
  cases i
  · exact Raises_pure _ _
  · exact Raises_pure _ _
  · exact runPack_raises
  · exact runUnpack_raises
  · exact runTser_raises
  · exact runTdes_raises
  · exact Raises_pure _ _
  · exact Raises_pure _ _
  · exact Raises_pure _ _
  · exact runGenc_raises
  · exact runFcnt_raises
  · exact runBgen_raises
  · exact runBdec_raises
  · exact runEncode_raises
  · exact runDecode_raises
  · exact runCompress_raises
  · exact runDecompress_raises

theorem dataOk_of_inv {s : State} (h : s.Inv) (hf : s.fault = false) : DataOk s :=
  ⟨h.params, h.buffers, h.forest hf, h.rootShown hf, h.table hf⟩

theorem inv_of_dataOk {s : State} (h : DataOk s) (hb : s.busy = false) (hf : s.fault = false) (he : s.err = 0) : s.Inv where
  params := h.params
  idle := hb
  buffers := h.buffers
  errRange := by rw [he]; decide
  errZero := by rw [hf, he]; simp
  forest := fun _ => h.forest
  rootShown := fun _ => h.rootShown
  table := fun _ => h.table

/-- Fault entry keeps the invariants: nothing but the two status registers is constrained afterwards (R214). -/
theorem faultEntry_inv {s : State} (h : s.Inv) (c : Cause) : (faultEntry c s).Inv where
  params := by cases c <;> exact h.params
  idle := by cases c <;> rfl
  buffers := by
    cases c <;>
    first
      | exact ⟨MemOk_forget _ _, MemOk_forget _ _, MemOk_forget _ _⟩
      | exact BuffersOk_congr h.buffers rfl rfl rfl rfl
  errRange := by cases c <;> simp [Cause.errCode, faultEntry]
  errZero := by cases c <;> simp [Cause.errCode, faultEntry]
  forest := fun hf => by cases c <;> simp [faultEntry] at hf
  rootShown := fun hf => by cases c <;> simp [faultEntry] at hf
  table := fun hf => by cases c <;> simp [faultEntry] at hf

theorem reset_dataOk : DataOk State.reset where
  params := by decide
  buffers := ⟨⟨by decide, fun i x h => by simp [State.reset, Mem.get?] at h⟩,
    ⟨by decide, fun i x h => by simp [State.reset, Mem.get?] at h⟩,
    ⟨by decide, fun i x h => by simp [State.reset, Mem.get?] at h⟩⟩
  forest := Forest_congr (clearTree_forest State.reset) rfl rfl rfl
  rootShown := ⟨by simp [State.reset], by simp [State.reset], by simp [State.reset]⟩
  table := TableOk_congr (clearTable_tableOk State.reset) rfl rfl

/-- Recovery gives the invariants whatever the data were (R220, R240). -/
theorem resetFrom_inv {s : State} (h : s.params.wf = true) : (resetFrom s).Inv :=
  inv_of_dataOk
    ⟨h, ⟨MemOk_forget _ _, MemOk_forget _ _, MemOk_forget _ _⟩, Forest_congr reset_dataOk.forest rfl rfl rfl,
      RootShown_congr reset_dataOk.rootShown rfl rfl rfl, TableOk_congr reset_dataOk.table rfl rfl⟩ rfl rfl rfl

/-- Everything exec can answer (R110). -/
theorem exec_cases {i : Instr} {s t : State} (h : exec i s = .next t) :
    (i = .sreset ∧ s.busy = false ∧ t = resetFrom s) ∨
    (t = s ∧ (s.busy = true ∨ s.fault = true)) ∨
    (s.Idle ∧ runOf i s = .ok t ∧ i ≠ .sreset) ∨
    (s.Idle ∧ i ≠ .sreset ∧ ∃ c ∈ causesOf i, runOf i s = raise c ∧ t = faultEntry c s) := by
  by_cases hi : i = .sreset
  · subst hi
    simp only [exec, execSreset, resetCycle] at h
    split at h
    · rename_i hb
      injection h with h
      exact .inr (.inl ⟨h.symm, .inl hb⟩)
    · rename_i hb
      injection h with h
      exact .inl ⟨rfl, by simpa using hb, h.symm⟩
  · rw [exec_eq hi] at h
    rcases commandCycle_cases h with ⟨hn, rfl⟩ | ⟨hs, hr⟩ | ⟨hs, c, hr, ht⟩
    · refine .inr (.inl ⟨rfl, ?_⟩)
      simp only [State.Idle, not_and_or, Bool.not_eq_false] at hn
      exact hn
    · exact .inr (.inr (.inl ⟨hs, hr, hi⟩))
    · rcases (runOf_raises i).cause hr with h0 | ⟨d, hd, h0⟩
      · simp at h0
      · cases h0
        exact .inr (.inr (.inr ⟨hs, hi, c, hd, hr, ht⟩))

theorem exec_inv {i : Instr} {s t : State} (hinv : s.Inv) (h : exec i s = .next t) : t.Inv := by
  rcases exec_cases h with ⟨_, _, rfl⟩ | ⟨rfl, _⟩ | ⟨hs, hr, _⟩ | ⟨_, _, c, _, _, rfl⟩
  · exact resetFrom_inv hinv.params
  · exact hinv
  · have hd := dataOk_of_inv hinv hs.2
    have hu := (runOf_keeps i).frame hr
    have hb : t.busy = s.busy := hu .busy (by cases i <;> decide)
    have hf : t.fault = s.fault := hu .fault (by cases i <;> decide)
    have he : t.err = s.err := hu .err (by cases i <;> decide)
    exact inv_of_dataOk ((runOf_keeps i).data hd hr) (hb.trans hs.1) (hf.trans hs.2) (he.trans (hinv.errZero.1 hs.2))
  · exact faultEntry_inv hinv c

/-- From a state that meets the invariants no command stops the model (R111). -/
theorem exec_next {i : Instr} {s : State} (hinv : s.Inv) : ∃ t, exec i s = .next t := by
  by_cases hi : i = .sreset
  · subst hi
    simp only [exec, execSreset, resetCycle]
    split <;> exact ⟨_, rfl⟩
  · rw [exec_eq hi]
    unfold commandCycle
    split
    · exact ⟨_, rfl⟩
    · split
      · exact ⟨_, rfl⟩
      · rename_i hf
        cases hr : runOf i s with
        | ok t => exact ⟨t, rfl⟩
        | error e =>
          rcases (runOf_raises i).cause hr with rfl | ⟨c, _, rfl⟩
          · exact absurd hr ((runOf_raises i).free (dataOk_of_inv hinv (by simpa using hf)))
          · exact ⟨_, rfl⟩

end Sys2Proof.Laws
end

