-- ==== Sys2Proof/Laws/Outcomes.lean ====
section
/-!
SUPPORT. Laws/Outcomes.lean: from what a command's pseudocode ends in to what exec answers, for commands and for sequences of
them.
-/
namespace Sys2Proof.Laws

open Sys2Proof Sys2Proof.Machine

/-- A fault the pseudocode raises is the command's fault (R210, R214). -/
theorem fault_of {i : Instr} {s : State} {c : Cause} (hi : i ≠ .sreset) (hs : s.Idle) (h : runOf i s = raise c) :
    EntersFault i s c :=
  ⟨faultEntry c s, by rw [exec_eq hi]; exact commandCycle_raise hs h, by cases c <;> exact ⟨rfl, rfl, rfl⟩⟩

/-- Where the pseudocode ends normally the command leaves its state. -/
theorem next_of {i : Instr} {s t : State} (hi : i ≠ .sreset) (hs : s.Idle) (h : runOf i s = .ok t) : exec i s = .next t := by
  rw [exec_eq hi]; exact commandCycle_ok hs h

/-- A command that ended without fault ended as its pseudocode did. -/
theorem ok_of {i : Instr} {s t : State} (hi : i ≠ .sreset) (hs : s.Idle) (h : exec i s = .next t) (ht : t.fault = false) :
    runOf i s = .ok t := by
  rw [exec_eq hi] at h
  exact commandCycle_normal hs h ht

/-- The causes of R211 have different codes. -/
theorem errCode_inj {c d : Cause} (h : c.errCode = d.errCode) : c = d := by
  cases c <;> cases d <;> first | rfl | exact absurd h (by decide)

/-- A command whose pseudocode raised one cause raises no other. -/
theorem EntersFault_unique {i : Instr} {s : State} {c d : Cause} (h1 : EntersFault i s c) (h2 : EntersFault i s d) :
    c = d := by
  obtain ⟨t, ht, _, _, e1⟩ := h1
  obtain ⟨u, hu, _, _, e2⟩ := h2
  rw [ht] at hu
  cases hu
  exact errCode_inj (e1.symm.trans e2)

/-- A command whose pseudocode ended early ended with the fault. -/
theorem runOf_of_fault {i : Instr} {s : State} {c : Cause} (hs : s.Idle) (h : EntersFault i s c) : runOf i s = raise c := by
  obtain ⟨t, ht, _, hf, he⟩ := h
  rcases exec_cases ht with ⟨rfl, _, rfl⟩ | ⟨rfl, hb | hb⟩ | ⟨_, hr, _⟩ | ⟨_, _, d, _, hr, rfl⟩
  · simp [resetFrom, State.reset] at hf
  · rw [hs.1] at hb; cases hb
  · rw [hs.2] at hf; cases hf
  · have := (runOf_keeps i).frame hr .fault (by cases i <;> decide)
    simp only [Field.Same] at this
    rw [this, hs.2] at hf; cases hf
  · rw [hr]
    congr 1
    refine errCode_inj ?_
    cases d <;> exact he

/-- A faulted block refuses a list of commands without SRESET (R220). -/
theorem execMany_faulted (l : List Instr) : ∀ {s : State}, s.busy = false → s.fault = true → .sreset ∉ l →
    execMany l s = .next s := by
  induction l with
  | nil => intros; rfl
  | cons i rest ih =>
    intro s hb hf hn
    rw [List.mem_cons, not_or] at hn
    have h : exec i s = .next s := by rw [exec_eq fun e => hn.1 e.symm]; exact commandCycle_faulted _ _ hf
    simp only [execMany, h]
    exact ih hb hf hn.2

/-- The pseudocode of a list of commands, one after the other. -/
def runMany : List Instr → State → Run
  | [], s => .ok s
  | i :: rest, s => runOf i s >>= runMany rest

theorem idle_of_ok {i : Instr} {s t : State} (hs : s.Idle) (h : runOf i s = .ok t) : t.Idle := by
  have hb := (runOf_keeps i).frame h .busy (by cases i <;> decide)
  have hf := (runOf_keeps i).frame h .fault (by cases i <;> decide)
  exact ⟨hb.trans hs.1, hf.trans hs.2⟩

/-- A list of commands is its pseudocode in sequence: normally to the end, or to the first fault (R67, R113). -/
theorem execMany_next (l : List Instr) : ∀ {s t : State}, s.Idle → .sreset ∉ l → execMany l s = .next t →
    (t.fault = false ∧ runMany l s = .ok t) ∨ ∃ c, runMany l s = raise c ∧ t.FaultedWith c := by
  induction l with
  | nil =>
    intro s t hs _ h
    cases h
    exact .inl ⟨hs.2, rfl⟩
  | cons i rest ih =>
    intro s t hs hn h
    rw [List.mem_cons, not_or] at hn
    have hi : i ≠ .sreset := fun e => hn.1 e.symm
    cases hr : runOf i s with
    | ok u =>
      rw [execMany, next_of hi hs hr] at h
      simpa only [runMany, hr, ok_bind] using ih (idle_of_ok hs hr) hn.2 h
    | error e =>
      rcases e with c | f
      · have he : exec i s = .next (faultEntry c s) := by rw [exec_eq hi]; exact commandCycle_raise hs hr
        have hfw : (faultEntry c s).FaultedWith c := by cases c <;> exact ⟨rfl, rfl, rfl⟩
        rw [execMany, he] at h
        simp only at h
        rw [execMany_faulted rest hfw.1 hfw.2.1 hn.2] at h
        cases h
        exact .inr ⟨c, by rw [runMany, hr]; rfl, hfw⟩
      · have he : exec i s = .fault f := by
          rw [exec_eq hi, commandCycle, hr]
          simp [hs.1, hs.2]
        rw [execMany, he] at h
        cases h

/-- A list of commands whose pseudocode ends normally. -/
theorem execMany_ok (l : List Instr) : ∀ {s t : State}, s.Idle → .sreset ∉ l → runMany l s = .ok t →
    execMany l s = .next t := by
  induction l with
  | nil =>
    intro s t _ _ h
    cases h
    rfl
  | cons i rest ih =>
    intro s t hs hn h
    rw [List.mem_cons, not_or] at hn
    obtain ⟨u, hu, h⟩ := bind_eq_ok.1 h
    rw [execMany, next_of (fun e => hn.1 e.symm) hs hu]
    exact ih (idle_of_ok hs hu) hn.2 h

end Sys2Proof.Laws
end

