-- ==== Sys2Proof/Laws/Blob.lean ====
section
/-!
SUPPORT. Laws/Blob.lean: what COMPRESS leaves, what DECOMPRESS reads from any blob, and the uniqueness of code words.
-/
namespace Sys2Proof.Laws

open Sys2Proof Sys2Proof.Machine

/-- What OUT holds after bytes that fit were written at OLEN. -/
theorem outWritten_facts (l : List Byte) (s : State) (hc : s.params.outCap < 2 ^ 64)
    (h : l = [] ∨ s.olen.toNat + l.length ≤ s.params.outCap) :
    (outWritten l s).outData = s.outData ++ l ∧ (outWritten l s).olen.toNat = s.olen.toNat + l.length ∧
      ∀ a, (a < s.olen.toNat ∨ s.olen.toNat + l.length ≤ a) → (outWritten l s).outRead a = s.outRead a := by
  have hl : s.olen.toNat + l.length < 2 ^ 64 := by
    rcases h with h | h
    · rw [h]; exact s.olen.isLt
    · omega
  refine ⟨outWritten_outData _ _ hl, outWritten_olen _ _ hl, fun a ha => ?_⟩
  rw [outWritten_read _ _ hl]
  split
  · rw [List.getElem?_eq_none (by omega)]; rfl
  · rfl

/-! ### COMPRESS -/

/-- The state a normal COMPRESS leaves (R201). -/
theorem compressed_facts (s : State) (hw : s.params.wf = true)
    (hfit : (inBits s).length ≤ s.params.bitCap ∧ (inBlob s).length ≤ s.params.outCap) :
    (compressed s).outData = inBlob s ∧ (compressed s).olen.toNat = (inBlob s).length ∧
      (compressed s).entries = inTable s ∧ (compressed s).TableOk ∧ (compressed s).bitData = inBits s ∧
      (compressed s).len = s.ilen ∧ (compressed s).pad.toNat = padCount (inBits s).length := by
  have ho := outCap_lt hw
  have hb := bitCap_lt hw
  have hin : (setLen s.ilen s).inData = s.inData := inData_congr rfl rfl
  have htab : inTable (setLen s.ilen s) = inTable s := by simp only [inTable, hin]
  have hbits : inBits (setLen s.ilen s) = inBits s := by simp only [inBits, htab, hin]
  obtain ⟨f1, f2, f3⟩ := outWritten_facts (inBlob s) (restartOut (coded (setLen s.ilen s))) (by simpa using ho)
    (.inr (by simp; exact hfit.2))
  have e1 : (compressed s).outData = (outWritten (inBlob s) (restartOut (coded (setLen s.ilen s)))).outData := rfl
  have hpd := padCount_lt (inBits s).length
  refine ⟨?_, ?_, ?_, ?_, ?_, ?_, ?_⟩
  · rw [e1, f1]; simp [State.outData]
  · rw [compressed, setPad_olen, f2]; simp
  · rw [entries_congr (s := coded (setLen s.ilen s)) (by simp [compressed]) (by simp [compressed]), coded_entries, htab]
  · exact TableOk_congr (coded_tableOk (setLen s.ilen s)) (by simp [compressed]) (by simp [compressed])
  · rw [bitData_congr (s := coded (setLen s.ilen s)) (by simp [compressed]) (by simp [compressed]),
      coded_bitData _ (by simpa using hb) (by rw [hbits]; simpa using hfit.1), hbits]
  · simp [compressed]
  · simp [compressed]; omega

/-- What holds where COMPRESS ended normally (R201). -/
theorem compress_inv {s t : State} (hw : s.params.wf = true) (hs : s.Idle) (ht : exec .compress s = .next t)
    (hf : t.fault = false) :
    s.ilen.toNat ≤ s.params.inCap ∧ ((inBits s).length ≤ s.params.bitCap ∧ (inBlob s).length ≤ s.params.outCap) ∧
      t = compressed s := by
  have hr := ok_of (by decide) hs ht hf
  have he := runCompress_eq s (outCap_lt hw) (bitCap_lt hw)
  rw [show runOf .compress s = runCompress s from rfl, he] at hr
  have hl : s.ilen.toNat ≤ s.params.inCap := by
    by_contra h
    rw [if_pos (by omega)] at hr; simp [raise] at hr
  rw [if_neg (by omega)] at hr
  have hfit : (inBits s).length ≤ s.params.bitCap ∧ (inBlob s).length ≤ s.params.outCap := by
    by_contra h
    rw [if_neg h] at hr; simp [raise] at hr
  rw [if_pos hfit] at hr
  exact ⟨hl, hfit, (Except.ok.inj hr).symm⟩

/-- The blob of an empty input (R204). -/
theorem inBlob_empty {s : State} (h : s.ilen = 0) :
    inTable s = [] ∧ inBits s = [] ∧ inBlob s = s.params.magic.toList ++ List.replicate 11 0 := by
  have hd : s.inData = [] := List.eq_nil_of_length_eq_zero (by rw [inData_length, h]; rfl)
  have ht : inTable s = [] := by
    have : ∀ c, c ∉ (inTable s).map Prod.fst := fun c hc => by
      rw [mem_inTable, hd] at hc; simp at hc
    have := List.eq_nil_iff_forall_not_mem.2 this
    simpa using this
  have hb : inBits s = [] := by rw [inBits, ht, hd]; rfl
  refine ⟨ht, hb, ?_⟩
  rw [inBlob, ht, hb, h, blobBytes, headerBytes, List.append_assoc, List.append_assoc, List.append_assoc]
  rfl

/-! ### DECOMPRESS -/

/-- The entries of a table TSER wrote are the table. -/
theorem tableEntries_toRaw {es : List (Symbol × BitSeq)} (hd : (es.map Prod.fst).Nodup) (hb : ∀ e ∈ es, e.2.length ≤ 255) :
    tableEntries (es.map toRaw) = es := by
  have h1 : (es.map toRaw).map RawEntry.entry = es := by
    rw [List.map_map]
    exact (List.map_congr_left fun e he => toRaw_entry (hb e he)).trans (List.map_id' es)
  have h2 : (es.map toRaw).map RawEntry.sym = es.map Prod.fst := by rw [List.map_map]; rfl
  rw [tableEntries, h1, h2, firstSeen_of_nodup hd, List.map_map]
  refine (List.map_congr_left fun e he => ?_).trans (List.map_id' es)
  simp only [Function.comp, codeOf, lastCode_of_nodup hd he, Option.getD_some]

/-- DECOMPRESS of a blob with a whole table is DECODE of the payload with the table and the header's LEN and PAD (R202). -/
theorem runDecompress_table {s : State} {len pad : Nat} {rs : List RawEntry} {payload : List Byte}
    (hl : s.ilen.toNat ≤ s.params.inCap) (hlen : len < 2 ^ 64) (hpad : pad < 256) (hn : rs.length < 65536)
    (hok : ∀ r ∈ rs, r.ok) (hin : s.inData = headerBytes s.params.magic len pad ++ (rawTable rs ++ payload)) :
    ∃ u, runDecompress s = runDecode u ∧ Unchanged [.len, .pad, .ioff, .code, .order] s u ∧ u.len.toNat = len ∧
      u.pad.toNat = pad ∧ u.ioff.toNat = 13 + (rawTable rs).length ∧ u.inRest = payload ∧ u.entries = tableEntries rs ∧
      u.TableOk ∧ u.ioff.toNat ≤ u.ilen.toNat := by
  obtain ⟨h13, _, hrd, hrest⟩ := header_read hlen hin
  have hil : s.ilen.toNat = 13 + ((rawTable rs).length + payload.length) := by rw [← inData_length, hin]; simp
  have hc : checkIn (readHeader s) = .ok (readHeader s) :=
    checkIn_of_le (by rw [hrd]; exact hl) (by rw [hrd]; simp; omega)
  have ht := runTdes_raw hn hok hc hrest
  have hk := runTdes_keeps.frame ht
  have hi : (putEntries (rs.map RawEntry.entry) (clearTable (readHeader s))).ioff.toNat + (rawTable rs).length ≤
      (putEntries (rs.map RawEntry.entry) (clearTable (readHeader s))).ilen.toNat := by
    simp [hrd]; omega
  generalize hsk : skip (rawTable rs).length (putEntries (rs.map RawEntry.entry) (clearTable (readHeader s))) = u at *
  have horder : u.order = (putEntries (rs.map RawEntry.entry) (clearTable (readHeader s))).order := by
    rw [← hsk, skip_frame]; rfl
  have hcode : u.code = (putEntries (rs.map RawEntry.entry) (clearTable (readHeader s))).code := by
    rw [← hsk, skip_frame]; rfl
  have hio : u.ioff.toNat = 13 + (rawTable rs).length := by
    rw [← hsk, skip_ioff _ _ hi]; simp [hrd]
  obtain ⟨t1, t2⟩ := putEntries_table (rs.map RawEntry.entry) (readHeader s)
  have hent : u.entries = tableEntries rs := by
    rw [entries_congr horder hcode, State.entries, tableEntries, t1, List.map_map]
    refine List.map_congr_left fun c hc => ?_
    have hc' := (mem_firstSeen _ _).1 hc
    have hsm := (lastCode_isSome (rs.map RawEntry.entry) c).2 (by rw [List.map_map]; exact hc')
    rw [State.codeRead, t2, codeOf]
    cases h : lastCode (rs.map RawEntry.entry) c with
    | none => rw [h] at hsm; cases hsm
    | some x => rfl
  refine ⟨u, by rw [runDecompress_header hlen hl hin, ht, ok_bind], ?_, ?_, ?_, hio, ?_, hent, ?_, ?_⟩
  · refine Unchanged_trans (t := readHeader s) ?_ (Unchanged_mono hk (by decide))
    rw [hrd]
    exact Unchanged_trans (Unchanged_mono (Unchanged_setLen _ _) (by decide))
      (Unchanged_trans (Unchanged_mono (Unchanged_setPad _ _) (by decide))
        (Unchanged_mono (Unchanged_setIoff _ _) (by decide)))
  · rw [hk .len (by decide), hrd]; simp; omega
  · rw [hk .pad (by decide), hrd]; simp; omega
  · rw [← hsk, skip_inRest _ _ hi, inRest_congr (s := readHeader s) (by simp) (by simp) (by simp), hrest, List.drop_left]
  · refine TableOk_congr (putEntries_tableOk ?_ (clearTable_tableOk _)) horder hcode
    intro e he
    obtain ⟨r, hr, rfl⟩ := List.mem_map.1 he
    have := r.len.isLt
    simp [RawEntry.entry]; omega
  · rw [hio, hk .ilen (by decide), hrd]; simp; omega

theorem inTable_len (s : State) : (inTable s).length < 65536 ∧ (∀ e ∈ inTable s, e.2.length ≤ 255) := by
  have h1 := entries_length_le (tabled_tableOk s)
  have h2 := entries_codeLength (tabled_tableOk s)
  rw [(tabled_table s).2.2.2] at h1 h2
  exact ⟨by omega, h2⟩

/-- The blob of an input as DECOMPRESS reads it (R200). -/
theorem inBlob_read (s : State) : inBlob s = headerBytes s.params.magic s.ilen.toNat (padCount (inBits s).length) ++
    (rawTable ((inTable s).map toRaw) ++ packBytes (inBits s)) := by
  rw [inBlob, blobBytes, serialTable_eq, List.append_assoc]

theorem inTable_raw_ok (s : State) : ∀ r ∈ (inTable s).map toRaw, r.ok := fun r hr => by
  obtain ⟨e, he, rfl⟩ := List.mem_map.1 hr
  exact toRaw_ok ((inTable_len s).2 e he)

/-- Thirteen bytes or more that begin with the tag are a header and a rest (R200). -/
theorem header_parse {s : State} {magic : Vector Byte 4} (h : 13 ≤ s.ilen.toNat) (hm : s.inSlice 0 4 = magic.toList) :
    ∃ len pad rest, len < 2 ^ 64 ∧ pad < 256 ∧ s.inData = headerBytes magic len pad ++ rest := by
  have split : ∀ a b c : Nat, a ≤ b → b ≤ c → s.inSlice a c = s.inSlice a b ++ s.inSlice b c := by
    intro a b c h1 h2
    have e : s.inSlice b c = (s.inSlice a c).drop (b - a) := by rw [inSlice_drop, show a + (b - a) = b by omega]
    rw [inSlice_take s h1 h2, e, List.take_append_drop]
  have h8 : (s.inSlice 4 12).length = 8 := by rw [inSlice_length]
  have hlt := unbe_lt (s.inSlice 4 12)
  have hbe := be_unbe (s.inSlice 4 12)
  rw [h8] at hlt hbe
  refine ⟨unbe (s.inSlice 4 12), (s.inRead 12).toNat, s.inSlice 13 s.ilen.toNat, by omega, (s.inRead 12).isLt, ?_⟩
  have e12 : s.inSlice 12 13 = [BitVec.ofNat 8 (s.inRead 12).toNat] := by
    rw [inSlice_cons (by omega), BitVec.ofNat_toNat]
    simp [State.inSlice]
  rw [headerBytes, hbe, ← hm, ← e12, ← split 0 4 12 (by omega) (by omega), ← split 0 12 13 (by omega) (by omega),
    ← split 0 13 s.ilen.toNat (by omega) h]
  rfl

/-! ### Every byte list is a table and a rest, or a table cut short -/

/-- An entry that says nothing. -/
def blankEntry : RawEntry := { sym := 0, len := 0, bytes := [] }

theorem blankEntry_ok : blankEntry.ok := rfl

/-- Bytes read as n entries: whole, or cut short (R142). -/
theorem entries_parse (n : Nat) : ∀ l : List Byte,
    (∃ (rs : List RawEntry) (rest : List Byte), rs.length = n ∧ (∀ r ∈ rs, r.ok) ∧ l = rs.flatMap RawEntry.serial ++ rest) ∨
    (∃ (rs : List RawEntry) (missing : List Byte), rs.length = n ∧ (∀ r ∈ rs, r.ok) ∧ missing ≠ [] ∧ l ++ missing = rs.flatMap RawEntry.serial) := by
  induction n with
  | zero => exact fun l => .inl ⟨[], l, rfl, by simp, rfl⟩
  | succ n ih =>
    have blank : ∀ r ∈ List.replicate n blankEntry, r.ok := fun r hr => by
      rw [(List.mem_replicate.1 hr).2]; exact blankEntry_ok
    intro l
    match l with
    | [] =>
      refine .inr ⟨blankEntry :: List.replicate n blankEntry, _, by simp, ?_, ?_, rfl⟩
      · exact List.forall_mem_cons.2 ⟨blankEntry_ok, blank⟩
      · simp [RawEntry.serial]
    | [c] =>
      refine .inr ⟨⟨c, 0, []⟩ :: List.replicate n blankEntry,
        0 :: (List.replicate n blankEntry).flatMap RawEntry.serial, by simp, ?_, by simp, rfl⟩
      exact List.forall_mem_cons.2 ⟨by simp [RawEntry.ok, ceil8], blank⟩
    | c :: len :: l =>
      by_cases hl : ceil8 len.toNat ≤ l.length
      · have hr : RawEntry.ok ⟨c, len, l.take (ceil8 len.toNat)⟩ := by
          simp only [RawEntry.ok, List.length_take]; omega
        rcases ih (l.drop (ceil8 len.toNat)) with ⟨rs, rest, h1, h2, h3⟩ | ⟨rs, missing, h1, h2, h3, h4⟩
        · refine .inl ⟨⟨c, len, l.take (ceil8 len.toNat)⟩ :: rs, rest, by simp [h1], List.forall_mem_cons.2 ⟨hr, h2⟩, ?_⟩
          rw [List.flatMap_cons, List.append_assoc, ← h3]
          simp [RawEntry.serial]
        · refine .inr ⟨⟨c, len, l.take (ceil8 len.toNat)⟩ :: rs, missing, by simp [h1], List.forall_mem_cons.2 ⟨hr, h2⟩,
            h3, ?_⟩
          rw [List.flatMap_cons, ← h4, ← List.append_assoc]
          simp [RawEntry.serial]
      · refine .inr ⟨⟨c, len, l ++ List.replicate (ceil8 len.toNat - l.length) 0⟩ :: List.replicate n blankEntry,
          List.replicate (ceil8 len.toNat - l.length) 0 ++ (List.replicate n blankEntry).flatMap RawEntry.serial, by simp,
          List.forall_mem_cons.2 ⟨?_, blank⟩, ?_, ?_⟩
        · simp only [RawEntry.ok, List.length_append, List.length_replicate]; omega
        · intro h0
          have := congrArg List.length h0
          simp only [List.length_append, List.length_replicate, List.length_nil] at this
          omega
        · simp [RawEntry.serial]

/-- A byte list is a serialised table and what follows it, or a serialised table cut short (R140, R142). -/
theorem table_parse (l : List Byte) :
    (∃ (rs : List RawEntry) (rest : List Byte), rs.length < 65536 ∧ (∀ r ∈ rs, r.ok) ∧ l = rawTable rs ++ rest) ∨
    (∃ (rs : List RawEntry) (missing : List Byte), rs.length < 65536 ∧ (∀ r ∈ rs, r.ok) ∧ missing ≠ [] ∧ l ++ missing = rawTable rs) := by
  have count : ∀ (a b : Byte) (rs : List RawEntry), rs.length = unbe [a, b] →
      rs.length < 65536 ∧ rawTable rs = a :: b :: rs.flatMap RawEntry.serial := by
    intro a b rs h
    have ha := a.isLt
    have hb := b.isLt
    have h2 : rs.length = 256 * a.toNat + b.toNat := by rw [h]; simp [unbe]
    refine ⟨by omega, ?_⟩
    rw [rawTable, be_two]
    have e1 : BitVec.ofNat 8 (rs.length / 256) = a := BitVec.eq_of_toNat_eq (by rw [BitVec.toNat_ofNat]; omega)
    have e2 : BitVec.ofNat 8 rs.length = b := BitVec.eq_of_toNat_eq (by rw [BitVec.toNat_ofNat]; omega)
    rw [e1, e2]; rfl
  have blank : ∀ n, ∀ r ∈ List.replicate n blankEntry, r.ok := fun n r hr => by
    rw [(List.mem_replicate.1 hr).2]; exact blankEntry_ok
  match l with
  | [] =>
    obtain ⟨h1, h2⟩ := count 0 0 [] rfl
    exact .inr ⟨[], [0, 0], h1, by simp, by simp, by rw [h2]; rfl⟩
  | [a] =>
    obtain ⟨h1, h2⟩ := count a 0 (List.replicate (unbe [a, 0]) blankEntry) (by simp)
    exact .inr ⟨_, 0 :: (List.replicate (unbe [a, 0]) blankEntry).flatMap RawEntry.serial, h1, blank _, by simp, by
      rw [h2]; rfl⟩
  | a :: b :: l =>
    rcases entries_parse (unbe [a, b]) l with ⟨rs, rest, q1, q2, q3⟩ | ⟨rs, missing, q1, q2, q3, q4⟩
    · obtain ⟨h1, h2⟩ := count a b rs q1
      exact .inl ⟨rs, rest, h1, q2, by rw [h2, q3]; rfl⟩
    · obtain ⟨h1, h2⟩ := count a b rs q1
      exact .inr ⟨rs, missing, h1, q2, q3, by rw [h2, ← q4]; rfl⟩

/-! ### Code words are unique -/

/-- Of two code words one sequence begins with, neither is longer. -/
theorem Emits_unique {es : List (Symbol × BitSeq)} {c d : Symbol} {w v x y : BitSeq} (hw : Emits es c w) (hv : Emits es d v)
    (h : w ++ x = v ++ y) : w = v := by
  rcases List.prefix_or_prefix_of_prefix (List.prefix_append w x) (h ▸ List.prefix_append v y) with hp | hp
  · by_contra hne
    exact hv.2.2 w hw.1 hp hne c hw.2.1
  · by_contra hne
    exact hw.2.2 v hv.1 hp (fun e => hne e.symm) d hv.2.1

/-- As many code words as another such sequence begins with are the same words. -/
theorem words_unique {es : List (Symbol × BitSeq)} {a : List Symbol} {cs : List BitSeq} (h1 : List.Forall₂ (Emits es) a cs) :
    ∀ {b : List Symbol} {ds : List BitSeq} {x y : BitSeq}, List.Forall₂ (Emits es) b ds → a.length = b.length →
      cs.flatten ++ x = ds.flatten ++ y → cs = ds := by
  induction h1 with
  | nil =>
    intro b ds x y h2 hl _
    cases h2 with
    | nil => rfl
    | cons _ _ => simp at hl
  | cons hc _ ih =>
    intro b ds x y h2 hl h
    cases h2 with
    | nil => simp at hl
    | cons hd hds =>
      rw [List.flatten_cons, List.flatten_cons, List.append_assoc, List.append_assoc] at h
      have e := Emits_unique hc hd h
      subst e
      rw [ih hds (by simpa using hl) (List.append_cancel_left h)]

/-- An input that is not empty is encoded in at least one bit. -/
theorem encodeBits_pos {es : List (Symbol × BitSeq)} {data : List Byte}
    (h : List.Forall₂ (Emits es) data (data.map (codeOf es))) (hne : data ≠ []) : 0 < (encodeBits es data).length := by
  cases data with
  | nil => exact absurd rfl hne
  | cons x r =>
    rw [List.map_cons] at h
    cases h with
    | cons hx _ =>
      rw [encodeBits, List.flatMap_cons, List.length_append]
      have := List.length_pos_iff.2 hx.1
      omega

/-! ### DECODE depends on the table, the payload, LEN and PAD -/

/-- DECODE ends in the same way on two blocks that agree in the table, the payload and LEN, PAD. -/
theorem runDecode_det {u v : State} (hw : u.params.wf = true) (hp : v.params = u.params) (hut : u.TableOk) (hvt : v.TableOk)
    (he : v.entries = u.entries) (hr : v.inRest = u.inRest) (hl : v.len = u.len) (hd : v.pad = u.pad)
    (h1 : u.ilen.toNat ≤ u.params.inCap) (h2 : u.ioff.toNat ≤ u.ilen.toNat)
    (h3 : v.ilen.toNat ≤ v.params.inCap) (h4 : v.ioff.toNat ≤ v.ilen.toNat) :
    (∃ c, runDecode u = raise c ∧ runDecode v = raise c) ∨
    ∃ tu tv, runDecode u = .ok tu ∧ runDecode v = .ok tv ∧ tu.outData = tv.outData ∧ tu.olen = tv.olen := by
  have ho := outCap_lt hw
  have hb := bitCap_lt hw
  have hord : v.order = u.order := by rw [← entries_fst, he, entries_fst]
  have app : ∀ (l : List Byte) (a b : State), a.params = u.params → b.params = u.params → a.olen = 0 → b.olen = 0 →
      (outAppendAll l a = raise .capacity ∧ outAppendAll l b = raise .capacity) ∨
      (outAppendAll l a = .ok (outWritten l a) ∧ outAppendAll l b = .ok (outWritten l b) ∧
        (outWritten l a).outData = (outWritten l b).outData ∧ (outWritten l a).olen = (outWritten l b).olen) := by
    intro l a b ha hb' ha0 hb0
    have ea := outAppendAll_eq l a (by rw [ha]; exact ho)
    have eb := outAppendAll_eq l b (by rw [hb']; exact ho)
    rw [ha0, ha] at ea
    rw [hb0, hb'] at eb
    by_cases h : l = [] ∨ (0 : Reg).toNat + l.length ≤ u.params.outCap
    · rw [if_pos h] at ea eb
      obtain ⟨p1, p2, _⟩ := outWritten_facts l a (by rw [ha]; exact ho) (by rw [ha0, ha]; exact h)
      obtain ⟨q1, q2, _⟩ := outWritten_facts l b (by rw [hb']; exact ho) (by rw [hb0, hb']; exact h)
      refine .inr ⟨ea, eb, ?_, BitVec.eq_of_toNat_eq ?_⟩
      · rw [p1, q1]; simp [State.outData, ha0, hb0]
      · rw [p2, q2, ha0, hb0]
    · rw [if_neg h] at ea eb
      exact .inl ⟨ea, eb⟩
  match ho' : u.order with
  | [] =>
    refine .inr ⟨_, _, runDecode_empty h1 h2 ho', runDecode_empty h3 h4 (by rw [hord, ho']), ?_, rfl⟩
    simp [State.outData]
  | [c] =>
    rw [runDecode_single h1 h2 ho', runDecode_single h3 h4 (by rw [hord, ho']), hl]
    rcases app (List.replicate u.len.toNat c) (restartOut u) (restartOut v) rfl hp rfl rfl with ⟨e1, e2⟩ | ⟨e1, e2, e3, e4⟩
    · exact .inl ⟨_, e1, e2⟩
    · exact .inr ⟨_, _, e1, e2, e3, e4⟩
  | a :: b :: r =>
    have hm : 2 ≤ u.order.length := by rw [ho']; simp
    have hk : v.ilen.toNat - v.ioff.toNat = u.ilen.toNat - u.ioff.toNat := by rw [← inRest_length, ← inRest_length, hr]
    rw [runDecode_many hb h1 h2 hm, runDecode_many (by rw [hp]; exact hb) h3 h4 (by rw [hord]; exact hm), hk, hd, hp, hr, hl]
    by_cases hc : u.params.bitCap < keptBits (u.ilen.toNat - u.ioff.toNat) u.pad.toNat
    · rw [if_pos hc, if_pos hc]; exact .inl ⟨_, rfl, rfl⟩
    · rw [if_neg hc, if_neg hc]
      obtain ⟨syms, chunks, rest, q1, q2, q3, q4⟩ := words_split u.entries u.len.toNat (unpackBits u.inRest u.pad.toNat)
      have tu : (unpacked u).TableOk := TableOk_congr hut (by simp [unpacked]) (by simp [unpacked])
      have tv : (unpacked v).TableOk := TableOk_congr hvt (by simp [unpacked]) (by simp [unpacked])
      have eu : (unpacked u).entries = u.entries := entries_congr (by simp [unpacked]) (by simp [unpacked])
      have ev : (unpacked v).entries = u.entries := (entries_congr (by simp [unpacked]) (by simp [unpacked])).trans he
      rw [q1, show u.len.toNat = syms.length + (u.len.toNat - syms.length) by omega, bdecLoop_words q2 tu eu, bdecLoop_words q2 tv ev]
      rcases app syms (unpacked u) (unpacked v) (by simp [unpacked]) (by simp [unpacked, hp]) (by simp [unpacked]) (by simp [unpacked]) with ⟨e1, e2⟩ | ⟨e1, e2, e3, e4⟩
      · rw [e1, e2]; exact .inl ⟨_, rfl, rfl⟩
      · rw [e1, e2, ok_bind, ok_bind]
        rcases q4 with q4 | q4
        · rw [q4, Nat.sub_self, bdecLoop_done, bdecLoop_done]
          exact .inr ⟨_, _, rfl, rfl, e3, e4⟩
        · rcases Nat.eq_or_lt_of_le q3 with q5 | q5
          · rw [q5, Nat.sub_self, bdecLoop_done, bdecLoop_done]
            exact .inr ⟨_, _, rfl, rfl, e3, e4⟩
          · refine .inl ⟨_, bdecLoop_noMatch (TableOk_congr tu (by simp) (by simp)) (by omega) rest [] fun p p1 p2 d => ?_,
              bdecLoop_noMatch (TableOk_congr tv (by simp) (by simp)) (by omega) rest [] fun p p1 p2 d => ?_⟩
            · rw [entries_congr (s := unpacked u) (by simp) (by simp), eu]; exact q4 p p1 p2 d
            · rw [entries_congr (s := unpacked v) (by simp) (by simp), ev]; exact q4 p p1 p2 d

end Sys2Proof.Laws
end

