-- ==== Sys2Proof/Laws/Restart.lean ====
section
/-!
SUPPORT. Laws/Restart.lean: a command that starts BIT or OUT again where its length was 0 only appends to it (20_memory.md
R75): what lies beyond the new length stays. Then the faults of DECODE behind its operand check (44_pipeline.md R185).
-/
namespace Sys2Proof.Laws

open Sys2Proof Sys2Proof.Machine

/-- BIT only grew: BLEN did not fall, and what lies beyond it is as before. -/
structure BitGrows (s t : State) : Prop where
  blen : s.blen.toNat ≤ t.blen.toNat
  beyond : ∀ a, t.blen.toNat ≤ a → t.bitRead a = s.bitRead a

/-- OUT only grew: OLEN did not fall, and what lies beyond it is as before. -/
structure OutGrows (s t : State) : Prop where
  olen : s.olen.toNat ≤ t.olen.toNat
  beyond : ∀ a, t.olen.toNat ≤ a → t.outRead a = s.outRead a

theorem BitGrows_same {s t : State} (h1 : t.bit = s.bit) (h2 : t.blen = s.blen) : BitGrows s t :=
  ⟨by rw [h2], fun a _ => bitRead_congr h1 a⟩

theorem OutGrows_same {s t : State} (h1 : t.out = s.out) (h2 : t.olen = s.olen) : OutGrows s t :=
  ⟨by rw [h2], fun a _ => outRead_congr h1 a⟩

theorem BitGrows_trans {s t u : State} (h1 : BitGrows s t) (h2 : BitGrows t u) : BitGrows s u :=
  ⟨h1.blen.trans h2.blen, fun a ha => (h2.beyond a ha).trans (h1.beyond a (h2.blen.trans ha))⟩

theorem OutGrows_trans {s t u : State} (h1 : OutGrows s t) (h2 : OutGrows t u) : OutGrows s u :=
  ⟨h1.olen.trans h2.olen, fun a ha => (h2.beyond a ha).trans (h1.beyond a (h2.olen.trans ha))⟩

/-- A pseudocode that does not write BIT. -/
theorem BitGrows_keeps {run : State → Run} {fs : List Field} (hk : Keeps run fs) (h1 : .bit ∉ fs) (h2 : .blen ∉ fs)
    {s t : State} (h : run s = .ok t) : BitGrows s t := BitGrows_same (hk.frame h .bit h1) (hk.frame h .blen h2)

/-- A pseudocode that does not write OUT. -/
theorem OutGrows_keeps {run : State → Run} {fs : List Field} (hk : Keeps run fs) (h1 : .out ∉ fs) (h2 : .olen ∉ fs)
    {s t : State} (h : run s = .ok t) : OutGrows s t := OutGrows_same (hk.frame h .out h1) (hk.frame h .olen h2)

/-- The appends of R72. -/
theorem BitGrows_append {l : BitSeq} {s t : State} (hw : s.params.wf = true) (h : bitAppendAll l s = .ok t) :
    BitGrows s t := by
  have hc := bitCap_lt hw
  obtain ⟨rfl, hl⟩ := bitAppendAll_ok hc h
  have hl : s.blen.toNat + l.length < 2 ^ 64 := by
    rcases hl with rfl | hl
    · exact s.blen.isLt
    · omega
  have e := bitWritten_blen l s hl
  refine ⟨by omega, fun a ha => ?_⟩
  rw [bitWritten_read l s hl, List.getElem?_eq_none (by omega)]
  simp

/-- The appends of R71. -/
theorem OutGrows_append {l : List Byte} {s t : State} (hw : s.params.wf = true) (h : outAppendAll l s = .ok t) :
    OutGrows s t := by
  obtain ⟨rfl, hl⟩ := outAppendAll_ok (outCap_lt hw) h
  obtain ⟨_, e, f⟩ := outWritten_facts l s (outCap_lt hw) hl
  exact ⟨by omega, fun a ha => f a (.inr (by omega))⟩

/-- BIT started again where BLEN was 0 is BIT as it was (R75). -/
theorem BitGrows_restart {s : State} (h : s.blen = 0) : BitGrows s (restartBit s) :=
  BitGrows_same (by rw [restartBit_bit, h, Mem_restart_zero]) (by rw [restartBit_blen, h])

/-- OUT started again where OLEN was 0 is OUT as it was (R75). -/
theorem OutGrows_restart {s : State} (h : s.olen = 0) : OutGrows s (restartOut s) :=
  OutGrows_same (by rw [restartOut_out, h, Mem_restart_zero]) (by rw [restartOut_olen, h])

/-! ### The commands -/

theorem runUnpack_grows {s t : State} (hw : s.params.wf = true) (hb : s.blen = 0) (h0 : runUnpack s = .ok t) :
    BitGrows s t := by
  obtain ⟨s, h1, h⟩ := bind_eq_ok.1 h0
  obtain ⟨rfl, _⟩ := checkIn_ok h1
  simp only at h
  split at h
  · simp [raise] at h
  · obtain ⟨u, h2, h⟩ := bind_eq_ok.1 h
    rw [unpackLoop_eq] at h2
    cases h
    exact BitGrows_trans (BitGrows_trans (BitGrows_restart hb) (BitGrows_append hw h2)) (BitGrows_same rfl rfl)

theorem runBgen_grows {s t : State} (hw : s.params.wf = true) (hb : s.blen = 0) (h0 : runBgen s = .ok t) :
    BitGrows s t := by
  obtain ⟨s, h1, h⟩ := bind_eq_ok.1 h0
  obtain ⟨rfl, _⟩ := checkLen_ok h1
  obtain ⟨bits, h⟩ := bgenLoop_ok _ h
  exact BitGrows_trans (BitGrows_restart hb) (BitGrows_append hw h)

theorem runPack_grows {s t : State} (hw : s.params.wf = true) (h0 : runPack s = .ok t) : OutGrows s t := by
  obtain ⟨s, h1, h⟩ := bind_eq_ok.1 h0
  obtain ⟨rfl, _⟩ := checkBit_ok h1
  obtain ⟨u, h2, h⟩ := bind_eq_ok.1 h
  cases h
  exact OutGrows_trans (OutGrows_append hw h2) (OutGrows_same rfl rfl)

theorem runBdec_grows {s t : State} (hw : s.params.wf = true) (h : runBdec s = .ok t) : OutGrows s t := by
  unfold runBdec at h
  split at h
  · cases h; exact OutGrows_same rfl rfl
  · rw [outAppendTimes_eq] at h; exact OutGrows_append hw h
  · obtain ⟨s, h1, h2⟩ := bind_eq_ok.1 h
    obtain ⟨rfl, _⟩ := checkBit_ok h1
    obtain ⟨syms, h2⟩ := bdecLoop_ok _ h2
    exact OutGrows_append hw h2

theorem runDecode_grows {s t : State} (hw : s.params.wf = true) (h0 : runDecode s = .ok t) :
    (s.blen = 0 → BitGrows s t) ∧ (s.olen = 0 → OutGrows s t) := by
  rw [runDecode_eq] at h0
  obtain ⟨s, h1, h⟩ := bind_eq_ok.1 h0
  obtain ⟨rfl, _⟩ := checkIn_ok h1
  rw [ok_bind] at h
  obtain ⟨u, h2, h3⟩ := bind_eq_ok.1 h
  have hu : (s.blen = 0 → BitGrows s u) ∧ OutGrows (restartOut s) u ∧ u.params = s.params := by
    split at h2
    · exact ⟨fun hb => BitGrows_trans (BitGrows_same (t := restartOut s) rfl rfl) (runUnpack_grows hw hb h2),
        OutGrows_keeps runUnpack_keeps (by decide) (by decide) h2, runUnpack_keeps.frame h2 .params (by decide)⟩
    · cases h2
      exact ⟨fun _ => BitGrows_same rfl rfl, OutGrows_same rfl rfl, rfl⟩
  exact ⟨fun hb => BitGrows_trans (hu.1 hb) (BitGrows_keeps runBdec_keeps (by decide) (by decide) h3),
    fun ho => OutGrows_trans (OutGrows_restart ho)
      (OutGrows_trans hu.2.1 (runBdec_grows (by rw [hu.2.2]; exact hw) h3))⟩

theorem runDecompress_grows {s t : State} (hw : s.params.wf = true) (h0 : runDecompress s = .ok t) :
    (s.blen = 0 → BitGrows s t) ∧ (s.olen = 0 → OutGrows s t) := by
  obtain ⟨s, h1, h⟩ := bind_eq_ok.1 h0
  obtain ⟨rfl, _⟩ := checkLen_ok h1
  split at h
  · simp [raise] at h
  · split at h
    · simp [raise] at h
    · obtain ⟨u, h2, h3⟩ := bind_eq_ok.1 h
      have hk := runTdes_keeps.frame h2
      have hbit : u.bit = s.bit := hk .bit (by decide)
      have hblen : u.blen = s.blen := hk .blen (by decide)
      have hout : u.out = s.out := hk .out (by decide)
      have holen : u.olen = s.olen := hk .olen (by decide)
      have hp : u.params = s.params := hk .params (by decide)
      obtain ⟨g1, g2⟩ := runDecode_grows (by rw [hp]; exact hw) h3
      exact ⟨fun hb => BitGrows_trans (BitGrows_same hbit hblen) (g1 (hblen.trans hb)),
        fun ho => OutGrows_trans (OutGrows_same hout holen) (g2 (holen.trans ho))⟩

/-- The front of ENCODE and COMPRESS: FCNT, TBUILD, GENC and BGEN. -/
theorem front_grows {s a b c d : State} (hw : s.params.wf = true) (h1 : runFcnt s = .ok a) (h2 : runTbuild a = .ok b)
    (h3 : runGenc b = .ok c) (h4 : runBgen c = .ok d) :
    (s.blen = 0 → BitGrows s d) ∧ OutGrows s d ∧ d.params = s.params ∧ d.olen = s.olen := by
  have hk : Unchanged (.freq :: (treeFields ++ [.code, .order])) s c :=
    Unchanged_trans (Unchanged_mono (runFcnt_keeps.frame h1) (by decide))
      (Unchanged_trans (Unchanged_mono (runTbuild_keeps.frame h2) (by decide))
        (Unchanged_mono (runGenc_keeps.frame h3) (by decide)))
  have hp : c.params = s.params := hk .params (by decide)
  have hb : c.blen = s.blen := hk .blen (by decide)
  exact ⟨fun h => BitGrows_trans (BitGrows_same (hk .bit (by decide)) hb)
      (runBgen_grows (by rw [hp]; exact hw) (hb.trans h) h4),
    OutGrows_trans (OutGrows_same (hk .out (by decide)) (hk .olen (by decide)))
      (OutGrows_keeps runBgen_keeps (by decide) (by decide) h4), (runBgen_keeps.frame h4 .params (by decide)).trans hp,
    (runBgen_keeps.frame h4 .olen (by decide)).trans (hk .olen (by decide))⟩

theorem runEncode_grows {s t : State} (hw : s.params.wf = true) (h0 : runEncode s = .ok t) :
    (s.blen = 0 → BitGrows s t) ∧ (s.olen = 0 → OutGrows s t) := by
  obtain ⟨s, h1, h⟩ := bind_eq_ok.1 h0
  obtain ⟨rfl, _⟩ := checkLen_ok h1
  obtain ⟨a, e1, h⟩ := bind_eq_ok.1 h
  obtain ⟨b, e2, h⟩ := bind_eq_ok.1 h
  obtain ⟨c, e3, h⟩ := bind_eq_ok.1 h
  obtain ⟨d, e4, h⟩ := bind_eq_ok.1 h
  obtain ⟨g1, g2, g3, _⟩ := front_grows (s := restartOut (setLen s.ilen s)) hw e1 e2 e3 e4
  exact ⟨fun hb => BitGrows_trans (BitGrows_same (t := restartOut (setLen s.ilen s)) rfl rfl)
      (BitGrows_trans (g1 hb) (BitGrows_keeps runPack_keeps (by decide) (by decide) h)),
    fun ho => OutGrows_trans (OutGrows_same (t := setLen s.ilen s) rfl rfl)
      (OutGrows_trans (OutGrows_restart (s := setLen s.ilen s) ho)
        (OutGrows_trans g2 (runPack_grows (by rw [g3]; exact hw) h)))⟩

theorem runCompress_grows {s t : State} (hw : s.params.wf = true) (h0 : runCompress s = .ok t) :
    (s.blen = 0 → BitGrows s t) ∧ (s.olen = 0 → OutGrows s t) := by
  obtain ⟨s, h1, h⟩ := bind_eq_ok.1 h0
  obtain ⟨rfl, _⟩ := checkLen_ok h1
  obtain ⟨a, e1, h⟩ := bind_eq_ok.1 h
  obtain ⟨b, e2, h⟩ := bind_eq_ok.1 h
  obtain ⟨c, e3, h⟩ := bind_eq_ok.1 h
  obtain ⟨d, e4, h⟩ := bind_eq_ok.1 h
  obtain ⟨e, e5, h⟩ := bind_eq_ok.1 h
  obtain ⟨f, e6, e7⟩ := bind_eq_ok.1 h
  obtain ⟨g1, g2, g3, ho⟩ := front_grows (s := setLen s.ilen s) hw e1 e2 e3 e4
  have hwd : d.params.wf = true := by rw [g3]; exact hw
  have hu := outAppendAll_state e5
  have hwe : e.params.wf = true := by rw [hu]; simpa using hwd
  rw [runTser_eq] at e6
  have hwf : f.params.wf = true := by rw [outAppendAll_state e6]; simpa using hwe
  refine ⟨fun hb => ?_, fun h2 => ?_⟩
  · have k5 : BitGrows d e := BitGrows_same (by rw [hu]; simp) (by rw [hu]; simp)
    have k6 : BitGrows e f := BitGrows_same (by rw [outAppendAll_state e6]; simp) (by rw [outAppendAll_state e6]; simp)
    exact BitGrows_trans (BitGrows_same (t := setLen s.ilen s) rfl rfl) (BitGrows_trans (g1 hb) (BitGrows_trans k5
      (BitGrows_trans k6 (BitGrows_keeps runPack_keeps (by decide) (by decide) e7))))
  · exact OutGrows_trans (OutGrows_same (t := setLen s.ilen s) rfl rfl) (OutGrows_trans g2
      (OutGrows_trans (OutGrows_restart (ho.trans h2)) (OutGrows_trans (OutGrows_append (s := restartOut d) hwd e5)
        (OutGrows_trans (OutGrows_append hwe e6) (runPack_grows hwf e7)))))

/-! ### The faults of DECODE -/

theorem runDecode_single_full {s : State} {c : Symbol} (hw : s.params.wf = true) (h1 : s.ilen.toNat ≤ s.params.inCap)
    (h2 : s.ioff.toNat ≤ s.ilen.toNat) (h : s.order = [c]) (hbig : s.params.outCap < s.len.toNat) :
    runDecode s = raise .capacity := by
  rw [runDecode_single h1 h2 h, outAppendAll_eq _ (restartOut s) (by simpa using outCap_lt hw), if_neg]
  rintro (h0 | h0)
  · have := congrArg List.length h0; simp at this; omega
  · simp at h0; omega

theorem runDecode_bit_full {s : State} (hw : s.params.wf = true) (h1 : s.ilen.toNat ≤ s.params.inCap)
    (h2 : s.ioff.toNat ≤ s.ilen.toNat) (h : 2 ≤ s.order.length)
    (hbig : s.params.bitCap < keptBits (s.ilen.toNat - s.ioff.toNat) s.pad.toNat) : runDecode s = raise .capacity := by
  rw [runDecode_many (bitCap_lt hw) h1 h2 h, if_pos hbig]

/-- The bits run out: the symbols they give are fewer than LEN and fit. -/
theorem runDecode_exhausted {s : State} {out : List Symbol} (hw : s.params.wf = true) (ht : s.TableOk)
    (h1 : s.ilen.toNat ≤ s.params.inCap) (h2 : s.ioff.toNat ≤ s.ilen.toNat) (h : 2 ≤ s.order.length)
    (hk : keptBits (s.ilen.toNat - s.ioff.toNat) s.pad.toNat ≤ s.params.bitCap)
    (hx : Exhausts s.entries (unpackBits s.inRest s.pad.toNat) out) (hlt : out.length < s.len.toNat)
    (hfit : out.length ≤ s.params.outCap) : runDecode s = raise .corruptStream := by
  obtain ⟨chunks, rest, hbits, hem, hno⟩ := hx
  have tu : (unpacked s).TableOk := TableOk_congr ht (by simp [unpacked]) (by simp [unpacked])
  have eu : (unpacked s).entries = s.entries := entries_congr (by simp [unpacked]) (by simp [unpacked])
  rw [runDecode_many (bitCap_lt hw) h1 h2 h, if_neg (by omega), hbits,
    show s.len.toNat = out.length + (s.len.toNat - out.length) by omega, bdecLoop_words hem tu eu,
    outAppendAll_eq _ _ (by simpa [unpacked] using outCap_lt hw), if_pos (.inr (by simpa [unpacked] using hfit)), ok_bind]
  refine bdecLoop_noMatch (TableOk_congr tu (by simp) (by simp)) (by omega) rest [] fun p p1 p2 d => ?_
  rw [entries_congr (s := unpacked s) (by simp) (by simp), eu]
  exact hno p p1 p2 d

/-- OUT fills first: the bits begin with more symbols than fit, within the first LEN. -/
theorem runDecode_out_full {s : State} {out : List Symbol} (hw : s.params.wf = true) (ht : s.TableOk)
    (h1 : s.ilen.toNat ≤ s.params.inCap) (h2 : s.ioff.toNat ≤ s.ilen.toNat) (h : 2 ≤ s.order.length)
    (hk : keptBits (s.ilen.toNat - s.ioff.toNat) s.pad.toNat ≤ s.params.bitCap)
    (hx : BeginsWith s.entries (unpackBits s.inRest s.pad.toNat) out) (hle : out.length ≤ s.len.toNat)
    (hbig : s.params.outCap < out.length) : runDecode s = raise .capacity := by
  obtain ⟨chunks, rest, hbits, hem⟩ := hx
  have tu : (unpacked s).TableOk := TableOk_congr ht (by simp [unpacked]) (by simp [unpacked])
  have eu : (unpacked s).entries = s.entries := entries_congr (by simp [unpacked]) (by simp [unpacked])
  rw [runDecode_many (bitCap_lt hw) h1 h2 h, if_neg (by omega), hbits,
    show s.len.toNat = out.length + (s.len.toNat - out.length) by omega, bdecLoop_words hem tu eu,
    outAppendAll_eq _ _ (by simpa [unpacked] using outCap_lt hw), if_neg, raise_bind]
  rintro (h0 | h0)
  · rw [h0] at hbig; simp at hbig
  · simp [unpacked] at h0; omega

end Sys2Proof.Laws
end

