-- ==== Sys2Proof/Tests/Slice0.lean ====
section
/-!
SUPPORT. Tests/Slice0.lean: the model's own tests. Expected values are those of 95_test_vectors.md (V1 to V69), or worked out
by hand from the rule named. Part 1: well-formedness and decoding. Part 2: single commands. Part 3: for every obligation with
hypotheses a concrete state that meets them (`witness_…`).
-/
namespace Sys2Proof.Tests

open Sys2Proof Sys2Proof.Machine Sys2Proof.Laws

set_option Elab.async false

/-! ### Part 1: well-formedness and decoding -/

/-- The default parameters (R9). -/
theorem test_wf_standard : Params.standard.wf = true := by decide
/-- `1 ≤ IN_CAP` (R9). -/
theorem test_wf_inCap_zero : ({ Params.standard with inCap := 0 } : Params).inCapOk = false := by decide
/-- `IN_CAP < 2^64` (R9). -/
theorem test_wf_inCap_wide : ({ Params.standard with inCap := 2 ^ 64 } : Params).inCapOk = false := by decide
/-- `OUT_CAP ≥ 15` (R9). -/
theorem test_wf_outCap_small : ({ Params.standard with outCap := 14 } : Params).outCapOk = false := by decide
/-- OUT_CAP below 2^64 (R112 (f)). -/
theorem test_wf_outCap_wide : ({ Params.standard with outCap := 2 ^ 64 } : Params).outCapOk = false := by decide
/-- `BIT_CAP ≥ 8` (R9). -/
theorem test_wf_bitCap_small : ({ Params.standard with bitCap := 7 } : Params).bitCapOk = false := by decide
/-- BIT_CAP below 2^64 (R112 (f)). -/
theorem test_wf_bitCap_wide : ({ Params.standard with bitCap := 2 ^ 64 } : Params).bitCapOk = false := by decide
/-- The smallest parameters R9 allows. -/
theorem test_wf_smallest : ({ Params.standard with inCap := 1, outCap := 15, bitCap := 8 } : Params).wf = true := by decide
/-- One check that fails is enough. -/
theorem test_wf_refused : ({ Params.standard with outCap := 14 } : Params).wf = false := by decide
/-- A command has no field, so no command is ill formed (R91). -/
theorem test_wf_instr : Instr.wf .bdec = true := by decide

/-- R92: one word of each group, written bit by bit. -/
theorem test_decode_control : decodeTableWord 8 0b00000001 = some .sreset := by decide
theorem test_decode_packer : decodeTableWord 8 0b00010001 = some .unpack := by decide
theorem test_decode_codec : decodeTableWord 8 0b00100001 = some .tdes := by decide
theorem test_decode_tree : decodeTableWord 8 0b00110010 = some .tbuild := by decide
theorem test_decode_pipeline : decodeTableWord 8 0b01000010 = some .bdec := by decide
theorem test_decode_container : decodeTableWord 8 0b01010000 = some .compress := by decide
/-- R93, V3: the reserved bytes next to the groups. -/
theorem test_decode_reserved : [0x02, 0x12, 0x22, 0x34, 0x45, 0x52, 0x60, 0xFF].map (decodeTableWord 8) =
    [none, none, none, none, none, none, none, none] := by decide
/-- R90: a command is one byte. -/
theorem test_decode_bytes : decodeBytes [0x43, 0x44] = .ok (.encode, [0x44]) ∧ decodeBytes [] = .error .noByte := by decide
/-- R92: exactly seventeen bytes are commands. -/
theorem test_decode_count : ((List.range 256).filter fun w => (decodeTableWord 8 w).isSome).length = 17 := by decide +kernel

/-! ### Part 2: single commands -/

/-- Cells 0, 1, 2, ... of a buffer. -/
def listed {α : Type} (l : List α) : Mem α := { cells := l.zipIdx.map fun p => (p.2, p.1), epoch := 0 }

/-- The reset state with bytes in IN and ILEN counting them. -/
def withIn (l : List Byte) : State := { State.reset with inp := listed l, ilen := BitVec.ofNat 64 l.length }

/-- The reset state with bits in BIT and BLEN counting them. -/
def withBits (l : BitSeq) : State := { State.reset with bit := listed l, blen := BitVec.ofNat 64 l.length }

/-- The reset state with counters. -/
def withFreq (l : List (Symbol × Counter)) : State :=
  l.foldl (fun s p => { s with freq := s.freq.set p.1.toNat p.2 }) State.reset

/-- The reset state with a table. -/
def withTable (es : List (Symbol × BitSeq)) : State := putEntries es (clearTable State.reset)

/-- The next state of a command, the state itself where there is none. -/
def after (i : Instr) (s : State) : State :=
  match exec i s with
  | .next t => t
  | _ => s

/-- The command answers a next state. -/
def goesOn (i : Instr) (s : State) : Bool :=
  match exec i s with
  | .next _ => true
  | _ => false

theorem next_after {i : Instr} {s : State} (h : goesOn i s = true) : exec i s = .next (after i s) := by
  unfold goesOn at h
  unfold after
  split at h
  · rename_i t e; simp only [e]
  · cases h

/-- ERR after the command, `none` where FAULT is 0. -/
def errAfter (i : Instr) (s : State) : Option Nat :=
  if (after i s).fault then some (after i s).err.toNat else none

/-- The first n internal nodes of the arena: weight, left, right. -/
def innerNodes (n : Nat) (s : State) : List (Nat × Nat × Nat) :=
  ((List.range n).filterMap fun k => s.slot (256 + k)).map fun n => (n.weight.toNat, n.left.toNat, n.right.toNat)

def freq30 : State := withFreq [(0x61, 1), (0x62, 1), (0x63, 1), (0x64, 1), (0x65, 1)]
def freq31 : State := withFreq [(0x61, 5), (0x62, 2), (0x63, 1), (0x64, 1), (0x72, 2)]
def abcde : List Byte := [0x61, 0x62, 0x63, 0x64, 0x65]
def abra : List Byte := [0x61, 0x62, 0x72, 0x61, 0x63, 0x61, 0x64, 0x61, 0x62, 0x72, 0x61]
/-- The table of V21: a is 0, b is 1. -/
def ab : List (Symbol × BitSeq) := [(0x61, [false]), (0x62, [true])]
/-- The blob of "ab", V43. -/
def abBlob : List Byte :=
  [0x48, 0x55, 0x46, 0x31, 0, 0, 0, 0, 0, 0, 0, 2, 6, 0, 2, 0x61, 1, 0, 0x62, 1, 0x80, 0x40]
/-- The blob of "aaaa", V42. -/
def aaaaBlob : List Byte := [0x48, 0x55, 0x46, 0x31, 0, 0, 0, 0, 0, 0, 0, 4, 4, 0, 1, 0x61, 1, 0, 0]

/-- V1. -/
theorem test_nop : after .nop freq30 = freq30 := rfl
/-- V2: SRESET of a faulted state. -/
theorem test_sreset : (after .sreset { freq30 with fault := true, err := 3, next := 300, pad := 9 }).statusWord = 0 ∧
    (after .sreset { freq30 with fault := true, err := 3, next := 300, pad := 9 }).treeWord = 0x40000 ∧
    (after .sreset { freq30 with fault := true, err := 3, next := 300, pad := 9 }).freqAt 0x61 = 0 := by decide +kernel
/-- V3: an illegal command changes STATUS and ERR only. -/
theorem test_illegal : (match runCommand 0x34 freq30 with | .next t => some t | _ => none) =
    some { freq30 with fault := true, err := 3 } := rfl
/-- V4: a faulted block refuses. -/
theorem test_refused_while_faulted : after .compress { freq30 with fault := true, err := 3 } =
    { freq30 with fault := true, err := 3 } := rfl
/-- V14. -/
theorem test_pack : (after .pack (withBits [true, false, true, true, false, false, true, false, true])).outData =
    [0xB2, 0x80] ∧
    (after .pack (withBits [true, false, true, true, false, false, true, false, true])).pad = 7 := by decide +kernel
/-- V19 (e): PACK appends. -/
theorem test_pack_appends : (after .pack { withBits [true] with out := listed [0x11, 0x22, 0x33], olen := 3 }).outData =
    [0x11, 0x22, 0x33, 0x80] := by decide +kernel
/-- V17. -/
theorem test_unpack : (after .unpack { withIn [0x00, 0xB2, 0x80] with ioff := 1 }).bitData =
    [true, false, true, true, false, false, true, false, true, false, false, false, false, false, false, false] ∧
    (after .unpack { withIn [0x00, 0xB2, 0x80] with ioff := 1 }).ioff = 3 := by decide +kernel
/-- V18: a pad count above 7 and above the bits. -/
theorem test_unpack_pad : (after .unpack { withIn [0xFF, 0xFF, 0xFF] with pad := 12 }).bitData = List.replicate 12 true ∧
    (after .unpack { withIn [0xFF, 0xFF, 0xFF] with pad := 200 }).blen = 0 := by decide +kernel
/-- V21, and 42_code_table_codec.md R141. -/
theorem test_tser : (after .tser (withTable ab)).outData = [0, 2, 0x61, 1, 0, 0x62, 1, 0x80] := by decide +kernel
/-- V25: a repeated symbol keeps its place and takes the last code. -/
theorem test_tdes : (after .tdes (withIn [0, 3, 0x61, 1, 0, 0x62, 1, 0x80, 0x61, 2, 0xC0])).entries =
    [(0x61, [true, true]), (0x62, [true])] ∧
    (after .tdes (withIn [0, 3, 0x61, 1, 0, 0x62, 1, 0x80, 0x61, 2, 0xC0])).ioff = 11 := by decide +kernel
/-- V26. -/
theorem test_tdes_short : errAfter .tdes (withIn [0, 1, 0x61, 9, 0xFF]) = some 2 := by decide +kernel
/-- V30, TINIT and TMERGE 1. -/
theorem test_tinit_tmerge : (after .tinit freq30).heap = [97, 98, 99, 100, 101] ∧
    (after .tmerge (after .tinit freq30)).heap = [99, 100, 101, 256] ∧
    innerNodes 2 (after .tmerge (after .tinit freq30)) = [(2, 97, 98)] ∧
    (after .tmerge (after .tinit freq30)).treeWord = 0x40400 := by decide +kernel
/-- V31: TBUILD and GENC. -/
theorem test_tbuild_genc :
    innerNodes 5 (after .tbuild freq31) = [(2, 99, 100), (4, 98, 114), (6, 256, 257), (11, 97, 258)] ∧
    (after .tbuild freq31).heap = [259] ∧
    (after .genc (after .tbuild freq31)).entries = [(0x61, [false]), (0x63, [true, false, false]),
      (0x64, [true, false, true]), (0x62, [true, true, false]), (0x72, [true, true, true])] := by decide +kernel
/-- V37: the sum of two weights does not wrap at 64 bits. -/
theorem test_tbuild_wide : innerNodes 3 (after .tbuild (withFreq [(0, BitVec.allOnes 64), (1, BitVec.allOnes 64),
    (2, BitVec.allOnes 64)])) = [(0x1FFFFFFFFFFFFFFFE, 0, 1), (0x2FFFFFFFFFFFFFFFD, 2, 256)] := by decide +kernel
/-- V38, on a heap written by hand: a tree that is not finished. -/
theorem test_genc_unfinished : errAfter .genc { freq30 with heap := [1, 2, 3] } = some 5 := by decide +kernel
/-- V60, with a stale IOFF. -/
theorem test_fcnt : (after .fcnt { withIn abra with ioff := 99 }).freq = freq31.freq := by decide +kernel
/-- V21, R181: the codes in input order. -/
theorem test_bgen : (after .bgen { withTable ab with inp := listed [0x61, 0x62, 0x62], ilen := 3 }).bitData =
    [false, true, true] := by decide +kernel
/-- V62. -/
theorem test_bgen_uncovered : errAfter .bgen { withTable ab with inp := listed [0x61, 0x62, 0x7A], ilen := 3 } = some 5 := by
  decide +kernel
/-- V69 (b): of equal codes the later entry wins. -/
theorem test_bdec : (after .bdec { withTable [(0x61, [false]), (0x62, [false]), (0x63, [true])] with
    bit := listed [false, true, false], blen := 3, len := 3 }).outData = [0x62, 0x63, 0x62] := by decide +kernel
/-- V65: the bits run out. -/
theorem test_bdec_short : errAfter .bdec { withTable ab with bit := listed [false, true], blen := 2, len := 3 } = some 2 := by
  decide +kernel
/-- V63. -/
theorem test_encode : (after .encode (withIn abcde)).outData = [0xDC, 0x60] ∧ (after .encode (withIn abcde)).pad = 4 ∧
    (after .encode (withIn abcde)).treeWord = 0x41303 := by decide +kernel
/-- V64. -/
theorem test_decode : (after .decode { withTable [(0x63, [false, false]), (0x64, [false, true]), (0x65, [true, false]),
    (0x61, [true, true, false]), (0x62, [true, true, true])] with
    inp := listed [0xDC, 0x60], ilen := 2, pad := 4, len := 5 }).outData = abcde := by decide +kernel
/-- V43, "ab". -/
theorem test_compress : goesOn .compress (withIn [0x61, 0x62]) = true ∧
    (after .compress (withIn [0x61, 0x62])).fault = false ∧
    (after .compress (withIn [0x61, 0x62])).outData = abBlob ∧
    (after .compress (withIn [0x61, 0x62])).order = [0x61, 0x62] := by decide +kernel
/-- V42: the payload is not read. -/
theorem test_decompress : (after .decompress (withIn aaaaBlob)).outData = [0x61, 0x61, 0x61, 0x61] ∧
    (after .decompress (withIn aaaaBlob)).ioff = 18 := by decide +kernel
/-- V44, V46: a payload cut short, and an altered tag. -/
theorem test_decompress_faults : errAfter .decompress (withIn abBlob.dropLast) = some 2 ∧
    errAfter .decompress (withIn (abBlob.set 3 0x49)) = some 1 := by decide +kernel
/-- R26, V40: a step runs the command the host writes; COMPRESS of nothing. -/
theorem test_step : (match step (State.reset.withFetchWord 8 0x50) with | .next t => t.outData | _ => []) =
    [0x48, 0x55, 0x46, 0x31, 0, 0, 0, 0, 0, 0, 0, 0, 0, 0, 0] := by decide +kernel

/-! ### Part 3: witnesses -/

/-- Small capacities, to meet the bounds of the statements. -/
def small : Params := { Params.standard with inCap := 4, outCap := 15, bitCap := 8 }

theorem small_wf : small.wf = true := by decide
theorem standard_wf : Params.standard.wf = true := by decide
theorem reset_idle : State.reset.Idle := ⟨rfl, rfl⟩

/-- The list of commands answers a next state. -/
def manyGoOn (l : List Instr) (s : State) : Bool :=
  match execMany l s with
  | .next _ => true
  | _ => false

/-- The state a list of commands leaves. -/
def afterMany (l : List Instr) (s : State) : State :=
  match execMany l s with
  | .next t => t
  | _ => s

theorem next_afterMany {l : List Instr} {s : State} (h : manyGoOn l s = true) : execMany l s = .next (afterMany l s) := by
  unfold manyGoOn at h
  unfold afterMany
  split at h
  · rename_i t e; simp only [e]
  · cases h

theorem withTable_ok {es : List (Symbol × BitSeq)} (h : ∀ e ∈ es, e.2.length ≤ 255) : (withTable es).TableOk :=
  putEntries_tableOk h (clearTable_tableOk _)

theorem ab_ok : (withTable ab).TableOk := withTable_ok (by decide)

theorem ab_entries : (withTable ab).entries = ab := (putEntries_clear (by decide) _).2.2.2

theorem ab_prefixFree : PrefixFree ab := by
  show List.Pairwise _ _
  decide

theorem ab_emits {e : Symbol × BitSeq} (h : e ∈ ab) : Emits ab e.1 e.2 :=
  Emits_of_prefixFree ab_prefixFree (by decide) h

/-- The bits 01 are the words of a and b. -/
theorem ab_words : List.Forall₂ (Emits ab) [0x61, 0x62] [[false], [true]] :=
  .cons (ab_emits (e := (0x61, [false])) (by decide)) (.cons (ab_emits (e := (0x62, [true])) (by decide)) .nil)

/-! #### Encoding and the step -/

theorem witness_EncodingAndDecodingAgree : Instr.wf .decompress = true ∧ decode 0x51 = .ok .decompress := by decide

/-- Two bytes, and data with every bit above the byte set. -/
theorem witness_OtherBytesRaiseIllegalCommand : (∀ i, encode i ≠ 0x02) ∧ (∀ i, encode i ≠ 0xFF) ∧
    (∀ i, encode i ≠ (0xFFFFFFFFFFFFFF02 : Reg).setWidth 8) ∧ State.reset.Idle :=
  ⟨fun i => by cases i <;> decide, fun i => by cases i <;> decide, fun i => by cases i <;> decide, rfl, rfl⟩

/-- The host is about to write CMD, with bits set above the command byte. -/
def aboutToWrite (v : Reg) : State := { State.reset with script := [.writeReg 0x02 v] }

theorem witness_StepRunsTheDecodedCommand :
    (aboutToWrite 0xFF43).script = .writeReg 0x02 0xFF43 :: [] ∧ decode ((0xFF43 : Reg).setWidth 8) = .ok .encode := by decide

theorem witness_StepTakesThePendingAccess :
    State.reset.script = [] ∧ (aboutToWrite 1).script = .writeReg 0x02 1 :: [] := by decide

/-! #### Reset, the faulted and the busy state -/

def faulted : State := { freq30 with fault := true, err := 3 }
def busyState : State := { freq30 with busy := true }

theorem witness_ResetGivesTheResetValues : freq30.busy = false ∧ faulted.busy = false ∧ faulted.fault = true := ⟨rfl, rfl, rfl⟩

theorem witness_FaultedStateIsLeftOnlyByReset :
    faulted.busy = false ∧ faulted.fault = true ∧
    (HostAccess.writeReg 0x02 1 = .rst ∨
      ∃ v : Reg, HostAccess.writeReg 0x02 1 = .writeReg 0x02 v ∧ v.setWidth 8 = (0x01 : Byte)) ∧
    ¬ (HostAccess.writeReg 0x02 0x50 = .rst ∨
      ∃ v : Reg, HostAccess.writeReg 0x02 0x50 = .writeReg 0x02 v ∧ v.setWidth 8 = (0x01 : Byte)) := by
  refine ⟨rfl, rfl, .inr ⟨1, rfl, by decide⟩, ?_⟩
  rintro (h | ⟨v, h, h1⟩)
  · cases h
  · cases h
    exact absurd h1 (by decide)

theorem witness_BusyBlockIgnoresTheHost : busyState.busy = true ∧ HostAccess.writeReg 0x02 1 ≠ .rst := ⟨rfl, by decide⟩

def unpackBad : State := { withIn [0x00, 0xB2, 0x80] with ioff := 4 }

/-- V19 (a). -/
theorem witness_FaultsComeFromTheCauseTable :
    unpackBad.Idle ∧ exec .unpack unpackBad = .next (after .unpack unpackBad) ∧ (after .unpack unpackBad).fault = true :=
  ⟨⟨rfl, rfl⟩, next_after (by decide +kernel), by decide +kernel⟩

theorem witness_CommandsWriteOnlyTheirOperands :
    Instr.pack ≠ .sreset ∧ (withBits [true]).Idle ∧ exec .pack (withBits [true]) = .next (after .pack (withBits [true])) ∧
      (after .pack (withBits [true])).fault = false :=
  ⟨by decide, ⟨rfl, rfl⟩, next_after (by decide +kernel), by decide +kernel⟩

/-! #### Invariants -/

def resetAboutToWrite : State := resetFrom (aboutToWrite 0x20)

theorem witness_EveryStepKeepsTheInvariants :
    resetAboutToWrite.Inv ∧ ∃ t, step resetAboutToWrite = .next t :=
  ⟨resetFrom_inv standard_wf, after .tser { resetAboutToWrite with script := [] },
    (show step resetAboutToWrite = exec .tser { resetAboutToWrite with script := [] } from rfl).trans
      (next_after (by decide +kernel))⟩

theorem witness_EveryStepEndsInANextState : resetAboutToWrite.Inv := resetFrom_inv standard_wf

/-! #### Control and the host port -/

theorem witness_RegisterWritesKeepTheLowBits :
    freq30.Idle ∧ (0x00 : BitVec 8) ∉ [(0x02 : BitVec 8), 0x10, 0x11, 0x12, 0x13, 0x14, 0x15] ∧
      (0x16 : BitVec 8) ∉ [(0x02 : BitVec 8), 0x10, 0x11, 0x12, 0x13, 0x14, 0x15] := ⟨⟨rfl, rfl⟩, by decide, by decide⟩

theorem witness_RegisterReadsReturnTheRegisters :
    freq30.Idle ∧ (0x02 : BitVec 8) ∉ [(0x00 : BitVec 8), 0x01, 0x10, 0x11, 0x12, 0x13, 0x14, 0x15, 0x16, 0x17, 0x18] ∧
      (0x19 : BitVec 8) ∉ [(0x00 : BitVec 8), 0x01, 0x10, 0x11, 0x12, 0x13, 0x14, 0x15, 0x16, 0x17, 0x18] ∧
      (faultEntry .corruptStream freq30).busy = false ∧ (faultEntry .corruptStream freq30).fault = true ∧
      (faultEntry .corruptStream freq30).err = 2 :=
  ⟨⟨rfl, rfl⟩, by decide, by decide, rfl, rfl, rfl⟩

def smallReset : State := { State.reset with params := small }

/-- The last index of IN, BIT and FREQ and the first beyond each. -/
theorem witness_SpaceWritesReachOneCell :
    smallReset.Idle ∧ 3 < smallReset.params.inCap ∧ 7 < smallReset.params.bitCap ∧ 255 < 256 ∧
      smallReset.params.inCap ≤ 4 ∧ smallReset.params.bitCap ≤ 8 ∧ 256 ≤ 256 := ⟨⟨rfl, rfl⟩, by decide⟩

/-- One leaf, in the arena and in the heap. -/
def oneLeaf : State := { State.reset with node := (Vector.replicate 511 none).set 0 (some (leafNode 4)), heap := [0] }

def readable : State :=
  { withTable ab with inp := listed [7], ilen := 1, out := listed [9], olen := 1, bit := listed [true], blen := 1 }

/-- One valid element of each space. -/
theorem witness_SpaceReadsReturnTheElement :
    readable.Idle ∧ (∃ t, hostAccess (.readSpace .inp 0) readable = .next t) ∧ 0 < readable.ilen.toNat ∧
      0 < readable.params.inCap ∧ 0 < readable.olen.toNat ∧ 0 < readable.params.outCap ∧ 0 < readable.blen.toNat ∧
      0 < readable.params.bitCap ∧ readable.codeAt 0x62 = some [true] ∧ readable.order[0]? = some 0x61 ∧
      oneLeaf.Idle ∧ oneLeaf.slot 0 = some (leafNode 4) ∧ oneLeaf.heap[0]? = some 0 :=
  ⟨⟨rfl, rfl⟩, ⟨_, rfl⟩, by decide +kernel, by decide, by decide +kernel, by decide, by decide +kernel, by decide,
    by decide +kernel, by decide +kernel, ⟨rfl, rfl⟩, by decide +kernel, by decide +kernel⟩

/-! #### The buffer primitives and the bit packer -/

def outFull : State := { smallReset with olen := 15 }
def outNearlyFull : State := { smallReset with olen := 14 }
def bitFull : State := { smallReset with blen := 8 }
def bitNearlyFull : State := { smallReset with blen := 7 }

theorem witness_AppendsWriteTheCellAtTheLength :
    outFull.params.outCap ≤ outFull.olen.toNat ∧ outNearlyFull.olen.toNat < outNearlyFull.params.outCap ∧
      bitFull.params.bitCap ≤ bitFull.blen.toNat ∧ bitNearlyFull.blen.toNat < bitNearlyFull.params.bitCap := by
  decide +kernel

theorem witness_UnpackExpandsAndDropsThePad : 8 < 8 * ([0xB2, 0x80] : List Byte).length - 7 := by decide

def packLong : State := { smallReset with blen := 9 }
def packNoRoom : State := { smallReset with blen := 1, olen := 15 }
def packFits : State := { smallReset with blen := 8, olen := 14 }
def packNothing : State := { smallReset with olen := 16 }

theorem witness_PackAppendsThePackedBits :
    packLong.params.wf = true ∧ packLong.Idle ∧ packLong.params.bitCap < packLong.blen.toNat ∧
      (packNoRoom.blen.toNat ≤ packNoRoom.params.bitCap ∧ 0 < packNoRoom.blen.toNat ∧
        packNoRoom.params.outCap < packNoRoom.olen.toNat + ceil8 packNoRoom.blen.toNat) ∧
      (packFits.blen.toNat ≤ packFits.params.bitCap ∧
        packFits.olen.toNat + ceil8 packFits.blen.toNat ≤ packFits.params.outCap) ∧
      (packNothing.blen.toNat ≤ packNothing.params.bitCap ∧ packNothing.blen.toNat = 0) :=
  ⟨small_wf, ⟨rfl, rfl⟩, by decide +kernel⟩

def unpackLong : State := { smallReset with ilen := 5 }
def unpackPast : State := { smallReset with ioff := 1 }
def unpackNoRoom : State := { smallReset with ilen := 2, pad := 7 }
def unpackFits : State := { smallReset with ilen := 2, pad := 8 }

theorem witness_UnpackReplacesTheBits :
    unpackLong.params.wf = true ∧ unpackLong.Idle ∧ unpackLong.params.inCap < unpackLong.ilen.toNat ∧
      unpackPast.ilen.toNat < unpackPast.ioff.toNat ∧
      (unpackNoRoom.ilen.toNat ≤ unpackNoRoom.params.inCap ∧ unpackNoRoom.ioff.toNat ≤ unpackNoRoom.ilen.toNat ∧
        unpackNoRoom.params.bitCap < 8 * (unpackNoRoom.ilen.toNat - unpackNoRoom.ioff.toNat) - unpackNoRoom.pad.toNat) ∧
      (unpackFits.ilen.toNat ≤ unpackFits.params.inCap ∧ unpackFits.ioff.toNat ≤ unpackFits.ilen.toNat ∧
        8 * (unpackFits.ilen.toNat - unpackFits.ioff.toNat) - unpackFits.pad.toNat ≤ unpackFits.params.bitCap) :=
  ⟨small_wf, ⟨rfl, rfl⟩, by decide +kernel⟩

def packed9 : State := withBits [true, false, true, true, false, false, true, false, true]
def unpackOf9 : State := { withIn [0xB2, 0x80] with pad := 7 }

/-- V14. -/
theorem witness_UnpackInvertsPack :
    packed9.params.wf = true ∧ packed9.Idle ∧ packed9.olen = 0 ∧ exec .pack packed9 = .next (after .pack packed9) ∧
      (after .pack packed9).fault = false ∧ unpackOf9.Idle ∧ unpackOf9.params = packed9.params ∧
      unpackOf9.inRest = (after .pack packed9).outData ∧ unpackOf9.pad = (after .pack packed9).pad ∧
      unpackOf9.ilen.toNat ≤ unpackOf9.params.inCap ∧ unpackOf9.ioff.toNat ≤ unpackOf9.ilen.toNat :=
  ⟨standard_wf, ⟨rfl, rfl⟩, rfl, next_after (by decide +kernel), by decide +kernel, ⟨rfl, rfl⟩, rfl, by decide +kernel⟩

/-! #### The code table codec -/

def tserNoRoom : State := { withTable ab with params := small, olen := 8 }
def tserFits : State := { withTable ab with params := small, olen := 7 }

theorem witness_TserAppendsTheSerialTable :
    tserFits.params.wf = true ∧ tserFits.Idle ∧
      tserNoRoom.params.outCap < tserNoRoom.olen.toNat + (serialTable tserNoRoom.entries).length ∧
      tserFits.olen.toNat + (serialTable tserFits.entries).length ≤ tserFits.params.outCap :=
  ⟨small_wf, ⟨rfl, rfl⟩, by decide +kernel⟩

/-- One entry: a is 0, with a stray low bit in its code byte. -/
def rawA : List RawEntry := [{ sym := 0x61, len := 1, bytes := [0x01] }]

theorem rawA_ok : ∀ r ∈ rawA, r.ok := by
  intro r hr
  rw [List.mem_singleton.1 hr]
  exact (by decide : [0x01].length = ceil8 (1 : Byte).toNat)

theorem witness_TdesReadsTheSerialTable :
    unpackPast.Idle ∧ unpackPast.ilen.toNat < unpackPast.ioff.toNat ∧ rawA.length < 65536 ∧ (∀ r ∈ rawA, r.ok) ∧
      (withIn [0, 1, 0x61, 1, 0x01, 0x5A]).inRest = rawTable rawA ++ [0x5A] ∧
      (withIn []).inRest ++ [0, 1, 0x61, 1, 0x01] = rawTable rawA ∧
      (withIn [0, 1, 0x61, 1]).inRest ++ [0x01] = rawTable rawA :=
  ⟨⟨rfl, rfl⟩, by decide +kernel, by decide, rawA_ok, by decide +kernel, by decide +kernel, by decide +kernel⟩

def abSerial : State := withIn [0, 2, 0x61, 1, 0, 0x62, 1, 0x80]

/-- V21. -/
theorem witness_TdesInvertsTser :
    (withTable ab).params.wf = true ∧ (withTable ab).Idle ∧ (withTable ab).TableOk ∧ (withTable ab).olen = 0 ∧
      exec .tser (withTable ab) = .next (after .tser (withTable ab)) ∧ (after .tser (withTable ab)).fault = false ∧
      abSerial.Idle ∧ abSerial.ioff = 0 ∧ abSerial.inData = (after .tser (withTable ab)).outData ∧
      abSerial.ilen.toNat ≤ abSerial.params.inCap :=
  ⟨standard_wf, ⟨rfl, rfl⟩, ab_ok, rfl, next_after (by decide +kernel), by decide +kernel, ⟨rfl, rfl⟩, rfl,
    by decide +kernel, by decide +kernel⟩

/-! #### The tree builder -/

/-- V30. -/
theorem tinit30_heap : (tinit freq30).heap = [97, 98, 99, 100, 101] := test_tinit_tmerge.1

def one : State := withFreq [(0x61, 4)]
def two : State := withFreq [(0, 1), (255, 1)]

theorem one_present : one.present = [0x61] := by decide +kernel

theorem one_heap : (tinit one).heap = [97] := by
  have h := tinit_heap one
  rw [show (allSymbols.filter fun c => 0 < one.freqAt c) = [0x61] from one_present] at h
  exact List.perm_singleton.1 h

/-- The two least and greatest symbols. -/
theorem two_tree : (tinit two).heap.length = 2 ∧ (tbuild two).heap = [256] := by decide +kernel

theorem two_present : two.present.length = 2 := by rw [← tinit_count, two_tree.1]

theorem reset_present : State.reset.present = [] := by
  refine List.eq_nil_iff_forall_not_mem.2 fun c hc => ?_
  rw [mem_present] at hc
  simp [State.freqAt, State.reset] at hc

theorem tinit30_idle : (tinit freq30).Idle := ⟨by rw [tinit_busy]; rfl, by rw [tinit_fault]; rfl⟩

/-- Every slot holds a leaf of weight 1. -/
def equalKeys : State := { State.reset with node := Vector.replicate 511 (some (leafNode 1)) }

theorem witness_PriorityOrderIsTotal :
    (0 : NodeIdx) ≠ 1 ∧ keyLt equalKeys 0 1 = true ∧ keyLt equalKeys 1 2 = true := by decide +kernel

theorem witness_HeapPushKeepsTheHeap :
    (256 :: (tinit freq30).heap).Nodup ∧ HeapOrdered (keyLt (tinit freq30)) (tinit freq30).heap :=
  ⟨by rw [tinit30_heap]; decide, (tinit_forest freq30).heapOrdered⟩

theorem witness_HeapPopRemovesTheLeast :
    (tinit freq30).heap ≠ [] ∧ (tinit freq30).heap.Nodup ∧ HeapOrdered (keyLt (tinit freq30)) (tinit freq30).heap :=
  ⟨by rw [tinit30_heap]; decide, (tinit_forest freq30).heapNodup, (tinit_forest freq30).heapOrdered⟩

theorem witness_TinitInsertsTheLeaves : freq30.Idle := ⟨rfl, rfl⟩

theorem witness_TmergeCombinesTheTwoLeast :
    State.reset.Idle ∧ State.reset.heap.length < 2 ∧ (tinit freq30).Idle ∧ 2 ≤ (tinit freq30).heap.length ∧
      (tinit freq30).Forest := ⟨reset_idle, by decide, tinit30_idle, by rw [tinit30_heap]; decide, tinit_forest _⟩

theorem witness_TbuildIsTinitAndMerges : freq30.Idle := ⟨rfl, rfl⟩

theorem witness_TbuildFinishesTheTree :
    State.reset.Idle ∧ State.reset.present.length = 0 ∧ one.Idle ∧ one.present = [0x61] ∧ two.Idle ∧
      2 ≤ two.present.length :=
  ⟨reset_idle, by rw [reset_present]; rfl, ⟨rfl, rfl⟩, one_present, ⟨rfl, rfl⟩, by rw [two_present]⟩

theorem witness_GencRecordsThePaths :
    ((tinit freq30).Idle ∧ (tinit freq30).Forest ∧ 2 ≤ (tinit freq30).heap.length) ∧
      (State.reset.Idle ∧ State.reset.Forest ∧ State.reset.heap = []) ∧
      ((tinit one).Forest ∧ (tinit one).heap = [97] ∧ (97 : NodeIdx).toNat < 256) ∧
      ((tbuild two).Forest ∧ (tbuild two).heap = [256] ∧ 256 ≤ (256 : NodeIdx).toNat) :=
  ⟨⟨tinit30_idle, tinit_forest _, by rw [tinit30_heap]; decide⟩, ⟨reset_idle, reset_dataOk.forest, rfl⟩,
    ⟨tinit_forest _, one_heap, by decide⟩, ⟨(tbuild_spec _).1, two_tree.2, by decide⟩⟩

theorem witness_GeneratedTablesArePrefixFree :
    freq30.Idle ∧ 2 ≤ two.present.length ∧ one.present.length = 1 :=
  ⟨⟨rfl, rfl⟩, by rw [two_present], by rw [one_present]; rfl⟩

/-! #### The pipeline -/

theorem witness_FcntCountsTheBytes :
    unpackLong.Idle ∧ unpackLong.params.inCap < unpackLong.ilen.toNat ∧
      ({ smallReset with ilen := 4 } : State).ilen.toNat ≤ small.inCap := ⟨⟨rfl, rfl⟩, by decide +kernel⟩

/-- The table of V21 and an input, with room for eight bits. -/
def bgenOn (l : List Byte) : State :=
  { withTable ab with params := { small with inCap := 16 }, inp := listed l, ilen := BitVec.ofNat 64 l.length }

theorem bgenOn_ok (l : List Byte) : (bgenOn l).TableOk := TableOk_congr ab_ok rfl rfl

theorem witness_BgenConcatenatesTheCodes :
    (bgenOn []).params.wf = true ∧ (bgenOn []).Idle ∧ (bgenOn []).TableOk ∧
      16 < (BitVec.ofNat 64 (List.replicate 17 (0x61 : Byte)).length).toNat ∧
      ((∀ c ∈ (bgenOn (List.replicate 8 0x61)).inData, c ∈ (bgenOn (List.replicate 8 0x61)).order) ∧
        (encodeBits (bgenOn (List.replicate 8 0x61)).entries (bgenOn (List.replicate 8 0x61)).inData).length ≤ 8) ∧
      ((∀ c ∈ (bgenOn (List.replicate 9 0x61)).inData, c ∈ (bgenOn (List.replicate 9 0x61)).order) ∧
        8 < (encodeBits (bgenOn (List.replicate 9 0x61)).entries (bgenOn (List.replicate 9 0x61)).inData).length) ∧
      ((bgenOn [0x61, 0x7A]).inData = [0x61] ++ 0x7A :: [] ∧ (∀ d ∈ ([0x61] : List Byte), d ∈ (bgenOn [0x61, 0x7A]).order) ∧
        (0x7A : Byte) ∉ (bgenOn [0x61, 0x7A]).order) ∧
      8 < (encodeBits (bgenOn []).entries (List.replicate 9 0x61)).length :=
  ⟨by decide, ⟨rfl, rfl⟩, bgenOn_ok _, by decide +kernel⟩

theorem witness_LookupFindsTheLastEntry : (withTable ab).TableOk ∧ 255 < (List.replicate 256 true).length :=
  ⟨ab_ok, by decide +kernel⟩

/-- The table of V21 with bits in BIT, and n symbols asked for. -/
def bdecOn (bits : BitSeq) (n : Reg) : State :=
  { withTable ab with bit := listed bits, blen := BitVec.ofNat 64 bits.length, len := n }

theorem bdecOn_ok (bits : BitSeq) (n : Reg) : (bdecOn bits n).TableOk := TableOk_congr ab_ok rfl rfl

theorem bdecOn_entries (bits : BitSeq) (n : Reg) : (bdecOn bits n).entries = ab := (entries_congr rfl rfl).trans ab_entries

/-- Two symbols of three bits, one bit left over; and the table of one entry, and the empty table. -/
theorem witness_BdecEmitsTheSymbols :
    (bdecOn [false, true, true] 2).params.wf = true ∧ (bdecOn [false, true, true] 2).Idle ∧
      (bdecOn [false, true, true] 2).TableOk ∧
      (bdecOn [false, true, true] 2).blen.toNat ≤ (bdecOn [false, true, true] 2).params.bitCap ∧
      Decodes (bdecOn [false, true, true] 2).entries (bdecOn [false, true, true] 2).bitData
        (bdecOn [false, true, true] 2).len.toNat [0x61, 0x62] ∧
      (bdecOn [false, true, true] 2).olen.toNat + ([0x61, 0x62] : List Symbol).length ≤
        (bdecOn [false, true, true] 2).params.outCap ∧
      Decodes [(0x61, [false])] [] 2 [0x61, 0x61] ∧ Decodes [] [true] 5 [] := by
  refine ⟨standard_wf, ⟨rfl, rfl⟩, bdecOn_ok _ _, by decide +kernel, ?_, by decide +kernel, rfl, rfl⟩
  rw [bdecOn_entries, show (bdecOn [false, true, true] 2).bitData = [false, true, true] by decide +kernel]
  exact ⟨by decide, _, [true], rfl, ab_words⟩

/-- No room for two symbols; bits beyond BIT_CAP; one symbol asked of no bit; no room for a second symbol. -/
theorem witness_BdecFaultsWhenBitsRunOut :
    (({ smallReset with order := [0x61], len := 2, olen := 14 } : State).order = [0x61] ∧
      0 < (2 : Reg).toNat ∧ small.outCap < (14 : Reg).toNat + (2 : Reg).toNat) ∧
    (2 ≤ (bdecOn [] 1).order.length ∧ small.bitCap < (9 : Reg).toNat) ∧
    ((bdecOn [false, true] 3).params.wf = true ∧ (bdecOn [false, true] 3).Idle ∧ (bdecOn [false, true] 3).TableOk ∧
      (bdecOn [false, true] 3).blen.toNat ≤ (bdecOn [false, true] 3).params.bitCap ∧
      Exhausts (bdecOn [false, true] 3).entries (bdecOn [false, true] 3).bitData [0x61, 0x62] ∧
      2 < (bdecOn [false, true] 3).len.toNat) ∧
    (BeginsWith (bdecOn [false, true] 2).entries (bdecOn [false, true] 2).bitData [0x61, 0x62] ∧
      2 ≤ (bdecOn [false, true] 2).len.toNat ∧ small.outCap < (14 : Reg).toNat + 2) := by
  refine ⟨by decide, ⟨by decide +kernel, by decide⟩, ⟨standard_wf, ⟨rfl, rfl⟩, bdecOn_ok _ _, by decide +kernel, ?_,
    by decide +kernel⟩, ⟨?_, by decide +kernel, by decide⟩⟩
  · rw [bdecOn_entries, show (bdecOn [false, true] 3).bitData = [false, true] by decide +kernel]
    refine ⟨_, [], rfl, ab_words, fun p h1 h2 => absurd (List.prefix_nil.1 h2) h1⟩
  · rw [bdecOn_entries, show (bdecOn [false, true] 2).bitData = [false, true] by decide +kernel]
    exact ⟨_, [], rfl, ab_words⟩

/-- The unit commands of ENCODE (R184). -/
def encodeUnits : List Instr := [.fcnt, .tbuild, .genc, .bgen, .pack]

def encodeIn : State := withIn [0x61, 0x62]
/-- Nine bits do not fit. -/
def encodeNoRoom : State := { withIn (List.replicate 9 0x61) with params := { small with inCap := 16 } }

/-- The table of "ab" (V43). -/
theorem table_ab : tableOfData [0x61, 0x62] = ab := by decide +kernel

/-- The table of one symbol (R161). -/
theorem table_a : tableOfData (List.replicate 9 0x61) = [(0x61, [false])] := by decide +kernel

theorem encodeIn_data : encodeIn.inData = [0x61, 0x62] := by decide +kernel
theorem encodeNoRoom_data : encodeNoRoom.inData = List.replicate 9 0x61 := by decide +kernel

theorem witness_EncodeIsItsUnitCommands :
    encodeIn.Idle ∧ encodeIn.ilen.toNat ≤ encodeIn.params.inCap ∧
      execMany encodeUnits (restartOut (setLen encodeIn.ilen encodeIn)) =
        .next (afterMany encodeUnits (restartOut (setLen encodeIn.ilen encodeIn))) ∧
      (afterMany encodeUnits (restartOut (setLen encodeIn.ilen encodeIn))).fault = false :=
  ⟨⟨rfl, rfl⟩, by decide +kernel, next_afterMany (by decide +kernel), by decide +kernel⟩

theorem witness_EncodeIsItsUnitCommands_fault :
    encodeNoRoom.Idle ∧ encodeNoRoom.ilen.toNat ≤ encodeNoRoom.params.inCap ∧
      execMany encodeUnits (restartOut (setLen encodeNoRoom.ilen encodeNoRoom)) =
        .next (afterMany encodeUnits (restartOut (setLen encodeNoRoom.ilen encodeNoRoom))) ∧
      (afterMany encodeUnits (restartOut (setLen encodeNoRoom.ilen encodeNoRoom))).FaultedWith .capacity := by
  refine ⟨⟨rfl, rfl⟩, by decide +kernel, next_afterMany (by decide +kernel), ?_⟩
  show _ ∧ _ ∧ _
  decide +kernel

theorem witness_EncodeGivesTheEncodedInput :
    encodeIn.params.wf = true ∧ encodeNoRoom.params.wf = true ∧ encodeIn.Idle ∧
      unpackLong.params.inCap < unpackLong.ilen.toNat ∧ encodeIn.ilen.toNat ≤ encodeIn.params.inCap ∧
      ((encodeBits (tableOfData encodeIn.inData) encodeIn.inData).length ≤ encodeIn.params.bitCap ∧
        ceil8 (encodeBits (tableOfData encodeIn.inData) encodeIn.inData).length ≤ encodeIn.params.outCap) ∧
      encodeNoRoom.ilen.toNat ≤ encodeNoRoom.params.inCap ∧
      ¬ (encodeBits (tableOfData encodeNoRoom.inData) encodeNoRoom.inData).length ≤ encodeNoRoom.params.bitCap := by
  refine ⟨standard_wf, by decide, ⟨rfl, rfl⟩, by decide +kernel, by decide +kernel, ?_, by decide +kernel, ?_⟩
  · rw [encodeIn_data, table_ab]; decide +kernel
  · rw [encodeNoRoom_data, table_a]; decide +kernel

/-- The table of V21 and one byte of payload: the bits 01. -/
def decodeOn (n : Reg) : State := { withTable ab with inp := listed [0x40], ilen := 1, pad := 6, len := n }

theorem decodeOn_ok (n : Reg) : (decodeOn n).TableOk := TableOk_congr ab_ok rfl rfl

theorem decodeOn_entries (n : Reg) : (decodeOn n).entries = ab := (entries_congr rfl rfl).trans ab_entries

theorem witness_DecodeIsItsUnitCommands :
    unpackPast.Idle ∧ unpackPast.ilen.toNat < unpackPast.ioff.toNat ∧ (decodeOn 2).Idle ∧
      (decodeOn 2).ilen.toNat ≤ (decodeOn 2).params.inCap ∧ (decodeOn 2).ioff.toNat ≤ (decodeOn 2).ilen.toNat ∧
      2 ≤ (decodeOn 2).order.length ∧
      execMany [.unpack, .bdec] (restartOut (decodeOn 2)) = .next (afterMany [.unpack, .bdec] (restartOut (decodeOn 2))) ∧
      (afterMany [.unpack, .bdec] (restartOut (decodeOn 2))).fault = false ∧
      execMany [.unpack, .bdec] (restartOut (decodeOn 3)) = .next (afterMany [.unpack, .bdec] (restartOut (decodeOn 3))) ∧
      (afterMany [.unpack, .bdec] (restartOut (decodeOn 3))).FaultedWith .corruptStream := by
  refine ⟨⟨rfl, rfl⟩, by decide +kernel, ⟨rfl, rfl⟩, by decide +kernel, by decide +kernel, by decide +kernel,
    next_afterMany (by decide +kernel), by decide +kernel, next_afterMany (by decide +kernel), ?_⟩
  show _ ∧ _ ∧ _
  decide +kernel

theorem witness_DecodeGivesTheSymbols :
    (decodeOn 2).params.wf = true ∧ (decodeOn 2).Idle ∧ (decodeOn 2).TableOk ∧
      (decodeOn 2).ilen.toNat ≤ (decodeOn 2).params.inCap ∧ (decodeOn 2).ioff.toNat ≤ (decodeOn 2).ilen.toNat ∧
      2 ≤ (decodeOn 2).order.length ∧
      8 * ((decodeOn 2).ilen.toNat - (decodeOn 2).ioff.toNat) - (decodeOn 2).pad.toNat ≤ (decodeOn 2).params.bitCap ∧
      Decodes (decodeOn 2).entries (unpackBits (decodeOn 2).inRest (decodeOn 2).pad.toNat) (decodeOn 2).len.toNat
        [0x61, 0x62] ∧
      ([0x61, 0x62] : List Symbol).length ≤ (decodeOn 2).params.outCap ∧ State.reset.order.length < 2 := by
  refine ⟨standard_wf, ⟨rfl, rfl⟩, decodeOn_ok _, by decide +kernel, by decide +kernel, by decide +kernel,
    by decide +kernel, ?_, by decide, by decide⟩
  rw [decodeOn_entries, show unpackBits (decodeOn 2).inRest (decodeOn 2).pad.toNat = [false, true] by decide +kernel]
  exact ⟨by decide, _, [], rfl, ab_words⟩

/-- A block with the byte 40 in IN, all else as ENCODE left it. -/
def reload (t : State) : State := { t with inp := listed [0x40], ilen := 1, ioff := 0 }

theorem reload_fields (t : State) : (reload t).code = t.code ∧ (reload t).order = t.order ∧ (reload t).len = t.len ∧
    (reload t).pad = t.pad ∧ (reload t).ioff = 0 ∧ (reload t).busy = t.busy ∧ (reload t).fault = t.fault ∧
    (reload t).params = t.params ∧ (reload t).ilen = 1 ∧ (reload t).inData = [0x40] :=
  ⟨rfl, rfl, rfl, rfl, rfl, rfl, rfl, rfl, rfl, rfl⟩

theorem witness_DecodeInvertsEncode :
    encodeIn.params.wf = true ∧ encodeIn.Idle ∧ ∃ t u : State, exec .encode encodeIn = .next t ∧ t.fault = false ∧
      u.Idle ∧ u.params = encodeIn.params ∧ u.ioff = 0 ∧ u.inData = t.outData ∧ u.code = t.code ∧ u.order = t.order ∧
      u.len = t.len ∧ u.pad = t.pad ∧ u.ilen.toNat ≤ u.params.inCap ∧ encodeIn.ilen.toNat ≤ u.params.outCap := by
  obtain ⟨h1, h2, h3, h4, h5, h6, h7, h8, h9, h10⟩ := reload_fields (after .encode encodeIn)
  have h : (after .encode encodeIn).busy = false ∧ (after .encode encodeIn).fault = false ∧
      (after .encode encodeIn).params = encodeIn.params ∧ (after .encode encodeIn).outData = [0x40] := by decide +kernel
  refine ⟨standard_wf, ⟨rfl, rfl⟩, _, reload (after .encode encodeIn), next_after (by decide +kernel), h.2.1,
    ⟨h6.trans h.1, h7.trans h.2.1⟩, h8.trans h.2.2.1, h5, h10.trans h.2.2.2.symm, h1, h2, h3, h4, ?_, ?_⟩
  · rw [h9, h8, h.2.2.1]; decide +kernel
  · rw [h8, h.2.2.1]; decide +kernel

/-! #### The container -/

/-- Twenty-two bytes do not fit. -/
def compressNoRoom : State := { withIn [0x61, 0x62] with params := small }

theorem compressNoRoom_data : compressNoRoom.inData = [0x61, 0x62] := by decide +kernel

theorem witness_CompressGivesTheBlob :
    encodeIn.params.wf = true ∧ encodeIn.Idle ∧ unpackLong.params.inCap < unpackLong.ilen.toNat ∧
      encodeIn.ilen.toNat ≤ encodeIn.params.inCap ∧
      ((inBits encodeIn).length ≤ encodeIn.params.bitCap ∧ (inBlob encodeIn).length ≤ encodeIn.params.outCap) ∧
      compressNoRoom.params.wf = true ∧ compressNoRoom.ilen.toNat ≤ compressNoRoom.params.inCap ∧
      ¬ (inBlob compressNoRoom).length ≤ compressNoRoom.params.outCap := by
  refine ⟨standard_wf, ⟨rfl, rfl⟩, by decide +kernel, by decide +kernel, ?_, small_wf, by decide +kernel, ?_⟩
  · rw [inBlob, inBits, inTable, encodeIn_data, table_ab]; decide +kernel
  · rw [inBlob, inBits, inTable, compressNoRoom_data, table_ab]; decide +kernel

def emptyBlobIn : State := withIn [0x48, 0x55, 0x46, 0x31, 0, 0, 0, 0, 0, 0, 0, 0, 0, 0, 0]

theorem witness_EmptyInputRoundTrips :
    State.reset.params.wf = true ∧ State.reset.Idle ∧ State.reset.ilen = 0 ∧ emptyBlobIn.params.wf = true ∧
      emptyBlobIn.Idle ∧ emptyBlobIn.inData = emptyBlobIn.params.magic.toList ++ List.replicate 11 0 ∧
      emptyBlobIn.ilen.toNat ≤ emptyBlobIn.params.inCap :=
  ⟨standard_wf, reset_idle, rfl, standard_wf, ⟨rfl, rfl⟩, by decide +kernel, by decide +kernel⟩

/-- V46, V47: twelve bytes, and a tag whose last byte differs. -/
theorem witness_ForeignBlobsAreFormatErrors :
    unpackLong.Idle ∧ unpackLong.params.inCap < unpackLong.ilen.toNat ∧
      (withIn (abBlob.take 12)).ilen.toNat ≤ (withIn (abBlob.take 12)).params.inCap ∧
      (withIn (abBlob.take 12)).ilen.toNat < 13 ∧
      (∃ k : Fin 4, (withIn (abBlob.set 3 0x49)).inRead k.val ≠ (withIn (abBlob.set 3 0x49)).params.magic[k]) ∧
      (withIn []).Idle ∧ EntersFault .decompress (withIn []) .formatError :=
  ⟨⟨rfl, rfl⟩, by decide +kernel, by decide +kernel, by decide +kernel, by decide +kernel, ⟨rfl, rfl⟩,
    fault_of (by decide) ⟨rfl, rfl⟩ (runDecompress_format (by decide +kernel) (.inl (by decide +kernel)))⟩

/-- The two entries of "ab" as they stand in its blob. -/
def rawAb : List RawEntry := [{ sym := 0x61, len := 1, bytes := [0x00] }, { sym := 0x62, len := 1, bytes := [0x80] }]

theorem rawAb_ok : ∀ r ∈ rawAb, r.ok := by
  intro r hr
  rcases List.mem_cons.1 hr with rfl | hr
  · exact (by decide : ([0x00] : List Byte).length = ceil8 (1 : Byte).toNat)
  · rw [List.mem_singleton.1 hr]
    exact (by decide : ([0x80] : List Byte).length = ceil8 (1 : Byte).toNat)

/-- V48: cut before the count and inside the second entry. -/
theorem witness_TablesCutShortAreCorrupt :
    (withIn (abBlob.take 13)).Idle ∧ (withIn (abBlob.take 13)).ilen.toNat ≤ (withIn (abBlob.take 13)).params.inCap ∧
      rawAb.length < 65536 ∧ (∀ r ∈ rawAb, r.ok) ∧
      (withIn (abBlob.take 13)).inData = headerBytes (withIn (abBlob.take 13)).params.magic 2 6 ++ [] ∧
      [] ++ [0, 2, 0x61, 1, 0, 0x62, 1, 0x80] = rawTable rawAb ∧
      (withIn (abBlob.take 20)).inData = headerBytes (withIn (abBlob.take 20)).params.magic 2 6 ++ [0, 2, 0x61, 1, 0, 0x62, 1] ∧
      [0, 2, 0x61, 1, 0, 0x62, 1] ++ [0x80] = rawTable rawAb :=
  ⟨⟨rfl, rfl⟩, by decide +kernel, by decide, rawAb_ok, by decide +kernel, by decide +kernel, by decide +kernel,
    by decide +kernel⟩

def abBlobIn : State := withIn abBlob

/-- V43. -/
theorem witness_DecompressGivesTheSymbols :
    abBlobIn.params.wf = true ∧ abBlobIn.Idle ∧ abBlobIn.ilen.toNat ≤ abBlobIn.params.inCap ∧ rawAb.length < 65536 ∧
      (∀ r ∈ rawAb, r.ok) ∧ abBlobIn.inData = headerBytes abBlobIn.params.magic 2 6 ++ (rawTable rawAb ++ [0x40]) ∧
      2 ≤ (tableEntries rawAb).length ∧ 8 * ([0x40] : List Byte).length - 6 ≤ abBlobIn.params.bitCap ∧
      Decodes (tableEntries rawAb) (unpackBits [0x40] 6) 2 [0x61, 0x62] ∧
      ([0x61, 0x62] : List Symbol).length ≤ abBlobIn.params.outCap ∧ (tableEntries rawA).length < 2 := by
  refine ⟨standard_wf, ⟨rfl, rfl⟩, by decide +kernel, by decide, rawAb_ok, by decide +kernel, by decide +kernel,
    by decide +kernel, ?_, by decide +kernel, by decide +kernel⟩
  rw [show tableEntries rawAb = ab by decide +kernel, show unpackBits [0x40] 6 = [false, true] by decide +kernel]
  exact ⟨by decide, _, [], rfl, ab_words⟩

theorem witness_DecompressInvertsCompress :
    encodeIn.params.wf = true ∧ encodeIn.Idle ∧ exec .compress encodeIn = .next (after .compress encodeIn) ∧
      (after .compress encodeIn).fault = false ∧ abBlobIn.Idle ∧ abBlobIn.params = encodeIn.params ∧
      abBlobIn.inData = (after .compress encodeIn).outData ∧ abBlobIn.ilen.toNat ≤ abBlobIn.params.inCap ∧
      encodeIn.ilen.toNat ≤ abBlobIn.params.outCap :=
  ⟨standard_wf, ⟨rfl, rfl⟩, next_after test_compress.1, test_compress.2.1, ⟨rfl, rfl⟩, rfl,
    (show abBlobIn.inData = abBlob by decide +kernel).trans test_compress.2.2.1.symm, by decide +kernel⟩

/-- A block with an old table, and one fresh from reset. -/
theorem witness_MacrosIgnoreEarlierState :
    (withIn []).params.wf = true ∧ (withIn []).Idle ∧ (withTable ab).Idle ∧ (withTable ab).params = (withIn []).params ∧
      (withTable ab).inData = (withIn []).inData ∧ (withTable ab).order ≠ (withIn []).order :=
  ⟨standard_wf, ⟨rfl, rfl⟩, ⟨rfl, rfl⟩, rfl, by decide +kernel⟩

def abBlobCut : State := withIn abBlob.dropLast

/-- V44. -/
theorem witness_TruncatedPayloadIsCorrupt :
    encodeIn.params.wf = true ∧ encodeIn.Idle ∧ exec .compress encodeIn = .next (after .compress encodeIn) ∧
      (after .compress encodeIn).fault = false ∧ 2 ≤ (after .compress encodeIn).order.length ∧ abBlobCut.Idle ∧
      abBlobCut.params = encodeIn.params ∧ abBlobCut.inData = (after .compress encodeIn).outData.dropLast ∧
      abBlobCut.ilen.toNat ≤ abBlobCut.params.inCap ∧ encodeIn.ilen.toNat ≤ abBlobCut.params.outCap := by
  have h : (after .compress encodeIn).outData = abBlob := test_compress.2.2.1
  have h2 : (after .compress encodeIn).order = [0x61, 0x62] := test_compress.2.2.2
  refine ⟨standard_wf, ⟨rfl, rfl⟩, next_after test_compress.1, test_compress.2.1, ?_, ⟨rfl, rfl⟩, rfl, ?_,
    by decide +kernel⟩
  · rw [h2]; decide
  · rw [h]; decide +kernel

/-! #### Faults behind a good table, and the cells of an empty buffer -/

/-- Small parameters with room for a whole blob in IN and sixteen bits in BIT. -/
def roomy : Params := { small with inCap := 32, bitCap := 16 }

theorem roomy_wf : roomy.wf = true := by decide

/-- As many words of "a" as wanted. -/
theorem as_words (n : Nat) : List.Forall₂ (Emits ab) (List.replicate n 0x61) (List.replicate n [false]) := by
  induction n with
  | zero => exact .nil
  | succ n ih => exact .cons (ab_emits (e := (0x61, [false])) (by decide)) ih

/-- Sixteen bits 0 are sixteen words of "a". -/
theorem sixteen_words : BeginsWith ab (unpackBits [0, 0] 0) (List.replicate 16 0x61) :=
  ⟨_, [], by decide, as_words 16⟩

theorem two_words_only : Exhausts ab (unpackBits [0x40] 6) [0x61, 0x62] :=
  ⟨_, [], by decide, ab_words, fun _ h1 h2 => absurd (List.prefix_nil.1 h2) h1⟩

/-- The table of V21 and a payload, in small memories. -/
def decodeIn (p : Params) (payload : List Byte) (pad : BitVec 8) (n : Reg) : State :=
  { withTable ab with params := p, inp := listed payload, ilen := BitVec.ofNat 64 payload.length, pad := pad, len := n }

theorem decodeIn_ok (p : Params) (payload : List Byte) (pad : BitVec 8) (n : Reg) : (decodeIn p payload pad n).TableOk :=
  TableOk_congr ab_ok rfl rfl

theorem decodeIn_entries (p : Params) (payload : List Byte) (pad : BitVec 8) (n : Reg) :
    (decodeIn p payload pad n).entries = ab := (entries_congr rfl rfl).trans ab_entries

/-- One entry and more symbols than OUT holds; more bits than BIT holds; three symbols asked of two bits; sixteen symbols
for fifteen bytes of OUT. -/
theorem witness_DecodeFaultsOnAShortPayload :
    (({ smallReset with order := [0x61], len := 16 } : State).order = [0x61] ∧ small.outCap < (16 : Reg).toNat) ∧
    ((decodeIn small [0, 0] 0 1).params.wf = true ∧ (decodeIn small [0, 0] 0 1).Idle ∧
      (decodeIn small [0, 0] 0 1).TableOk ∧ (decodeIn small [0, 0] 0 1).ilen.toNat ≤ small.inCap ∧
      2 ≤ (decodeIn small [0, 0] 0 1).order.length ∧ small.bitCap < 8 * (2 - 0) - 0) ∧
    (Exhausts (decodeIn roomy [0x40] 6 3).entries
        (unpackBits (decodeIn roomy [0x40] 6 3).inRest (decodeIn roomy [0x40] 6 3).pad.toNat) [0x61, 0x62] ∧
      2 < (decodeIn roomy [0x40] 6 3).len.toNat ∧ 2 ≤ roomy.outCap) ∧
    (BeginsWith (decodeIn roomy [0, 0] 0 16).entries
        (unpackBits (decodeIn roomy [0, 0] 0 16).inRest (decodeIn roomy [0, 0] 0 16).pad.toNat) (List.replicate 16 0x61) ∧
      16 ≤ (decodeIn roomy [0, 0] 0 16).len.toNat ∧ roomy.outCap < 16) := by
  refine ⟨by decide, ⟨small_wf, ⟨rfl, rfl⟩, decodeIn_ok _ _ _ _, by decide +kernel, by decide +kernel, by decide⟩,
    ⟨?_, by decide +kernel, by decide⟩, ⟨?_, by decide +kernel, by decide⟩⟩
  · rw [decodeIn_entries, show (decodeIn roomy [0x40] 6 3).inRest = [0x40] by decide +kernel]
    exact two_words_only
  · rw [decodeIn_entries, show (decodeIn roomy [0, 0] 0 16).inRest = [0, 0] by decide +kernel]
    exact sixteen_words

/-- A blob whoever wrote it. -/
def foreignBlob (p : Params) (len pad : Nat) (rs : List RawEntry) (payload : List Byte) : State :=
  { withIn (headerBytes p.magic len pad ++ (rawTable rs ++ payload)) with params := p }

/-- What DECOMPRESS hands to TDES (R202). -/
def parsedHeader (s : State) : State :=
  { s with len := BitVec.ofNat 64 (unbe (s.inSlice 4 12)), pad := s.inRead 12, ioff := 13 }

/-- The blob of "ab" asked for two symbols, and for three. -/
theorem witness_DecompressIsItsUnitCommands :
    (foreignBlob roomy 2 6 rawAb [0x40]).Idle ∧
      (foreignBlob roomy 2 6 rawAb [0x40]).ilen.toNat ≤ (foreignBlob roomy 2 6 rawAb [0x40]).params.inCap ∧
      13 ≤ (foreignBlob roomy 2 6 rawAb [0x40]).ilen.toNat ∧
      (∀ k : Fin 4, (foreignBlob roomy 2 6 rawAb [0x40]).inRead k.val = roomy.magic[k]) ∧
      (execMany [.tdes, .decode] (parsedHeader (foreignBlob roomy 2 6 rawAb [0x40])) =
          .next (afterMany [.tdes, .decode] (parsedHeader (foreignBlob roomy 2 6 rawAb [0x40]))) ∧
        (afterMany [.tdes, .decode] (parsedHeader (foreignBlob roomy 2 6 rawAb [0x40]))).fault = false) ∧
      execMany [.tdes, .decode] (parsedHeader (foreignBlob roomy 3 6 rawAb [0x40])) =
          .next (afterMany [.tdes, .decode] (parsedHeader (foreignBlob roomy 3 6 rawAb [0x40]))) ∧
        (afterMany [.tdes, .decode] (parsedHeader (foreignBlob roomy 3 6 rawAb [0x40]))).FaultedWith .corruptStream := by
  refine ⟨⟨rfl, rfl⟩, by decide +kernel, by decide +kernel, by decide +kernel, ⟨next_afterMany (by decide +kernel),
    by decide +kernel⟩, next_afterMany (by decide +kernel), ?_⟩
  show _ ∧ _ ∧ _
  decide +kernel

/-- One entry and more symbols than OUT holds; more bits than BIT holds; three symbols asked of two bits; sixteen symbols
for fifteen bytes of OUT. -/
theorem witness_DecompressFaultsBehindTheTable :
    (roomy.wf = true ∧ (foreignBlob roomy 16 0 rawA []).Idle ∧ (foreignBlob roomy 16 0 rawA []).ilen.toNat ≤ roomy.inCap ∧
      rawA.length < 65536 ∧ (∀ r ∈ rawA, r.ok) ∧
      (foreignBlob roomy 16 0 rawA []).inData = headerBytes roomy.magic 16 0 ++ (rawTable rawA ++ []) ∧
      (tableEntries rawA).length = 1 ∧ roomy.outCap < 16) ∧
    ((∀ r ∈ rawAb, r.ok) ∧ 2 ≤ (tableEntries rawAb).length ∧ roomy.bitCap < 8 * ([0, 0, 0] : List Byte).length - 7) ∧
    ((foreignBlob roomy 3 6 rawAb [0x40]).inData = headerBytes roomy.magic 3 6 ++ (rawTable rawAb ++ [0x40]) ∧
      8 * ([0x40] : List Byte).length - 6 ≤ roomy.bitCap ∧
      Exhausts (tableEntries rawAb) (unpackBits [0x40] 6) [0x61, 0x62]) ∧
    ((foreignBlob roomy 16 0 rawAb [0, 0]).inData = headerBytes roomy.magic 16 0 ++ (rawTable rawAb ++ [0, 0]) ∧
      8 * ([0, 0] : List Byte).length - 0 ≤ roomy.bitCap ∧
      BeginsWith (tableEntries rawAb) (unpackBits [0, 0] 0) (List.replicate 16 0x61)) := by
  refine ⟨⟨roomy_wf, ⟨rfl, rfl⟩, by decide +kernel, by decide, rawA_ok, by decide +kernel, by decide +kernel, by decide⟩,
    ⟨rawAb_ok, by decide +kernel, by decide⟩, ⟨by decide +kernel, by decide, ?_⟩, ⟨by decide +kernel, by decide, ?_⟩⟩
  · rw [show tableEntries rawAb = ab by decide +kernel]; exact two_words_only
  · rw [show tableEntries rawAb = ab by decide +kernel]; exact sixteen_words

/-- The host wrote a bit at index 5 while BLEN was 0, then UNPACK brought two bits. -/
def hostBit : State := { decodeIn roomy [0x40] 6 0 with bit := { cells := [(5, true)], epoch := 0 } }

theorem witness_RestartsKeepTheCellsOfAnEmptyBuffer :
    hostBit.params.wf = true ∧ hostBit.Idle ∧ exec .unpack hostBit = .next (after .unpack hostBit) ∧
      (after .unpack hostBit).fault = false ∧ hostBit.blen = 0 ∧ (after .unpack hostBit).blen.toNat ≤ 5 ∧
      exec .decode hostBit = .next (after .decode hostBit) ∧ (after .decode hostBit).fault = false ∧ hostBit.olen = 0 :=
  ⟨roomy_wf, ⟨rfl, rfl⟩, next_after (by decide +kernel), by decide +kernel, rfl, by decide +kernel,
    next_after (by decide +kernel), by decide +kernel, rfl⟩

/-- R75: a length that was 0 is not lowered, so the bit stays; one that was 6 is, and nothing is known of BIT. -/
theorem test_restart_keeps_an_empty_buffer :
    (restartBit hostBit).bit.get? 5 = some true ∧ (restartBit { hostBit with blen := 6 }).bit.get? 5 = none := by
  decide +kernel

/-- R75, U14: a host read of an invalid slot of NODE or CODE gives no known value, its valid bit included. -/
theorem test_invalid_slot_reads_free :
    elemValue .node 0 State.reset = none ∧ elemValue .code 0x61 State.reset = none ∧
      elemValue .node 0 oneLeaf = some (.node true (leafNode 4)) := by decide +kernel

end Sys2Proof.Tests
end

section
/-!
PROOFS, the family of 10_state.md: the step and the pending accesses, the registers the host sees, the reset values, what a
command leaves alone, and the invariants of R41. The rules of the host port come first, the obligations after them.
-/
namespace Sys2Proof.Proofs

open Sys2Proof Sys2Proof.Machine Sys2Proof.Laws

/-! ### The step -/

theorem step_of_empty {s : State} (h : s.script = []) : step s = .next s := by
  unfold step
  rw [h]

theorem step_of_pending {s : State} {a : HostAccess} {rest : List HostAccess} (h : s.script = a :: rest) :
    step s = hostAccess a { s with script := rest } := by
  unfold step
  rw [h]

theorem decode_encode (i : Instr) : decode (encode i) = .ok i := by
  cases i <;> rfl

theorem runCommand_of_decode {c : Byte} {i : Instr} (h : decode c = .ok i) (s : State) : runCommand c s = exec i s := by
  unfold runCommand
  rw [h]

/-- A write of CMD runs the command its low byte decodes to (R26, R110). -/
theorem hostAccess_command {v : Reg} {i : Instr} (h : decode (v.setWidth 8) = .ok i) (s : State) :
    hostAccess (.writeReg 0x02 v) s = exec i s :=
  runCommand_of_decode h s

theorem tableByte_toNat (c : Byte) : tableByte 8 c.toNat = c := by
  simp only [tableByte, Nat.mod_eq_of_lt c.isLt, BitVec.ofNat_toNat, BitVec.setWidth_eq]

/-- The low byte of the data `fetchAccess` writes is the table word. -/
theorem setWidth_tableByte (c : Byte) : ((tableByte 8 c.toNat).setWidth 64).setWidth 8 = c := by
  rw [tableByte_toNat, BitVec.setWidth_setWidth_of_le _ (by decide), BitVec.setWidth_eq]

/-! ### The register port -/

/-- An idle block takes a write of an operand register (R27). -/
theorem hostWriteReg_idle {s : State} (h : s.Idle) (n : BitVec 8) (v : Reg) : hostWriteReg n v s = writeOperand n v s := by
  simp [hostWriteReg, h.1, h.2]

theorem hostAccess_writeReg {s : State} (h : s.Idle) {n : BitVec 8} (hn : n ≠ 0x02) (v : Reg) :
    hostAccess (.writeReg n v) s = .next (writeOperand n v s) := by
  simp only [hostAccess, if_neg hn, hostWriteReg_idle h]

/-- A write to a read-only or an unassigned number is ignored (R27). -/
theorem writeOperand_ignored {n : BitVec 8} (hn : n ∉ [0x10, 0x11, 0x12, 0x13, 0x14, 0x15]) (v : Reg) (s : State) :
    writeOperand n v s = s := by
  simp only [List.mem_cons, List.not_mem_nil, or_false, not_or] at hn
  obtain ⟨h10, h11, h12, h13, h14, h15⟩ := hn
  simp only [writeOperand, if_neg h10, if_neg h11, if_neg h12, if_neg h13, if_neg h14, if_neg h15]

/-- A read whose value is specified puts it on the host port and changes nothing else. -/
theorem hostAccess_readReg {n : BitVec 8} {s : State} {v : Reg} (h : regValue n s = some v) :
    hostAccess (.readReg n) s = .next { s with port := some (.reg v) } := by
  simp only [hostAccess, hostReadReg, h]

theorem regValue_idle {s : State} (h : s.Idle) (n : BitVec 8) : regValue n s = some (operandValue n s) := by
  simp [regValue, h.1, h.2]

/-- While faulted the host still reads STATUS and ERR (R27). -/
theorem regValue_faulted {s : State} (hb : s.busy = false) (hf : s.fault = true) {n : BitVec 8} (hn : n = 0x00 ∨ n = 0x01) :
    regValue n s = some (operandValue n s) := by
  simp only [regValue, hb, hf, if_pos hn, Bool.false_eq_true, if_false, if_true]

theorem setWidth_ofNat9 (n : Nat) : (BitVec.ofNat 9 n).setWidth 64 = BitVec.ofNat 64 (n % 512) :=
  BitVec.eq_of_toNat_eq (by simp)

/-- The registers in use but CMD, with the value each reads as (R21, R24 to R28, R33). -/
theorem operandValue_assigned (s : State) :
    ∀ p ∈ [((0x00 : BitVec 8), s.statusWord.setWidth 64), (0x01, s.err.setWidth 64), (0x10, s.ilen), (0x11, s.ioff),
        (0x12, s.olen), (0x13, s.blen), (0x14, s.len), (0x15, s.pad.setWidth 64),
        (0x16, BitVec.ofNat 64 (s.order.length % 512)), (0x17, BitVec.ofNat 64 (s.heap.length % 512)),
        (0x18, s.treeWord.setWidth 64)], operandValue p.1 s = p.2 := by
  simp only [List.forall_mem_cons, List.not_mem_nil, false_implies, implies_true, and_true]
  exact ⟨rfl, rfl, rfl, rfl, rfl, rfl, rfl, rfl, setWidth_ofNat9 _, setWidth_ofNat9 _, rfl⟩

/-- CMD and every unassigned number read 0 (R26, R28). -/
theorem operandValue_unassigned {n : BitVec 8}
    (hn : n ∉ [0x00, 0x01, 0x10, 0x11, 0x12, 0x13, 0x14, 0x15, 0x16, 0x17, 0x18]) (s : State) : operandValue n s = 0 := by
  simp only [List.mem_cons, List.not_mem_nil, or_false, not_or] at hn
  simp only [operandValue, hn, if_false]

/-! ### The bits of STATUS and TREE -/

/-- Bit 0 BUSY, bit 1 FAULT, 0 above (R24). -/
theorem statusWord_getLsbD (s : State) (k : Nat) :
    s.statusWord.getLsbD k = if k = 0 then s.busy else if k = 1 then s.fault else false := by
  have h : s.statusWord.getLsbD k = if k < 1 then (BitVec.ofBool s.busy).getLsbD k
      else if k - 1 < 1 then (BitVec.ofBool s.fault).getLsbD (k - 1) else (0#6).getLsbD (k - 1 - 1) :=
    BitVec.getLsbD_append.trans (by rw [BitVec.getLsbD_append])
  rw [h]
  match k with
  | 0 => simp
  | 1 => simp
  | _ + 2 => simp

/-- ROOT in bits 8:0, RV in bit 9, NEXT from bit 10 on (R33). -/
theorem treeWord_getLsbD (s : State) (k : Nat) : s.treeWord.getLsbD k =
    if k < 9 then s.root.getLsbD k else if k = 9 then s.rv else s.next.getLsbD (k - 10) := by
  have h : s.treeWord.getLsbD k = if k < 9 then s.root.getLsbD k
      else if k - 9 < 1 then (BitVec.ofBool s.rv).getLsbD (k - 9) else s.next.getLsbD (k - 9 - 1) :=
    BitVec.getLsbD_append.trans (by rw [BitVec.getLsbD_append])
  rw [h]
  by_cases hk : k < 9
  · rw [if_pos hk, if_pos hk]
  · rw [if_neg hk, if_neg hk, show k - 9 - 1 = k - 10 by omega]
    by_cases h9 : k = 9
    · simp [h9]
    · rw [if_neg (by omega), if_neg h9]

/-! ### Reset -/

theorem reset_atReset : State.reset.AtReset where
  status := rfl
  err := rfl
  lengths := ⟨rfl, rfl, rfl, rfl, rfl⟩
  pad := rfl
  counts := ⟨rfl, rfl⟩
  tree := ⟨rfl, rfl, rfl⟩
  freq := fun c => by simp [State.freqAt, State.reset]
  node := fun n => by
    by_cases hn : n < 511 <;> simp [State.slot, State.reset, hn]
  heap := rfl
  code := fun c => by simp [State.codeAt, State.reset]
  order := rfl
  buffers := ⟨rfl, rfl, rfl⟩

/-- Recovery gives every piece of state its reset value (R42, R220): it differs from the reset state in the model's own
fields and the epochs of the buffers only. -/
theorem resetFrom_atReset (s : State) : (resetFrom s).AtReset where
  status := reset_atReset.status
  err := reset_atReset.err
  lengths := reset_atReset.lengths
  pad := reset_atReset.pad
  counts := reset_atReset.counts
  tree := reset_atReset.tree
  freq := reset_atReset.freq
  node := reset_atReset.node
  heap := reset_atReset.heap
  code := reset_atReset.code
  order := reset_atReset.order
  buffers := ⟨rfl, rfl, rfl⟩

theorem exec_sreset {s : State} (h : s.busy = false) : exec .sreset s = .next (resetFrom s) := by
  simp [exec, execSreset, resetCycle, h]

/-! ### Every access keeps the invariants -/

/-- The fields no invariant of R41 speaks of. -/
def freeFields : List Field := [.ilen, .ioff, .olen, .blen, .len, .pad, .freq, .fresh, .script, .port]

/-- The invariants stay where only free fields and buffers change, and the buffers stay canonical. -/
theorem Inv_of_buffers {s t : State} (h : s.Inv) (hu : Unchanged ([.inp, .out, .bit] ++ freeFields) s t)
    (hb : t.BuffersOk) : t.Inv := by
  have hparams : t.params = s.params := hu .params (by decide)
  have hbusy : t.busy = s.busy := hu .busy (by decide)
  have herr : t.err = s.err := hu .err (by decide)
  have hfault : t.fault = s.fault := hu .fault (by decide)
  have hheap : t.heap = s.heap := hu .heap (by decide)
  exact {
    params := hparams ▸ h.params
    idle := hbusy.trans h.idle
    buffers := hb
    errRange := herr ▸ h.errRange
    errZero := by rw [hfault, herr]; exact h.errZero
    forest := fun hf => Forest_congr (h.forest (hfault ▸ hf)) (hu .node (by decide)) hheap (hu .next (by decide))
    rootShown := fun hf =>
      RootShown_congr (h.rootShown (hfault ▸ hf)) hheap (hu .rv (by decide)) (hu .root (by decide))
    table := fun hf => TableOk_congr (h.table (hfault ▸ hf)) (hu .order (by decide)) (hu .code (by decide)) }

theorem Inv_of_free {s t : State} (h : s.Inv) (hu : Unchanged freeFields s t) : t.Inv :=
  Inv_of_buffers h (Unchanged_mono hu (by decide))
    (BuffersOk_congr h.buffers (hu .inp (by decide)) (hu .out (by decide)) (hu .bit (by decide)) (hu .params (by decide)))

theorem Unchanged_script (l : List HostAccess) (s : State) : Unchanged [.script] s { s with script := l } := by
  intro f hf
  cases f <;> simp_all [Field.Same]

theorem Unchanged_writeOperand (n : BitVec 8) (v : Reg) (s : State) :
    Unchanged [.ilen, .ioff, .olen, .blen, .len, .pad] s (writeOperand n v s) := by
  intro f hf
  unfold writeOperand
  split_ifs <;> cases f <;> simp_all [Field.Same]

theorem hostWriteReg_inv {s : State} (h : s.Inv) (n : BitVec 8) (v : Reg) : (hostWriteReg n v s).Inv := by
  unfold hostWriteReg
  split_ifs
  · exact h
  · exact h
  · exact Inv_of_free h (Unchanged_mono (Unchanged_writeOperand n v s) (by decide))

theorem Unchanged_hostReadReg (n : BitVec 8) (s : State) : Unchanged [.port, .fresh] s (hostReadReg n s) := by
  intro f hf
  unfold hostReadReg
  split <;> cases f <;> simp_all [Field.Same]

theorem Unchanged_hostReadSpace (sp : Space) (i : Nat) (s : State) :
    Unchanged [.port, .fresh] s (hostReadSpace sp i s) := by
  intro f hf
  unfold hostReadSpace
  cases f <;> simp_all [Field.Same]

/-- A host write stays inside the capacity of its space (R61), so the buffers stay canonical. -/
theorem writeElem_buffersOk {s : State} (h : s.BuffersOk) (i : Nat) (e : Elem) : (writeElem i e s).BuffersOk := by
  cases e with
  | inp x =>
    simp only [writeElem]
    split_ifs with hi
    · exact ⟨MemOk_set h.inp hi, h.out, h.bit⟩
    · exact h
  | bit b =>
    simp only [writeElem]
    split_ifs with hi
    · exact ⟨h.inp, h.out, MemOk_set h.bit hi⟩
    · exact h
  | freq v => exact BuffersOk_congr h rfl rfl rfl rfl
  | _ => exact h

theorem Unchanged_inp (m : Mem Byte) (s : State) : Unchanged [.inp] s { s with inp := m } := by
  intro f hf
  cases f <;> simp_all [Field.Same]

theorem Unchanged_bit (m : Mem Bool) (s : State) : Unchanged [.bit] s { s with bit := m } := by
  intro f hf
  cases f <;> simp_all [Field.Same]

/-- Of the spaces the host writes IN, BIT and FREQ only (R60). -/
theorem Unchanged_writeElem (i : Nat) (e : Elem) (s : State) : Unchanged [.inp, .bit, .freq] s (writeElem i e s) := by
  cases e with
  | inp x =>
    simp only [writeElem]
    split_ifs
    · exact Unchanged_mono (Unchanged_inp _ s) (by decide)
    · exact Unchanged_refl _ s
  | bit b =>
    simp only [writeElem]
    split_ifs
    · exact Unchanged_mono (Unchanged_bit _ s) (by decide)
    · exact Unchanged_refl _ s
  | freq v => exact Unchanged_mono (Unchanged_setFreq _ s) (by decide)
  | _ => exact Unchanged_refl _ s

theorem hostWriteSpace_inv {s : State} (h : s.Inv) (i : Nat) (e : Elem) : (hostWriteSpace i e s).Inv := by
  unfold hostWriteSpace
  split_ifs
  · exact h
  · exact h
  · exact Inv_of_buffers h (Unchanged_mono (Unchanged_writeElem i e s) (by decide)) (writeElem_buffersOk h.buffers i e)

theorem illegalCycle_inv {s t : State} (h : s.Inv) (ht : illegalCycle s = .next t) : t.Inv := by
  unfold illegalCycle at ht
  split_ifs at ht <;> cases ht
  · exact h
  · exact h
  · exact faultEntry_inv h .illegalCmd

theorem runCommand_inv {c : Byte} {s t : State} (h : s.Inv) (ht : runCommand c s = .next t) : t.Inv := by
  unfold runCommand at ht
  split at ht
  · exact exec_inv h ht
  · exact illegalCycle_inv h ht

/-- Every access of the host keeps the invariants: a command, a register or space access, the reset input (R41, R221). -/
theorem hostAccess_inv {a : HostAccess} {s t : State} (h : s.Inv) (ht : hostAccess a s = .next t) : t.Inv := by
  cases a with
  | writeReg n v =>
    simp only [hostAccess] at ht
    split_ifs at ht
    · exact runCommand_inv h ht
    · cases ht
      exact hostWriteReg_inv h n v
  | readReg n =>
    cases ht
    exact Inv_of_free h (Unchanged_mono (Unchanged_hostReadReg n s) (by decide))
  | writeSpace i e =>
    cases ht
    exact hostWriteSpace_inv h i e
  | readSpace sp i =>
    cases ht
    exact Inv_of_free h (Unchanged_mono (Unchanged_hostReadSpace sp i s) (by decide))
  | rst =>
    cases ht
    exact resetFrom_inv h.params

theorem step_inv {s t : State} (h : s.Inv) (ht : step s = .next t) : t.Inv := by
  cases hs : s.script with
  | nil =>
    rw [step_of_empty hs] at ht
    cases ht
    exact h
  | cons a rest =>
    rw [step_of_pending hs] at ht
    exact hostAccess_inv (Inv_of_free h (Unchanged_mono (Unchanged_script rest s) (by decide))) ht

/-! ### The obligations -/

/-- Settles O12: a step is an access of the host, and every access keeps the invariants. -/
theorem everyStepKeepsTheInvariants : Obligations.EveryStepKeepsTheInvariants :=
  fun _ _ h ht => step_inv h ht

/-- Settles O10: a command that ends without fault ran its pseudocode to the end, and the pseudocode writes its list only. -/
theorem commandsWriteOnlyTheirOperands : Obligations.CommandsWriteOnlyTheirOperands :=
  fun i _ _ hi hs ht hf => (runOf_keeps i).frame (ok_of hi hs ht hf)

/-- Settles O4: the step performs the pending access, and this access runs the command (R26). -/
theorem stepRunsTheDecodedCommand : Obligations.StepRunsTheDecodedCommand := by
  intro s v rest i hs hd
  rw [step_of_pending hs, hostAccess_command hd]

/-- Settles O5: the word `withFetchWord` places has the command's encoding for its low byte, which decodes to it. -/
theorem stepTakesThePendingAccess : Obligations.StepTakesThePendingAccess := by
  refine ⟨fun s h => step_of_empty h, fun s a rest h => step_of_pending h, fun s i => ?_⟩
  have hd : decode (((tableByte 8 (encode i).toNat).setWidth 64).setWidth 8) = .ok i := by
    rw [setWidth_tableByte, decode_encode]
  exact stepRunsTheDecodedCommand (s.withFetchWord 8 (encode i).toNat) _ s.script i rfl hd

/-- Settles O6: the hardware reset and SRESET are the same recovery. -/
theorem resetGivesTheResetValues : Obligations.ResetGivesTheResetValues :=
  ⟨reset_atReset, fun s => ⟨resetFrom s, rfl, resetFrom_atReset s, rfl⟩,
    fun s hb => ⟨resetFrom s, exec_sreset hb, resetFrom_atReset s, rfl⟩⟩

/-- Settles O11: the data of the reset state meet R41, and the block is idle with ERR 0. -/
theorem resetMeetsTheInvariants : Obligations.ResetMeetsTheInvariants :=
  inv_of_dataOk reset_dataOk rfl rfl rfl

/-- Settles O15: STATUS and TREE are their fields one after the other, the lowest bits those of the last field. -/
theorem statusAndTreeShowTheirFields : Obligations.StatusAndTreeShowTheirFields := by
  intro s
  refine ⟨?_, ?_, fun k hk => ?_, ?_, ?_, ?_⟩
  · rw [statusWord_getLsbD, if_pos rfl]
  · rw [statusWord_getLsbD, if_neg (by decide), if_pos rfl]
  · rw [statusWord_getLsbD, if_neg (by omega), if_neg (by omega)]
  · refine BitVec.eq_of_getLsbD_eq fun k hk => ?_
    rw [BitVec.getLsbD_extractLsb', treeWord_getLsbD, if_pos (by omega)]
    simp [hk]
  · rw [treeWord_getLsbD, if_neg (by decide), if_pos rfl]
  · refine BitVec.eq_of_getLsbD_eq fun k hk => ?_
    rw [BitVec.getLsbD_extractLsb', treeWord_getLsbD, if_neg (by omega), if_neg (by omega)]
    simp [hk]

/-- Settles O16: an idle block takes the write, and `writeOperand` changes at most the register named. -/
theorem registerWritesKeepTheLowBits : Obligations.RegisterWritesKeepTheLowBits := by
  intro s v hs
  refine ⟨?_, ?_, ?_, ?_, ?_, ?_, fun n hn => ?_⟩
  iterate 6 exact hostAccess_writeReg hs (by decide) v
  rw [List.mem_cons, not_or] at hn
  obtain ⟨hcmd, hother⟩ := hn
  rw [hostAccess_writeReg hs hcmd, writeOperand_ignored hother]

/-- Settles O17: the value of every number is specified while idle, that of STATUS and ERR while faulted too. -/
theorem registerReadsReturnTheRegisters : Obligations.RegisterReadsReturnTheRegisters := by
  refine ⟨fun s hs => ⟨fun p hp => ?_, fun n hn => ?_⟩, fun s hb hf => ⟨?_, ?_⟩⟩
  · exact hostAccess_readReg ((regValue_idle hs p.1).trans (congrArg some (operandValue_assigned s p hp)))
  · exact hostAccess_readReg ((regValue_idle hs n).trans (congrArg some (operandValue_unassigned hn s)))
  · exact hostAccess_readReg (regValue_faulted hb hf (.inl rfl))
  · exact hostAccess_readReg (regValue_faulted hb hf (.inr rfl))

end Sys2Proof.Proofs
end

section
/-!
PROOFS, the family of 20_memory.md: the space port of the host (R60, R61, R75), the buffer primitives (R71, R72), and the
buffers a command starts again at length 0 (R75, log entry 12). The rules of each come first, the obligations after them.
-/
namespace Sys2Proof.Proofs

open Sys2Proof Sys2Proof.Machine Sys2Proof.Laws

/-! ### Host writes of an element -/

/-- An idle block takes a write of an element (R61). -/
theorem hostAccess_writeSpace {s : State} (h : s.Idle) (i : Nat) (e : Elem) :
    hostAccess (.writeSpace i e) s = .next (writeElem i e s) := by
  simp [hostAccess, hostWriteSpace, h.1, h.2]

theorem writeElem_inp {s : State} {i : Nat} (hi : i < s.params.inCap) (x : Byte) :
    writeElem i (.inp x) s = { s with inp := s.inp.set i x } :=
  if_pos hi

theorem writeElem_bit {s : State} {i : Nat} (hi : i < s.params.bitCap) (b : Bool) :
    writeElem i (.bit b) s = { s with bit := s.bit.set i b } :=
  if_pos hi

theorem writeElem_freq (i : Nat) (v : Counter) (s : State) :
    writeElem i (.freq v) s = setFreq (s.freq.setIfInBounds i v) s := rfl

theorem writeElem_inp_beyond {s : State} {i : Nat} (hi : s.params.inCap ≤ i) (x : Byte) : writeElem i (.inp x) s = s :=
  if_neg (Nat.not_lt.2 hi)

theorem writeElem_bit_beyond {s : State} {i : Nat} (hi : s.params.bitCap ≤ i) (b : Bool) : writeElem i (.bit b) s = s :=
  if_neg (Nat.not_lt.2 hi)

theorem writeElem_freq_beyond {i : Nat} (hi : 256 ≤ i) (v : Counter) (s : State) : writeElem i (.freq v) s = s := by
  rw [writeElem_freq, Vector.setIfInBounds_eq_of_size_le hi]
  rfl

/-- FREQ after a write of one counter. An index beyond 255 names no symbol. -/
theorem freqAt_setIfInBounds (s : State) (i : Nat) (v : Counter) (c : Symbol) :
    (setFreq (s.freq.setIfInBounds i v) s).freqAt c = if c.toNat = i then v else s.freqAt c := by
  simp only [State.freqAt, setFreq_freq, Vector.getElem_setIfInBounds, eq_comm (a := i)]

/-! ### Host reads of an element -/

/-- A read of an element that is specified puts it on the host port (R61). -/
theorem port_of_readSpace {s t : State} {sp : Space} {i : Nat} {e : Elem} (hs : s.Idle)
    (h : hostAccess (.readSpace sp i) s = .next t) (he : elemValue sp i s = some e) : t.port = some (.elem e) := by
  cases h
  simp [hostReadSpace, hs.1, hs.2, he]

theorem elemValue_inp {s : State} {i : Nat} (h : i < s.ilen.toNat) (hi : i < s.params.inCap) :
    elemValue .inp i s = some (.inp (s.inRead i)) :=
  if_pos ⟨h, hi⟩

theorem elemValue_out {s : State} {i : Nat} (h : i < s.olen.toNat) (hi : i < s.params.outCap) :
    elemValue .out i s = some (.out (s.outRead i)) :=
  if_pos ⟨h, hi⟩

theorem elemValue_bit {s : State} {i : Nat} (h : i < s.blen.toNat) (hi : i < s.params.bitCap) :
    elemValue .bit i s = some (.bit (s.bitRead i)) :=
  if_pos ⟨h, hi⟩

theorem elemValue_freq (c : Symbol) (s : State) : elemValue .freq c.toNat s = some (.freq (s.freqAt c)) := by
  simp [elemValue, State.freqAt]

/-- Of NODE the slots with valid = 1 can be read (R75). -/
theorem elemValue_node {s : State} {i : Nat} {nd : Node} (h : s.slot i = some nd) :
    elemValue .node i s = some (.node true nd) :=
  congrArg (Option.map (Elem.node true)) h

theorem elemValue_heap {s : State} {i : Nat} {n : NodeIdx} (h : s.heap[i]? = some n) :
    elemValue .heap i s = some (.heap n) :=
  congrArg (Option.map Elem.heap) h

/-- Of CODE the slots with valid = 1 can be read (R75). -/
theorem elemValue_code {s : State} {c : Symbol} {bits : BitSeq} (h : s.codeAt c = some bits) :
    elemValue .code c.toNat s = some (.code true bits) := by
  have hc : s.code[c.toNat]? = some (some bits) := (Vector.getElem?_eq_getElem c.isLt).trans (congrArg some h)
  simp [elemValue, hc]

theorem elemValue_order {s : State} {i : Nat} {c : Symbol} (h : s.order[i]? = some c) :
    elemValue .order i s = some (.order c) :=
  congrArg (Option.map Elem.order) h

/-! ### The buffer primitives -/

theorem outAppend_full {s : State} (h : s.params.outCap ≤ s.olen.toNat) (x : Byte) : outAppend x s = raise .capacity :=
  if_pos h

theorem outAppend_room {s : State} (h : s.olen.toNat < s.params.outCap) (x : Byte) : outAppend x s = .ok (putOut x s) :=
  if_neg (Nat.not_le.2 h)

theorem bitAppend_full {s : State} (h : s.params.bitCap ≤ s.blen.toNat) (b : Bool) : bitAppend b s = raise .capacity :=
  if_pos h

theorem bitAppend_room {s : State} (h : s.blen.toNat < s.params.bitCap) (b : Bool) : bitAppend b s = .ok (putBit b s) :=
  if_neg (Nat.not_le.2 h)

/-! ### Buffers started again at length 0 -/

/-- The commands that start BIT again only append to it where BLEN was 0 (R75, log entry 12). -/
theorem runOf_bitGrows {i : Instr} {s t : State} (hi : i ∈ [.unpack, .bgen, .encode, .decode, .compress, .decompress])
    (hw : s.params.wf = true) (hb : s.blen = 0) (h : runOf i s = .ok t) : BitGrows s t := by
  simp only [List.mem_cons, List.not_mem_nil, or_false] at hi
  rcases hi with rfl | rfl | rfl | rfl | rfl | rfl
  · exact runUnpack_grows hw hb h
  · exact runBgen_grows hw hb h
  · exact (runEncode_grows hw h).1 hb
  · exact (runDecode_grows hw h).1 hb
  · exact (runCompress_grows hw h).1 hb
  · exact (runDecompress_grows hw h).1 hb

/-- The macro commands start OUT again, and only append to it where OLEN was 0 (R75, log entry 12). -/
theorem runOf_outGrows {i : Instr} {s t : State} (hi : i ∈ [.encode, .decode, .compress, .decompress])
    (hw : s.params.wf = true) (ho : s.olen = 0) (h : runOf i s = .ok t) : OutGrows s t := by
  simp only [List.mem_cons, List.not_mem_nil, or_false] at hi
  rcases hi with rfl | rfl | rfl | rfl
  · exact (runEncode_grows hw h).2 ho
  · exact (runDecode_grows hw h).2 ho
  · exact (runCompress_grows hw h).2 ho
  · exact (runDecompress_grows hw h).2 ho

/-! ### The obligations -/

/-- Settles O18: an idle block takes the write, and `writeElem` changes at most the one cell named. -/
theorem spaceWritesReachOneCell : Obligations.SpaceWritesReachOneCell := by
  intro s i hs
  refine ⟨fun x hi => ⟨{ s with inp := s.inp.set i x }, ?_, Unchanged_inp _ s, fun j => inRead_set rfl j⟩,
    fun b hi => ⟨{ s with bit := s.bit.set i b }, ?_, Unchanged_bit _ s, fun j => bitRead_set rfl j⟩,
    fun v _ => ⟨setFreq (s.freq.setIfInBounds i v) s, hostAccess_writeSpace hs i _, Unchanged_setFreq _ s,
      freqAt_setIfInBounds s i v⟩,
    fun x hi => ?_, fun b hi => ?_, fun v hi => ?_, fun _ => hostAccess_writeSpace hs i _,
    fun _ _ => hostAccess_writeSpace hs i _, fun _ => hostAccess_writeSpace hs i _,
    fun _ _ => hostAccess_writeSpace hs i _, fun _ => hostAccess_writeSpace hs i _⟩
  · rw [hostAccess_writeSpace hs, writeElem_inp hi]
  · rw [hostAccess_writeSpace hs, writeElem_bit hi]
  · rw [hostAccess_writeSpace hs, writeElem_inp_beyond hi]
  · rw [hostAccess_writeSpace hs, writeElem_bit_beyond hi]
  · rw [hostAccess_writeSpace hs, writeElem_freq_beyond hi]

/-- Settles O19: a read changes the port and the counter of the free values, and within the valid part its element is
specified. -/
theorem spaceReadsReturnTheElement : Obligations.SpaceReadsReturnTheElement := by
  refine ⟨fun s sp i => ⟨hostReadSpace sp i s, rfl, Unchanged_hostReadSpace sp i s⟩,
    fun s t i hs => ⟨?_, ?_, ?_, ?_, ?_, ?_, ?_, ?_⟩⟩
  · exact fun h hlen hcap => port_of_readSpace hs h (elemValue_inp hlen hcap)
  · exact fun h hlen hcap => port_of_readSpace hs h (elemValue_out hlen hcap)
  · exact fun h hlen hcap => port_of_readSpace hs h (elemValue_bit hlen hcap)
  · exact fun c h => port_of_readSpace hs h (elemValue_freq c s)
  · exact fun nd h hnd => port_of_readSpace hs h (elemValue_node hnd)
  · exact fun n h hn => port_of_readSpace hs h (elemValue_heap hn)
  · exact fun c bits h hc => port_of_readSpace hs h (elemValue_code hc)
  · exact fun c h hc => port_of_readSpace hs h (elemValue_order hc)

/-- Settles O20: with room the append is `putOut` or `putBit`, which writes the cell at the old length and counts it. -/
theorem appendsWriteTheCellAtTheLength : Obligations.AppendsWriteTheCellAtTheLength := by
  refine ⟨fun s x => ⟨fun h => outAppend_full h x, fun h => ?_⟩, fun s => ⟨rfl, fun x l => rfl⟩,
    fun s b => ⟨fun h => bitAppend_full h b, fun h => ?_⟩⟩
  · exact ⟨putOut x s, outAppend_room h x, putOut_olen x s, outRead_set (putOut_out x s), Unchanged_outWritten [x] s⟩
  · exact ⟨putBit b s, bitAppend_room h b, putBit_blen b s, bitRead_set (putBit_bit b s), Unchanged_bitWritten [b] s⟩

/-- Settles O59: a normal end is the pseudocode's, which only appends to a buffer whose length was 0. -/
theorem restartsKeepTheCellsOfAnEmptyBuffer : Obligations.RestartsKeepTheCellsOfAnEmptyBuffer := by
  intro i s t hw hs h hf
  refine ⟨fun hi hb => ?_, fun hi ho => ?_⟩
  · have hr : runOf i s = .ok t := ok_of (ne_of_mem_of_not_mem hi (by decide)) hs h hf
    exact (runOf_bitGrows hi hw hb hr).beyond
  · have hr : runOf i s = .ok t := ok_of (ne_of_mem_of_not_mem hi (by decide)) hs h hf
    exact (runOf_outGrows hi hw ho hr).beyond

end Sys2Proof.Proofs
end

section
/-!
PROOFS, the family of 30_encoding.md: the seventeen opcodes (R90, R92) and the bytes that are none (R93). Decoder and encoder
are inverse to each other, so the bytes the decoder rejects are those no command is encoded as. The rules of the decoder
come first, the obligations after them.
-/
namespace Sys2Proof.Proofs

open Sys2Proof Sys2Proof.Machine Sys2Proof.Laws

/-! ### The decoder -/

theorem decode_eq_ok_iff {c : Byte} {i : Instr} : decode c = .ok i ↔ encode i = c :=
  ⟨encode_of_decode, fun h => h ▸ decode_encode i⟩

/-- The decoder has one reason to reject a byte (R93). -/
theorem decode_ok_or_illegal (c : Byte) : (∃ i, decode c = .ok i) ∨ decode c = .error (.illegalCmd c) := by
  unfold decode
  split
  · exact .inl ⟨_, rfl⟩
  · exact .inr rfl

theorem decode_eq_error_iff {c : Byte} : decode c = .error (.illegalCmd c) ↔ ∀ i, encode i ≠ c := by
  refine ⟨fun h i hi => ?_, fun h => ?_⟩
  · rw [decode_eq_ok_iff.2 hi] at h
    cases h
  · obtain ⟨i, hi⟩ | hc := decode_ok_or_illegal c
    · exact absurd (encode_of_decode hi) (h i)
    · exact hc

/-- All commands have the length of one byte (R90). -/
theorem decodeBytes_cons {c : Byte} {i : Instr} (h : decode c = .ok i) (rest : List Byte) :
    decodeBytes (c :: rest) = .ok (i, rest) := by
  simp only [decodeBytes, h, Except.map]

theorem decodeTableWord_toNat (c : Byte) : decodeTableWord 8 c.toNat = (decode c).toOption := by
  simp only [decodeTableWord, tableByte_toNat, Nat.le_refl, if_true]

theorem decodeTableWord_eq_none_iff {c : Byte} : decodeTableWord 8 c.toNat = none ↔ ∀ i, encode i ≠ c := by
  rw [decodeTableWord_toNat, ← decode_eq_error_iff]
  obtain ⟨i, hi⟩ | hc := decode_ok_or_illegal c
  · simp [hi, Except.toOption]
  · simp [hc, Except.toOption]

/-! ### The bytes that are no opcode -/

/-- The opcodes as table words, in the order of the opcode map (R92). -/
def opcodeWords : List Nat := opcodeMap.map fun r => (encode r.instr).toNat

theorem mem_opcodeWords {w : Nat} : w ∈ opcodeWords ↔ ∃ i, (encode i).toNat = w := by
  refine ⟨fun h => ?_, fun ⟨i, hi⟩ => hi ▸ ?_⟩
  · obtain ⟨r, _, hr⟩ := List.mem_map.1 h
    exact ⟨r.instr, hr⟩
  · cases i <;> decide

theorem decodeTableWord_isNone {w : Nat} (hw : w < 256) : (decodeTableWord 8 w).isNone = decide (w ∉ opcodeWords) := by
  obtain ⟨c, rfl⟩ : ∃ c : Byte, c.toNat = w := ⟨BitVec.ofNatLT w hw, rfl⟩
  rw [Bool.eq_iff_iff, Option.isNone_iff_eq_none, decodeTableWord_eq_none_iff, decide_eq_true_iff, mem_opcodeWords,
    not_exists]
  exact forall_congr' fun i => not_congr BitVec.toNat_inj.symm

/-- The opcodes are seventeen distinct words, and the other 239 of the 256 decode to no command (R93). -/
theorem length_words_without_command :
    ((List.range 256).filter fun w => (decodeTableWord 8 w).isNone).length = 239 := by
  obtain ⟨hnodup, hlen, hrange⟩ :
    opcodeWords.Nodup ∧ opcodeWords.length = 17 ∧ opcodeWords ⊆ List.range 256 := by decide
  have hperm : (opcodeWords ++ (List.range 256).diff opcodeWords).Perm (List.range 256) :=
    List.subperm_append_diff_self_of_count_le (List.subperm_ext_iff.1 (hnodup.subperm hrange))
  have hsum := hperm.length_eq
  rw [List.length_append, hlen, List.length_range, List.nodup_range.sdiff_eq_filter] at hsum
  rw [List.filter_congr fun w hw => decodeTableWord_isNone (List.mem_range.1 hw)]
  omega

/-! ### ILLEGAL_CMD -/

theorem runCommand_of_error {c : Byte} {r : Reject} (h : decode c = .error r) (s : State) :
    runCommand c s = illegalCycle s := by
  unfold runCommand
  rw [h]

/-- Fault entry with ILLEGAL_CMD writes STATUS and ERR only (R214, R215). -/
theorem illegalCycle_idle {s : State} (h : s.Idle) :
    illegalCycle s = .next { s with err := 3, fault := true, busy := false } := by
  simp [illegalCycle, h.1, h.2, faultEntry, Cause.errCode]

theorem runCommand_illegal {c : Byte} {s : State} (h : ∀ i, encode i ≠ c) (hs : s.Idle) :
    runCommand c s = .next { s with err := 3, fault := true, busy := false } := by
  rw [runCommand_of_error (decode_eq_error_iff.2 h), illegalCycle_idle hs]

/-! ### The obligations -/

/-- Settles O2: decoder and encoder are inverse to each other, and a table word of eight bits is its byte. -/
theorem encodingAndDecodingAgree : Obligations.EncodingAndDecodingAgree := by
  refine ⟨fun i rest _ => ⟨decode_encode i, decodeBytes_cons (decode_encode i) rest, ?_⟩, fun c i => encode_of_decode⟩
  rw [decodeTableWord_toNat, decode_encode]
  rfl

/-- Settles O1: each byte of the map is the encoding of the command beside it. -/
theorem opcodeBytesDecodeToTheirCommands : Obligations.OpcodeBytesDecodeToTheirCommands :=
  ⟨decode_encode .nop, decode_encode .sreset, decode_encode .pack, decode_encode .unpack, decode_encode .tser,
    decode_encode .tdes, decode_encode .tinit, decode_encode .tmerge, decode_encode .tbuild, decode_encode .genc,
    decode_encode .fcnt, decode_encode .bgen, decode_encode .bdec, decode_encode .encode, decode_encode .decode,
    decode_encode .compress, decode_encode .decompress⟩

/-- Settles O3: a byte that encodes no command is rejected, and the command cycle enters the fault. A write of CMD hands
over its low byte (R26). -/
theorem otherBytesRaiseIllegalCommand : Obligations.OtherBytesRaiseIllegalCommand :=
  ⟨length_words_without_command, fun _ _ hc hs => ⟨decode_eq_error_iff.2 hc, runCommand_illegal hc hs⟩,
    fun _ _ hv hs => runCommand_illegal hv hs⟩

end Sys2Proof.Proofs
end

section
/-!
PROOFS, the family of 40_common_and_control.md: every access of the host, and so every step, ends in a next state where the
invariants hold (R111), and NOP (R115). The rules come first, the obligations after them.
-/
namespace Sys2Proof.Proofs

open Sys2Proof Sys2Proof.Machine Sys2Proof.Laws

/-! ### Every access ends in a next state -/

/-- A byte that is no opcode is ignored, refused, or enters the fault (R93, R243, R220). -/
theorem illegalCycle_next (s : State) : ∃ t, illegalCycle s = .next t := by
  unfold illegalCycle
  split_ifs <;> exact ⟨_, rfl⟩

/-- The command cycle stops the model for no byte (R111). -/
theorem runCommand_next {s : State} (h : s.Inv) (c : Byte) : ∃ t, runCommand c s = .next t := by
  obtain ⟨i, hi⟩ | hc := decode_ok_or_illegal c
  · rw [runCommand_of_decode hi]
    exact exec_next h
  · rw [runCommand_of_error hc]
    exact illegalCycle_next s

/-- Only a write of CMD runs a command; every other access has a next state whatever the state is. -/
theorem hostAccess_next {s : State} (h : s.Inv) (a : HostAccess) : ∃ t, hostAccess a s = .next t := by
  cases a with
  | writeReg n v =>
    simp only [hostAccess]
    split_ifs
    · exact runCommand_next h _
    · exact ⟨_, rfl⟩
  | readReg n => exact ⟨_, rfl⟩
  | writeSpace i e => exact ⟨_, rfl⟩
  | readSpace sp i => exact ⟨_, rfl⟩
  | rst => exact ⟨_, rfl⟩

theorem step_next {s : State} (h : s.Inv) : ∃ t, step s = .next t := by
  cases hs : s.script with
  | nil => exact ⟨s, step_of_empty hs⟩
  | cons a rest =>
    rw [step_of_pending hs]
    exact hostAccess_next (Inv_of_free h (Unchanged_mono (Unchanged_script rest s) (by decide))) a

/-! ### NOP -/

/-- Busy or faulted the command cycle drops NOP, and idle its pseudocode does nothing (R110, R115). -/
theorem exec_nop (s : State) : exec .nop s = .next s := by
  rw [exec_eq (by decide)]
  by_cases hb : s.busy = true
  · exact commandCycle_busy _ s hb
  · by_cases hf : s.fault = true
    · exact commandCycle_faulted _ s hf
    · have hidle : s.Idle := ⟨Bool.eq_false_of_not_eq_true hb, Bool.eq_false_of_not_eq_true hf⟩
      exact commandCycle_ok hidle rfl

/-! ### The obligations -/

/-- Settles O13: a step is an access of the host, and the one access that runs a command ends as `exec_next` says. -/
theorem everyStepEndsInANextState : Obligations.EveryStepEndsInANextState :=
  fun _ h => step_next h

/-- Settles O14: the byte 0x00 is the encoding of NOP, and the command cycle runs what the byte decodes to. -/
theorem nopChangesNothing : Obligations.NopChangesNothing :=
  ⟨decode_encode .nop, fun s => ⟨exec_nop s, (runCommand_of_decode (decode_encode .nop) s).trans (exec_nop s)⟩⟩

end Sys2Proof.Proofs
end

section
/-!
PROOFS, the family of 41_bit_packer.md: where `pack` and `unpack` put each bit (R130, R131), what PACK and UNPACK leave and
raise (R133, R134), and that unpacking inverts packing (R132). The rules of the two commands come first, the obligations
after them.
-/
namespace Sys2Proof.Proofs

open Sys2Proof Sys2Proof.Machine Sys2Proof.Laws

/-! ### The functions `pack` and `unpack` -/

/-- A sequence padded with zeros reads as its own bits, then as zeros. -/
theorem getElem?_append_zeros (bits : BitSeq) {p i : Nat} (h : i < bits.length + p) :
    (bits ++ List.replicate p false)[i]? = some ((bits[i]?).getD false) := by
  by_cases hi : i < bits.length
  · rw [List.getElem?_append_left hi, List.getElem?_eq_getElem hi, Option.getD_some]
  · rw [List.getElem?_append_right (by omega), List.getElem?_replicate, if_pos (by omega),
      List.getElem?_eq_none (by omega), Option.getD_none]

/-- The pad count makes the number of bits a multiple of 8 (R130). -/
theorem add_padCount_mod (n : Nat) : (n + padCount n) % 8 = 0 := by
  rw [add_padCount, Nat.mul_mod_right]

theorem unpackBits_getElem? {bytes : List Byte} {p i : Nat} (h : i < keptBits bytes.length p) :
    (unpackBits bytes p)[i]? = (bytes[i / 8]?).map fun x => x.getLsbD (7 - i % 8) := by
  rw [unpackBits, List.getElem?_take_of_lt h, getElem?_flatMap_bits8]

/-- `unpack` keeps as many bits of the packed bytes as were packed (R132). -/
theorem keptBits_packBytes (bits : BitSeq) : keptBits (packBytes bits).length (padCount bits.length) = bits.length := by
  rw [← unpackBits_length, unpackBits_packBytes]

/-! ### PACK -/

/-- The state a normal PACK leaves (R133). -/
def packDone (s : State) : State :=
  setPad (BitVec.ofNat 8 (padCount s.blen.toNat)) (outWritten (packBytes s.bitData) s)

/-- PACK has room: there is nothing to append, or it fits into OUT (R71, log entry 7). -/
def PackFits (s : State) : Prop := s.blen.toNat = 0 ∨ s.olen.toNat + ceil8 s.blen.toNat ≤ s.params.outCap

theorem runPack_long {s : State} (hw : s.params.wf = true) (h : s.params.bitCap < s.blen.toNat) :
    runPack s = raise .precond :=
  (runPack_eq s (outCap_lt hw)).trans (if_pos h)

theorem runPack_full {s : State} (hw : s.params.wf = true) (hb : s.blen.toNat ≤ s.params.bitCap) (h : ¬ PackFits s) :
    runPack s = raise .capacity := by
  rw [runPack_eq s (outCap_lt hw), if_neg (Nat.not_lt.2 hb)]
  exact if_neg h

theorem runPack_fits {s : State} (hw : s.params.wf = true) (hb : s.blen.toNat ≤ s.params.bitCap) (h : PackFits s) :
    runPack s = .ok (packDone s) := by
  rw [runPack_eq s (outCap_lt hw), if_neg (Nat.not_lt.2 hb)]
  exact if_pos h

/-- PACK ends normally in one way only. -/
theorem runPack_ok {s t : State} (hw : s.params.wf = true) (h : runPack s = .ok t) :
    s.blen.toNat ≤ s.params.bitCap ∧ PackFits s ∧ t = packDone s := by
  by_cases hb : s.blen.toNat ≤ s.params.bitCap
  · by_cases hf : PackFits s
    · rw [runPack_fits hw hb hf] at h
      cases h
      exact ⟨hb, hf, rfl⟩
    · rw [runPack_full hw hb hf] at h
      cases h
  · rw [runPack_long hw (Nat.lt_of_not_le hb)] at h
    cases h

theorem packDone_pad (s : State) : (packDone s).pad.toNat = padCount s.blen.toNat := by
  have hp : padCount s.blen.toNat < 8 := padCount_lt s.blen.toNat
  rw [packDone, setPad_pad, BitVec.toNat_ofNat, Nat.mod_eq_of_lt (by omega)]

/-- What OUT holds after a normal PACK: the packed bytes at the old OLEN, every other byte as before (R133). -/
theorem packDone_out {s : State} (hw : s.params.wf = true) (h : PackFits s) :
    (packDone s).outData = s.outData ++ packBytes s.bitData ∧
      (packDone s).olen.toNat = s.olen.toNat + ceil8 s.blen.toNat ∧
      ∀ a, (a < s.olen.toNat ∨ s.olen.toNat + ceil8 s.blen.toNat ≤ a) → (packDone s).outRead a = s.outRead a := by
  have hlen : (packBytes s.bitData).length = ceil8 s.blen.toNat := by rw [packBytes_length, bitData_length]
  have hroom : packBytes s.bitData = [] ∨ s.olen.toNat + (packBytes s.bitData).length ≤ s.params.outCap := by
    rw [hlen]
    refine h.imp_left fun h0 => List.eq_nil_of_length_eq_zero ?_
    rw [hlen, h0]
    rfl
  rw [← hlen]
  exact outWritten_facts _ s (outCap_lt hw) hroom

/-! ### UNPACK -/

/-- The state a normal UNPACK leaves (R134). -/
def unpackDone (s : State) : State := setIoff s.ilen (bitWritten (unpackBits s.inRest s.pad.toNat) (restartBit s))

theorem runUnpack_bad {s : State} (hw : s.params.wf = true)
    (h : s.params.inCap < s.ilen.toNat ∨ s.ilen.toNat < s.ioff.toNat) : runUnpack s = raise .precond :=
  (runUnpack_eq s (bitCap_lt hw)).trans (if_pos h)

section Checked

variable {s : State} (hw : s.params.wf = true) (hlen : s.ilen.toNat ≤ s.params.inCap) (hoff : s.ioff.toNat ≤ s.ilen.toNat)
include hw hlen hoff

theorem runUnpack_full (h : s.params.bitCap < keptBits (s.ilen.toNat - s.ioff.toNat) s.pad.toNat) :
    runUnpack s = raise .capacity := by
  rw [runUnpack_eq s (bitCap_lt hw), if_neg (by omega), if_pos h]

theorem runUnpack_fits (h : keptBits (s.ilen.toNat - s.ioff.toNat) s.pad.toNat ≤ s.params.bitCap) :
    runUnpack s = .ok (unpackDone s) := by
  rw [runUnpack_eq s (bitCap_lt hw), if_neg (by omega), if_neg (Nat.not_lt.2 h)]
  rfl

end Checked

/-- UNPACK ends with all of IN read (R134). -/
theorem unpackDone_ioff (s : State) : (unpackDone s).ioff = (unpackDone s).ilen := by
  simp only [unpackDone, setIoff_ioff, setIoff_ilen, bitWritten_ilen, restartBit_ilen]

/-- BIT[0..BLEN) after a normal UNPACK is what `unpack` makes of IN[IOFF..ILEN) (R134). -/
theorem unpackDone_bitData {s : State} (hw : s.params.wf = true)
    (h : keptBits (s.ilen.toNat - s.ioff.toNat) s.pad.toNat ≤ s.params.bitCap) :
    (unpackDone s).bitData = unpackBits s.inRest s.pad.toNat := by
  have hempty : (restartBit s).bitData = [] := by simp [State.bitData]
  have hcap : s.params.bitCap < 2 ^ 64 := bitCap_lt hw
  have hzero : (restartBit s).blen.toNat = 0 := rfl
  have hroom : (restartBit s).blen.toNat + (unpackBits s.inRest s.pad.toNat).length < 2 ^ 64 := by
    rw [hzero, unpackBits_length, inRest_length]
    omega
  calc (unpackDone s).bitData
      = (bitWritten (unpackBits s.inRest s.pad.toNat) (restartBit s)).bitData := bitData_congr rfl rfl
    _ = unpackBits s.inRest s.pad.toNat := by rw [bitWritten_bitData _ _ hroom, hempty, List.nil_append]

theorem unpackDone_blen {s : State} (hw : s.params.wf = true)
    (h : keptBits (s.ilen.toNat - s.ioff.toNat) s.pad.toNat ≤ s.params.bitCap) :
    (unpackDone s).blen.toNat = keptBits (s.ilen.toNat - s.ioff.toNat) s.pad.toNat := by
  rw [← bitData_length, unpackDone_bitData hw h, unpackBits_length, inRest_length]

/-! ### UNPACK of what PACK appended -/

/-- UNPACK of the packed bits of BIT, with their pad count, keeps BLEN bits. -/
theorem kept_of_packed {s u : State} (hin : u.inRest = packBytes s.bitData) (hpad : u.pad.toNat = padCount s.blen.toNat) :
    keptBits (u.ilen.toNat - u.ioff.toNat) u.pad.toNat = s.blen.toNat := by
  rw [← inRest_length, hin, hpad, ← bitData_length, keptBits_packBytes]

theorem unpackDone_of_packed {s u : State} (hw : u.params.wf = true) (hb : s.blen.toNat ≤ u.params.bitCap)
    (hin : u.inRest = packBytes s.bitData) (hpad : u.pad.toNat = padCount s.blen.toNat) :
    (unpackDone u).bitData = s.bitData ∧ (unpackDone u).blen = s.blen := by
  have hkept := kept_of_packed hin hpad
  have hroom : keptBits (u.ilen.toNat - u.ioff.toNat) u.pad.toNat ≤ u.params.bitCap := hkept ▸ hb
  refine ⟨?_, BitVec.eq_of_toNat_eq ((unpackDone_blen hw hroom).trans hkept)⟩
  rw [unpackDone_bitData hw hroom, hin, hpad, ← bitData_length, unpackBits_packBytes]

/-! ### The obligations -/

/-- Settles O21: the packed bytes are the bits with zeros up to a multiple of 8, eight to a byte, the first one highest. -/
theorem packPutsEachBitInItsPlace : Obligations.PackPutsEachBitInItsPlace := by
  refine fun bits => ⟨packBytes_length bits, rfl, padCount_lt _, add_padCount_mod _, fun k j hk hj => ?_⟩
  have hsum : bits.length + padCount bits.length = 8 * ((bits.length + 7) / 8) := add_padCount bits.length
  rw [packBytes_bit bits k j hj, getElem?_append_zeros bits (by omega)]

/-- Settles O22: `unpack` takes the first bits of the bytes written out, the highest bit of each first. -/
theorem unpackExpandsAndDropsThePad : Obligations.UnpackExpandsAndDropsThePad :=
  fun bytes p => ⟨unpackBits_length bytes p, fun _ => unpackBits_getElem?⟩

/-- Settles O23: the pseudocode raises PRECOND, raises CAPACITY, or leaves `packDone`. -/
theorem packAppendsThePackedBits : Obligations.PackAppendsThePackedBits := by
  refine fun s hw hs => ⟨fun h => ?_, fun hb hpos hfull => ?_, fun hb hfits => ?_⟩
  · exact fault_of (by decide) hs (runPack_long hw h)
  · exact fault_of (by decide) hs (runPack_full hw hb (not_or.2 ⟨hpos.ne', Nat.not_le.2 hfull⟩))
  · have hrun : runPack s = .ok (packDone s) := runPack_fits hw hb hfits
    obtain ⟨hdata, holen, hrest⟩ := packDone_out hw hfits
    exact ⟨packDone s, next_of (by decide) hs hrun, holen, hdata, hrest, packDone_pad s, runPack_keeps.frame hrun⟩

/-- Settles O24: the pseudocode raises PRECOND, raises CAPACITY, or leaves `unpackDone`. -/
theorem unpackReplacesTheBits : Obligations.UnpackReplacesTheBits := by
  refine fun s hw hs => ⟨fun h => ?_, fun hlen hoff => ⟨fun hfull => ?_, fun hfits => ?_⟩⟩
  · exact fault_of (by decide) hs (runUnpack_bad hw h)
  · exact fault_of (by decide) hs (runUnpack_full hw hlen hoff hfull)
  · have hrun : runUnpack s = .ok (unpackDone s) := runUnpack_fits hw hlen hoff hfits
    exact ⟨unpackDone s, next_of (by decide) hs hrun, unpackDone_bitData hw hfits, unpackDone_blen hw hfits, rfl,
      runUnpack_keeps.frame hrun⟩

/-- Settles O25: on lists it is `unpackBits_packBytes`. With OLEN 0 the appended bytes are all of OUT[0..OLEN), and as many
bits are kept as PACK read, so UNPACK has room for them. -/
theorem unpackInvertsPack : Obligations.UnpackInvertsPack := by
  refine ⟨unpackBits_packBytes, fun s t u hw hs h0 hexec hf hu hparams hin hpad hlen hoff => ?_⟩
  obtain ⟨hb, hfits, rfl⟩ := runPack_ok hw (ok_of (i := .pack) (by decide) hs hexec hf)
  obtain ⟨hdata, -, -⟩ := packDone_out hw hfits
  have hempty : s.outData = [] := List.eq_nil_of_length_eq_zero (by rw [outData_length, h0]; rfl)
  have hbytes : u.inRest = packBytes s.bitData := by rw [hin, hdata, hempty, List.nil_append]
  have hcount : u.pad.toNat = padCount s.blen.toNat := by rw [hpad, packDone_pad]
  have hwu : u.params.wf = true := hparams ▸ hw
  have hbu : s.blen.toNat ≤ u.params.bitCap := hparams ▸ hb
  obtain ⟨hbits, hblen⟩ := unpackDone_of_packed hwu hbu hbytes hcount
  have hrun : runUnpack u = .ok (unpackDone u) :=
    runUnpack_fits hwu hlen hoff ((kept_of_packed hbytes hcount).trans_le hbu)
  exact ⟨unpackDone u, next_of (by decide) hu hrun, hbits, hblen, unpackDone_ioff u⟩

end Sys2Proof.Proofs
end

section
/-!
PROOFS, the family of 42_code_table_codec.md: what TSER appends (R141), what TDES reads and where a table is cut short
(R142), and that reading a written table gives it back (R144). The rules of the two commands come first, the obligations
after them.
-/
namespace Sys2Proof.Proofs

open Sys2Proof Sys2Proof.Machine Sys2Proof.Laws

/-! ### TSER -/

/-- A serialised table has at least its count (R140), so TSER always has something to append. -/
theorem serialTable_ne_nil (es : List (Symbol × BitSeq)) : serialTable es ≠ [] := by
  rw [serialTable, be_two]
  exact List.cons_ne_nil _ _

theorem runTser_full {s : State} (hw : s.params.wf = true)
    (h : s.params.outCap < s.olen.toNat + (serialTable s.entries).length) : runTser s = raise .capacity := by
  rw [runTser_eq, outAppendAll_eq _ _ (outCap_lt hw), if_neg (not_or.2 ⟨serialTable_ne_nil _, Nat.not_le.2 h⟩)]

theorem runTser_fits {s : State} (hw : s.params.wf = true)
    (h : s.olen.toNat + (serialTable s.entries).length ≤ s.params.outCap) :
    runTser s = .ok (outWritten (serialTable s.entries) s) := by
  rw [runTser_eq, outAppendAll_eq _ _ (outCap_lt hw), if_pos (.inr h)]

/-- A TSER with OLEN 0 that ends normally leaves the serialised table as OUT[0..OLEN). -/
theorem runTser_outData {s t : State} (hw : s.params.wf = true) (h0 : s.olen = 0) (h : runTser s = .ok t) :
    t.outData = serialTable s.entries := by
  have hempty : s.outData = [] := List.eq_nil_of_length_eq_zero (by rw [outData_length, h0]; rfl)
  rw [runTser_eq] at h
  obtain ⟨rfl, hroom⟩ := outAppendAll_ok (outCap_lt hw) h
  obtain ⟨hdata, -, -⟩ := outWritten_facts _ s (outCap_lt hw) hroom
  rw [hdata, hempty, List.nil_append]

/-! ### TDES -/

/-- The state a normal TDES leaves that read the entries `es` from `n` bytes (R142). -/
def tdesDone (es : List (Symbol × BitSeq)) (n : Nat) (s : State) : State := skip n (putEntries es (clearTable s))

theorem tdesDone_order (es : List (Symbol × BitSeq)) (n : Nat) (s : State) :
    (tdesDone es n s).order = firstSeen (es.map Prod.fst) :=
  (putEntries_table es s).1

theorem tdesDone_codeAt (es : List (Symbol × BitSeq)) (n : Nat) (s : State) (c : Symbol) :
    (tdesDone es n s).codeAt c = lastCode es c :=
  (putEntries_table es s).2 c

/-- Recording a table does not touch IN, ILEN or IOFF. -/
theorem putEntries_clearTable_inRest (es : List (Symbol × BitSeq)) (s : State) :
    (putEntries es (clearTable s)).inRest = s.inRest :=
  inRest_congr (by simp) (by simp) (by simp)

/-- TDES that read the bytes `front` leaves IOFF behind them (R142). -/
theorem tdesDone_rest (es : List (Symbol × BitSeq)) {s : State} {front rest : List Byte}
    (hoff : s.ioff.toNat ≤ s.ilen.toNat) (h : s.inRest = front ++ rest) :
    (tdesDone es front.length s).ioff.toNat = s.ioff.toNat + front.length ∧
      (tdesDone es front.length s).inRest = rest := by
  have hlen := congrArg List.length h
  rw [inRest_length, List.length_append] at hlen
  have hroom : (putEntries es (clearTable s)).ioff.toNat + front.length ≤ (putEntries es (clearTable s)).ilen.toNat := by
    simp only [putEntries_ioff, putEntries_ilen, clearTable_ioff, clearTable_ilen]
    omega
  constructor
  · rw [tdesDone, skip_ioff _ _ hroom, putEntries_ioff, clearTable_ioff]
  · rw [tdesDone, skip_inRest _ _ hroom, putEntries_clearTable_inRest, h, List.drop_left]

/-- The entries of a table that meets R41 (g) name each symbol once, so recording them gives the table back (R144). -/
theorem tdesDone_entries {s : State} (h : s.TableOk) (n : Nat) (u : State) :
    (tdesDone s.entries n u).order = s.order ∧ ∀ c, (tdesDone s.entries n u).codeAt c = s.codeAt c := by
  refine ⟨?_, fun c => (tdesDone_codeAt _ n u c).trans (lastCode_entries h c)⟩
  rw [tdesDone_order, entries_fst, firstSeen_of_nodup h.orderNodup]

theorem runTdes_bad {s : State} (h : s.params.inCap < s.ilen.toNat ∨ s.ilen.toNat < s.ioff.toNat) :
    runTdes s = raise .precond := by
  rw [runTdes, checkIn_bad h]
  rfl

/-! ### The obligations -/

/-- Settles O28: with OLEN 0 the table written is all of OUT[0..OLEN), TDES reads its entries, and recording the entries of
a table gives it back. -/
theorem tdesInvertsTser : Obligations.TdesInvertsTser := by
  intro s t u hw hs htable h0 hexec hf hu hoff hin hlen
  have hout : t.outData = serialTable s.entries := runTser_outData hw h0 (ok_of (i := .tser) (by decide) hs hexec hf)
  have hle : u.ioff.toNat ≤ u.ilen.toNat := by simp [hoff]
  have hrest : u.inRest = serialTable s.entries ++ [] := by
    rw [State.inRest, hoff, List.append_nil, ← hout, ← hin]
    rfl
  have hcount : s.entries.length < 65536 := by
    have hmax : s.entries.length ≤ 256 := entries_length_le htable
    omega
  have hrun : runTdes u = .ok (tdesDone s.entries (serialTable s.entries).length u) :=
    runTdes_ok hcount (entries_codeLength htable) (checkIn_of_le hlen hle) hrest
  obtain ⟨horder, hcode⟩ := tdesDone_entries htable (serialTable s.entries).length u
  refine ⟨_, next_of (by decide) hu hrun, hcode, horder, BitVec.eq_of_toNat_eq ?_⟩
  have hilen : (tdesDone s.entries (serialTable s.entries).length u).ilen = u.ilen :=
    runTdes_keeps.frame hrun .ilen (by decide)
  rw [(tdesDone_rest _ hle hrest).1, hilen, hoff, ← inData_length, hin, hout]
  exact Nat.zero_add _

/-- Settles O26: TSER is the append of the serialised table, which is never empty. -/
theorem tserAppendsTheSerialTable : Obligations.TserAppendsTheSerialTable := by
  refine fun s hw hs => ⟨fun hfull => fault_of (by decide) hs (runTser_full hw hfull), fun hfits => ?_⟩
  have hrun : runTser s = .ok (outWritten (serialTable s.entries) s) := runTser_fits hw hfits
  obtain ⟨hdata, holen, hrest⟩ := outWritten_facts _ s (outCap_lt hw) (.inr hfits)
  exact ⟨_, next_of (by decide) hs hrun, hdata, holen, hrest, runTser_keeps.frame hrun⟩

/-- Settles O27: TDES records the entries it reads in an empty table and leaves IOFF behind them, or runs out of bytes. -/
theorem tdesReadsTheSerialTable : Obligations.TdesReadsTheSerialTable := by
  refine fun s hs => ⟨fun hbad => fault_of (by decide) hs (runTdes_bad hbad), fun hlen hoff rs hn hok => ?_⟩
  have hcheck : checkIn s = .ok s := checkIn_of_le hlen hoff
  refine ⟨fun rest hin => ?_, fun missing hm hin => fault_of (by decide) hs (runTdes_short hn hok hcheck hin hm)⟩
  have hrun : runTdes s = .ok (tdesDone (rs.map RawEntry.entry) (rawTable rs).length s) := runTdes_raw hn hok hcheck hin
  obtain ⟨hioff, hrest⟩ := tdesDone_rest (rs.map RawEntry.entry) hoff hin
  refine ⟨_, next_of (by decide) hs hrun, ?_, tdesDone_codeAt _ _ s, hioff, hrest, runTdes_keeps.frame hrun⟩
  rw [tdesDone_order, List.map_map]
  rfl

end Sys2Proof.Proofs
end

section
/-!
PROOFS, the family of 43_tree_builder.md: the priority order (R152), the heap (R153 to R155), the three commands that build
the tree (R156 to R159, R163) and GENC with the table it makes (R160 to R162, R164). The rules of the heap, of the finished
tree and of the recorded table come first, the obligations after them.
-/
namespace Sys2Proof.Proofs

open Sys2Proof Sys2Proof.Machine Sys2Proof.Laws

/-! ### The priority order -/

theorem keyLt_iff_keyNat (s : State) (a b : NodeIdx) : keyLt s a b = true ↔ keyNat s a < keyNat s b := by
  rw [keyLt_eq, ltOf, decide_eq_true_eq]

theorem keyLt_iff_lex (s : State) (a b : NodeIdx) : keyLt s a b = true ↔
    (s.nodeRead a).weight.toNat < (s.nodeRead b).weight.toNat ∨
      ((s.nodeRead a).weight = (s.nodeRead b).weight ∧ a.toNat < b.toNat) := by
  rw [keyLt, decide_eq_true_eq, BitVec.lt_def, BitVec.lt_def]

/-- The number of the order is the 81-bit value `weight ++ index` (R112 (g)). -/
theorem toNat_weight_append (s : State) (a : NodeIdx) : ((s.nodeRead a).weight ++ a).toNat = keyNat s a := by
  rw [BitVec.toNat_append, ← Nat.shiftLeft_add_eq_or_of_lt a.isLt, Nat.shiftLeft_eq]
  rfl

/-- Of two different nodes the one whose key is not above comes before the other. -/
theorem keyLt_of_ne_of_le {s : State} {a b : NodeIdx} (hne : a ≠ b) (hle : keyNat s a ≤ keyNat s b) :
    keyLt s a b = true :=
  (keyLt_iff_keyNat s a b).2 (Nat.lt_of_le_of_ne hle fun e => hne (keyNat_inj s a b e))

/-- Of two different nodes exactly one comes before the other (R152). -/
theorem keyLt_iff_not_keyLt {s : State} {a b : NodeIdx} (hne : a ≠ b) : keyLt s a b = true ↔ keyLt s b a = false := by
  have hkey : keyNat s a ≠ keyNat s b := fun e => hne (keyNat_inj s a b e)
  rw [← Bool.not_eq_true, keyLt_iff_keyNat, keyLt_iff_keyNat]
  omega

/-! ### The heap -/

/-- The heap property of distinct nodes, as the laws of the heap state it. -/
theorem heapOrdered_iff_weakHeap (s : State) {h : List NodeIdx} (hn : h.Nodup) :
    HeapOrdered (keyLt s) h ↔ WeakHeap (keyAt (keyNat s) h) h.length := by
  rw [keyLt_eq]
  exact HeapOrdered_iff (keyNat s) (keyNat_inj s) hn

/-- heap_push adds the one index, whatever the order (R154). -/
theorem heapPush_perm (lt : NodeIdx → NodeIdx → Bool) (h : List NodeIdx) (n : NodeIdx) : (heapPush lt h n).Perm (n :: h) :=
  (siftUp_perm lt h.length h.length (h ++ [n])).trans (List.perm_append_singleton n h)

/-! ### TINIT and TMERGE -/

/-- TINIT leaves no internal node (R157). -/
theorem tinit_slot_internal (s : State) {n : Nat} (hn : 256 ≤ n) : (tinit s).slot n = none := by
  have hvalid := (tinit_forest s).internalSlots n hn
  rw [tinit_next] at hvalid
  exact Option.not_isSome_iff_eq_none.1 fun h => Nat.not_lt.2 hn (hvalid.1 h)

/-- The heap a combination leaves is the new node pushed on the rest, under the keys the new arena holds (R158). -/
theorem combine_heap (s : State) (a b : NodeIdx) (h : List NodeIdx) :
    (combine s a b h).heap = heapPush (keyLt (combine s a b h)) h s.next := by
  have hkey : keyLt (combine s a b h) = keyLt (takeNext h (setNode s.next (mergedNode s a b) s)) :=
    keyLt_congr (by simp [combine])
  rw [hkey, combine, setRoot_heap, pushNode_heap]
  rfl

/-- The weight of the new node is the exact sum, since no sum of weights wraps (R112 (b), R158). -/
theorem combine_weight {s : State} (h : s.Forest) (h2 : 2 ≤ s.heap.length) {a b : NodeIdx} {h' : List NodeIdx}
    (hm : tmerge s = combine s a b h') :
    (mergedNode s a b).weight.toNat = s.slotWeight a.toNat + s.slotWeight b.toNat := by
  have hforest : (combine s a b h').Forest := hm ▸ tmerge_forest h
  have hnew : (combine s a b h').slot s.next.toNat = some (mergedNode s a b) := by
    rw [combine_slots h h2, if_pos rfl]
  obtain ⟨-, -, hl, hr, -, -, hw⟩ := hforest.internalShape _ _ h.nextRange.1 hnew
  have hold : ∀ m, m < s.next.toNat → (combine s a b h').slotWeight m = s.slotWeight m := fun m hm =>
    slotWeight_congr (by rw [combine_slots h h2, if_neg (Nat.ne_of_lt hm)])
  rw [hw, hold _ hl, hold _ hr]
  rfl

/-- TMERGEs in a row are their effect iterated. -/
theorem runMany_tmerge (k : Nat) : ∀ s : State, runMany (List.replicate k .tmerge) s = .ok (tmerge^[k] s) := by
  induction k with
  | zero => intro s; rfl
  | succ k ih =>
    intro s
    rw [List.replicate_succ, Function.iterate_succ_apply]
    exact ih (tmerge s)

/-! ### The finished tree -/

theorem tbuild_slot (s : State) (c : Symbol) :
    (tbuild s).slot c.toNat = if 0 < s.freqAt c then some (leafNode (s.freqAt c)) else none := by
  obtain ⟨-, -, -, hleaf, -, -⟩ := tbuild_spec s
  rw [hleaf c.toNat c.isLt, tinit_slot]

/-- HSZ and the internal nodes together are as many as the present symbols (R156). -/
theorem tbuild_count (s : State) : (tbuild s).heap.length + ((tbuild s).next.toNat - 256) = s.present.length := by
  rw [(tbuild_spec s).1.count, tbuild_leafCount]

/-- Without a present symbol there is no node (R156). -/
theorem tbuild_of_absent {s : State} (h : s.present.length = 0) :
    (tbuild s).heap = [] ∧ (tbuild s).rv = false ∧ (tbuild s).root = 0 ∧ (tbuild s).next = 256 := by
  obtain ⟨hforest, ⟨hrv, -, hroot⟩, -, -, -, -⟩ := tbuild_spec s
  have hcount := tbuild_count s
  have hge : 256 ≤ (tbuild s).next.toNat := hforest.nextRange.1
  have hempty : (tbuild s).heap = [] := List.eq_nil_of_length_eq_zero (by omega)
  have hnot : (tbuild s).rv = false := Bool.eq_false_of_not_eq_true fun ht => by
    have := hrv.1 ht
    omega
  refine ⟨hempty, hnot, hroot hnot, BitVec.eq_of_toNat_eq ?_⟩
  show (tbuild s).next.toNat = 256
  omega

/-- With a present symbol one root remains, and RV and ROOT show it (R159, R163). -/
theorem tbuild_root {s : State} (h : 1 ≤ s.present.length) :
    (tbuild s).heap = [(tbuild s).root] ∧ (tbuild s).rv = true := by
  obtain ⟨-, ⟨hrv, hroot, -⟩, hle, -, hne, -⟩ := tbuild_spec s
  have hsome : (tbuild s).heap ≠ [] := hne (List.ne_nil_of_length_pos (by rw [tinit_count]; exact h))
  have hone : (tbuild s).heap.length = 1 := by
    have := List.length_pos_iff.2 hsome
    omega
  have ht : (tbuild s).rv = true := hrv.2 hone
  obtain ⟨r, hr⟩ := List.length_eq_one_iff.1 hone
  have := hroot ht
  rw [hr] at this ⊢
  exact ⟨by simpa using this, ht⟩

/-- Every present symbol but one costs a merge (R156). -/
theorem tbuild_next {s : State} (h : 1 ≤ s.present.length) : (tbuild s).next.toNat = 255 + s.present.length := by
  have hcount := tbuild_count s
  have hge := (tbuild_spec s).1.nextRange.1
  rw [(tbuild_root h).1, List.length_singleton] at hcount
  omega

/-- The root weighs what all symbols occur. -/
theorem tbuild_root_weight {s : State} (h : 1 ≤ s.present.length) :
    (tbuild s).slotWeight (tbuild s).root.toNat = ((List.range 256).map fun c => (s.freqAt (BitVec.ofNat 8 c)).toNat).sum := by
  have hweights := (tbuild_spec s).1.weights
  rw [(tbuild_root h).1, List.map_singleton, List.sum_singleton] at hweights
  rw [hweights]
  refine congrArg List.sum (List.map_congr_left fun c hc => ?_)
  have hc8 : (BitVec.ofNat 8 c).toNat = c := by
    rw [BitVec.toNat_ofNat]
    exact Nat.mod_eq_of_lt (List.mem_range.1 hc)
  rw [← tbuild_weight, hc8]

/-- A single present symbol is the root (R156). -/
theorem tbuild_root_single {s : State} {c : Symbol} (h : s.present = [c]) : (tbuild s).root = c.setWidth 9 := by
  have hk : s.present.length = 1 := by rw [h]; rfl
  have hroot := (tbuild_root (s := s) (by omega)).1
  have hnext := tbuild_next (s := s) (by omega)
  have hforest := (tbuild_spec s).1
  have hvalid : ((tbuild s).slot (tbuild s).root.toNat).isSome = true := hforest.heapValid _ (by rw [hroot]; simp)
  have hlt : (tbuild s).root.toNat < 256 := by
    have := valid_lt hforest hvalid
    omega
  rw [← toNat_setWidth8 hlt, tbuild_leaf, ← mem_present, h, List.mem_singleton] at hvalid
  refine BitVec.eq_of_toNat_eq ?_
  rw [toNat_setWidth9, ← hvalid, toNat_setWidth8 hlt]

/-- Two present symbols or more have an internal root. -/
theorem tbuild_root_internal {s : State} (h : 2 ≤ s.present.length) : 256 ≤ (tbuild s).root.toNat := by
  by_contra hlt
  have halone := root_leaf_alone (tbuild_spec s).1 (tbuild_root (s := s) (by omega)).1 (Nat.not_le.1 hlt)
  have hnext := tbuild_next (s := s) (by omega)
  rw [halone] at hnext
  have : (256#9).toNat = 255 + s.present.length := hnext
  rw [BitVec.toNat_ofNat] at this
  omega

/-- Then the root is the node of the last merge (R159). -/
theorem tbuild_root_many {s : State} (h : 2 ≤ s.present.length) : (tbuild s).root.toNat = 254 + s.present.length := by
  have hnewest := root_newest (tbuild_spec s).1 (tbuild_root (s := s) (by omega)).1 (tbuild_root_internal h)
  have hnext := tbuild_next (s := s) (by omega)
  omega

/-! ### GENC -/

/-- The state GENC leaves that recorded the entries `es` (R162). -/
def gencDone (es : List (Symbol × BitSeq)) (s : State) : State := putEntries es (clearTable s)

/-- A path from a valid node ends in a valid node. -/
theorem follow_valid {s : State} (h : s.Forest) (q : BitSeq) : ∀ {n m : NodeIdx}, (s.slot n.toNat).isSome = true →
    s.follow n q = some m → (s.slot m.toNat).isSome = true := by
  induction q with
  | nil => intro n m hn hq; exact Option.some.inj hq ▸ hn
  | cons b q ih =>
    intro n m hn hq
    simp only [State.follow] at hq
    cases hc : s.child n b with
    | none => simp [hc] at hq
    | some x =>
      rw [hc] at hq
      exact ih (parentOf_valid h (child_parentOf hc)).1 hq

section Recorded

variable {s : State} {es : List (Symbol × BitSeq)} (h : CodesOf s es)
include h

theorem gencDone_order : (gencDone es s).order = es.map Prod.fst := (putEntries_clear h.symbolsNodup s).1

theorem gencDone_entries : (gencDone es s).entries = es := (putEntries_clear h.symbolsNodup s).2.2.2

theorem gencDone_tableOk : (gencDone es s).TableOk :=
  putEntries_tableOk (fun e he => (h.length e he).2) (clearTable_tableOk s)

theorem gencDone_codeAt_iff (c : Symbol) (bits : BitSeq) : (gencDone es s).codeAt c = some bits ↔ (c, bits) ∈ es := by
  obtain ⟨-, hin, hout, -⟩ := putEntries_clear h.symbolsNodup s
  constructor
  · intro hcode
    have hc : c ∈ es.map Prod.fst := by
      by_contra hc
      exact absurd ((hout c hc).symm.trans hcode) (by simp)
    obtain ⟨e, he, rfl⟩ := List.mem_map.1 hc
    have : e.2 = bits := Option.some.inj ((hin e he).symm.trans hcode)
    exact this ▸ he
  · exact hin (c, bits)

theorem gencDone_valid_iff (c : Symbol) : ((gencDone es s).codeAt c).isSome = true ↔ (s.slot c.toNat).isSome = true := by
  rw [(gencDone_tableOk h).validIff, gencDone_order h, h.symbols]

/-- Below an internal root the code of a symbol is the path from the root to its leaf (R160). -/
theorem gencDone_codeAt_iff_path (hf : s.Forest) {r : NodeIdx} (hr : s.heap = [r]) (h256 : 256 ≤ r.toNat) (c : Symbol)
    (bits : BitSeq) : (gencDone es s).codeAt c = some bits ↔ s.follow r bits = some (c.setWidth 9) := by
  have hroot : r ∈ s.heap := by rw [hr]; exact List.mem_singleton_self r
  rw [gencDone_codeAt_iff h]
  constructor
  · exact h.path r hr h256 (c, bits)
  · intro hpath
    have hvalid := follow_valid hf bits (hf.heapValid r hroot) hpath
    rw [toNat_setWidth9, ← h.symbols] at hvalid
    obtain ⟨e, he, rfl⟩ := List.mem_map.1 hvalid
    have : bits = e.2 := follow_inj hf hroot bits hpath (h.path r hr h256 e he)
    exact this ▸ he

end Recorded

/-- On a finished tree GENC ends normally and writes the table only (R162). -/
theorem exec_genc_finished {s : State} (hs : s.Idle) (hf : s.Forest) (hle : s.heap.length ≤ 1) :
    ∃ es, exec .genc s = .next (gencDone es s) ∧ CodesOf s es ∧ Unchanged [.code, .order] s (gencDone es s) := by
  obtain ⟨es, hrun, hcodes⟩ := runGenc_ok hf hle
  exact ⟨es, next_of (by decide) hs hrun, hcodes, runGenc_keeps.frame hrun⟩

/-- The table of the counters names each present symbol once (R164 (a)). -/
theorem tableFor_length (s : State) : (tableFor s.freq).length = s.present.length := by
  have hperm : ((tableFor s.freq).map Prod.fst).Perm s.present :=
    (List.perm_ext_iff_of_nodup (tableFor_spec s).2.symbolsNodup (present_nodup s)).2 fun c => by
      rw [mem_tableFor, mem_present]
  rw [← hperm.length_eq, List.length_map]

/-- The one code of a single present symbol is one bit long (R161). -/
theorem tableFor_single {s : State} (h : s.present.length = 1) : ∀ e ∈ tableFor s.freq, e.2.length = 1 := by
  obtain ⟨c, hc⟩ := List.length_eq_one_iff.1 h
  have hroot : (tbuild s).root.toNat < 256 := by
    rw [tbuild_root_single hc, toNat_setWidth9]
    exact c.isLt
  rw [(tableFor_spec s).2.single _ (tbuild_root (by omega)).1 hroot]
  simp

/-- An entry of the table weighs the counter of its symbol. -/
theorem tableFor_cost (s : State) : (tableFor s.freq).map (fun e => (s.freqAt e.1).toNat * e.2.length) =
    (tableFor s.freq).map fun e => (tbuild s).slotWeight e.1.toNat * e.2.length :=
  List.map_congr_left fun e _ => by rw [tbuild_weight]

/-! ### The obligations -/

/-- Settles O29: the order is that of one number, which is the 81-bit value and differs for different nodes. -/
theorem priorityOrderIsTotal : Obligations.PriorityOrderIsTotal := by
  intro s a b
  refine ⟨keyLt_iff_lex s a b, ?_, ?_, keyLt_iff_not_keyLt, fun c => ?_⟩
  · rw [BitVec.lt_def, toNat_weight_append, toNat_weight_append, keyLt_iff_keyNat]
  · rw [← Bool.not_eq_true, keyLt_iff_keyNat]
    exact Nat.lt_irrefl _
  · rw [keyLt_iff_keyNat, keyLt_iff_keyNat, keyLt_iff_keyNat]
    exact Nat.lt_trans

/-- Settles O30: sifting up permutes the slots and restores the heap property. -/
theorem heapPushKeepsTheHeap : Obligations.HeapPushKeepsTheHeap := by
  intro s h n hnodup hord
  have hweak := (heapOrdered_iff_weakHeap s (List.nodup_cons.1 hnodup).2).1 hord
  have hperm := heapPush_perm (keyLt s) h n
  refine ⟨hperm, (heapOrdered_iff_weakHeap s (hperm.nodup_iff.2 hnodup)).2 ?_⟩
  rw [keyLt_eq]
  exact (heapPush_spec (keyNat s) h n hweak).2

/-- Settles O31: the root of a heap is not above any member, and the members are distinct. -/
theorem heapPopRemovesTheLeast : Obligations.HeapPopRemovesTheLeast := by
  intro s h hne hnodup hord
  obtain ⟨a, h', hpop⟩ := heapPop_isSome (keyLt s) hne
  have hspec := hpop
  rw [keyLt_eq] at hspec
  obtain ⟨hperm, hleast, hweak⟩ := heapPop_spec (keyNat s) ((heapOrdered_iff_weakHeap s hnodup).1 hord) hspec
  obtain ⟨ha, hnodup'⟩ := List.nodup_cons.1 (hperm.nodup_iff.1 hnodup)
  refine ⟨a, h', hpop, heapPop_head _ hpop, hperm, fun b hb => ?_, (heapOrdered_iff_weakHeap s hnodup').2 hweak⟩
  exact keyLt_of_ne_of_le (fun e => ha (e ▸ hb)) (hleast b hb)

/-- Settles O32: TINIT cannot fault, and its effect on the arena and the heap is that of `tinit`. -/
theorem tinitInsertsTheLeaves : Obligations.TinitInsertsTheLeaves := fun s hs =>
  ⟨tinit s, next_of (by decide) hs rfl, tinit_slot s, fun _ => tinit_slot_internal s, tinit_heap_pushed s, tinit_heap s,
    (tinit_forest s).heapOrdered, tinit_next s, tinit_rootShown s, runTinit_keeps.frame rfl⟩

/-- Settles O33: with two nodes or more TMERGE is the combination of the two nodes heap_pop removes. -/
theorem tmergeCombinesTheTwoLeast : Obligations.TmergeCombinesTheTwoLeast := by
  refine fun s hs => ⟨fun hsmall => ?_, fun h2 hforest => ?_⟩
  · exact next_of (by decide) hs (congrArg Except.ok (tmerge_small hsmall))
  obtain ⟨a, b, h1, h', hpop1, hpop2, -, hab, hleast, hm, -⟩ := tmerge_pops hforest h2
  have hrun : runTmerge s = .ok (combine s a b h') := congrArg Except.ok hm
  have hheap := combine_heap s a b h'
  refine ⟨combine s a b h', a, b, h1, h', next_of (by decide) hs hrun, hpop1, hpop2, hab, hleast,
    ⟨(mergedNode s a b).weight, ?_, combine_weight hforest h2 hm⟩, fun n hn => ?_, combine_next hforest h2 a b h', hheap,
    ?_, setRoot_rootShown _, runTmerge_keeps.frame hrun⟩
  · rw [combine_slots hforest h2, if_pos rfl]
    rfl
  · rw [combine_slots hforest h2, if_neg hn]
  · rw [hheap]
    exact heapPush_perm _ h' s.next

/-- Settles O34: the loop of TBUILD merges until one node is left, and TINIT pushes one node for each present symbol. -/
theorem tbuildIsTinitAndMerges : Obligations.TbuildIsTinitAndMerges := by
  intro s hs
  have hrun : runTbuild s = .ok (tbuild s) := rfl
  obtain ⟨-, -, hle, -, -, hiter⟩ := tbuild_spec s
  rw [tinit_count] at hiter
  refine ⟨tbuild s, next_of (by decide) hs hrun, execMany_ok _ hs (by simp) ?_, ?_⟩
  · rw [hiter]
    exact runMany_tmerge _ (tinit s)
  · exact next_of (by decide) (idle_of_ok (i := .tbuild) hs hrun) (congrArg Except.ok (tmerge_small (by omega)))

/-- Settles O35: TBUILD cannot fault, and the tree it leaves is that of `tbuild`. -/
theorem tbuildFinishesTheTree : Obligations.TbuildFinishesTheTree := fun s hs =>
  ⟨tbuild s, next_of (by decide) hs rfl, (tbuild_spec s).1, tbuild_slot s, tbuild_of_absent,
    fun h => ⟨(tbuild_root h).1, (tbuild_root h).2, tbuild_next h, tbuild_root_weight h⟩,
    fun _ => tbuild_root_single, tbuild_root_many⟩

/-- Settles O36: with one root at most GENC records the entries of `CodesOf` in an empty table; with more it raises
PRECOND. -/
theorem gencRecordsThePaths : Obligations.GencRecordsThePaths := by
  intro s hs hforest
  refine ⟨fun h2 => fault_of (by decide) hs (runGenc_unfinished h2), fun h0 => ?_, fun r hr hleaf => ?_,
    fun r hr h256 => ?_⟩
  · have hrun : runGenc s = .ok (clearTable s) := by rw [runGenc, h0]
    exact ⟨clearTable s, next_of (by decide) hs hrun, clearTable_order s, fun c => by simp, runGenc_keeps.frame hrun⟩
  · obtain ⟨es, hexec, hcodes, hframe⟩ := exec_genc_finished hs hforest (by rw [hr]; exact Nat.le_refl 1)
    exact ⟨_, hexec, (gencDone_entries hcodes).trans (hcodes.single r hr hleaf), gencDone_tableOk hcodes, hframe⟩
  · obtain ⟨es, hexec, hcodes, hframe⟩ := exec_genc_finished hs hforest (by rw [hr]; exact Nat.le_refl 1)
    refine ⟨_, hexec, gencDone_codeAt_iff_path hcodes hforest hr h256, ?_, gencDone_tableOk hcodes, hframe⟩
    rw [gencDone_entries hcodes]
    exact hcodes.ordered

/-- Settles O37: TBUILD leaves one root, and GENC records the entries of `tableFor`, which meet `CodesOf`. -/
theorem generatedTablesArePrefixFree : Obligations.GeneratedTablesArePrefixFree := by
  intro s hs
  have hbuild : runTbuild s = .ok (tbuild s) := rfl
  obtain ⟨hgenc, hcodes⟩ := tableFor_spec s
  have hidle : (tbuild s).Idle := idle_of_ok (i := .tbuild) hs hbuild
  have hentries := gencDone_entries hcodes
  refine ⟨tbuild s, gencDone (tableFor s.freq) (tbuild s), next_of (by decide) hs hbuild, next_of (by decide) hidle hgenc,
    idle_of_ok (i := .genc) hidle hgenc, ⟨?_, fun c => ?_⟩, ?_⟩
  · rw [gencDone_order hcodes, List.length_map, tableFor_length]
  · rw [gencDone_valid_iff hcodes, tbuild_leaf]
  rw [hentries]
  have hroot : 2 ≤ s.present.length → (tbuild s).heap = [(tbuild s).root] := fun h2 => (tbuild_root (by omega)).1
  refine ⟨prefixFree_of_ordered hcodes.ordered, fun h2 => hcodes.kraft _ (hroot h2) (tbuild_root_internal h2),
    hcodes.length, fun h2 e he => ?_, tableFor_single, fun h2 => ?_, rfl⟩
  · have hdepth := hcodes.depth _ (hroot h2) (tbuild_root_internal h2) e he
    have hnext := tbuild_next (s := s) (by omega)
    omega
  · rw [tableFor_cost]
    exact hcodes.cost _ (hroot h2) (tbuild_root_internal h2)

end Sys2Proof.Proofs
end

section
/-!
PROOFS, the family of 44_pipeline.md: counting, encoding and decoding step by step (R180 to R183), ENCODE and DECODE as their
unit commands in a row (R184, R185) with what they leave and raise, and that DECODE inverts ENCODE (R186). The rules of the
commands come first, the obligations after them.
-/
namespace Sys2Proof.Proofs

open Sys2Proof Sys2Proof.Machine Sys2Proof.Laws

/-! ### Buffers that were started again -/

theorem outData_of_empty {s : State} (h : s.olen = 0) : s.outData = [] :=
  List.eq_nil_of_length_eq_zero (by rw [outData_length, h]; rfl)

/-- What BIT holds after bits that fit were appended to an empty BIT. -/
theorem bitWritten_restartBit {bits : BitSeq} (s : State) (h : bits.length < 2 ^ 64) :
    (bitWritten bits (restartBit s)).bitData = bits ∧ (bitWritten bits (restartBit s)).blen.toNat = bits.length := by
  have hzero : (restartBit s).blen.toNat = 0 := rfl
  have hempty : (restartBit s).bitData = [] := List.eq_nil_of_length_eq_zero (by rw [bitData_length, hzero])
  have hroom : (restartBit s).blen.toNat + bits.length < 2 ^ 64 := by rw [hzero, Nat.zero_add]; exact h
  rw [bitWritten_bitData _ _ hroom, bitWritten_blen _ _ hroom, hempty, hzero, Nat.zero_add, List.nil_append]
  exact ⟨rfl, rfl⟩

/-- Appending to an empty BIT fits exactly where the bits are no more than BIT_CAP (R72). -/
theorem bitAppendAll_restartBit {s : State} (hw : s.params.wf = true) (bits : BitSeq) :
    bitAppendAll bits (restartBit s) =
      if bits.length ≤ s.params.bitCap then .ok (bitWritten bits (restartBit s)) else raise .capacity := by
  have hzero : (restartBit s).blen.toNat = 0 := rfl
  rw [bitAppendAll_eq bits (restartBit s) (bitCap_lt hw), restartBit_params, hzero, Nat.zero_add]
  refine if_congr ⟨?_, .inr⟩ rfl rfl
  rintro (rfl | h)
  · exact Nat.zero_le _
  · exact h

/-! ### FCNT -/

theorem runFcnt_long {s : State} (h : s.params.inCap < s.ilen.toNat) : runFcnt s = raise .precond :=
  (runFcnt_eq s).trans (if_pos h)

theorem runFcnt_counts {s : State} (h : s.ilen.toNat ≤ s.params.inCap) :
    runFcnt s = .ok (setFreq (countsOf s.inData) s) :=
  (runFcnt_eq s).trans (if_neg (Nat.not_lt.2 h))

/-- The counters of an input are its occurrence counts: no count reaches 2^64, since ILEN has 64 bits (R180). -/
theorem freqAt_countsOf {s t : State} (h : t.freq = countsOf s.inData) (c : Symbol) :
    (t.freqAt c).toNat = s.inData.count c := by
  have hlen : s.inData.length < 2 ^ 64 := by rw [inData_length]; exact s.ilen.isLt
  have hcount : s.inData.count c ≤ s.inData.length := List.count_le_length
  simp only [State.freqAt, h]
  rw [countsOf_get, BitVec.toNat_ofNat, Nat.mod_eq_of_lt (Nat.lt_of_le_of_lt hcount hlen)]

/-! ### BGEN -/

theorem runBgen_long {s : State} (h : s.params.inCap < s.ilen.toNat) : runBgen s = raise .precond := by
  rw [runBgen, checkLen_of_gt h, raise_bind]

section Bgen

variable {s : State} (hw : s.params.wf = true) (hlen : s.ilen.toNat ≤ s.params.inCap) (ht : s.TableOk)
include hw hlen ht

/-- Where every byte has a code, BGEN fits exactly where the codes do (R181). -/
theorem runBgen_fits (hcov : ∀ c ∈ s.inData, c ∈ s.order)
    (h : (encodeBits s.entries s.inData).length ≤ s.params.bitCap) :
    runBgen s = .ok (bitWritten (encodeBits s.entries s.inData) (restartBit s)) :=
  (runBgen_covered (bitCap_lt hw) hlen ht hcov).trans (if_pos h)

theorem runBgen_full (hcov : ∀ c ∈ s.inData, c ∈ s.order)
    (h : s.params.bitCap < (encodeBits s.entries s.inData).length) : runBgen s = raise .capacity :=
  (runBgen_covered (bitCap_lt hw) hlen ht hcov).trans (if_neg (Nat.not_le.2 h))

/-- At the first byte without a code BGEN has appended the codes before it, or run out of room (R181). -/
theorem runBgen_uncovered {pre post : List Byte} {c : Byte} (hin : s.inData = pre ++ c :: post)
    (hpre : ∀ d ∈ pre, d ∈ s.order) (hc : c ∉ s.order) :
    runBgen s = if (encodeBits s.entries pre).length ≤ s.params.bitCap then raise .precond else raise .capacity := by
  have hnone : (restartBit s).codeAt c = none := Option.not_isSome_iff_eq_none.1 fun h => hc ((ht.validIff c).1 h)
  have hsome : ∀ d ∈ pre, ((restartBit s).codeAt d).isSome = true := fun d hd => (ht.validIff d).2 (hpre d hd)
  have hbits : pre.flatMap (restartBit s).codeRead = encodeBits s.entries pre := flatMap_codeRead ht hpre
  rw [runBgen, checkLen_of_le hlen, ok_bind, hin, bgenLoop_uncovered pre c post _ hsome hnone, hbits,
    bitAppendAll_restartBit hw]
  split <;> rfl

end Bgen

/-! ### The lookup -/

/-- The lookup fails exactly where no entry has the candidate's bits (R182). -/
theorem matchCode_none_iff {s : State} (h : s.TableOk) (cand : BitSeq) :
    matchCode s cand = none ↔ ∀ e ∈ s.entries, e.2 ≠ cand := by
  rw [matchCode_none h]
  constructor
  · intro hno e he heq
    obtain ⟨c, hc⟩ := MatchIn_of_code ⟨e, he, heq⟩
    exact hno c hc
  · exact fun hno c hc => hno (c, cand) (MatchIn_mem hc) rfl

/-! ### BDEC -/

theorem Decodes_many {es : List (Symbol × BitSeq)} (h : 2 ≤ es.length) {bits : BitSeq} {n : Nat} {out : List Symbol} :
    Decodes es bits n out ↔ out.length = n ∧ BeginsWith es bits out := by
  match es with
  | [] => simp at h
  | [_] => simp at h
  | _ :: _ :: _ => exact Iff.rfl

theorem runBdec_single_full {s : State} (hw : s.params.wf = true) {c : Symbol} (ho : s.order = [c]) (hpos : 0 < s.len.toNat)
    (h : s.params.outCap < s.olen.toNat + s.len.toNat) : runBdec s = raise .capacity := by
  rw [runBdec_single ho, outAppendAll_eq _ _ (outCap_lt hw), List.length_replicate, if_neg]
  rintro (h0 | h0)
  · rw [List.replicate_eq_nil_iff] at h0
    omega
  · omega

section Bdec

variable {s : State} (ht : s.TableOk) (hmany : 2 ≤ s.order.length) (hblen : s.blen.toNat ≤ s.params.bitCap)
include ht hmany hblen

/-- BDEC over bits that begin with code words of `out` appends `out` and goes on behind them (R183). -/
theorem runBdec_begins {out : List Symbol} {chunks : List BitSeq} {rest : BitSeq}
    (hsplit : s.bitData = chunks.flatten ++ rest) (hemits : List.Forall₂ (Emits s.entries) out chunks)
    (hle : out.length ≤ s.len.toNat) :
    runBdec s = outAppendAll out s >>= bdecLoop rest (s.len.toNat - out.length) [] := by
  have hloop := bdecLoop_words hemits ht rfl rest (s.len.toNat - out.length)
  rw [Nat.add_sub_cancel' hle] at hloop
  rw [runBdec_many hmany hblen, hsplit, hloop]

/-- The bits run out before LEN symbols were found (R183, R213). -/
theorem runBdec_exhausts (hw : s.params.wf = true) {out : List Symbol} (h : Exhausts s.entries s.bitData out)
    (hlt : out.length < s.len.toNat) (hfits : out = [] ∨ s.olen.toNat + out.length ≤ s.params.outCap) :
    runBdec s = raise .corruptStream := by
  obtain ⟨chunks, rest, hsplit, hemits, hnone⟩ := h
  have hentries : (outWritten out s).entries = s.entries := entries_congr (by simp) (by simp)
  have htable : (outWritten out s).TableOk := TableOk_congr ht (by simp) (by simp)
  rw [runBdec_begins ht hmany hblen hsplit hemits (Nat.le_of_lt hlt), outAppendAll_eq _ _ (outCap_lt hw), if_pos hfits,
    ok_bind]
  refine bdecLoop_noMatch htable (Nat.sub_pos_of_lt hlt) rest [] fun p hp hpre d => ?_
  rw [hentries, List.nil_append]
  exact hnone p hp hpre d

/-- OUT fills before LEN symbols were found (R183, R216). -/
theorem runBdec_overflows (hw : s.params.wf = true) {out : List Symbol} (h : BeginsWith s.entries s.bitData out)
    (hle : out.length ≤ s.len.toNat) (hne : out ≠ []) (hfull : s.params.outCap < s.olen.toNat + out.length) :
    runBdec s = raise .capacity := by
  obtain ⟨chunks, rest, hsplit, hemits⟩ := h
  rw [runBdec_begins ht hmany hblen hsplit hemits hle, outAppendAll_eq _ _ (outCap_lt hw),
    if_neg (not_or.2 ⟨hne, Nat.not_le.2 hfull⟩), raise_bind]

end Bdec

/-- Where the table makes `out` of the bits, BDEC is the append of `out` (R183). The bits matter only to a table of two
entries or more. -/
theorem runBdec_decodes {s : State} (ht : s.TableOk) {bits : BitSeq} {out : List Symbol}
    (hbits : 2 ≤ s.order.length → s.bitData = bits ∧ s.blen.toNat ≤ s.params.bitCap)
    (h : Decodes s.entries bits s.len.toNat out) : runBdec s = outAppendAll out s := by
  match ho : s.order with
  | [] =>
    rw [State.entries, ho] at h
    have hout : out = [] := h
    rw [runBdec_empty ho, hout]
    rfl
  | [c] =>
    rw [State.entries, ho] at h
    have hout : out = List.replicate s.len.toNat c := h
    rw [runBdec_single ho, hout]
  | _ :: _ :: _ =>
    have hmany : 2 ≤ s.order.length := by rw [ho]; simp
    obtain ⟨hdata, hblen⟩ := hbits hmany
    obtain ⟨hlen, chunks, tail, hsplit, hemits⟩ := (Decodes_many (by rw [entries_length]; exact hmany)).1 h
    rw [runBdec_begins ht hmany hblen (hdata.trans hsplit) hemits (Nat.le_of_eq hlen), hlen, Nat.sub_self]
    cases outAppendAll out s with
    | error e => rfl
    | ok t => exact bdecLoop_done tail [] t

theorem runBdec_fits {s : State} (hw : s.params.wf = true) (ht : s.TableOk) {bits : BitSeq} {out : List Symbol}
    (hbits : 2 ≤ s.order.length → s.bitData = bits ∧ s.blen.toNat ≤ s.params.bitCap)
    (h : Decodes s.entries bits s.len.toNat out) (hfits : out = [] ∨ s.olen.toNat + out.length ≤ s.params.outCap) :
    runBdec s = .ok (outWritten out s) := by
  rw [runBdec_decodes ht hbits h, outAppendAll_eq _ _ (outCap_lt hw), if_pos hfits]

/-! ### A command as its unit commands -/

theorem runMany_singleton (i : Instr) (s : State) : runMany [i] s = runOf i s := by
  rw [runMany]
  cases runOf i s <;> rfl

/-- A command whose pseudocode is that of a list of commands ends as the list does: in the same state where that ends
normally, with the same cause where that ends faulted (R96, R113). -/
theorem ends_as_units {i : Instr} {l : List Instr} {s u t : State} (hi : i ≠ .sreset) (hl : .sreset ∉ l) (hs : s.Idle)
    (hu : u.Idle) (hrun : runOf i s = runMany l u) (h : execMany l u = .next t) :
    (t.fault = false → exec i s = .next t) ∧ ∀ c, t.FaultedWith c → EntersFault i s c := by
  rcases execMany_next l hu hl h with ⟨hnormal, hok⟩ | ⟨d, hraise, -, hfault, herr⟩
  · refine ⟨fun _ => next_of hi hs (hrun.trans hok), fun c ⟨_, hfault, _⟩ => ?_⟩
    rw [hnormal] at hfault
    cases hfault
  · refine ⟨fun hnormal => ?_, fun c ⟨_, _, herr'⟩ => ?_⟩
    · rw [hnormal] at hfault
      cases hfault
    · rw [errCode_inj (herr'.symm.trans herr)]
      exact fault_of hi hs (hrun.trans hraise)

/-! ### ENCODE -/

/-- The state ENCODE's unit commands begin in: LEN is ILEN, OLEN is 0 (R184). -/
def encodeStart (s : State) : State := restartOut (setLen s.ilen s)

theorem runEncode_units {s : State} (h : s.ilen.toNat ≤ s.params.inCap) :
    runEncode s = runMany [.fcnt, .tbuild, .genc, .bgen, .pack] (encodeStart s) := by
  have hpack : runMany [.pack] = runPack := funext (runMany_singleton .pack)
  have hunits : runMany [.fcnt, .tbuild, .genc, .bgen, .pack] (encodeStart s) =
      (runFcnt (encodeStart s) >>= fun s => runTbuild s >>= fun s => runGenc s >>= fun s => runBgen s >>=
        runMany [.pack]) := rfl
  rw [hunits, hpack, runEncode, checkLen_of_le h]
  rfl

/-- ENCODE's pseudocode has room for the bits in BIT and for the bytes in OUT. -/
def EncodeFits (s : State) : Prop :=
  (inBits s).length ≤ s.params.bitCap ∧ ceil8 (inBits s).length ≤ s.params.outCap

theorem runEncode_long {s : State} (hw : s.params.wf = true) (h : s.params.inCap < s.ilen.toNat) :
    runEncode s = raise .precond :=
  (runEncode_eq s (outCap_lt hw) (bitCap_lt hw)).trans (if_pos h)

theorem runEncode_full {s : State} (hw : s.params.wf = true) (hlen : s.ilen.toNat ≤ s.params.inCap) (h : ¬ EncodeFits s) :
    runEncode s = raise .capacity := by
  rw [runEncode_eq s (outCap_lt hw) (bitCap_lt hw), if_neg (Nat.not_lt.2 hlen)]
  exact if_neg h

theorem runEncode_fits {s : State} (hw : s.params.wf = true) (hlen : s.ilen.toNat ≤ s.params.inCap) (h : EncodeFits s) :
    runEncode s = .ok (encoded s) := by
  rw [runEncode_eq s (outCap_lt hw) (bitCap_lt hw), if_neg (Nat.not_lt.2 hlen)]
  exact if_pos h

/-- ENCODE ends normally in one way only. -/
theorem runEncode_ok {s t : State} (hw : s.params.wf = true) (h : runEncode s = .ok t) : EncodeFits s ∧ t = encoded s := by
  by_cases hlen : s.ilen.toNat ≤ s.params.inCap
  · by_cases hfits : EncodeFits s
    · rw [runEncode_fits hw hlen hfits] at h
      cases h
      exact ⟨hfits, rfl⟩
    · rw [runEncode_full hw hlen hfits] at h
      cases h
  · rw [runEncode_long hw (Nat.lt_of_not_le hlen)] at h
    cases h

/-- ENCODE leaves the table of the input (R184). -/
theorem encoded_entries (s : State) : (encoded s).entries = inTable s :=
  (entries_congr (by simp [encoded, encodeStart]) (by simp [encoded, encodeStart])).trans (coded_entries (encodeStart s))

theorem encoded_tableOk (s : State) : (encoded s).TableOk :=
  TableOk_congr (coded_tableOk (encodeStart s)) (by simp [encoded, encodeStart]) (by simp [encoded, encodeStart])

theorem encoded_len (s : State) : (encoded s).len = s.ilen := by
  simp [encoded]

theorem encoded_freq (s : State) : (encoded s).freq = countsOf s.inData := by
  simp only [encoded, setPad_freq, outWritten_freq, coded_freq]
  rfl

theorem encoded_pad (s : State) : (encoded s).pad.toNat = padCount (inBits s).length := by
  have hp : padCount (inBits s).length < 8 := padCount_lt _
  rw [encoded, setPad_pad, BitVec.toNat_ofNat, Nat.mod_eq_of_lt (by omega)]

/-- ENCODE leaves the code bits in BIT (R184). -/
theorem encoded_bitData {s : State} (hw : s.params.wf = true) (h : EncodeFits s) : (encoded s).bitData = inBits s :=
  (bitData_congr (by simp [encoded, encodeStart]) (by simp [encoded, encodeStart])).trans
    (coded_bitData (encodeStart s) (bitCap_lt hw) h.1)

/-- ENCODE leaves the packed code bits, and nothing else, in OUT (R184). -/
theorem encoded_outData {s : State} (hw : s.params.wf = true) (h : EncodeFits s) :
    (encoded s).outData = packBytes (inBits s) ∧ (encoded s).olen.toNat = ceil8 (inBits s).length := by
  have hzero : (coded (encodeStart s)).olen = 0 := coded_olen _
  have hparams : (coded (encodeStart s)).params = s.params := coded_params _
  have hroom : (coded (encodeStart s)).olen.toNat + (packBytes (inBits s)).length ≤
      (coded (encodeStart s)).params.outCap := by
    rw [hzero, hparams, packBytes_length]
    exact (Nat.zero_add _).trans_le h.2
  obtain ⟨hdata, holen, -⟩ := outWritten_facts _ _ (hparams ▸ outCap_lt hw) (.inr hroom)
  rw [outData_of_empty hzero, List.nil_append] at hdata
  rw [hzero, packBytes_length] at holen
  exact ⟨hdata, holen.trans (Nat.zero_add _)⟩

/-! ### DECODE -/

/-- The state DECODE's BDEC begins in: OLEN is 0, and BIT holds the unpacked payload where the table has two entries or more
(R185). -/
def decodeReady (s : State) : State := if 2 ≤ s.order.length then unpackDone (restartOut s) else restartOut s

theorem decodeReady_many {s : State} (h : 2 ≤ s.order.length) : decodeReady s = unpackDone (restartOut s) := if_pos h

theorem decodeReady_few {s : State} (h : s.order.length < 2) : decodeReady s = restartOut s := if_neg (Nat.not_le.2 h)

@[simp] theorem decodeReady_olen (s : State) : (decodeReady s).olen = 0 := by
  unfold decodeReady
  split <;> simp [unpackDone]

theorem Unchanged_unpackDone (s : State) : Unchanged [.bit, .blen, .ioff] s (unpackDone s) :=
  Unchanged_trans (Unchanged_mono (Unchanged_restartBit s) (by decide))
    (Unchanged_trans (Unchanged_mono (Unchanged_bitWritten _ _) (by decide))
      (Unchanged_mono (Unchanged_setIoff _ _) (by decide)))

theorem Unchanged_decodeReady (s : State) : Unchanged [.bit, .blen, .ioff, .out, .olen] s (decodeReady s) := by
  have hstart : Unchanged [.bit, .blen, .ioff, .out, .olen] s (restartOut s) :=
    Unchanged_mono (Unchanged_restartOut s) (by decide)
  unfold decodeReady
  split
  · exact Unchanged_trans hstart (Unchanged_mono (Unchanged_unpackDone _) (by decide))
  · exact hstart

@[simp] theorem decodeReady_order (s : State) : (decodeReady s).order = s.order := Unchanged_decodeReady s .order (by decide)
@[simp] theorem decodeReady_code (s : State) : (decodeReady s).code = s.code := Unchanged_decodeReady s .code (by decide)
@[simp] theorem decodeReady_len (s : State) : (decodeReady s).len = s.len := Unchanged_decodeReady s .len (by decide)
@[simp] theorem decodeReady_params (s : State) : (decodeReady s).params = s.params :=
  Unchanged_decodeReady s .params (by decide)

theorem decodeReady_entries (s : State) : (decodeReady s).entries = s.entries := entries_congr (by simp) (by simp)

theorem decodeReady_tableOk {s : State} (h : s.TableOk) : (decodeReady s).TableOk := TableOk_congr h (by simp) (by simp)

theorem runDecode_units {s : State} (hlen : s.ilen.toNat ≤ s.params.inCap) (hoff : s.ioff.toNat ≤ s.ilen.toNat) :
    runDecode s = runMany ((if 2 ≤ s.order.length then [.unpack] else []) ++ [.bdec]) (restartOut s) := by
  have hbdec : runMany [.bdec] = runBdec := funext (runMany_singleton .bdec)
  have hdecode : runDecode s =
      ((if 2 ≤ s.order.length then runUnpack (restartOut s) else .ok (restartOut s)) >>= runBdec) := by
    refine (congrFun runDecode_eq s).trans ?_
    show (checkIn s >>= _) = _
    rw [checkIn_of_le hlen hoff]
    rfl
  rw [hdecode, ← hbdec]
  by_cases h2 : 2 ≤ s.order.length
  · rw [if_pos h2, if_pos h2]
    rfl
  · rw [if_neg h2, if_neg h2]
    rfl

section Decode

variable {s : State} (hw : s.params.wf = true) (hlen : s.ilen.toNat ≤ s.params.inCap) (hoff : s.ioff.toNat ≤ s.ilen.toNat)
include hw

theorem decodeReady_bits (hmany : 2 ≤ s.order.length)
    (hfit : keptBits (s.ilen.toNat - s.ioff.toNat) s.pad.toNat ≤ s.params.bitCap) :
    (decodeReady s).bitData = unpackBits s.inRest s.pad.toNat ∧
      (decodeReady s).blen.toNat ≤ (decodeReady s).params.bitCap := by
  rw [decodeReady_params, decodeReady_many hmany]
  exact ⟨unpackDone_bitData (s := restartOut s) hw hfit, (unpackDone_blen (s := restartOut s) hw hfit).trans_le hfit⟩

include hlen hoff

/-- UNPACK finds no room (R185, R216). -/
theorem runDecode_full (hmany : 2 ≤ s.order.length)
    (h : s.params.bitCap < keptBits (s.ilen.toNat - s.ioff.toNat) s.pad.toNat) : runDecode s = raise .capacity :=
  (runDecode_many (bitCap_lt hw) hlen hoff hmany).trans (if_pos h)

/-- Behind its checks and UNPACK, DECODE is BDEC (R185). -/
theorem runDecode_ready
    (hfit : 2 ≤ s.order.length → keptBits (s.ilen.toNat - s.ioff.toNat) s.pad.toNat ≤ s.params.bitCap) :
    runDecode s = runBdec (decodeReady s) := by
  have hbdec : runMany [.bdec] (decodeReady s) = runBdec (decodeReady s) := runMany_singleton .bdec _
  rw [runDecode_units hlen hoff, ← hbdec]
  by_cases hmany : 2 ≤ s.order.length
  · have hunpack : runOf .unpack (restartOut s) = .ok (unpackDone (restartOut s)) :=
      runUnpack_fits (s := restartOut s) hw hlen hoff (hfit hmany)
    rw [decodeReady_many hmany, if_pos hmany, List.singleton_append, runMany, hunpack, ok_bind]
  · rw [decodeReady_few (Nat.lt_of_not_le hmany), if_neg hmany, List.nil_append]

end Decode

/-! ### The obligations -/

/-- Settles O47: ENCODE left the table, LEN and PAD of its input, and its bytes are the packed code words, which the
table decodes since none of its codes begins another (`runDecode_encoded`). -/
theorem decodeInvertsEncode : Obligations.DecodeInvertsEncode := by
  intro s t u hw hs hexec hnormal hu hparams hoff hin hcode horder hlen hpad hilen hout
  obtain ⟨hfits, rfl⟩ := runEncode_ok hw (ok_of (i := .encode) (by decide) hs hexec hnormal)
  have hentries : u.entries = tableOfData s.inData := (entries_congr horder hcode).trans (encoded_entries s)
  have hrest : u.inRest = packBytes (inBits s) := by
    rw [State.inRest, hoff, ← (encoded_outData hw hfits).1, ← hin]
    rfl
  have hle : u.ioff.toNat ≤ u.ilen.toNat := by simp [hoff]
  have hdata : s.inData.length = s.ilen.toNat := inData_length s
  obtain ⟨v, hrun, hvout, hvolen⟩ := runDecode_encoded (data := s.inData) (hparams ▸ outCap_lt hw)
    (hparams ▸ bitCap_lt hw) hilen hle (TableOk_congr (encoded_tableOk s) horder hcode) hentries (hdata ▸ s.ilen.isLt)
    (by rw [hlen, encoded_len, hdata]) hrest (by rw [hpad]; exact encoded_pad s) (hparams ▸ hfits.1)
    (hdata.trans_le hout)
  exact ⟨v, next_of (by decide) hu hrun, hvout, BitVec.eq_of_toNat_eq (hvolen.trans hdata)⟩

/-- Settles O38: the counters are the occurrence counts, and those add up to the length. -/
theorem fcntCountsTheBytes : Obligations.FcntCountsTheBytes := by
  refine fun s hs => ⟨fun h => fault_of (by decide) hs (runFcnt_long h), fun h => ?_⟩
  have hrun := runFcnt_counts h
  have hcounts : ∀ c, ((setFreq (countsOf s.inData) s).freqAt c).toNat = s.inData.count c := freqAt_countsOf rfl
  refine ⟨_, next_of (by decide) hs hrun, hcounts, ?_, runFcnt_keeps.frame hrun⟩
  simp only [hcounts]
  rw [sum_counts, inData_length]

/-- Settles O39: the loop appends the codes of the bytes before the first one without a code. -/
theorem bgenConcatenatesTheCodes : Obligations.BgenConcatenatesTheCodes := by
  refine fun s hw hs ht => ⟨fun h => fault_of (by decide) hs (runBgen_long h), fun hlen => ⟨fun hcov hfits => ?_,
    fun hcov hfull => fault_of (by decide) hs (runBgen_full hw hlen ht hcov hfull),
    fun pre c post hin hpre hc => ⟨fun hfits => ?_, fun hfull => ?_⟩⟩⟩
  · have hrun := runBgen_fits hw hlen ht hcov hfits
    obtain ⟨hdata, hblen⟩ := bitWritten_restartBit s (Nat.lt_of_le_of_lt hfits (bitCap_lt hw))
    exact ⟨_, next_of (by decide) hs hrun, hdata, hblen, runBgen_keeps.frame hrun⟩
  · exact fault_of (by decide) hs ((runBgen_uncovered hw hlen ht hin hpre hc).trans (if_pos hfits))
  · exact fault_of (by decide) hs ((runBgen_uncovered hw hlen ht hin hpre hc).trans (if_neg (Nat.not_le.2 hfull)))

/-- Settles O40: the fold over ORDER keeps the last hit, and no code is longer than 255 bits. -/
theorem lookupFindsTheLastEntry : Obligations.LookupFindsTheLastEntry := by
  refine fun s cand ht => ⟨matchCode_iff ht cand, matchCode_none_iff ht cand, fun hlong => ?_⟩
  refine (matchCode_none_iff ht cand).2 fun e he heq => ?_
  have hshort : e.2.length ≤ 255 := entries_codeLength ht e he
  rw [heq] at hshort
  omega

/-- Settles O41: BDEC is the append of the symbols. -/
theorem bdecEmitsTheSymbols : Obligations.BdecEmitsTheSymbols := by
  intro s out hw hs ht hblen hdec hfits
  have hrun : runBdec s = .ok (outWritten out s) := runBdec_fits hw ht (fun hmany => ⟨rfl, hblen hmany⟩) hdec hfits
  obtain ⟨hdata, holen, hread⟩ := outWritten_facts out s (outCap_lt hw) hfits
  exact ⟨_, next_of (by decide) hs hrun, hdata, holen, hread, runBdec_keeps.frame hrun⟩

/-- Settles O42: a single entry overruns OUT, or BDEC of two entries or more refuses BLEN, runs out of bits, or fills OUT. -/
theorem bdecFaultsWhenBitsRunOut : Obligations.BdecFaultsWhenBitsRunOut := by
  refine fun s hw hs ht => ⟨fun c ho hpos hfull => fault_of (by decide) hs (runBdec_single_full hw ho hpos hfull),
    fun hmany => ⟨fun hbad => fault_of (by decide) hs (runBdec_bad hmany hbad), fun hblen => ⟨?_, ?_⟩⟩⟩
  · exact fun out hex hlt hfits => fault_of (by decide) hs (runBdec_exhausts ht hmany hblen hw hex hlt hfits)
  · exact fun out hbeg hle hne hfull => fault_of (by decide) hs (runBdec_overflows ht hmany hblen hw hbeg hle hne hfull)

/-- Settles O43: behind its check ENCODE's pseudocode is that of its unit commands. -/
theorem encodeIsItsUnitCommands : Obligations.EncodeIsItsUnitCommands :=
  fun s hs hlen _ h =>
    ends_as_units (i := .encode) (u := encodeStart s) (by decide) (by decide) hs hs (runEncode_units hlen) h

/-- Settles O44: the pseudocode raises PRECOND, raises CAPACITY, or leaves `encoded`. -/
theorem encodeGivesTheEncodedInput : Obligations.EncodeGivesTheEncodedInput := by
  intro s es bits hw hs hes hbits
  have htable : es = inTable s := hes
  have hcodes : bits = inBits s := by rw [hbits, hes, inBits, inTable]
  rw [htable, hcodes]
  refine ⟨fun h => fault_of (by decide) hs (runEncode_long hw h), fun hlen => ⟨fun hfits => ?_, fun hfull => ?_⟩⟩
  · have hrun := runEncode_fits hw hlen hfits
    obtain ⟨hdata, holen⟩ := encoded_outData hw hfits
    exact ⟨encoded s, next_of (by decide) hs hrun, hdata, holen, encoded_entries s, encoded_tableOk s,
      encoded_bitData hw hfits, encoded_len s, encoded_pad s, freqAt_countsOf (encoded_freq s), runEncode_keeps.frame hrun⟩
  · exact fault_of (by decide) hs (runEncode_full hw hlen hfull)

/-- Settles O45: behind its check DECODE's pseudocode is that of its unit commands. -/
theorem decodeIsItsUnitCommands : Obligations.DecodeIsItsUnitCommands := by
  refine fun s hs => ⟨fun h => fault_of (by decide) hs (runDecode_bad h), fun hlen hoff t h => ?_⟩
  have hno : Instr.sreset ∉ (if 2 ≤ s.order.length then [Instr.unpack] else []) ++ [.bdec] := by
    split <;> decide
  exact ends_as_units (i := .decode) (u := restartOut s) (by decide) hno hs hs (runDecode_units hlen hoff) h

/-- Settles O46: behind UNPACK DECODE is BDEC, which appends the symbols to an empty OUT. -/
theorem decodeGivesTheSymbols : Obligations.DecodeGivesTheSymbols := by
  intro s out hw hs ht hlen hoff hkept hdec hfits
  have hw' : (decodeReady s).params.wf = true := by rw [decodeReady_params]; exact hw
  have hroom : (decodeReady s).olen.toNat + out.length ≤ (decodeReady s).params.outCap := by
    rw [decodeReady_olen, decodeReady_params]
    exact (Nat.zero_add _).trans_le hfits
  have hbits : 2 ≤ (decodeReady s).order.length → (decodeReady s).bitData = unpackBits s.inRest s.pad.toNat ∧
      (decodeReady s).blen.toNat ≤ (decodeReady s).params.bitCap := by
    rw [decodeReady_order]
    exact fun hmany => decodeReady_bits hw hmany (hkept hmany)
  rw [← decodeReady_entries, ← decodeReady_len] at hdec
  have hbdec : runBdec (decodeReady s) = .ok (outWritten out (decodeReady s)) :=
    runBdec_fits hw' (decodeReady_tableOk ht) hbits hdec (.inr hroom)
  have hrun : runDecode s = .ok (outWritten out (decodeReady s)) := (runDecode_ready hw hlen hoff hkept).trans hbdec
  obtain ⟨hdata, holen, -⟩ := outWritten_facts out (decodeReady s) (outCap_lt hw') (.inr hroom)
  rw [outData_of_empty (decodeReady_olen s), List.nil_append] at hdata
  rw [decodeReady_olen] at holen
  refine ⟨_, next_of (by decide) hs hrun, hdata, holen.trans (Nat.zero_add _), fun hmany => ⟨?_, ?_, ?_⟩, fun hfew => ?_⟩
  · rw [outWritten_ioff, decodeReady_many hmany]
    rfl
  · rw [bitData_congr (outWritten_bit _ _) (outWritten_blen _ _)]
    exact (decodeReady_bits hw hmany (hkept hmany)).1
  · exact runDecode_keeps.frame hrun
  · rw [decodeReady_few hfew]
    exact Unchanged_trans (Unchanged_restartOut s) (Unchanged_outWritten out _)

/-- Settles O56: UNPACK finds no room, or DECODE ends as BDEC does with OLEN 0. -/
theorem decodeFaultsOnAShortPayload : Obligations.DecodeFaultsOnAShortPayload := by
  intro s hw hs ht hlen hoff
  have hw' : (decodeReady s).params.wf = true := by rw [decodeReady_params]; exact hw
  have ht' := decodeReady_tableOk ht
  have hroom : ∀ n, (decodeReady s).olen.toNat + n = n := fun n => by
    rw [decodeReady_olen]
    exact Nat.zero_add n
  refine ⟨fun c ho hfull => ?_, fun hmany => ⟨fun hfull => ?_, fun hkept => ?_⟩⟩
  · have hrun := runDecode_ready hw hlen hoff fun hmany => by simp [ho] at hmany
    refine fault_of (by decide) hs (hrun.trans (runBdec_single_full hw' ((decodeReady_order s).trans ho) ?_ ?_))
    · rw [decodeReady_len]
      omega
    · rw [hroom, decodeReady_params, decodeReady_len]
      exact hfull
  · exact fault_of (by decide) hs (runDecode_full hw hlen hoff hmany hfull)
  · have hrun := runDecode_ready hw hlen hoff fun _ => hkept
    obtain ⟨hbits, hblen⟩ := decodeReady_bits hw hmany hkept
    have hmany' : 2 ≤ (decodeReady s).order.length := by rw [decodeReady_order]; exact hmany
    rw [← hbits, ← decodeReady_entries, ← decodeReady_len, ← decodeReady_params]
    refine ⟨fun out hex hlt hfits => ?_, fun out hbeg hle hfull => ?_⟩
    · exact fault_of (by decide) hs (hrun.trans (runBdec_exhausts ht' hmany' hblen hw' hex hlt
        (.inr ((hroom _).trans_le hfits))))
    · have hne : out ≠ [] := List.ne_nil_of_length_pos (Nat.zero_lt_of_lt hfull)
      exact fault_of (by decide) hs (hrun.trans (runBdec_overflows ht' hmany' hblen hw' hbeg hle hne
        (by rw [hroom]; exact hfull)))

end Sys2Proof.Proofs
end

section
/-!
PROOFS, the family of 45_container.md: what COMPRESS leaves and raises (R200, R201), what DECOMPRESS hands to DECODE and so
what it gives and raises (R202, R213), that DECOMPRESS inverts COMPRESS (R203), and the empty input (R204). The rules of the
two commands come first, the obligations after them.
-/
namespace Sys2Proof.Proofs

open Sys2Proof Sys2Proof.Machine Sys2Proof.Laws

/-! ### COMPRESS -/

/-- COMPRESS's pseudocode has room for the code bits in BIT and for the blob in OUT. -/
def CompressFits (s : State) : Prop := (inBits s).length ≤ s.params.bitCap ∧ (inBlob s).length ≤ s.params.outCap

theorem runCompress_long {s : State} (hw : s.params.wf = true) (h : s.params.inCap < s.ilen.toNat) :
    runCompress s = raise .precond :=
  (runCompress_eq s (outCap_lt hw) (bitCap_lt hw)).trans (if_pos h)

theorem runCompress_full {s : State} (hw : s.params.wf = true) (hlen : s.ilen.toNat ≤ s.params.inCap)
    (h : ¬ CompressFits s) : runCompress s = raise .capacity := by
  rw [runCompress_eq s (outCap_lt hw) (bitCap_lt hw), if_neg (Nat.not_lt.2 hlen)]
  exact if_neg h

theorem runCompress_fits {s : State} (hw : s.params.wf = true) (hlen : s.ilen.toNat ≤ s.params.inCap)
    (h : CompressFits s) : runCompress s = .ok (compressed s) := by
  rw [runCompress_eq s (outCap_lt hw) (bitCap_lt hw), if_neg (Nat.not_lt.2 hlen)]
  exact if_pos h

/-- The blob of an empty input always fits: OUT holds at least its fifteen bytes (R9, R204). -/
theorem compressFits_empty {s : State} (hw : s.params.wf = true) (h : s.ilen = 0) : CompressFits s := by
  obtain ⟨-, ⟨hout, -⟩, -⟩ := Params_wf_bounds hw
  obtain ⟨-, hbits, hblob⟩ := inBlob_empty h
  rw [CompressFits, hbits, hblob]
  exact ⟨Nat.zero_le _, by simpa using hout⟩

/-! ### What DECOMPRESS hands to DECODE -/

/-- DECOMPRESS of `s` goes on as DECODE of `u`: `u` is `s` with LEN and PAD from the header, the table of the raw entries
`rs`, and IOFF behind that table, where `payload` begins (R202). -/
structure HandsToDecode (s u : State) (len pad : Nat) (rs : List RawEntry) (payload : List Byte) : Prop where
  run : runDecompress s = runDecode u
  frame : Unchanged [.len, .pad, .ioff, .code, .order] s u
  len : u.len.toNat = len
  pad : u.pad.toNat = pad
  ioff : u.ioff.toNat = 13 + (rawTable rs).length
  inRest : u.inRest = payload
  entries : u.entries = tableEntries rs
  tableOk : u.TableOk
  offset : u.ioff.toNat ≤ u.ilen.toNat

theorem exists_handsToDecode {s : State} {len pad : Nat} {rs : List RawEntry} {payload : List Byte}
    (hlen : s.ilen.toNat ≤ s.params.inCap) (hl : len < 2 ^ 64) (hp : pad < 256) (hn : rs.length < 65536)
    (hok : ∀ r ∈ rs, r.ok) (hin : s.inData = headerBytes s.params.magic len pad ++ (rawTable rs ++ payload)) :
    ∃ u, HandsToDecode s u len pad rs payload := by
  obtain ⟨u, h1, h2, h3, h4, h5, h6, h7, h8, h9⟩ := runDecompress_table hlen hl hp hn hok hin
  exact ⟨u, ⟨h1, h2, h3, h4, h5, h6, h7, h8, h9⟩⟩

section HandsToDecode

variable {s u : State} {len pad : Nat} {rs : List RawEntry} {payload : List Byte} (h : HandsToDecode s u len pad rs payload)
include h

theorem HandsToDecode.idle (hs : s.Idle) : u.Idle :=
  ⟨(h.frame .busy (by decide)).trans hs.1, (h.frame .fault (by decide)).trans hs.2⟩

theorem HandsToDecode.params : u.params = s.params := h.frame .params (by decide)

theorem HandsToDecode.ilen : u.ilen = s.ilen := h.frame .ilen (by decide)

theorem HandsToDecode.ilen_le (hlen : s.ilen.toNat ≤ s.params.inCap) : u.ilen.toNat ≤ u.params.inCap := by
  rw [h.ilen, h.params]
  exact hlen

theorem HandsToDecode.order_length : u.order.length = (tableEntries rs).length := by
  rw [← entries_length, h.entries]

theorem HandsToDecode.payload_length : u.ilen.toNat - u.ioff.toNat = payload.length := by
  rw [← inRest_length, h.inRest]

theorem HandsToDecode.next (hs : s.Idle) {t : State} (hexec : exec .decode u = .next t) (hnormal : t.fault = false) :
    exec .decompress s = .next t :=
  next_of (by decide) hs (h.run.trans (ok_of (i := .decode) (by decide) (h.idle hs) hexec hnormal))

theorem HandsToDecode.fault (hs : s.Idle) {c : Cause} (hfault : EntersFault .decode u c) : EntersFault .decompress s c :=
  fault_of (by decide) hs (h.run.trans (runOf_of_fault (i := .decode) (h.idle hs) hfault))

end HandsToDecode

/-- The entries of a blob's table, as they stand in the blob, are the table (R200). -/
theorem tableEntries_inTable (s : State) : tableEntries ((inTable s).map toRaw) = inTable s :=
  tableEntries_toRaw (inTable_spec s).symbolsNodup (inTable_len s).2

theorem inTable_raw_length (s : State) : ((inTable s).map toRaw).length < 65536 := by
  rw [List.length_map]
  exact (inTable_len s).1

/-! ### DECOMPRESS as its unit commands -/

/-- The tag read byte by byte (R202). -/
theorem inSlice_eq_magic {s : State} (h : ∀ k : Fin 4, s.inRead k.val = s.params.magic[k]) :
    s.inSlice 0 4 = s.params.magic.toList := by
  refine List.ext_getElem (by simp) fun k hk _ => ?_
  have hk4 : k < 4 := by simpa using hk
  simpa [State.inSlice] using h ⟨k, hk4⟩

/-- Behind its checks DECOMPRESS is TDES and DECODE (R202). -/
theorem runDecompress_units {s : State} (hlen : s.ilen.toNat ≤ s.params.inCap) (h13 : 13 ≤ s.ilen.toNat)
    (htag : s.inSlice 0 4 = s.params.magic.toList) :
    runDecompress s = runMany [.tdes, .decode] (readHeader s) := by
  have hdecode : runMany [.decode] = runDecode := funext (runMany_singleton .decode)
  have hunits : runMany [.tdes, .decode] (readHeader s) = (runTdes (readHeader s) >>= runMany [.decode]) := rfl
  rw [hunits, hdecode, runDecompress, checkLen_of_le hlen, ok_bind, if_neg (Nat.not_lt.2 h13), if_neg (not_not.2 htag)]

/-! ### A payload cut short -/

/-- Fewer bytes unpack to a beginning of the bits. -/
theorem unpackBits_prefix {l m : List Byte} (h : l <+: m) (p : Nat) : unpackBits l p <+: unpackBits m p := by
  obtain ⟨r, rfl⟩ := h
  have hkept : keptBits l.length p ≤ (l.flatMap bits8).length := by
    rw [flatMap_bits8_length, keptBits]
    omega
  have hmono : keptBits l.length p ≤ keptBits (l ++ r).length p := by
    rw [List.length_append, keptBits, keptBits]
    omega
  rw [unpackBits, unpackBits, List.flatMap_append, ← List.take_append_of_le_length hkept]
  exact List.take_prefix_take_left hmono

/-- Without the last byte the packed bits unpack to a proper beginning of them. -/
theorem unpackBits_packBytes_dropLast {bits : BitSeq} (hpos : 0 < bits.length) :
    unpackBits (packBytes bits).dropLast (padCount bits.length) <+: bits ∧
      (unpackBits (packBytes bits).dropLast (padCount bits.length)).length < bits.length := by
  have hprefix := unpackBits_prefix (List.dropLast_prefix (packBytes bits)) (padCount bits.length)
  rw [unpackBits_packBytes] at hprefix
  have hsum : bits.length + padCount bits.length = 8 * ceil8 bits.length := add_padCount bits.length
  refine ⟨hprefix, ?_⟩
  rw [unpackBits_length, List.length_dropLast, packBytes_length, keptBits]
  omega

/-- A proper beginning of the code words of an input gives fewer symbols than the input has, and then nothing matches: as
many code words would be all of them, since code words are unique. -/
theorem exhausts_of_cut {es : List (Symbol × BitSeq)} {data : List Byte} {bits : BitSeq}
    (hwords : List.Forall₂ (Emits es) data (data.map (codeOf es))) (hprefix : bits <+: encodeBits es data)
    (hlt : bits.length < (encodeBits es data).length) : ∃ out, Exhausts es bits out ∧ out.length < data.length := by
  obtain ⟨out, chunks, rest, hsplit, hemits, hle, hend⟩ := words_split es data.length bits
  have hne : out.length ≠ data.length := by
    intro hall
    obtain ⟨tail, htail⟩ := hprefix
    have hsame : chunks = data.map (codeOf es) := by
      refine words_unique hemits (x := rest ++ tail) (y := []) hwords hall ?_
      rw [List.append_nil, ← encodeBits_eq, ← htail, hsplit, List.append_assoc]
    rw [hsplit, hsame, ← encodeBits_eq, List.length_append] at hlt
    omega
  exact ⟨out, ⟨chunks, rest, hsplit, hemits, hend.resolve_left hne⟩, Nat.lt_of_le_of_ne hle hne⟩

/-- The code bits of the input of a block are code words of its table (R184). -/
theorem inBits_words (s : State) : List.Forall₂ (Emits (inTable s)) s.inData (s.inData.map (codeOf (inTable s))) := by
  obtain ⟨hprefixFree, hne, hnodup, -⟩ := tableOfData_prefixFree s.inData
  exact encode_words hprefixFree hne hnodup s.inData fun c hc => (mem_inTable s c).2 hc

/-- An input with an entry in its table has code bits. -/
theorem inBits_pos {s : State} (h : 0 < (inTable s).length) : 0 < (inBits s).length := by
  refine encodeBits_pos (inBits_words s) fun hdata => ?_
  obtain ⟨e, he⟩ := List.exists_mem_of_length_pos h
  have hmem : e.1 ∈ s.inData := (mem_inTable s e.1).1 (List.mem_map_of_mem he)
  rw [hdata] at hmem
  exact List.not_mem_nil hmem

/-- A blob with a payload, cut by one byte, is cut in the payload (R200). -/
theorem inBlob_dropLast {s : State} (h : 0 < (inBits s).length) :
    (inBlob s).dropLast = headerBytes s.params.magic s.ilen.toNat (padCount (inBits s).length) ++
      (rawTable ((inTable s).map toRaw) ++ (packBytes (inBits s)).dropLast) := by
  have hne : packBytes (inBits s) ≠ [] := by
    refine List.ne_nil_of_length_pos ?_
    rw [packBytes_length, ceil8]
    omega
  rw [inBlob_read, List.dropLast_append_of_ne_nil (List.append_ne_nil_of_right_ne_nil _ hne),
    List.dropLast_append_of_ne_nil hne]

/-! ### The obligations -/

/-- Settles O53: DECOMPRESS reads from the blob what COMPRESS put there and hands it to DECODE, which gives the input back
(`runDecode_encoded`). -/
theorem decompressInvertsCompress : Obligations.DecompressInvertsCompress := by
  intro s t u hw hs hexec hnormal hu hparams hin hulen hout
  obtain ⟨-, hfits, rfl⟩ := compress_inv hw hs hexec hnormal
  obtain ⟨hblob, -⟩ := compressed_facts s hw hfits
  rw [hblob, inBlob_read, ← hparams] at hin
  have hpad : padCount (inBits s).length < 256 := Nat.lt_of_lt_of_le (padCount_lt _) (by decide)
  obtain ⟨w, h⟩ := exists_handsToDecode hulen s.ilen.isLt hpad (inTable_raw_length s) (inTable_raw_ok s) hin
  have hwparams : w.params = s.params := h.params.trans hparams
  have hdata : s.inData.length = s.ilen.toNat := inData_length s
  obtain ⟨v, hrun, hvout, hvolen⟩ := runDecode_encoded (u := w) (data := s.inData) (hwparams ▸ outCap_lt hw)
    (hwparams ▸ bitCap_lt hw) (h.ilen_le hulen) h.offset h.tableOk (h.entries.trans (tableEntries_inTable s))
    (hdata ▸ s.ilen.isLt) (h.len.trans hdata.symm) h.inRest h.pad (hwparams ▸ hfits.1)
    (by rw [h.params, hdata]; exact hout)
  exact ⟨v, next_of (by decide) hu (h.run.trans hrun), hvout, BitVec.eq_of_toNat_eq (hvolen.trans hdata)⟩

/-- Settles O48: the pseudocode raises PRECOND, raises CAPACITY, or leaves `compressed`. -/
theorem compressGivesTheBlob : Obligations.CompressGivesTheBlob := by
  intro s es bits blob hw hs hes hbits hblob
  have htable : es = inTable s := hes
  have hcodes : bits = inBits s := by rw [hbits, hes, inBits, inTable]
  have hbytes : blob = inBlob s := by rw [hblob, hcodes, htable]; rfl
  rw [htable, hcodes, hbytes]
  refine ⟨fun h => fault_of (by decide) hs (runCompress_long hw h), fun hlen => ⟨fun hfits => ?_, fun hfull => ?_⟩⟩
  · have hrun := runCompress_fits hw hlen hfits
    obtain ⟨hdata, holen, hentries, htableOk, hbit, hl, hpad⟩ := compressed_facts s hw hfits
    exact ⟨compressed s, next_of (by decide) hs hrun, hdata, holen, hentries, htableOk, hbit, hl, hpad,
      runCompress_keeps.frame hrun⟩
  · exact fault_of (by decide) hs (runCompress_full hw hlen hfull)

/-- Settles O51: behind the header TDES runs out of bytes. -/
theorem tablesCutShortAreCorrupt : Obligations.TablesCutShortAreCorrupt := by
  intro s len pad table missing rs hs hlen hl hin hn hok hcut hmissing
  obtain ⟨h13, -, hheader, hrest⟩ := header_read hl hin
  have hcheck : checkIn (readHeader s) = .ok (readHeader s) := by
    rw [hheader]
    exact checkIn_of_le hlen h13
  have htdes : runTdes (readHeader s) = raise .corruptStream :=
    runTdes_short hn hok hcheck (hrest.symm ▸ hcut) hmissing
  refine fault_of (by decide) hs ((runDecompress_header hl hlen hin).trans ?_)
  rw [htdes, raise_bind]

/-- Settles O52: the symbols are those DECODE gives of what DECOMPRESS hands to it. -/
theorem decompressGivesTheSymbols : Obligations.DecompressGivesTheSymbols := by
  intro s len pad rs payload out hw hs hlen hl hp hn hok hin hkept hdec hfits
  obtain ⟨u, h⟩ := exists_handsToDecode hlen hl hp hn hok hin
  have hkept' : 2 ≤ u.order.length → 8 * (u.ilen.toNat - u.ioff.toNat) - u.pad.toNat ≤ u.params.bitCap := by
    rw [h.order_length, h.payload_length, h.pad, h.params]
    exact hkept
  rw [← h.entries, ← h.inRest, ← h.len, ← h.pad] at hdec
  obtain ⟨t, hexec, hdata, holen, hmany, hfew⟩ := decodeGivesTheSymbols u out (h.params ▸ hw) (h.idle hs) h.tableOk
    (h.ilen_le hlen) h.offset hkept' hdec (h.params ▸ hfits)
  have hdecode : Unchanged (writtenBy .decode) u t := by
    rcases Nat.lt_or_ge u.order.length 2 with hlt | hge
    · exact Unchanged_mono (hfew hlt) (by decide)
    · obtain ⟨-, -, hframe⟩ := hmany hge
      exact hframe
  have hnormal : t.fault = false := (hdecode .fault (by decide)).trans (h.idle hs).2
  rw [← h.order_length]
  refine ⟨t, h.next hs hexec hnormal, hdata, holen, ?_, ?_, ?_, fun hge => (hmany hge).1.trans h.ilen, fun hlt => ?_,
    Unchanged_trans (Unchanged_mono h.frame (by decide)) (Unchanged_mono hdecode (by decide))⟩
  · exact (entries_congr (hdecode .order (by decide)) (hdecode .code (by decide))).trans h.entries
  · rw [hdecode .len (by decide)]
    exact h.len
  · rw [hdecode .pad (by decide)]
    exact h.pad
  · rw [hfew hlt .ioff (by decide)]
    exact h.ioff

/-- Settles O58: the faults are those of DECODE of what DECOMPRESS hands to it. -/
theorem decompressFaultsBehindTheTable : Obligations.DecompressFaultsBehindTheTable := by
  intro s len pad rs payload hw hs hlen hl hp hn hok hin
  obtain ⟨u, h⟩ := exists_handsToDecode hlen hl hp hn hok hin
  obtain ⟨hsingle, hmany⟩ := decodeFaultsOnAShortPayload u (h.params ▸ hw) (h.idle hs) h.tableOk (h.ilen_le hlen) h.offset
  rw [h.order_length, h.payload_length, h.entries, h.inRest, h.pad, h.len, h.params] at hmany
  refine ⟨fun hone hfull => ?_, fun htwo => ⟨fun hfull => h.fault hs ((hmany htwo).1 hfull), fun hkept => ?_⟩⟩
  · obtain ⟨c, hc⟩ := List.length_eq_one_iff.1 (h.order_length.trans hone)
    refine h.fault hs (hsingle c hc ?_)
    rw [h.params, h.len]
    exact hfull
  · obtain ⟨hexhausts, hbegins⟩ := (hmany htwo).2 hkept
    exact ⟨fun out hex hlt hfits => h.fault hs (hexhausts out hex hlt hfits),
      fun out hbeg hle hfull => h.fault hs (hbegins out hbeg hle hfull)⟩

/-- Settles O55: the payload that is left unpacks to a proper beginning of the code bits, which gives fewer symbols than LEN
asks for. -/
theorem truncatedPayloadIsCorrupt : Obligations.TruncatedPayloadIsCorrupt := by
  intro s t u hw hs hexec hnormal hmany hu hparams hin hulen hout
  obtain ⟨-, hfits, rfl⟩ := compress_inv hw hs hexec hnormal
  obtain ⟨hblob, -, hentries, -⟩ := compressed_facts s hw hfits
  have htwo : 2 ≤ (inTable s).length := by rwa [← hentries, entries_length]
  have hpos : 0 < (inBits s).length := inBits_pos (by omega)
  rw [hblob, inBlob_dropLast hpos, ← hparams] at hin
  have hpad : padCount (inBits s).length < 256 := Nat.lt_of_lt_of_le (padCount_lt _) (by decide)
  obtain ⟨-, hfaults⟩ := decompressFaultsBehindTheTable u s.ilen.toNat (padCount (inBits s).length) _ _ (hparams ▸ hw) hu
    hulen s.ilen.isLt hpad (inTable_raw_length s) (inTable_raw_ok s) hin
  rw [tableEntries_inTable] at hfaults
  obtain ⟨hprefix, hshort⟩ := unpackBits_packBytes_dropLast hpos
  have hkept : 8 * (packBytes (inBits s)).dropLast.length - padCount (inBits s).length ≤ u.params.bitCap := by
    rw [unpackBits_length, keptBits] at hshort
    rw [hparams]
    exact (Nat.le_of_lt hshort).trans hfits.1
  obtain ⟨out, hexhausts, hfewer⟩ := exhausts_of_cut (inBits_words s) hprefix hshort
  rw [inData_length] at hfewer
  exact ((hfaults htwo).2 hkept).1 out hexhausts hfewer ((Nat.le_of_lt hfewer).trans hout)

/-- Settles O57: behind its checks DECOMPRESS's pseudocode is that of its unit commands. -/
theorem decompressIsItsUnitCommands : Obligations.DecompressIsItsUnitCommands :=
  fun s hs hlen h13 htag _ h => ends_as_units (i := .decompress) (u := readHeader s) (by decide) (by decide) hs hs
    (runDecompress_units hlen h13 (inSlice_eq_magic htag)) h

/-- Settles O49: the empty input's blob always fits; it is a header, an empty table and an empty payload, which decode to
nothing; and no blob at all is shorter than a header. -/
theorem emptyInputRoundTrips : Obligations.EmptyInputRoundTrips := by
  refine ⟨fun s hw hs h0 => ?_, fun u hw hu hin hulen => ?_, fun u hu h0 => ?_⟩
  · have hlen : s.ilen.toNat ≤ s.params.inCap := by simp [h0]
    have hfits := compressFits_empty hw h0
    have hrun := runCompress_fits hw hlen hfits
    obtain ⟨hdata, holen, -⟩ := compressed_facts s hw hfits
    obtain ⟨-, -, hblob⟩ := inBlob_empty h0
    rw [hblob] at hdata holen
    refine ⟨compressed s, next_of (by decide) hs hrun, hdata, BitVec.eq_of_toNat_eq (holen.trans (by simp)), ?_⟩
    exact (runCompress_keeps.frame hrun .fault (by decide)).trans hs.2
  · have hread : u.inData = headerBytes u.params.magic 0 0 ++ (rawTable [] ++ []) := by
      rw [hin, headerBytes, List.append_assoc, List.append_assoc]
      rfl
    obtain ⟨v, hexec, -, holen, -, -, -, -, -, hframe⟩ := decompressGivesTheSymbols u 0 0 [] [] [] hw hu hulen (by decide)
      (by decide) (by decide) (by simp) hread (fun h => absurd h (by decide)) rfl (Nat.zero_le _)
    exact ⟨v, hexec, BitVec.eq_of_toNat_eq holen, (hframe .fault (by decide)).trans hu.2⟩
  · exact fault_of (by decide) hu (runDecompress_format (by simp [h0]) (.inl (by simp [h0])))

end Sys2Proof.Proofs
end

section
/-!
PROOFS, the family of 60_exceptions.md: what the faulted state refuses and what leaves it (R220), which command can enter
which fault (R211, R214), and who raises FORMAT_ERROR (R212). The rules of the faulted block and of the table of causes come
first, the obligations after them.
-/
namespace Sys2Proof.Proofs

open Sys2Proof Sys2Proof.Machine Sys2Proof.Laws

/-! ### The faulted block -/

section Faulted

variable {s : State} (hf : s.fault = true)
include hf

theorem exec_faulted {i : Instr} (hi : i ≠ .sreset) : exec i s = .next s :=
  (exec_eq hi s).trans (commandCycle_faulted _ s hf)

theorem illegalCycle_faulted : illegalCycle s = .next s := by
  simp only [illegalCycle, if_pos hf, ite_self]

/-- Of the 256 bytes a faulted block accepts the opcode of SRESET only (R220). -/
theorem runCommand_faulted {c : Byte} (hc : c ≠ 0x01) : runCommand c s = .next s := by
  obtain ⟨i, hi⟩ | herr := decode_ok_or_illegal c
  · have hne : i ≠ .sreset := fun h => hc (by rw [← encode_of_decode hi, h]; rfl)
    rw [runCommand_of_decode hi, exec_faulted hf hne]
  · rw [runCommand_of_error herr, illegalCycle_faulted hf]

theorem hostWriteReg_faulted (n : BitVec 8) (v : Reg) : hostWriteReg n v s = s := by
  simp only [hostWriteReg, if_pos hf, ite_self]

theorem hostWriteSpace_faulted (i : Nat) (e : Elem) : hostWriteSpace i e s = s := by
  simp only [hostWriteSpace, if_pos hf, ite_self]

/-- An access that is no reset is dropped by a faulted block, but for what a read leaves on the host port (R27, R220). -/
theorem hostAccess_faulted {a : HostAccess} (hrst : a ≠ .rst)
    (hcmd : ∀ v : Reg, a = .writeReg 0x02 v → v.setWidth 8 ≠ (0x01 : Byte)) :
    ∃ t, hostAccess a s = .next t ∧ Unchanged [.port, .fresh] s t := by
  cases a with
  | writeReg n v =>
    refine ⟨s, ?_, Unchanged_refl _ s⟩
    by_cases hn : n = 0x02
    · subst hn
      exact runCommand_faulted hf (hcmd v rfl)
    · rw [hostAccess, if_neg hn, hostWriteReg_faulted hf]
  | readReg n => exact ⟨_, rfl, Unchanged_hostReadReg n s⟩
  | writeSpace i e => exact ⟨s, by rw [hostAccess, hostWriteSpace_faulted hf], Unchanged_refl _ s⟩
  | readSpace sp i => exact ⟨_, rfl, Unchanged_hostReadSpace sp i s⟩
  | rst => exact absurd rfl hrst

end Faulted

/-- A write of the SRESET opcode to CMD is the recovery, faulted or not (R116, R220). -/
theorem hostAccess_sreset {s : State} (hb : s.busy = false) {v : Reg} (hv : v.setWidth 8 = (0x01 : Byte)) :
    hostAccess (.writeReg 0x02 v) s = .next (resetFrom s) := by
  have hdecode : decode (v.setWidth 8) = .ok .sreset := hv ▸ decode_encode .sreset
  rw [hostAccess_command hdecode, exec_sreset hb]

/-! ### The table of causes -/

/-- A command that leaves an idle block faulted raised a cause of its row of the table of R211. -/
theorem faultedWith_of_exec {i : Instr} {s t : State} (hs : s.Idle) (h : exec i s = .next t) (hf : t.fault = true) :
    ∃ c ∈ causesOf i, t.FaultedWith c := by
  have hnotIdle : ¬ t.Idle := fun ht => Bool.false_ne_true (ht.2.symm.trans hf)
  rcases exec_cases h with ⟨-, -, rfl⟩ | ⟨rfl, -⟩ | ⟨-, hrun, -⟩ | ⟨-, -, c, hc, -, rfl⟩
  · exact absurd ⟨rfl, rfl⟩ hnotIdle
  · exact absurd hs hnotIdle
  · exact absurd (idle_of_ok hs hrun) hnotIdle
  · exact ⟨c, hc, faultEntry_faultedWith c s⟩

/-- The code in ERR tells the cause, so the table lists every cause a command can enter the faulted state with. -/
theorem mem_causesOf_of_entersFault {i : Instr} {s : State} {c : Cause} (hs : s.Idle) (h : EntersFault i s c) :
    c ∈ causesOf i := by
  obtain ⟨t, hexec, -, hf, herr⟩ := h
  obtain ⟨d, hd, -, -, hderr⟩ := faultedWith_of_exec hs hexec hf
  rwa [errCode_inj (herr.symm.trans hderr)]

/-- The table of R211 gives FORMAT_ERROR to one command (R212). -/
theorem formatError_mem_causesOf {i : Instr} (h : .formatError ∈ causesOf i) : i = .decompress := by
  revert h
  cases i <;> decide

/-! ### The checks of DECOMPRESS -/

theorem runDecompress_long {s : State} (h : s.params.inCap < s.ilen.toNat) : runDecompress s = raise .precond := by
  rw [runDecompress, checkLen_of_gt h, raise_bind]

/-- The tag is the block's own where none of its bytes differs (R202). -/
theorem inSlice_eq_magic_iff {s : State} :
    s.inSlice 0 4 = s.params.magic.toList ↔ ∀ k : Fin 4, s.inRead k.val = s.params.magic[k] := by
  refine ⟨fun h k => ?_, inSlice_eq_magic⟩
  have hbyte : (s.inSlice 0 4)[k.val]? = s.params.magic.toList[k.val]? := by rw [h]
  simpa [State.inSlice] using hbyte

/-! ### The obligations -/

/-- Settles O7: the two resets are the recovery, and a faulted block drops every other access. -/
theorem faultedStateIsLeftOnlyByReset : Obligations.FaultedStateIsLeftOnlyByReset := by
  refine fun s a hb hf => ⟨fun ha => ⟨resetFrom s, ?_, resetFrom_atReset s⟩, fun ha => ?_⟩
  · obtain rfl | ⟨v, rfl, hv⟩ := ha
    · rfl
    · exact hostAccess_sreset hb hv
  · obtain ⟨hrst, hcmd⟩ := not_or.1 ha
    exact hostAccess_faulted hf hrst fun v hv h1 => hcmd ⟨v, hv, h1⟩

/-- Settles O9: a command that leaves the block faulted raised a cause of its row, and the codes are the table's. -/
theorem faultsComeFromTheCauseTable : Obligations.FaultsComeFromTheCauseTable :=
  ⟨fun _ _ _ hs h hf => faultedWith_of_exec hs h hf, rfl, rfl, rfl, rfl, rfl⟩

/-- Settles O50: DECOMPRESS checks ILEN, then the header's length and tag, and the table of causes gives FORMAT_ERROR to no
other command. -/
theorem foreignBlobsAreFormatErrors : Obligations.ForeignBlobsAreFormatErrors := by
  refine ⟨fun s hs => ⟨fun hlong => ?_, fun hlen hforeign => ?_⟩,
    fun i s hs h => formatError_mem_causesOf (mem_causesOf_of_entersFault hs h)⟩
  · exact fault_of (by decide) hs (runDecompress_long hlong)
  · have htag : s.ilen.toNat < 13 ∨ s.inSlice 0 4 ≠ s.params.magic.toList :=
      hforeign.imp_right fun ⟨k, hk⟩ h => hk (inSlice_eq_magic_iff.1 h k)
    exact fault_of (by decide) hs (runDecompress_format hlen htag)

end Sys2Proof.Proofs
end

section
/-!
PROOFS, the family of 70_reset_and_hazards.md: what a busy block does with the host's accesses (R24, R243), and that the two
container commands depend on the input and the parameters only (R245). The rules of the busy block, of the two ways a command
can end on two blocks, and of each command come first, the obligations after them.
-/
namespace Sys2Proof.Proofs

open Sys2Proof Sys2Proof.Machine Sys2Proof.Laws

/-! ### The busy block -/

section Busy

variable {s : State} (hb : s.busy = true)
include hb

/-- A busy block ignores every command, SRESET with them (R243). -/
theorem exec_busy (i : Instr) : exec i s = .next s := by
  by_cases hi : i = .sreset
  · subst hi
    exact if_pos hb
  · exact (exec_eq hi s).trans (commandCycle_busy _ s hb)

theorem runCommand_busy (c : Byte) : runCommand c s = .next s := by
  obtain ⟨i, hi⟩ | herr := decode_ok_or_illegal c
  · rw [runCommand_of_decode hi, exec_busy hb]
  · exact (runCommand_of_error herr s).trans (if_pos hb)

/-- A busy block drops every access but the hardware reset, but for what a read leaves on the host port (R243). -/
theorem hostAccess_busy {a : HostAccess} (hrst : a ≠ .rst) :
    ∃ t, hostAccess a s = .next t ∧ Unchanged [.port, .fresh] s t := by
  cases a with
  | writeReg n v =>
    have hreg : hostWriteReg n v s = s := if_pos hb
    refine ⟨s, ?_, Unchanged_refl _ s⟩
    rw [hostAccess, runCommand_busy hb, hreg, ite_self]
  | readReg n => exact ⟨_, rfl, Unchanged_hostReadReg n s⟩
  | writeSpace i e =>
    have hspace : hostWriteSpace i e s = s := if_pos hb
    exact ⟨s, congrArg _ hspace, Unchanged_refl _ s⟩
  | readSpace sp i => exact ⟨_, rfl, Unchanged_hostReadSpace sp i s⟩
  | rst => exact absurd rfl hrst

end Busy

/-- The value of STATUS is specified in every state: idle, busy or faulted (R24, R27, R243). -/
theorem regValue_status (s : State) : regValue 0x00 s = some (operandValue 0x00 s) := by
  simp only [regValue, true_or, if_true, ite_self]

/-! ### Two blocks that end a command in the same way -/

/-- What a command gives: the bytes in OUT with OLEN, the table, LEN and PAD. -/
structure SameResult (t v : State) : Prop where
  outData : t.outData = v.outData
  olen : t.olen = v.olen
  entries : t.entries = v.entries
  len : t.len = v.len
  pad : t.pad = v.pad

/-- The pseudocode of a command ends in the same way on two blocks: it raises the same fault, or gives the same. -/
def RunsAlike (run : State → Run) (s u : State) : Prop :=
  (∃ c, run s = raise c ∧ run u = raise c) ∨ ∃ t v, run s = .ok t ∧ run u = .ok v ∧ SameResult t v

/-- A command whose pseudocode ends in the same way on two idle blocks leaves both faulted with one cause, or both with the
same result. -/
theorem exec_alike {i : Instr} {s u : State} (hi : i ≠ .sreset) (hs : s.Idle) (hu : u.Idle) (h : RunsAlike (runOf i) s u) :
    ∃ t v, exec i s = .next t ∧ exec i u = .next v ∧ t.fault = v.fault ∧ (t.fault = true → t.err = v.err) ∧
      (t.fault = false →
        t.outData = v.outData ∧ t.olen = v.olen ∧ t.entries = v.entries ∧ t.len = v.len ∧ t.pad = v.pad) := by
  obtain ⟨c, hrs, hru⟩ | ⟨t, v, hrs, hru, hsame⟩ := h
  · obtain ⟨t, ht, -, htf, hterr⟩ := fault_of hi hs hrs
    obtain ⟨v, hv, -, hvf, hverr⟩ := fault_of hi hu hru
    exact ⟨t, v, ht, hv, htf.trans hvf.symm, fun _ => hterr.trans hverr.symm,
      fun hf => absurd (htf.symm.trans hf) (by decide)⟩
  · have htf : t.fault = false := (idle_of_ok hs hrs).2
    have hvf : v.fault = false := (idle_of_ok hu hru).2
    exact ⟨t, v, next_of hi hs hrs, next_of hi hu hru, htf.trans hvf.symm,
      fun hf => absurd (htf.symm.trans hf) (by decide),
      fun _ => ⟨hsame.outData, hsame.olen, hsame.entries, hsame.len, hsame.pad⟩⟩

/-! ### COMPRESS on two blocks -/

section SameInput

variable {s u : State} (hw : s.params.wf = true) (hp : u.params = s.params) (hin : u.inData = s.inData)
include hin

theorem ilen_of_inData : u.ilen = s.ilen :=
  BitVec.eq_of_toNat_eq (by rw [← inData_length, hin, inData_length])

theorem inTable_of_inData : inTable u = inTable s := congrArg tableOfData hin

theorem inBits_of_inData : inBits u = inBits s := by
  rw [inBits, inBits, inTable_of_inData hin, hin]

include hp

theorem inBlob_of_inData : inBlob u = inBlob s := by
  rw [inBlob, inBlob, hp, ilen_of_inData hin, inTable_of_inData hin, inBits_of_inData hin]

theorem compressFits_of_inData : CompressFits u ↔ CompressFits s := by
  rw [CompressFits, CompressFits, hp, inBits_of_inData hin, inBlob_of_inData hp hin]

include hw

/-- The blob, the table, LEN and PAD of a normal COMPRESS are functions of the input (R245). -/
theorem compressed_same (hfits : CompressFits s) : SameResult (compressed s) (compressed u) := by
  obtain ⟨hsout, hsolen, hsentries, -, -, hslen, hspad⟩ := compressed_facts s hw hfits
  obtain ⟨huout, huolen, huentries, -, -, hulen, hupad⟩ :=
    compressed_facts u (hp ▸ hw) ((compressFits_of_inData hp hin).2 hfits)
  rw [inBlob_of_inData hp hin] at huout huolen
  rw [inTable_of_inData hin] at huentries
  rw [ilen_of_inData hin] at hulen
  rw [inBits_of_inData hin] at hupad
  exact ⟨hsout.trans huout.symm, BitVec.eq_of_toNat_eq (hsolen.trans huolen.symm), hsentries.trans huentries.symm,
    hslen.trans hulen.symm, BitVec.eq_of_toNat_eq (hspad.trans hupad.symm)⟩

theorem runCompress_alike : RunsAlike runCompress s u := by
  have hwu : u.params.wf = true := hp ▸ hw
  have hilen := ilen_of_inData hin
  rcases Nat.lt_or_ge s.params.inCap s.ilen.toNat with hlong | hlen
  · exact .inl ⟨_, runCompress_long hw hlong, runCompress_long hwu (by rwa [hp, hilen])⟩
  have hulen : u.ilen.toNat ≤ u.params.inCap := by rwa [hp, hilen]
  by_cases hfits : CompressFits s
  · exact .inr ⟨_, _, runCompress_fits hw hlen hfits,
      runCompress_fits hwu hulen ((compressFits_of_inData hp hin).2 hfits), compressed_same hw hp hin hfits⟩
  · exact .inl ⟨_, runCompress_full hw hlen hfits,
      runCompress_full hwu hulen fun h => hfits ((compressFits_of_inData hp hin).1 h)⟩

end SameInput

/-! ### DECOMPRESS on two blocks -/

/-- The bytes begin with a header of the tag `magic` (R200). -/
def BeginsWithHeader (magic : Vector Byte 4) (data : List Byte) : Prop :=
  ∃ len pad rest, len < 2 ^ 64 ∧ pad < 256 ∧ data = headerBytes magic len pad ++ rest

/-- Where the input begins with no header of the block's own, it is short or has another tag (R202, R212). -/
theorem runDecompress_headless {s : State} (hlen : s.ilen.toNat ≤ s.params.inCap)
    (h : ¬ BeginsWithHeader s.params.magic s.inData) : runDecompress s = raise .formatError := by
  refine runDecompress_format hlen (or_iff_not_imp_left.2 fun h13 htag => h ?_)
  exact header_parse (Nat.not_lt.1 h13) htag

/-- A table cut short, even before its count (R202 (b)). -/
theorem runDecompress_short {s : State} {len pad : Nat} {table missing : List Byte} {rs : List RawEntry}
    (hs : s.Idle) (hlen : s.ilen.toNat ≤ s.params.inCap) (hl : len < 2 ^ 64)
    (hin : s.inData = headerBytes s.params.magic len pad ++ table) (hn : rs.length < 65536) (hok : ∀ r ∈ rs, r.ok)
    (hcut : table ++ missing = rawTable rs) (hmissing : missing ≠ []) : runDecompress s = raise .corruptStream :=
  runOf_of_fault (i := .decompress) hs
    (tablesCutShortAreCorrupt s len pad table missing rs hs hlen hl hin hn hok hcut hmissing)

/-- DECODE leaves the table, LEN and PAD as they were handed to it (R185). -/
theorem HandsToDecode.left {s u t : State} {len pad : Nat} {rs : List RawEntry} {payload : List Byte}
    (h : HandsToDecode s u len pad rs payload) (ht : runDecode u = .ok t) :
    t.entries = tableEntries rs ∧ t.len.toNat = len ∧ t.pad.toNat = pad := by
  have hframe := runDecode_keeps.frame ht
  refine ⟨(entries_congr (hframe .order (by decide)) (hframe .code (by decide))).trans h.entries, ?_, ?_⟩
  · rw [hframe .len (by decide)]
    exact h.len
  · rw [hframe .pad (by decide)]
    exact h.pad

/-- Two blocks that hand the same table, payload, LEN and PAD to DECODE end alike: of OUT this is `runDecode_det`. -/
theorem HandsToDecode.alike {s u a b : State} {len pad : Nat} {rs : List RawEntry} {payload : List Byte}
    (hw : s.params.wf = true) (hp : u.params = s.params) (hs : s.ilen.toNat ≤ s.params.inCap)
    (hu : u.ilen.toNat ≤ u.params.inCap) (ha : HandsToDecode s a len pad rs payload)
    (hb : HandsToDecode u b len pad rs payload) : RunsAlike runDecompress s u := by
  have hparams : b.params = a.params := hb.params.trans (hp.trans ha.params.symm)
  have hlen : b.len = a.len := BitVec.eq_of_toNat_eq (hb.len.trans ha.len.symm)
  have hpad : b.pad = a.pad := BitVec.eq_of_toNat_eq (hb.pad.trans ha.pad.symm)
  rw [RunsAlike, ha.run, hb.run]
  refine (runDecode_det (ha.params ▸ hw) hparams ha.tableOk hb.tableOk (hb.entries.trans ha.entries.symm)
    (hb.inRest.trans ha.inRest.symm) hlen hpad (ha.ilen_le hs) ha.offset (hb.ilen_le hu) hb.offset).imp_right ?_
  rintro ⟨t, v, ht, hv, hout, holen⟩
  obtain ⟨htentries, htlen, htpad⟩ := ha.left ht
  obtain ⟨hventries, hvlen, hvpad⟩ := hb.left hv
  exact ⟨t, v, ht, hv, hout, holen, htentries.trans hventries.symm, BitVec.eq_of_toNat_eq (htlen.trans hvlen.symm),
    BitVec.eq_of_toNat_eq (htpad.trans hvpad.symm)⟩

/-- DECOMPRESS raises what its checks or its table raise, or hands the same table and payload to DECODE (R202, R245). -/
theorem runDecompress_alike {s u : State} (hw : s.params.wf = true) (hs : s.Idle) (hu : u.Idle)
    (hp : u.params = s.params) (hin : u.inData = s.inData) : RunsAlike runDecompress s u := by
  have hilen := ilen_of_inData hin
  rcases Nat.lt_or_ge s.params.inCap s.ilen.toNat with hlong | hslen
  · exact .inl ⟨_, runDecompress_long hlong, runDecompress_long (by rwa [hp, hilen])⟩
  have hulen : u.ilen.toNat ≤ u.params.inCap := by rwa [hp, hilen]
  by_cases hheader : BeginsWithHeader s.params.magic s.inData
  · obtain ⟨len, pad, rest, hl, hpad, hsin⟩ := hheader
    have huin : u.inData = headerBytes u.params.magic len pad ++ rest := by rw [hin, hp, hsin]
    obtain ⟨rs, payload, hn, hok, rfl⟩ | ⟨rs, missing, hn, hok, hmissing, hcut⟩ := table_parse rest
    · obtain ⟨a, ha⟩ := exists_handsToDecode hslen hl hpad hn hok hsin
      obtain ⟨b, hb⟩ := exists_handsToDecode hulen hl hpad hn hok huin
      exact ha.alike hw hp hslen hulen hb
    · exact .inl ⟨_, runDecompress_short hs hslen hl hsin hn hok hcut hmissing,
        runDecompress_short hu hulen hl huin hn hok hcut hmissing⟩
  · exact .inl ⟨_, runDecompress_headless hslen hheader, runDecompress_headless hulen (by rwa [hp, hin])⟩

/-! ### The obligations -/

/-- Settles O54: the pseudocode of either command ends in the same way on both blocks. -/
theorem macrosIgnoreEarlierState : Obligations.MacrosIgnoreEarlierState := by
  rintro i s u (rfl | rfl) hw hs hu hp hin
  · exact exec_alike (by decide) hs hu (runCompress_alike hw hp hin)
  · exact exec_alike (by decide) hs hu (runDecompress_alike hw hs hu hp hin)

/-- Settles O8: a busy block drops every access but the hardware reset, and the value of STATUS is specified in every
state. -/
theorem busyBlockIgnoresTheHost : Obligations.BusyBlockIgnoresTheHost :=
  ⟨fun _ _ hb hrst => hostAccess_busy hb hrst, fun s => hostAccess_readReg (regValue_status s)⟩

end Sys2Proof.Proofs
end
